-- ==== Sys2Proof/Word.lean ====
section
/-! DEFINITION. The unit of memory and of the wire: a byte is 8 bits (spec/20_memory.md R60). -/

namespace Sys2Proof

/-- A byte is 8 bits (R60). -/
abbrev Byte := BitVec 8

end Sys2Proof
end

