-- ==== Sys2Proof/Config.lean ====
section
/-! DEFINITION. What an implementation fixes (spec/00_scope.md R11, R12) and the free values, opaque
constants with no body that stand for what the spec leaves unspecified
(spec/93_implementation_defined.md U1, U2, U10, U16). -/

namespace Sys2Proof

/-- `HEADER_SIZE`, the fixed six bytes of a wire header (R11). -/
def headerSize : Nat := 6

/-- The greatest value of the 24-bit length field, the source's `MAX_MSG_LENGTH` (R11). -/
def lengthFieldMax : Nat := 16777215

/-- `CHANNEL_ID_SIZE`, the bytes at the head of a channel message's payload that the payload layer reads as the
channel id (R11, R96). The block itself never reads them, and checks no length against it (D24). -/
def channelIdSize : Nat := 4

/-- `CHANNEL_FLAG`, bit 15 of `extension_type` (R11). -/
def channelFlagBit : BitVec 16 := 0x8000

/-- `SCAN_POLICY`: which free fitting slot an acquire takes (R12, D8). -/
inductive ScanPolicy where
  | any
  | lowestIndex
deriving DecidableEq, Repr

/-- One pre-allocated pool region: `SLOT_OFF[k]` and `SLOT_CAP[k]` (R12, R23). -/
structure Region where
  off : Nat
  cap : Nat
deriving DecidableEq, Repr

/-- Two regions share no byte (R12, R23). -/
abbrev Region.Disjoint (a b : Region) : Prop :=
  a.off + a.cap ≤ b.off ∨ b.off + b.cap ≤ a.off

/-- The parameters of R12. `regions` lists slot 1 first, so `N_SLOTS` is its length.
`maxMsg` is `MAX_MSG_LENGTH` taken as a configuration value, which D14 allows (log 16). -/
structure Config where
  lenW : Nat
  idxW : Nat
  untracked : Nat
  regions : List Region
  handshakeLen : Nat
  nConn : Nat
  scan : ScanPolicy
  instrumentation : Bool
  maxMsg : Nat
deriving DecidableEq, Repr

namespace Config

/-- `N_SLOTS` (R12). -/
def nSlots (c : Config) : Nat := c.regions.length

/-- The constraints of R12, which R273 has a model assume as a named premise. One of them, `fits`, is the model's
and not R12's: every address of a region fits in `LEN_W` bits (log 23, DESIGN CHOICE). -/
structure WF (c : Config) : Prop where
  slots : 1 ≤ c.nSlots ∧ c.nSlots ≤ 8
  caps : ∀ r ∈ c.regions, 1 ≤ r.cap
  fits : ∀ r ∈ c.regions, r.off + r.cap < 2 ^ c.lenW
  disjoint : c.regions.Pairwise Region.Disjoint
  handshake : 1 ≤ c.handshakeLen ∧ c.handshakeLen < 2 ^ c.lenW
  untracked : ¬ (1 ≤ c.untracked ∧ c.untracked ≤ 8) ∧ c.untracked < 2 ^ c.idxW
  lenW : 25 ≤ c.lenW
  idxW : 4 ≤ c.idxW
  nConn : 1 ≤ c.nConn
  maxMsg : c.maxMsg ≤ lengthFieldMax

/-- The test configuration TC of spec/95_test_vectors.md section 0. -/
def tc : Config where
  lenW := 32
  idxW := 8
  untracked := 0
  regions := [⟨0, 64⟩, ⟨64, 64⟩, ⟨128, 64⟩, ⟨192, 64⟩, ⟨256, 64⟩, ⟨320, 64⟩, ⟨384, 64⟩, ⟨448, 64⟩]
  handshakeLen := 32
  nConn := 1
  scan := .lowestIndex
  instrumentation := false
  maxMsg := lengthFieldMax

/-- The configuration TC2 of spec/95_test_vectors.md section 0. -/
def tc2 : Config := { tc with regions := [⟨0, 16⟩, ⟨16, 64⟩, ⟨80, 256⟩] }

/-- U1: what a byte that nothing has written since its slice was acquired reads as, the n-th time such a
byte is read. Unconstrained (log 6). -/
opaque freeByte : Nat → Byte

/-- U2: the choice an acquire makes under `SCAN_POLICY = any`, the n-th time one is made.
Unconstrained (log 7). -/
opaque freeChoice : Nat → Nat

/-- U10: what `D.hdr` holds once a decoder has left `AP`, and after `DEC.RESET`, as one 48-bit value. Unconstrained (log 8). -/
opaque freeHeader : Nat → BitVec 48

/-- U16: the timestamp of the n-th entry of the instrumentation log. Unconstrained (log 15). -/
opaque freeStamp : Nat → Nat

end Config

end Sys2Proof
end

