-- ==== Sys2Proof/Syntax.lean ====
section
/-! DEFINITION. The value types that pass between caller and block (spec/10_state.md R34 to R38), and
`Instr`, one constructor per row of spec/opcode_table.json (spec/30_encoding.md R91, R100, R102). -/

namespace Sys2Proof

/-- `Header` (R34): bit 15 of `extType` is the channel-message flag. -/
structure Header where
  extType : BitVec 16
  msgType : BitVec 8
  msgLength : BitVec 24
deriving DecidableEq, Repr

/-- `Slice` (R35). `id` is the ghost handle id, which hardware does not carry. -/
structure Slice where
  id : Nat
  idx : Nat
  off : Nat
  len : Nat
  cap : Nat
deriving DecidableEq, Repr

/-- `View` (R36): a read-only reference to part of the byte range of a slice. `output` is ghost: which output of
its encoder the view stands for, 0 for any other view (R212, U12; log 13). -/
structure View where
  slice : Slice
  off : Nat
  len : Nat
  output : Nat := 0
deriving DecidableEq, Repr

/-- The two variants of a frame (R37): only a standard frame has a header. -/
inductive FrameKind where
  | std (hdr : Header)
  | hs
deriving DecidableEq, Repr

/-- `Frame` (R37). -/
structure Frame where
  kind : FrameKind
  buf : Slice
  payOff : Nat
  payLen : Nat
deriving DecidableEq, Repr

/-- The `mode` operand and `D.mode` (R27, R102). -/
inductive Mode where
  | std
  | hs
deriving DecidableEq, Repr

/-- The first operand of `POOL.RD`: "Slice or View" (R100, R132). -/
inductive Readable where
  | slice (s : Slice)
  | view (v : View)
deriving DecidableEq, Repr

/-- The operations of R100 in the order of the table, and the data format row `WIRE.HEADER` (R91). -/
inductive Instr where
  | poolAcquire (len : Nat)
  | poolRelease (h : Slice)
  | poolWr (h : Slice) (off : Nat) (bytes : List Byte)
  | poolRd (r : Readable) (off n : Nat)
  | poolStatus
  | hdrParse (bytes : List Byte)
  | hdrSerialize (h : Header)
  | hdrBuild (extType : BitVec 16) (msgType : BitVec 8) (len : Nat)
  | hdrChid (h : Header)
  | hdrMsgtype (h : Header)
  | hdrMsglen (h : Header)
  | frmFromMessage (p : Slice) (msgType : BitVec 8) (extType : BitVec 16) (flag : Bool)
  | frmHeader (f : Frame)
  | frmPayload (f : Frame)
  | frmEncodedLength (f : Frame)
  | frmFromHandshake (p : Slice)
  | frmDrop (f : Frame)
  | decWritable (c : Nat)
  | decFill (c : Nat) (bytes : List Byte)
  | decNextFrame (c : Nat)
  | decSetMode (c : Nat) (m : Mode)
  | decReset (c : Nat)
  | decStatus (c : Nat)
  | encEncode (c : Nat) (f : Frame)
  | encReset (c : Nat)
  | encStatus (c : Nat)
  | wireHeader (h : Header)
deriving DecidableEq, Repr

/-- Which of the two encoded things of spec/30_encoding.md a run of bytes is: a command record (R99) or
the six header bytes as a data format (R91). -/
inductive Form where
  | command
  | wire
deriving DecidableEq, Repr

/-- A unit a caller hands to the block: its bytes, and beside them what hardware does not carry, the ghost id
of the one handle among its operands and the ghost output number of a view (R102; log 4). -/
structure Packet where
  form : Form
  bytes : List Byte
  ghost : Nat
  output : Nat := 0
deriving DecidableEq, Repr

end Sys2Proof
end

