-- ==== Sys2Proof/WellFormed.lean ====
section
/-! DEFINITION. Operand widths (spec/30_encoding.md R102; spec/10_state.md R35): what an operand must satisfy
to be written in a command record. Header fields, `msg_type`, `extension_type`, flag and mode need no
check, their types being of the right width. -/

namespace Sys2Proof

/-- A length, count or offset fits `LEN_W` bits (R13, R102). -/
def lenFits (c : Config) (n : Nat) : Bool := decide (n < 2 ^ c.lenW)

/-- A slice's fields fit their widths (R35, R102). -/
def Slice.fits (c : Config) (h : Slice) : Bool :=
  decide (h.idx < 2 ^ c.idxW) && lenFits c h.off && lenFits c h.len && lenFits c h.cap

/-- A view's fields fit their widths (R102). -/
def View.fits (c : Config) (v : View) : Bool :=
  v.slice.fits c && lenFits c v.off && lenFits c v.len

/-- A frame's fields fit their widths (R102). -/
def Frame.fits (c : Config) (f : Frame) : Bool :=
  f.buf.fits c && lenFits c f.payOff && lenFits c f.payLen

/-- The operand of `POOL.RD`. -/
def Readable.fits (c : Config) : Readable → Bool
  | .slice h => h.fits c
  | .view v => v.fits c

/-- A byte-sequence operand's length fits `LEN_W` bits (R102). -/
def bytesFit (c : Config) (bs : List Byte) : Bool := lenFits c bs.length

/-- Every operand fits the width R102 gives it. -/
def Instr.wellFormed (c : Config) : Instr → Bool
  | .poolAcquire len => lenFits c len
  | .poolRelease h => h.fits c
  | .poolWr h off bs => h.fits c && lenFits c off && bytesFit c bs
  | .poolRd r off n => r.fits c && lenFits c off && lenFits c n
  | .poolStatus => true
  | .hdrParse bs => bytesFit c bs
  | .hdrSerialize _ => true
  | .hdrBuild _ _ len => lenFits c len
  | .hdrChid _ => true
  | .hdrMsgtype _ => true
  | .hdrMsglen _ => true
  | .frmFromMessage p _ _ _ => p.fits c
  | .frmHeader f => f.fits c
  | .frmPayload f => f.fits c
  | .frmEncodedLength f => f.fits c
  | .frmFromHandshake p => p.fits c
  | .frmDrop f => f.fits c
  | .decWritable n => lenFits c n
  | .decFill n bs => lenFits c n && bytesFit c bs
  | .decNextFrame n => lenFits c n
  | .decSetMode n _ => lenFits c n
  | .decReset n => lenFits c n
  | .decStatus n => lenFits c n
  | .encEncode n f => lenFits c n && f.fits c
  | .encReset n => lenFits c n
  | .encStatus n => lenFits c n
  | .wireHeader _ => true

end Sys2Proof
end

