-- ==== Sys2Proof/Decode.lean ====
section
/-! DEFINITION. The two encodings of spec/30_encoding.md: the wire header (R91, R92), and the command record
(R99 to R102). The decoder is total and rejects by name; the block answers a rejected record `REFUSED` (R101).
The spec gives fields, order and widths, and no byte layout of a record: that layout is the model's (log 3,
DESIGN CHOICE): each field takes the least whole number of bytes that holds its width, least significant byte
first, in the order of R100 and R102, with `conn` first and `LEN_W` wide, one byte before the operand of
`POOL.RD` (0 Slice, 1 View), and bytes after the last operand ignored. -/

namespace Sys2Proof

/-- Why a record is not a command (R101). -/
inductive DecodeError where
  /-- R101: an opcode that R100 does not list. -/
  | unassignedOpcode (op : Byte)
  /-- R101: fewer bytes than the operands need, so an operand is not of its type. -/
  | truncated
  /-- R101: a field whose value does not fit the width R102 gives it. -/
  | operandTooWide
deriving DecidableEq, Repr

/-! ### Little-endian fields -/

/-- The `n` bytes of `v`, least significant first (R14). -/
def leBytes : Nat → Nat → List Byte
  | 0, _ => []
  | n + 1, v => BitVec.ofNat 8 v :: leBytes n (v / 256)

/-- The value of a byte sequence, first byte least significant (R14). -/
def leVal : List Byte → Nat
  | [] => 0
  | b :: bs => b.toNat + 256 * leVal bs

/-- The whole bytes a field of `w` bits takes in a record (log 3). -/
def fieldBytes (w : Nat) : Nat := (w + 7) / 8

/-! ### The wire header (R91, R92) -/

/-- The six wire bytes of a header (R92, R144). -/
def headerBytes (h : Header) : List Byte :=
  [h.extType.extractLsb' 0 8, h.extType.extractLsb' 8 8, h.msgType,
   h.msgLength.extractLsb' 0 8, h.msgLength.extractLsb' 8 8, h.msgLength.extractLsb' 16 8]

/-- The header that six bytes stand for, and nothing on fewer; bytes after the sixth are not read
(R92, R141, R143). -/
def headerOfBytes : List Byte → Option Header
  | b0 :: b1 :: b2 :: b3 :: b4 :: b5 :: _ =>
    some { extType := b0.zeroExtend 16 + 256 * b1.zeroExtend 16
           msgType := b2
           msgLength := b3.zeroExtend 24 + 256 * b4.zeroExtend 24 + 65536 * b5.zeroExtend 24 }
  | _ => none

/-- The 48-bit value `W` of a header (R91). -/
def headerWord (h : Header) : BitVec 48 := h.msgLength ++ h.msgType ++ h.extType

/-- The header whose value is `W` (R91). -/
def headerOfWord (w : BitVec 48) : Header where
  extType := w.extractLsb' 0 16
  msgType := w.extractLsb' 16 8
  msgLength := w.extractLsb' 24 24

/-! ### Reading operands -/

/-- What a reader answers: a value and the bytes after it, or why there is none. -/
abbrev Parsed (α : Type) := Except DecodeError (α × List Byte)

/-- Go on with the value read and the bytes after it. -/
def Parsed.andThen {α β : Type} (r : Parsed α) (k : α → List Byte → Parsed β) : Parsed β :=
  match r with
  | .ok (a, rest) => k a rest
  | .error e => .error e

/-- The next `n` bytes. -/
def readRaw (n : Nat) (bs : List Byte) : Parsed (List Byte) :=
  if n ≤ bs.length then .ok (bs.take n, bs.drop n) else .error .truncated

/-- The next field of `w` bits. -/
def readField (w : Nat) (bs : List Byte) : Parsed Nat :=
  (readRaw (fieldBytes w) bs).andThen fun f rest =>
    if leVal f < 2 ^ w then .ok (leVal f, rest) else .error .operandTooWide

/-- A length, count, offset or connection number. -/
def readLen (c : Config) (bs : List Byte) : Parsed Nat := readField c.lenW bs

/-- A field of one bit (R102). -/
def readBit (bs : List Byte) : Parsed Bool :=
  (readField 1 bs).andThen fun v rest => .ok (v == 1, rest)

/-- "a length of LEN_W bits followed by that many bytes" (R102). -/
def readBytes (c : Config) (bs : List Byte) : Parsed (List Byte) :=
  (readLen c bs).andThen fun n rest => readRaw n rest

/-- A header operand, six bytes in wire order (R91, R102). -/
def readHeader (bs : List Byte) : Parsed Header :=
  (readRaw headerSize bs).andThen fun f rest =>
    match headerOfBytes f with
    | some h => .ok (h, rest)
    | none => .error .truncated

/-- A slice operand: `idx`, `off`, `len`, `cap`; the ghost id comes beside the bytes (R102). -/
def readSlice (c : Config) (ghost : Nat) (bs : List Byte) : Parsed Slice :=
  (readField c.idxW bs).andThen fun idx rest =>
  (readLen c rest).andThen fun off rest =>
  (readLen c rest).andThen fun len rest =>
  (readLen c rest).andThen fun cap rest =>
    .ok ({ id := ghost, idx := idx, off := off, len := len, cap := cap }, rest)

/-- A view operand: a slice, then `off`, `len` (R102). -/
def readView (c : Config) (ghost output : Nat) (bs : List Byte) : Parsed View :=
  (readSlice c ghost bs).andThen fun h rest =>
  (readLen c rest).andThen fun off rest =>
  (readLen c rest).andThen fun len rest =>
    .ok ({ slice := h, off := off, len := len, output := output }, rest)

/-- A frame operand: `kind`, `hdr` (ignored for `HS`), `buf`, `pay_off`, `pay_len` (R102). -/
def readFrame (c : Config) (ghost : Nat) (bs : List Byte) : Parsed Frame :=
  (readBit bs).andThen fun isHs rest =>
  (readHeader rest).andThen fun hdr rest =>
  (readSlice c ghost rest).andThen fun buf rest =>
  (readLen c rest).andThen fun payOff rest =>
  (readLen c rest).andThen fun payLen rest =>
    .ok ({ kind := bif isHs then .hs else .std hdr, buf := buf, payOff := payOff, payLen := payLen }, rest)

/-- The operand of `POOL.RD`, after its tag (log 3). -/
def readReadable (c : Config) (ghost output : Nat) (bs : List Byte) : Parsed Readable :=
  (readBit bs).andThen fun isView rest =>
    if isView then (readView c ghost output rest).andThen fun v rest => .ok (.view v, rest)
    else (readSlice c ghost rest).andThen fun h rest => .ok (.slice h, rest)

/-! ### The decoder -/

/-- The operands of opcode `op`, by the opcode map of R100. -/
def decodeOperands (c : Config) (ghost output : Nat) (op : Byte) (bs : List Byte) : Parsed Instr :=
  match op.toNat with
  | 0x01 => (readLen c bs).andThen fun len r => .ok (.poolAcquire len, r)
  | 0x02 => (readSlice c ghost bs).andThen fun h r => .ok (.poolRelease h, r)
  | 0x03 =>
    (readSlice c ghost bs).andThen fun h r =>
    (readLen c r).andThen fun off r =>
    (readBytes c r).andThen fun bytes r => .ok (.poolWr h off bytes, r)
  | 0x04 =>
    (readReadable c ghost output bs).andThen fun x r =>
    (readLen c r).andThen fun off r =>
    (readLen c r).andThen fun n r => .ok (.poolRd x off n, r)
  | 0x05 => .ok (.poolStatus, bs)
  | 0x10 => (readBytes c bs).andThen fun bytes r => .ok (.hdrParse bytes, r)
  | 0x11 => (readHeader bs).andThen fun h r => .ok (.hdrSerialize h, r)
  | 0x12 =>
    (readField 16 bs).andThen fun e r =>
    (readField 8 r).andThen fun t r =>
    (readLen c r).andThen fun len r => .ok (.hdrBuild (BitVec.ofNat 16 e) (BitVec.ofNat 8 t) len, r)
  | 0x13 => (readHeader bs).andThen fun h r => .ok (.hdrChid h, r)
  | 0x14 => (readHeader bs).andThen fun h r => .ok (.hdrMsgtype h, r)
  | 0x15 => (readHeader bs).andThen fun h r => .ok (.hdrMsglen h, r)
  | 0x20 =>
    (readSlice c ghost bs).andThen fun p r =>
    (readField 8 r).andThen fun t r =>
    (readField 16 r).andThen fun e r =>
    (readBit r).andThen fun flag r =>
      .ok (.frmFromMessage p (BitVec.ofNat 8 t) (BitVec.ofNat 16 e) flag, r)
  | 0x21 => (readFrame c ghost bs).andThen fun f r => .ok (.frmHeader f, r)
  | 0x22 => (readFrame c ghost bs).andThen fun f r => .ok (.frmPayload f, r)
  | 0x23 => (readFrame c ghost bs).andThen fun f r => .ok (.frmEncodedLength f, r)
  | 0x24 => (readSlice c ghost bs).andThen fun p r => .ok (.frmFromHandshake p, r)
  | 0x25 => (readFrame c ghost bs).andThen fun f r => .ok (.frmDrop f, r)
  | 0x30 => (readLen c bs).andThen fun n r => .ok (.decWritable n, r)
  | 0x31 =>
    (readLen c bs).andThen fun n r =>
    (readBytes c r).andThen fun bytes r => .ok (.decFill n bytes, r)
  | 0x32 => (readLen c bs).andThen fun n r => .ok (.decNextFrame n, r)
  | 0x33 =>
    (readLen c bs).andThen fun n r =>
    (readBit r).andThen fun m r => .ok (.decSetMode n (bif m then .hs else .std), r)
  | 0x34 => (readLen c bs).andThen fun n r => .ok (.decReset n, r)
  | 0x35 => (readLen c bs).andThen fun n r => .ok (.decStatus n, r)
  | 0x40 =>
    (readLen c bs).andThen fun n r =>
    (readFrame c ghost r).andThen fun f r => .ok (.encEncode n f, r)
  | 0x41 => (readLen c bs).andThen fun n r => .ok (.encReset n, r)
  | 0x42 => (readLen c bs).andThen fun n r => .ok (.encStatus n, r)
  | _ => .error (.unassignedOpcode op)

/-- The instruction a packet stands for, and the bytes after it. -/
def decode (c : Config) (p : Packet) : Parsed Instr :=
  match p.form, p.bytes with
  | .wire, bs => (readHeader bs).andThen fun h r => .ok (.wireHeader h, r)
  | .command, op :: bs => decodeOperands c p.ghost p.output op bs
  | .command, [] => .error .truncated

/-! ### The encoder, from the same tables -/

/-- A field of `w` bits. -/
def putField (w v : Nat) : List Byte := leBytes (fieldBytes w) v

/-- A length, count, offset or connection number. -/
def putLen (c : Config) (n : Nat) : List Byte := putField c.lenW n

/-- A field of one bit. -/
def putBit (b : Bool) : List Byte := putField 1 b.toNat

/-- A byte-sequence operand. -/
def putBytes (c : Config) (bs : List Byte) : List Byte := putLen c bs.length ++ bs

/-- A slice operand. -/
def putSlice (c : Config) (h : Slice) : List Byte :=
  putField c.idxW h.idx ++ putLen c h.off ++ putLen c h.len ++ putLen c h.cap

/-- A view operand. -/
def putView (c : Config) (v : View) : List Byte :=
  putSlice c v.slice ++ putLen c v.off ++ putLen c v.len

/-- `kind` and `hdr` of a frame operand; a handshake frame's `hdr` bits are written as 0. -/
def putKind : FrameKind → List Byte
  | .std h => putBit false ++ headerBytes h
  | .hs => putBit true ++ List.replicate headerSize 0

/-- A frame operand. -/
def putFrame (c : Config) (f : Frame) : List Byte :=
  putKind f.kind ++ putSlice c f.buf ++ putLen c f.payOff ++ putLen c f.payLen

/-- The operand of `POOL.RD` with its tag. -/
def putReadable (c : Config) : Readable → List Byte
  | .slice h => putBit false ++ putSlice c h
  | .view v => putBit true ++ putView c v

/-- The mode operand: 0 = `STD`, 1 = `HS` (R102). -/
def putMode : Mode → List Byte
  | .std => putBit false
  | .hs => putBit true

/-- The opcode of R100; the data format row has none. -/
def opcodeOf : Instr → Option Byte
  | .poolAcquire _ => some 0x01
  | .poolRelease _ => some 0x02
  | .poolWr _ _ _ => some 0x03
  | .poolRd _ _ _ => some 0x04
  | .poolStatus => some 0x05
  | .hdrParse _ => some 0x10
  | .hdrSerialize _ => some 0x11
  | .hdrBuild _ _ _ => some 0x12
  | .hdrChid _ => some 0x13
  | .hdrMsgtype _ => some 0x14
  | .hdrMsglen _ => some 0x15
  | .frmFromMessage _ _ _ _ => some 0x20
  | .frmHeader _ => some 0x21
  | .frmPayload _ => some 0x22
  | .frmEncodedLength _ => some 0x23
  | .frmFromHandshake _ => some 0x24
  | .frmDrop _ => some 0x25
  | .decWritable _ => some 0x30
  | .decFill _ _ => some 0x31
  | .decNextFrame _ => some 0x32
  | .decSetMode _ _ => some 0x33
  | .decReset _ => some 0x34
  | .decStatus _ => some 0x35
  | .encEncode _ _ => some 0x40
  | .encReset _ => some 0x41
  | .encStatus _ => some 0x42
  | .wireHeader _ => none

/-- The operand bytes of an instruction. -/
def operandBytes (c : Config) : Instr → List Byte
  | .poolAcquire len => putLen c len
  | .poolRelease h => putSlice c h
  | .poolWr h off bs => putSlice c h ++ putLen c off ++ putBytes c bs
  | .poolRd r off n => putReadable c r ++ putLen c off ++ putLen c n
  | .poolStatus => []
  | .hdrParse bs => putBytes c bs
  | .hdrSerialize h => headerBytes h
  | .hdrBuild e t len => putField 16 e.toNat ++ putField 8 t.toNat ++ putLen c len
  | .hdrChid h => headerBytes h
  | .hdrMsgtype h => headerBytes h
  | .hdrMsglen h => headerBytes h
  | .frmFromMessage p t e flag =>
    putSlice c p ++ putField 8 t.toNat ++ putField 16 e.toNat ++ putBit flag
  | .frmHeader f => putFrame c f
  | .frmPayload f => putFrame c f
  | .frmEncodedLength f => putFrame c f
  | .frmFromHandshake p => putSlice c p
  | .frmDrop f => putFrame c f
  | .decWritable n => putLen c n
  | .decFill n bs => putLen c n ++ putBytes c bs
  | .decNextFrame n => putLen c n
  | .decSetMode n m => putLen c n ++ putMode m
  | .decReset n => putLen c n
  | .decStatus n => putLen c n
  | .encEncode n f => putLen c n ++ putFrame c f
  | .encReset n => putLen c n
  | .encStatus n => putLen c n
  | .wireHeader h => headerBytes h

/-- The ghost id that goes beside an instruction's bytes: that of its one handle (log 4). -/
def ghostOf : Instr → Nat
  | .poolRelease h => h.id
  | .poolWr h _ _ => h.id
  | .poolRd (.slice h) _ _ => h.id
  | .poolRd (.view v) _ _ => v.slice.id
  | .frmFromMessage p _ _ _ => p.id
  | .frmHeader f => f.buf.id
  | .frmPayload f => f.buf.id
  | .frmEncodedLength f => f.buf.id
  | .frmFromHandshake p => p.id
  | .frmDrop f => f.buf.id
  | .encEncode _ f => f.buf.id
  | .poolAcquire _ | .poolStatus | .hdrParse _ | .hdrSerialize _ | .hdrBuild _ _ _ | .hdrChid _
  | .hdrMsgtype _ | .hdrMsglen _ | .decWritable _ | .decFill _ _ | .decNextFrame _ | .decSetMode _ _
  | .decReset _ | .decStatus _ | .encReset _ | .encStatus _ | .wireHeader _ => 0

/-- The ghost output number that goes beside an instruction's bytes: that of its view (log 4). -/
def outputOf : Instr → Nat
  | .poolRd (.view v) _ _ => v.output
  | .poolRd (.slice _) _ _ => 0
  | .poolAcquire _ | .poolRelease _ | .poolWr _ _ _ | .poolStatus | .hdrParse _ | .hdrSerialize _
  | .hdrBuild _ _ _ | .hdrChid _ | .hdrMsgtype _ | .hdrMsglen _ | .frmFromMessage _ _ _ _ | .frmHeader _
  | .frmPayload _ | .frmEncodedLength _ | .frmFromHandshake _ | .frmDrop _ | .decWritable _ | .decFill _ _
  | .decNextFrame _ | .decSetMode _ _ | .decReset _ | .decStatus _ | .encEncode _ _ | .encReset _
  | .encStatus _ | .wireHeader _ => 0

/-- The packet of an instruction. -/
def encode (c : Config) (i : Instr) : Packet :=
  match opcodeOf i with
  | some op => { form := .command, bytes := op :: operandBytes c i, ghost := ghostOf i, output := outputOf i }
  | none => { form := .wire, bytes := operandBytes c i, ghost := ghostOf i, output := outputOf i }

/-! ### Words of spec/opcode_table.json -/

/-- The packet whose first `nbits` bits are `w` and whose other bits are 0. The table's one row of 48 bits is
the data format `WIRE.HEADER`; every other row is a command's opcode byte. The zeros after it are at least as
many as the operands of any command take when they are 0. -/
def tablePacket (c : Config) (nbits w : Nat) : Packet where
  form := if nbits = 48 then .wire else .command
  bytes := leBytes (fieldBytes nbits) w
    ++ List.replicate (8 + 8 * fieldBytes c.lenW + fieldBytes c.idxW) 0
  ghost := 0

/-- The instruction the decoder reads from a word of the opcode table, at the widths of TC. -/
def decodeTableWord (nbits w : Nat) : Option Instr :=
  match decode .tc (tablePacket .tc nbits w) with
  | .ok (i, _) => some i
  | .error _ => none

end Sys2Proof
end

