-- ==== Sys2Proof/Machine/State.lean ====
section
/-! DEFINITION. The state of the block (spec/10_state.md R20 to R30), the outcomes of an operation
(spec/60_exceptions.md R240), the ways a step stops, and the state after reset (R41, R270). -/

namespace Sys2Proof.Machine

/-! ### Memory -/

/-- Bytes by address, in canonical form (`Memory.wf`). -/
abbrev Memory := List Host.Cell

/-- What an unlisted address reads as: no stored value. The reader of such a byte gets a free value (U1,
log 6), so no listed entry can equal it. -/
def Memory.unlisted : Option Byte := none

/-- The canonical form: addresses strictly rising, and no entry equal to what an unlisted address reads as. -/
abbrev Memory.wf (m : Memory) : Prop :=
  (m.map Prod.fst).Pairwise (· < ·) ∧ ∀ c ∈ m, some c.2 ≠ Memory.unlisted

/-- One entry of `HEAP` (S3, R24): the buffer with key `id`, `size` bytes long; `mem` holds those written. -/
structure HeapBuf where
  id : Nat
  size : Nat
  mem : Memory
deriving DecidableEq, Repr

/-! ### Handles -/

/-- Who holds a live slice (R281, U3): an agent, a frame an agent holds (with what the frame is), the decoder
or the encoder of a connection. A `damagedFrame` is a frame that an agent built on a handle whose index is corrupt:
only a handle with a corrupt index names it (log 10). -/
inductive Holder where
  | caller (agent : Nat)
  | frame (agent : Nat) (kind : FrameKind) (payOff payLen : Nat)
  | damagedFrame (agent : Nat)
  | dec (c : Nat)
  | enc (c : Nat)
deriving DecidableEq, Repr

/-- An element of `LIVE` (S5, R26): the handle id inside `slice`, the slice as the block last issued it, and
its holder (log 9). -/
structure LiveEntry where
  slice : Slice
  holder : Holder
deriving DecidableEq, Repr

/-! ### Decoder and encoder -/

/-- `D.phase` (S11): AwaitingHeader, AwaitingPayload, awaiting a handshake blob. -/
inductive Phase where
  | ah
  | ap
  | ahs
deriving DecidableEq, Repr

/-- The decoder of one connection (S10 to S16, R27). `received` is `D.have`. `driver` is ghost: the agent
that drives it (U8, log 12). -/
structure DecState where
  mode : Mode
  phase : Phase
  hdr : Header
  missing : Nat
  received : Nat
  buf : Option Slice
  fault : Bool
  driver : Option Nat
deriving DecidableEq, Repr

/-- The encoder of one connection (S20, S21, R30). `driver` is ghost, as for the decoder. `outputs` is ghost: how
many outputs it has made, which tells the last one's view from earlier ones (R212, U12; log 13). -/
structure EncState where
  buf : Option Slice
  outLen : Nat
  outputs : Nat
  driver : Option Nat
deriving DecidableEq, Repr

/-! ### Responses (R99, R240) -/

/-- The status of a response (R240). -/
inductive Status where
  | ok
  | needBytes
  | none
  | malformedHeader
  | refused
deriving DecidableEq, Repr

/-- The typed result of a response (R99, R100). `count` is a length: the `n` of `NEED_BYTES`, or
`FRM.ENCODED_LENGTH`'s. -/
inductive Result where
  | nothing
  | slice (h : Slice)
  | bytes (bs : List Byte)
  | mask (m : BitVec 8)
  | header (h : Header)
  | bit (b : Bool)
  | msgType (t : BitVec 8)
  | msgLength (l : BitVec 24)
  | frame (f : Frame)
  | view (v : View)
  | count (n : Nat)
  | window (off len : Nat)
  | decStatus (mode : Mode) (phase : Phase) (missing received : Nat) (held fault : Bool)
  | encStatus (held : Bool) (outLen : Nat)
deriving DecidableEq, Repr

/-- The response record (R99). -/
structure Response where
  status : Status
  result : Result
deriving DecidableEq, Repr

/-! ### Inputs (R3, R99, R262, R270; log 2) -/

/-- What one agent hands over to another (R75, U8). -/
inductive Item where
  | handle (id : Nat)
  | decoder (c : Nat)
  | encoder (c : Nat)
deriving DecidableEq, Repr

/-- What the outside world does to the block: an agent issues a packet, an agent hands something over, or the
block is reset. -/
inductive Input where
  | command (agent : Nat) (p : Packet)
  | handOver (agent : Nat) (item : Item) (receiver : Nat)
  | reset
deriving DecidableEq, Repr

/-- An entry of the instrumentation log: `(slot, new bit value, timestamp)` (R266). -/
structure Toggle where
  slot : Nat
  bit : Bool
  stamp : Nat
deriving DecidableEq, Repr

/-! ### The state -/

/-- The state of the block (R20) and, after it, the model's own fields (INVENTORY.md, '## State'). -/
structure State where
  /-- S1 `MASK` (R22). -/
  mask : BitVec 8
  /-- S2 `POOLMEM` (R23). -/
  poolmem : Memory
  /-- S3 `HEAP` (R24), by rising id. -/
  heap : List HeapBuf
  /-- S4 `ABORT` (R25). -/
  abort : Bool
  /-- S5 `LIVE` (R26), by rising id. -/
  live : List LiveEntry
  /-- S5 `NEXT_ID` (R26). -/
  nextId : Nat
  /-- Ghost: how many ids were drawn before the last reset, so that no handle from before a reset has the id of a
  later one (R271, log 24). -/
  idBase : Nat
  /-- S10 to S16, connection 0 first. -/
  decs : List DecState
  /-- S20, S21, connection 0 first. -/
  encs : List EncState
  /-- The write-only instrumentation log (R40(c), R266; log 15). -/
  log : List Toggle
  /-- The instrumentation's count of heap-path acquires (R266; log 15). -/
  heapAcquires : Nat
  /-- The configuration (R12), which no step changes (log 1). -/
  cfg : Config
  /-- Ghost: the addresses of `POOLMEM` written since their slot was last acquired, rising (U1, log 6). -/
  written : List Nat
  /-- How many free values have been used (logs 6, 7, 8). -/
  free : Nat
  /-- Ghost: the agent whose command runs (log 2). -/
  agent : Nat
  /-- The last response, nothing where none was given (R99, R246; log 2). -/
  resp : Option Response
  /-- What the outside world has issued and the block has not yet taken, oldest first (log 2). -/
  inbox : List Input
deriving DecidableEq, Repr

/-! ### How a step stops -/

/-- The reasons a step has no next state. -/
inductive Fault where
  /-- R25, R246, U4: `ABORT = 1`, so no operation has a step. Raised by every operation and hand-over.
  Safe: the machine is stuck. -/
  | aborted
  /-- U3: the id of a handle operand is not in `LIVE`. Raised by every operation that takes a handle, by
  `Release`, and by a hand-over. Safe: nothing may be proved past it. -/
  | notLive
  /-- U3, R281: a live handle, held by a frame, the decoder, the encoder or another agent; and, as the model's choice,
  a Frame operand whose slice the agent has given to no frame, whatever its index (log 27). Raised as `notLive` is.
  Safe. -/
  | notOwner
  /-- U3, "a forged handle whose `idx` is valid": a live handle of the agent's own with a valid index, whose fields
  are not those the block issued, or a view the block has not issued (log 9). Raised by every operation that takes a
  handle. A handle with a corrupt index is never stopped here: it is R129's. Safe: U3 names the fault. -/
  | forged
  /-- U8, R280: an operation on a decoder or encoder that another agent drives. Raised by `DEC` and `ENC`
  operations and by a hand-over of a decoder or encoder. Safe. -/
  | race
  /-- A hand-over of a decoder or encoder of a connection not below `N_CONN`; a hand-over is no operation, so R101 does
  not apply, and the spec gives no outcome (log 12, DESIGN CHOICE). Raised by a hand-over alone. Safe. -/
  | noConnection
  /-- R64, U4: a write of at least one byte through a slice with a corrupt index: R64 says which bytes change for a
  valid index only (log 10). Raised by `POOL.WR` alone. Safe. -/
  | noPlace
  /-- R63: a block-internal access outside its slice, or outside `POOLMEM` or the heap buffer; in no state a
  run reaches (log 19). Safe. -/
  | badAccess
  /-- R28: a decoder phase that is complete without a working buffer; in no state a run reaches (log 19).
  Raised by `DEC.NEXT_FRAME`. Safe. -/
  | noBuffer
deriving DecidableEq, Repr

/-- The reasons a step is refused. -/
inductive Refusal where
  /-- No meaning yet for the instruction with this mnemonic. Raised by `exec` alone; by no arm now. Safe. -/
  | notModelled (mnemonic : String)
deriving DecidableEq, Repr

/-! ### Reset (R41, R270) -/

/-- A decoder at reset. The spec leaves `D.hdr` unspecified; the model names the zero header (log 8). -/
def DecState.reset : DecState where
  mode := .std
  phase := .ah
  hdr := { extType := 0, msgType := 0, msgLength := 0 }
  missing := headerSize
  received := 0
  buf := none
  fault := false
  driver := none

/-- An encoder at reset. -/
def EncState.reset : EncState where
  buf := none
  outLen := 0
  outputs := 0
  driver := none

/-- The state after reset of a block with configuration `c`. -/
def State.resetWith (c : Config) : State where
  mask := 0
  poolmem := []
  heap := []
  abort := false
  live := []
  nextId := 0
  idBase := 0
  decs := List.replicate c.nConn .reset
  encs := List.replicate c.nConn .reset
  log := []
  heapAcquires := 0
  cfg := c
  written := []
  free := 0
  agent := 0
  resp := none
  inbox := []

/-- The machine right after reset, with the test configuration TC (log 1). -/
def State.reset : State := State.resetWith .tc

end Sys2Proof.Machine
end

