-- ==== Sys2Proof/Machine/Ops.lean ====
section
/-! DEFINITION. The named operations over memory, pool, handles and connections that the meanings share:
`MemRead` and `MemWrite` (spec/20_memory.md R63, R64), `Acquire` and `Release` (spec/40_pool.md R121 to R129),
lengthening in place (spec/10_state.md R38), the abort as the block's one exception
(spec/60_exceptions.md R246), reset as the return from it (spec/70_reset_and_hazards.md R270), and the hand-over
of R75. -/

namespace Sys2Proof.Machine

/-! ### The outcome of a part of an operation -/

/-- What part of an operation answers: a value and the state to go on in; the abort of R246, with the state
that stands; or a fault of the model. -/
inductive Res (α : Type) where
  | ok (a : α) (s : State)
  | abort (s : State)
  | fault (f : Fault)

/-- Go on where the first part answered. -/
def Res.bind {α β : Type} (r : Res α) (k : α → State → Res β) : Res β :=
  match r with
  | .ok a s => k a s
  | .abort s => .abort s
  | .fault f => .fault f

/-- R246, the block's one exception: `ABORT <- 1`, no response, and what was done before stands. -/
def takeAbort (s : State) : State := { s with abort := true, resp := none }

/-- The end of an operation: its response is recorded, or the abort is taken. -/
def conclude (r : Res Response) : Host.Outcome State Fault Refusal :=
  match r with
  | .ok a s => .next { s with resp := some a }
  | .abort s => .next (takeAbort s)
  | .fault f => .fault f

/-- End with a status and a result. -/
def answer (st : Status) (r : Result) (s : State) : Res Response := .ok { status := st, result := r } s

/-- `raise REFUSED` (R245). -/
def refuse (s : State) : Res Response := answer .refused .nothing s

/-- The 4-bit code of a status (R240). -/
def statusCode : Status → BitVec 4
  | .ok => 0
  | .needBytes => 1
  | .none => 2
  | .malformedHeader => 3
  | .refused => 4

/-! ### Bytes by address -/

/-- The byte listed at an address, or what an unlisted address reads as. -/
def Memory.read : Memory → Nat → Option Byte
  | [], _ => Memory.unlisted
  | (a, b) :: m, x => if a = x then some b else Memory.read m x

/-- List byte `b` at address `x`, in its place. -/
def Memory.write : Memory → Nat → Byte → Memory
  | [], x, b => [(x, b)]
  | (a, c) :: m, x, b =>
    if x < a then (x, b) :: (a, c) :: m
    else if x = a then (x, b) :: m
    else (a, c) :: Memory.write m x b

/-- List a byte sequence from address `x` on. -/
def Memory.writeAll : Memory → Nat → List Byte → Memory
  | m, _, [] => m
  | m, x, b :: bs => Memory.writeAll (Memory.write m x b) (x + 1) bs

/-- Add an address to a rising list. -/
def addAddr : List Nat → Nat → List Nat
  | [], x => [x]
  | a :: l, x => if x < a then x :: a :: l else if x = a then a :: l else a :: addAddr l x

/-- Add the `n` addresses from `x` on. -/
def addAddrs : List Nat → Nat → Nat → List Nat
  | l, _, 0 => l
  | l, x, n + 1 => addAddrs (addAddr l x) (x + 1) n

/-! ### Slots (R22, R23, R35, R98) -/

/-- `BIT(k) = 1 << (8 − k)` (R22). -/
def slotBit (k : Nat) : BitVec 8 := 1#8 <<< (8 - k)

/-- Bit `8 − k` of `MASK`: slot `k` is checked out (R22). -/
def slotTaken (m : BitVec 8) (k : Nat) : Bool := m.getLsbD (8 - k)

/-- Region `k`, for `k` in `1..N_SLOTS` (R23). -/
def region? (c : Config) : Nat → Option Region
  | 0 => none
  | k + 1 => c.regions[k]?

/-- `SLOT_OFF[k]`. -/
def slotOff (c : Config) (k : Nat) : Nat := ((region? c k).map Region.off).getD 0

/-- `SLOT_CAP[k]`. -/
def slotCap (c : Config) (k : Nat) : Nat := ((region? c k).map Region.cap).getD 0

/-- `POOL_BYTES`, the least length that contains every region (R23). -/
def poolBytes (c : Config) : Nat :=
  c.regions.foldr (fun r n => max (r.off + r.cap) n) 0

/-- What a slice index names (R98). -/
inductive Place where
  | pool
  | heap
  | corrupt
deriving DecidableEq, Repr

/-- `UNTRACKED_INDEX` names the heap, `1..N_SLOTS` the pool, every other index is corrupt (R98, R129). -/
def placeOf (c : Config) (idx : Nat) : Place :=
  if idx = c.untracked then .heap
  else if 1 ≤ idx ∧ idx ≤ c.nSlots then .pool
  else .corrupt

/-- `FIT(len, m)`, ascending (R121). -/
def fit (c : Config) (m : BitVec 8) (len : Nat) : List Nat :=
  (List.range' 1 c.nSlots).filter fun k => !slotTaken m k && decide (len ≤ slotCap c k)

/-- `choose k in F`, or `min F` under `SCAN_POLICY = lowest_index`, of a non-empty ascending `F`
(R122, U2, log 7). -/
def pick (p : ScanPolicy) (n : Nat) (F : List Nat) : Nat :=
  match p with
  | .lowestIndex => F.headD 0
  | .any => F.getD (Config.freeChoice n % F.length) 0

/-! ### Live handles (R26) -/

/-- The entry of a live handle id. -/
def findLive (l : List LiveEntry) (id : Nat) : Option LiveEntry := l.find? fun e => e.slice.id == id

/-- `LIVE \ {id}`. -/
def dropLive (l : List LiveEntry) (id : Nat) : List LiveEntry := l.filter fun e => e.slice.id != id

/-- Change the entry of one handle id. -/
def mapLive (l : List LiveEntry) (id : Nat) (f : LiveEntry → LiveEntry) : List LiveEntry :=
  l.map fun e => if e.slice.id = id then f e else e

/-- Give a live slice to another holder. -/
def setHolder (id : Nat) (who : Holder) (s : State) : State :=
  { s with live := mapLive s.live id fun e => { e with holder := who } }

/-- The length of a live slice becomes `n`; no byte moves (R38). -/
def setSliceLen (id n : Nat) (s : State) : State :=
  { s with live := mapLive s.live id fun e => { e with slice := { e.slice with len := n } } }

/-- The slice is one the block has issued, as it last issued it (R26, log 9). -/
def asIssued (s : State) (h : Slice) : Bool := (findLive s.live h.id).any fun e => e.slice == h

/-- The id the next acquire draws: `NEXT_ID` counts from 0 at each reset (R26, R270), and no id comes twice
(R271, log 24). -/
def freshId (s : State) : Nat := s.idBase + s.nextId

/-! ### Heap buffers (R24) -/

/-- The buffer with key `id`. -/
def findHeap (l : List HeapBuf) (id : Nat) : Option HeapBuf := l.find? fun b => b.id == id

/-- Remove the buffer with key `id`. -/
def dropHeap (l : List HeapBuf) (id : Nat) : List HeapBuf := l.filter fun b => b.id != id

/-- Write bytes into the buffer with key `id`. -/
def writeHeap (l : List HeapBuf) (id off : Nat) (bs : List Byte) : List HeapBuf :=
  l.map fun b => if b.id = id then { b with mem := b.mem.writeAll off bs } else b

/-! ### MemRead and MemWrite (R63, R64) -/

/-- The byte at offset `o` of a slice, if something has written it since the slice was acquired (R64, U1). -/
def storedByte (s : State) (h : Slice) (o : Nat) : Option Byte :=
  match placeOf s.cfg h.idx with
  | .pool => if h.off + o ∈ s.written then s.poolmem.read (h.off + o) else none
  | .heap => (findHeap s.heap h.id).bind fun b => b.mem.read o
  | .corrupt => none

/-- Offsets `off .. off+n−1` of a slice are inside it and inside the memory it addresses (R63, R23, R24). -/
def accessible (s : State) (h : Slice) (off n : Nat) : Bool :=
  match placeOf s.cfg h.idx with
  | .pool => decide (off + n ≤ h.len ∧ h.off + off + n ≤ poolBytes s.cfg)
  | .heap => decide (off + n ≤ h.len) && (findHeap s.heap h.id).any fun b => decide (off + n ≤ b.size)
  | .corrupt => false

/-- The `n` bytes at offset `off`; each that nothing has written is a fresh free value (R64, U1). -/
def bytesAt (s : State) (h : Slice) (off n : Nat) : List Byte :=
  (List.range n).map fun i => (storedByte s h (off + i)).getD (Config.freeByte (s.free + i))

/-- `n` fresh free bytes (U1, U12). -/
def freeBytes (n : Nat) (s : State) : Res (List Byte) :=
  .ok ((List.range n).map fun i => Config.freeByte (s.free + i)) { s with free := s.free + n }

/-- `MemRead(h, off, n)` (R64). For a corrupt index R64 names no memory and states no bytes: each is then a fresh free
value (log 10). -/
def memRead (h : Slice) (off n : Nat) (s : State) : Res (List Byte) :=
  if placeOf s.cfg h.idx = .corrupt ∨ accessible s h off n then .ok (bytesAt s h off n) { s with free := s.free + n }
  else .fault .badAccess

/-- The bytes of a slice's memory become `bs` from offset `off` on (R64). -/
def storeBytes (h : Slice) (off : Nat) (bs : List Byte) (s : State) : State :=
  match placeOf s.cfg h.idx with
  | .pool =>
    { s with poolmem := s.poolmem.writeAll (h.off + off) bs
             written := addAddrs s.written (h.off + off) bs.length }
  | .heap => { s with heap := writeHeap s.heap h.id off bs }
  | .corrupt => s

/-- `MemWrite(h, off, bs)` (R64). Through a corrupt index no bytes are written as through any other (`n = 0` does
nothing); which bytes would change otherwise R64 does not say (log 10). -/
def memWrite (h : Slice) (off : Nat) (bs : List Byte) (s : State) : Res Unit :=
  if placeOf s.cfg h.idx = .corrupt then
    if bs = [] then .ok () s else .fault .noPlace
  else if accessible s h off bs.length then .ok () (storeBytes h off bs s)
  else .fault .badAccess

/-! ### Acquire and Release (R121 to R129) -/

/-- The log with the toggle of a slot's bit, when instrumentation is on (R266, log 15). -/
def logToggle (k : Nat) (b : Bool) (s : State) : List Toggle :=
  if s.cfg.instrumentation then s.log ++ [{ slot := k, bit := b, stamp := Config.freeStamp s.log.length }]
  else s.log

/-- The pool path of `Acquire`: slot `k` is taken (R122, R123). What its bytes held before is no longer
known to a reader (U1). -/
def acquireSlot (k len : Nat) (who : Holder) (s : State) : Slice × State :=
  let h : Slice := { id := freshId s, idx := k, off := slotOff s.cfg k, len := len, cap := slotCap s.cfg k }
  (h, { s with
    mask := s.mask ||| slotBit k
    written := s.written.filter fun a => !(decide (h.off ≤ a) && decide (a < h.off + h.cap))
    live := s.live ++ [{ slice := h, holder := who }]
    nextId := s.nextId + 1
    free := s.free + 1
    log := logToggle k true s })

/-- The heap path of `Acquire`: an allocator that never refuses makes a buffer of exactly `len` bytes with
unspecified contents (R122, R124, log 17). -/
def acquireHeap (len : Nat) (who : Holder) (s : State) : Slice × State :=
  let h : Slice := { id := freshId s, idx := s.cfg.untracked, off := 0, len := len, cap := len }
  (h, { s with
    heap := s.heap ++ [{ id := freshId s, size := len, mem := [] }]
    live := s.live ++ [{ slice := h, holder := who }]
    nextId := s.nextId + 1
    heapAcquires := if s.cfg.instrumentation then s.heapAcquires + 1 else s.heapAcquires })

/-- `Acquire(len)`, for holder `who` (R122, R123: scan and set are one atomic step). -/
def acquire (len : Nat) (who : Holder) (s : State) : Slice × State :=
  match fit s.cfg s.mask len with
  | [] => acquireHeap len who s
  | k :: ks => acquireSlot (pick s.cfg.scan s.free (k :: ks)) len who s

/-- `Release(h)` (R127 to R129). A handle whose id is not live is the misuse of U3. -/
def release (h : Slice) (s : State) : Res Unit :=
  match findLive s.live h.id with
  | none => .fault .notLive
  | some _ =>
    match placeOf s.cfg h.idx with
    | .heap => .ok () { s with heap := dropHeap s.heap h.id, live := dropLive s.live h.id }
    | .pool =>
      .ok () { s with mask := s.mask &&& ~~~ slotBit h.idx
                      live := dropLive s.live h.id
                      log := logToggle h.idx false s }
    | .corrupt => .abort s

/-- Release what a decoder or encoder may hold. -/
def releaseHeld (b : Option Slice) (s : State) : Res Unit :=
  match b with
  | none => .ok () s
  | some h => release h s

/-! ### Connections -/

/-- Replace the decoder of connection `c`. -/
def setDec (c : Nat) (D : DecState) (s : State) : State := { s with decs := s.decs.set c D }

/-- Replace the decoder of connection `c`, but for `D.hdr`, which is left unspecified: a fresh free value (R27, U10, log 8). -/
def setDecNoHeader (c : Nat) (D : DecState) (s : State) : State :=
  setDec c { D with hdr := headerOfWord (Config.freeHeader s.free) } { s with free := s.free + 1 }

/-- Replace the encoder of connection `c`. -/
def setEnc (c : Nat) (E : EncState) (s : State) : State := { s with encs := s.encs.set c E }

/-! ### Events that are not operations -/

/-- Reset (R270): every element at its value of R41; the configuration stays, as do the inputs still waiting
outside the block and the count of free values used (log 21). The ids drawn so far are counted in `idBase`, so that
every handle from before the reset stays dead (R271, log 24). -/
def resetEvent (rest : List Input) (s : State) : State :=
  { State.resetWith s.cfg with idBase := freshId s, free := s.free, inbox := rest }

/-- An agent hands a handle, a decoder or an encoder to another (R75, R281, U8). The spec has no hand-over of a
decoder or encoder by name; that any agent may hand over one nobody drives yet, and that a connection not below
`N_CONN` is the fault `noConnection`, are the model's (log 12, DESIGN CHOICE). -/
def handOver (agent : Nat) (item : Item) (receiver : Nat) (s : State) : Res Unit :=
  match item with
  | .handle id =>
    match findLive s.live id with
    | none => .fault .notLive
    | some e =>
      match e.holder with
      | .caller a => if a = agent then .ok () (setHolder id (.caller receiver) s) else .fault .notOwner
      | .frame a kind off len =>
        if a = agent then .ok () (setHolder id (.frame receiver kind off len) s) else .fault .notOwner
      | .damagedFrame a =>
        if a = agent then .ok () (setHolder id (.damagedFrame receiver) s) else .fault .notOwner
      | .dec _ => .fault .notOwner
      | .enc _ => .fault .notOwner
  | .decoder c =>
    match s.decs[c]? with
    | none => .fault .noConnection
    | some D =>
      if D.driver = none ∨ D.driver = some agent then .ok () (setDec c { D with driver := some receiver } s)
      else .fault .race
  | .encoder c =>
    match s.encs[c]? with
    | none => .fault .noConnection
    | some E =>
      if E.driver = none ∨ E.driver = some agent then .ok () (setEnc c { E with driver := some receiver } s)
      else .fault .race

end Sys2Proof.Machine
end

