-- ==== Sys2Proof/Machine/Flags.lean ====
section
/-! DEFINITION. The block's two flags (spec/10_state.md R32): `ABORT` and `D.fault`, and the channel-message
flag inside a header (spec/42_frame.md R162, spec/41_header.md R150). -/

namespace Sys2Proof.Machine

/-- R251 (1), R246: while `ABORT = 1` no operation has a step. -/
def unlessAborted (s : State) (k : State → Res Response) : Host.Outcome State Fault Refusal :=
  if s.abort then .fault .aborted else conclude (k s)

/-- R251 (4), R191: on a faulted decoder `DEC.WRITABLE`, `DEC.FILL` and `DEC.SET_MODE` answer `REFUSED`. -/
def unlessFaulted (D : DecState) (s : State) (k : Res Response) : Res Response :=
  if D.fault then refuse s else k

/-- `D.fault <- 1` (R190, R191). -/
def raiseFault (c : Nat) (D : DecState) (s : State) : State := setDec c { D with fault := true } s

/-- The channel-message flag of a header (R92, R150). -/
def channelFlag (h : Header) : Bool := h.extType.getLsbD 15

/-- `extension_type` with bit 15 replaced by the flag operand (R161, R162). -/
def withChannelFlag (e : BitVec 16) (flag : Bool) : BitVec 16 :=
  if flag then e ||| channelFlagBit else e &&& ~~~ channelFlagBit

end Sys2Proof.Machine
end

