-- ==== Sys2Proof/Machine/Operands.lean ====
section
/-! DEFINITION. What each kind of operand must be before an operation acts on it (spec/60_exceptions.md R251;
spec/93_implementation_defined.md U3, U8, U12): handles live, owned and as the block issued them; views;
connections. And the lengths computed from operands. -/

namespace Sys2Proof.Machine

/-- A handle operand passes U3's check of forged handles, which is of those "whose `idx` is valid": it is the one the
block issued, or its index is corrupt, which R129 has `Release` detect whatever its other fields are (log 9, log 10). -/
def sameHandle (c : Config) (issued given : Slice) : Bool :=
  given == issued || placeOf c given.idx == .corrupt

/-- A Slice operand: live, held by the agent itself, and the one issued (U3, R281). -/
def useSlice (h : Slice) (s : State) : Res Unit :=
  match findLive s.live h.id with
  | none => .fault .notLive
  | some e =>
    if e.holder = .caller s.agent then
      if sameHandle s.cfg e.slice h then .ok () s else .fault .forged
    else .fault .notOwner

/-- A Frame operand: its buffer is live, held by a frame of the agent itself, and the frame is the one issued, or its
buffer's index is corrupt (U3, R281, R129; log 9, log 10). DESIGN CHOICE: a Frame operand over a live slice that the
agent holds itself and has given to no frame is `notOwner`, whatever its index, a corrupt one too; the spec does not name
that case (log 27). -/
def useFrame (f : Frame) (s : State) : Res Unit :=
  match findLive s.live f.buf.id with
  | none => .fault .notLive
  | some e =>
    match e.holder with
    | .frame a kind off len =>
      if a = s.agent then
        if placeOf s.cfg f.buf.idx = .corrupt ∨
            (f.buf = e.slice ∧ kind = f.kind ∧ off = f.payOff ∧ len = f.payLen) then .ok () s
        else .fault .forged
      else .fault .notOwner
    | .damagedFrame a =>
      if a = s.agent then
        if placeOf s.cfg f.buf.idx = .corrupt then .ok () s else .fault .forged
      else .fault .notOwner
    | .caller _ => .fault .notOwner
    | .dec _ => .fault .notOwner
    | .enc _ => .fault .notOwner

/-- What a live view reads (R63, R132, U12): the bytes of its slice, or, for an encoder view whose scratch
buffer has since been reused, any value (log 13). -/
inductive ViewKind where
  | fresh
  | stale
deriving DecidableEq, Repr

/-- A view of a slice held so is one that still reads the slice: of a frame's buffer every view, of an encoder's
scratch buffer only the view of the encoder's last output (R36, R212, R284, R285). The block issues no view of a slice
that an agent or a decoder holds (R36, R281). -/
def isLastView (s : State) (who : Holder) (v : View) : Bool :=
  match who with
  | .frame _ _ _ _ => true
  | .enc c => (s.encs[c]?).any fun E => E.outputs == v.output
  | .caller _ => false
  | .damagedFrame _ => false
  | .dec _ => false

/-- A View operand: its slice is live, and is the one issued, or an encoder's scratch buffer reused since, or one whose
index is corrupt (R63, U3, U12; log 10, log 13). -/
def useView (v : View) (s : State) : Res ViewKind :=
  match findLive s.live v.slice.id with
  | none => .fault .notLive
  | some e =>
    if placeOf s.cfg v.slice.idx = .corrupt ∨ (v.slice = e.slice ∧ isLastView s e.holder v = true) then .ok .fresh s
    else
      match e.holder with
      | .enc _ => if { v.slice with len := e.slice.len } = e.slice then .ok .stale s else .fault .forged
      | .caller _ => .fault .forged
      | .frame _ _ _ _ => .fault .forged
      | .damagedFrame _ => .fault .forged
      | .dec _ => .fault .forged

/-- The agent becomes the driver of a decoder nobody has driven (U8). -/
def claimDec (c : Nat) (D : DecState) (s : State) : State := setDec c { D with driver := some s.agent } s

/-- The agent becomes the driver of an encoder nobody has driven (U8). -/
def claimEnc (c : Nat) (E : EncState) (s : State) : State := setEnc c { E with driver := some s.agent } s

/-- A `conn` operand of a `DEC` operation: below `N_CONN`, else `REFUSED` (R101); its decoder driven by this
agent or by nobody yet, else a race (U8). The operation goes on with the decoder's state. -/
def withDec (c : Nat) (s : State) (k : DecState → State → Res Response) : Res Response :=
  match s.decs[c]? with
  | none => refuse s
  | some D =>
    if D.driver = none ∨ D.driver = some s.agent then
      k { D with driver := some s.agent } (claimDec c D s)
    else .fault .race

/-- A `conn` operand of an `ENC` operation. -/
def withEnc (c : Nat) (s : State) (k : EncState → State → Res Response) : Res Response :=
  match s.encs[c]? with
  | none => refuse s
  | some E =>
    if E.driver = none ∨ E.driver = some s.agent then
      k { E with driver := some s.agent } (claimEnc c E s)
    else .fault .race

/-- The target `T` of the current phase (R29). -/
def target (c : Config) (D : DecState) : Nat :=
  match D.phase with
  | .ah => headerSize
  | .ap => headerSize + D.hdr.msgLength.toNat
  | .ahs => c.handshakeLen

/-- The phase a decoder starts a unit in (R27, R224). -/
def startPhase : Mode → Phase
  | .std => .ah
  | .hs => .ahs

/-- The bytes a decoder wants at the start of a unit (R29, R224). -/
def startMissing (c : Config) : Mode → Nat
  | .std => headerSize
  | .hs => c.handshakeLen

/-- The payload bytes of a frame's wire form (R37, R93, R94). -/
def payloadLength (c : Config) (f : Frame) : Nat :=
  match f.kind with
  | .std h => h.msgLength.toNat
  | .hs => c.handshakeLen

/-- The wire length of a frame (R93, R94, R166, R210). -/
def wireLength (c : Config) (f : Frame) : Nat :=
  match f.kind with
  | .std h => headerSize + h.msgLength.toNat
  | .hs => c.handshakeLen

end Sys2Proof.Machine
end

