-- ==== Sys2Proof/Machine/Frame.lean ====
section
/-! DEFINITION. The `FRM` unit (spec/42_frame.md). -/

namespace Sys2Proof.Machine

/-- The holder of a slice that a frame takes over: what the frame is, where it is built on a handle as issued, and that
it is damaged, where the handle's index is corrupt (log 10). -/
def frameHolder (kind : FrameKind) (buf : Slice) (payOff payLen : Nat) (s : State) : Holder :=
  if asIssued s buf then .frame s.agent kind payOff payLen else .damagedFrame s.agent

/-- A frame takes over the slice it is built on (R161, R168, R190, R281). -/
def giveToFrame (kind : FrameKind) (buf : Slice) (payOff payLen : Nat) (s : State) : Res Response :=
  answer .ok (.frame { kind := kind, buf := buf, payOff := payOff, payLen := payLen })
    (setHolder buf.id (frameHolder kind buf payOff payLen s) s)

/-- `FRM.FROM_MESSAGE p, msg_type, extension_type, flag` (R161 to R163). -/
def execFrmFromMessage (p : Slice) (msgType : BitVec 8) (extType : BitVec 16) (flag : Bool) (s : State) :
    Host.Outcome State Fault Refusal :=
  unlessAborted s fun s =>
    (useSlice p s).bind fun _ s =>
      if s.cfg.maxMsg < p.len then answer .none .nothing s
      else
        giveToFrame
          (.std { extType := withChannelFlag extType flag, msgType := msgType, msgLength := BitVec.ofNat 24 p.len })
          p 0 p.len s

/-- `FRM.HEADER f` (R164). -/
def execFrmHeader (f : Frame) (s : State) : Host.Outcome State Fault Refusal :=
  unlessAborted s fun s =>
    (useFrame f s).bind fun _ s =>
      match f.kind with
      | .std h => answer .ok (.header h) s
      | .hs => answer .none .nothing s

/-- `FRM.PAYLOAD f` (R165). -/
def execFrmPayload (f : Frame) (s : State) : Host.Outcome State Fault Refusal :=
  unlessAborted s fun s =>
    (useFrame f s).bind fun _ s =>
      answer .ok (.view { slice := f.buf, off := f.payOff, len := f.payLen }) s

/-- `FRM.ENCODED_LENGTH f` (R166). -/
def execFrmEncodedLength (f : Frame) (s : State) : Host.Outcome State Fault Refusal :=
  unlessAborted s fun s =>
    (useFrame f s).bind fun _ s => answer .ok (.count (wireLength s.cfg f)) s

/-- `FRM.FROM_HANDSHAKE p` (R168). -/
def execFrmFromHandshake (p : Slice) (s : State) : Host.Outcome State Fault Refusal :=
  unlessAborted s fun s =>
    (useSlice p s).bind fun _ s =>
      if p.len = s.cfg.handshakeLen then giveToFrame .hs p 0 s.cfg.handshakeLen s
      else answer .none .nothing s

/-- `FRM.DROP f` (R169). -/
def execFrmDrop (f : Frame) (s : State) : Host.Outcome State Fault Refusal :=
  unlessAborted s fun s =>
    (useFrame f s).bind fun _ s =>
    (release f.buf s).bind fun _ s =>
      answer .ok .nothing s

end Sys2Proof.Machine
end

