-- ==== Sys2Proof/Machine/Decoder.lean ====
section
/-! DEFINITION. The `DEC` unit: the operations that move data (spec/43_decoder.md) and those of
spec/45_system.md R224, R226, R228. `D` is the decoder of the connection named. -/

namespace Sys2Proof.Machine

/-- The window `{off = D.have, len = D.missing}` (R182, R185). -/
def window (D : DecState) (s : State) : Res Response := answer .ok (.window D.received D.missing) s

/-- The reallocation of `DEC.WRITABLE` (R182, R184): acquire, copy what was received, release the old. -/
def reallocate (c : Nat) (D : DecState) (b : Slice) (s : State) : Res Response :=
  (memRead b 0 D.received (acquire (target s.cfg D) (.dec c) s).2).bind fun bs s' =>
  (memWrite (acquire (target s.cfg D) (.dec c) s).1 0 bs s').bind fun _ s' =>
  (release b s').bind fun _ s' =>
    window D (setDec c { D with buf := some (acquire (target s.cfg D) (.dec c) s).1 } s')

/-- `DEC.WRITABLE@c` (R182 to R185). -/
def execDecWritable (c : Nat) (s : State) : Host.Outcome State Fault Refusal :=
  unlessAborted s fun s =>
    withDec c s fun D s =>
    unlessFaulted D s <|
      match D.buf with
      | none =>
        window D (setDec c { D with buf := some (acquire (target s.cfg D) (.dec c) s).1 }
          (acquire (target s.cfg D) (.dec c) s).2)
      | some b =>
        if b.len < target s.cfg D then
          if target s.cfg D ≤ b.cap then
            window D (setDec c { D with buf := some { b with len := target s.cfg D } }
              (setSliceLen b.id (target s.cfg D) s))
          else reallocate c D b s
        else window D s

/-- `DEC.FILL@c bytes` (R186). -/
def execDecFill (c : Nat) (bytes : List Byte) (s : State) : Host.Outcome State Fault Refusal :=
  unlessAborted s fun s =>
    withDec c s fun D s =>
    unlessFaulted D s <|
      match D.buf with
      | none => refuse s
      | some b =>
        if b.len = target s.cfg D ∧ bytes.length ≤ D.missing then
          (memWrite b D.received bytes s).bind fun _ s =>
            answer .ok .nothing
              (setDec c { D with received := D.received + bytes.length
                                 missing := D.missing - bytes.length } s)
        else refuse s

/-- `raise NEED_BYTES(n)` (R242). -/
def needBytes (n : Nat) (s : State) : Res Response := answer .needBytes (.count n) s

/-- The `AH` arm of `DEC.NEXT_FRAME`, six bytes being there (R190, R191). -/
def parsePhase (c : Nat) (D : DecState) (bs : List Byte) (s : State) : Res Response :=
  match headerOfBytes bs with
  | none => answer .malformedHeader .nothing s
  | some h =>
    if s.cfg.maxMsg < h.msgLength.toNat then answer .malformedHeader .nothing (raiseFault c D s)
    else
      needBytes h.msgLength.toNat
        (setDec c { D with hdr := h, phase := .ap, missing := h.msgLength.toNat } s)

/-- `DEC.NEXT_FRAME@c` (R190 to R195). With `AP` left, `D.hdr` is unspecified (log 8). -/
def execDecNextFrame (c : Nat) (s : State) : Host.Outcome State Fault Refusal :=
  unlessAborted s fun s =>
    withDec c s fun D s =>
      if D.fault then answer .malformedHeader .nothing s
      else if 0 < D.missing then needBytes D.missing s
      else
        match D.buf with
        | none => .fault .noBuffer
        | some b =>
          match D.phase with
          | .ah => (memRead b 0 headerSize s).bind fun bs s => parsePhase c D bs s
          | .ap =>
            giveToFrame (.std D.hdr) b headerSize D.hdr.msgLength.toNat
              (setDecNoHeader c { D with buf := none, received := 0, phase := .ah, missing := headerSize } s)
          | .ahs =>
            giveToFrame .hs b 0 s.cfg.handshakeLen
              (setDec c { D with buf := none, received := 0, missing := s.cfg.handshakeLen } s)

/-- `DEC.SET_MODE@c m` (R224, R225). -/
def execDecSetMode (c : Nat) (m : Mode) (s : State) : Host.Outcome State Fault Refusal :=
  unlessAborted s fun s =>
    withDec c s fun D s =>
    unlessFaulted D s <|
      if 0 < D.received then refuse s
      else
        (releaseHeld D.buf s).bind fun _ s =>
          answer .ok .nothing
            (setDec c
              { D with buf := none, mode := m, phase := startPhase m, missing := startMissing s.cfg m } s)

/-- `DEC.RESET@c` (R226); `D.hdr` is left unspecified (log 8). -/
def execDecReset (c : Nat) (s : State) : Host.Outcome State Fault Refusal :=
  unlessAborted s fun s =>
    withDec c s fun D s =>
      (releaseHeld D.buf s).bind fun _ s =>
        answer .ok .nothing
          (setDecNoHeader c { DecState.reset with driver := D.driver } s)

/-- `DEC.STATUS@c` (R228). -/
def execDecStatus (c : Nat) (s : State) : Host.Outcome State Fault Refusal :=
  unlessAborted s fun s =>
    withDec c s fun D s =>
      answer .ok (.decStatus D.mode D.phase D.missing D.received D.buf.isSome D.fault) s

end Sys2Proof.Machine
end

