-- ==== Sys2Proof/Machine/Encoder.lean ====
section
/-! DEFINITION. The `ENC` unit (spec/44_encoder.md, spec/45_system.md R230, R231). `E` is the encoder of the
connection named. -/

namespace Sys2Proof.Machine

/-- The scratch buffer, `need` bytes long: acquired at the first encode, reused while it is large enough, else
replaced, the old released first (R210, R211, R214(f)). -/
def scratch (c need : Nat) (E : EncState) (s : State) : Res Slice :=
  match E.buf with
  | none =>
    .ok (acquire need (.enc c) s).1
      (setEnc c { E with buf := some (acquire need (.enc c) s).1 } (acquire need (.enc c) s).2)
  | some b =>
    if need ≤ b.cap then
      .ok { b with len := need }
        (setEnc c { E with buf := some { b with len := need } } (setSliceLen b.id need s))
    else
      (release b s).bind fun _ s =>
        .ok (acquire need (.enc c) s).1
          (setEnc c { E with buf := some (acquire need (.enc c) s).1 } (acquire need (.enc c) s).2)

/-- `MemRead(f.buf, off, n)` inside `ENC.ENCODE`, which releases `f.buf` next. A corrupt index names no memory: the
payload's bytes are free values, as many as the output has, and the operation goes on to the abort of R129 (log 10). -/
def readPayload (f : Frame) (off n : Nat) (s : State) : Res (List Byte) :=
  if placeOf s.cfg f.buf.idx = .corrupt then freeBytes (payloadLength s.cfg f) s else memRead f.buf off n s

/-- The header (or nothing) and the payload written into the scratch buffer `b` (R210). -/
def writeFrame (b : Slice) (f : Frame) (s : State) : Res Unit :=
  match f.kind with
  | .std h =>
    (memWrite b 0 (headerBytes h) s).bind fun _ s =>
    (readPayload f f.payOff f.payLen s).bind fun bs s =>
      memWrite b headerSize bs s
  | .hs =>
    (readPayload f 0 s.cfg.handshakeLen s).bind fun bs s =>
      memWrite b 0 bs s

/-- `ENC.ENCODE@c f` (R210 to R214). -/
def execEncEncode (c : Nat) (f : Frame) (s : State) : Host.Outcome State Fault Refusal :=
  unlessAborted s fun s =>
    withEnc c s fun E s =>
    (useFrame f s).bind fun _ s =>
    (scratch c (wireLength s.cfg f) E s).bind fun b s =>
    (writeFrame b f s).bind fun _ s =>
    (release f.buf s).bind fun _ s =>
      answer .ok (.view { slice := b, off := 0, len := wireLength s.cfg f, output := E.outputs + 1 })
        (setEnc c { E with buf := some b, outLen := wireLength s.cfg f, outputs := E.outputs + 1 } s)

/-- `ENC.RESET@c` (R230). -/
def execEncReset (c : Nat) (s : State) : Host.Outcome State Fault Refusal :=
  unlessAborted s fun s =>
    withEnc c s fun E s =>
      (releaseHeld E.buf s).bind fun _ s =>
        answer .ok .nothing (setEnc c { E with buf := none, outLen := 0 } s)

/-- `ENC.STATUS@c` (R231). -/
def execEncStatus (c : Nat) (s : State) : Host.Outcome State Fault Refusal :=
  unlessAborted s fun s =>
    withEnc c s fun E s => answer .ok (.encStatus E.buf.isSome E.outLen) s

end Sys2Proof.Machine
end

