-- ==== Sys2Proof/Machine/Header.lean ====
section
/-! DEFINITION. The `HDR` unit, whose operations read and write no state of the block (spec/41_header.md), and
the data format row `WIRE.HEADER` (spec/30_encoding.md R91; log 5). -/

namespace Sys2Proof.Machine

/-- `HDR.PARSE bytes` (R141 to R143). -/
def execHdrParse (bytes : List Byte) (s : State) : Host.Outcome State Fault Refusal :=
  unlessAborted s fun s =>
    match headerOfBytes bytes with
    | some h => answer .ok (.header h) s
    | none => answer .malformedHeader .nothing s

/-- `HDR.SERIALIZE h` (R144). -/
def execHdrSerialize (h : Header) (s : State) : Host.Outcome State Fault Refusal :=
  unlessAborted s fun s => answer .ok (.bytes (headerBytes h)) s

/-- `HDR.BUILD extension_type, msg_type, len` (R147, R148). -/
def execHdrBuild (extType : BitVec 16) (msgType : BitVec 8) (len : Nat) (s : State) :
    Host.Outcome State Fault Refusal :=
  unlessAborted s fun s =>
    if s.cfg.maxMsg < len then answer .malformedHeader .nothing s
    else answer .ok (.header { extType := extType, msgType := msgType, msgLength := BitVec.ofNat 24 len }) s

/-- `HDR.CHID h` (R150). -/
def execHdrChid (h : Header) (s : State) : Host.Outcome State Fault Refusal :=
  unlessAborted s fun s => answer .ok (.bit (channelFlag h)) s

/-- `HDR.MSGTYPE h` (R151). -/
def execHdrMsgtype (h : Header) (s : State) : Host.Outcome State Fault Refusal :=
  unlessAborted s fun s => answer .ok (.msgType h.msgType) s

/-- `HDR.MSGLEN h` (R152). -/
def execHdrMsglen (h : Header) (s : State) : Host.Outcome State Fault Refusal :=
  unlessAborted s fun s => answer .ok (.msgLength h.msgLength) s

/-- `WIRE.HEADER`: the header that six bytes of the wire format stand for (R91, R92; log 5). -/
def execWireHeader (h : Header) (s : State) : Host.Outcome State Fault Refusal :=
  unlessAborted s fun s => answer .ok (.header h) s

end Sys2Proof.Machine
end

