-- ==== Sys2Proof/Machine/Pool.lean ====
section
/-! DEFINITION. The `POOL` unit: `POOL.ACQUIRE`, `POOL.RELEASE`, `POOL.WR`, `POOL.RD`, `POOL.STATUS`
(spec/40_pool.md, spec/45_system.md R221). -/

namespace Sys2Proof.Machine

/-- `POOL.ACQUIRE len` (R122, R124). -/
def execPoolAcquire (len : Nat) (s : State) : Host.Outcome State Fault Refusal :=
  unlessAborted s fun s =>
    answer .ok (.slice (acquire len (.caller s.agent) s).1) (acquire len (.caller s.agent) s).2

/-- `POOL.RELEASE h` (R127 to R129). -/
def execPoolRelease (h : Slice) (s : State) : Host.Outcome State Fault Refusal :=
  unlessAborted s fun s =>
    (useSlice h s).bind fun _ s =>
    (release h s).bind fun _ s =>
      answer .ok .nothing s

/-- `POOL.WR h, off, bytes` (R131). -/
def execPoolWr (h : Slice) (off : Nat) (bytes : List Byte) (s : State) : Host.Outcome State Fault Refusal :=
  unlessAborted s fun s =>
    (useSlice h s).bind fun _ s =>
      if off + bytes.length ≤ h.len then
        (memWrite h off bytes s).bind fun _ s => answer .ok .nothing s
      else refuse s

/-- `POOL.RD r, off, n` (R132). Through a view the access is inside the view and, where it lands, inside the slice
(R63). -/
def execPoolRd (r : Readable) (off n : Nat) (s : State) : Host.Outcome State Fault Refusal :=
  unlessAborted s fun s =>
    match r with
    | .slice h =>
      (useSlice h s).bind fun _ s =>
        if off + n ≤ h.len then
          (memRead h off n s).bind fun bs s => answer .ok (.bytes bs) s
        else refuse s
    | .view v =>
      (useView v s).bind fun kind s =>
        if off + n ≤ v.len ∧ v.off + off + n ≤ v.slice.len then
          match kind with
          | .fresh => (memRead v.slice (v.off + off) n s).bind fun bs s => answer .ok (.bytes bs) s
          | .stale => (freeBytes n s).bind fun bs s => answer .ok (.bytes bs) s
        else refuse s

/-- `POOL.STATUS` (R221). -/
def execPoolStatus (s : State) : Host.Outcome State Fault Refusal :=
  unlessAborted s fun s => answer .ok (.mask s.mask) s

end Sys2Proof.Machine
end

