-- ==== Sys2Proof/Machine/Dispatch.lean ====
section
/-! DEFINITION. The meaning of each instruction (spec/30_encoding.md R100, R91). -/

namespace Sys2Proof.Machine

/-- One operation of the block, issued by the agent `s.agent`. -/
def exec (i : Instr) (s : State) : Host.Outcome State Fault Refusal :=
  match i with
  | .poolAcquire len => Sys2Proof.Machine.execPoolAcquire len s
  | .poolRelease h => Sys2Proof.Machine.execPoolRelease h s
  | .poolWr h off bytes => Sys2Proof.Machine.execPoolWr h off bytes s
  | .poolRd r off n => Sys2Proof.Machine.execPoolRd r off n s
  | .poolStatus => Sys2Proof.Machine.execPoolStatus s
  | .hdrParse bytes => Sys2Proof.Machine.execHdrParse bytes s
  | .hdrSerialize h => Sys2Proof.Machine.execHdrSerialize h s
  | .hdrBuild extType msgType len => Sys2Proof.Machine.execHdrBuild extType msgType len s
  | .hdrChid h => Sys2Proof.Machine.execHdrChid h s
  | .hdrMsgtype h => Sys2Proof.Machine.execHdrMsgtype h s
  | .hdrMsglen h => Sys2Proof.Machine.execHdrMsglen h s
  | .frmFromMessage p msgType extType flag => Sys2Proof.Machine.execFrmFromMessage p msgType extType flag s
  | .frmHeader f => Sys2Proof.Machine.execFrmHeader f s
  | .frmPayload f => Sys2Proof.Machine.execFrmPayload f s
  | .frmEncodedLength f => Sys2Proof.Machine.execFrmEncodedLength f s
  | .frmFromHandshake p => Sys2Proof.Machine.execFrmFromHandshake p s
  | .frmDrop f => Sys2Proof.Machine.execFrmDrop f s
  | .decWritable c => Sys2Proof.Machine.execDecWritable c s
  | .decFill c bytes => Sys2Proof.Machine.execDecFill c bytes s
  | .decNextFrame c => Sys2Proof.Machine.execDecNextFrame c s
  | .decSetMode c m => Sys2Proof.Machine.execDecSetMode c m s
  | .decReset c => Sys2Proof.Machine.execDecReset c s
  | .decStatus c => Sys2Proof.Machine.execDecStatus c s
  | .encEncode c f => Sys2Proof.Machine.execEncEncode c f s
  | .encReset c => Sys2Proof.Machine.execEncReset c s
  | .encStatus c => Sys2Proof.Machine.execEncStatus c s
  | .wireHeader h => Sys2Proof.Machine.execWireHeader h s

end Sys2Proof.Machine
end

