-- ==== Sys2Proof/Machine/Fetch.lean ====
section
/-! DEFINITION. What a step takes from the input queue (log 2): nothing, an event, or an instruction
(spec/00_scope.md R3; spec/30_encoding.md R99, R101; spec/60_exceptions.md R251). -/

namespace Sys2Proof.Machine

/-- What the next input asks for. -/
inductive Fetched where
  /-- The input is answered without an instruction, or there is none. -/
  | done (o : Host.Outcome State Fault Refusal)
  /-- An instruction to run, in the state it runs in. -/
  | run (i : Instr) (s : State)

/-- The outcome of an event of the outside world: there is no response to it. -/
def concludeEvent (r : Res Unit) : Host.Outcome State Fault Refusal :=
  match r with
  | .ok _ s => .next { s with resp := none }
  | .abort s => .next (takeAbort s)
  | .fault f => .fault f

/-- Take the oldest input. With none the block is idle and all its state stays (R261). A record that is no
command is answered `REFUSED` (R101), unless the block is stuck (R251 (1)). -/
def fetch (s : State) : Fetched :=
  match s.inbox with
  | [] => .done (.next s)
  | .reset :: rest => .done (.next (resetEvent rest s))
  | .handOver agent item receiver :: rest =>
    if s.abort then .done (.fault .aborted)
    else .done (concludeEvent (handOver agent item receiver { s with inbox := rest }))
  | .command agent p :: rest =>
    match decode s.cfg p with
    | .ok (i, _) => .run i { s with inbox := rest, agent := agent }
    | .error _ => .done (unlessAborted { s with inbox := rest, agent := agent } refuse)

/-- `s` with a packet put where the next step takes its input. -/
def placePacket (p : Packet) (s : State) : State := { s with inbox := .command s.agent p :: s.inbox }

end Sys2Proof.Machine
end

