-- ==== Sys2Proof/Machine/Step.lean ====
section
/-! DEFINITION. One step of the block: take the oldest input and answer it (spec/00_scope.md R10;
spec/20_memory.md R73). -/

namespace Sys2Proof.Machine

/-- One step. -/
def step (s : State) : Host.Outcome State Fault Refusal :=
  match fetch s with
  | .done o => o
  | .run i t => exec i t

/-- `s` with the instruction of a word of spec/opcode_table.json issued by the agent `s.agent`, ahead of every
other input, so that the next step runs it (log 2). -/
def State.withFetchWord (s : State) (nbits w : Nat) : State := placePacket (tablePacket s.cfg nbits w) s

end Sys2Proof.Machine
end

