-- ==== Sys2Proof/Safety.lean ====
section
/-! DEFINITION. What a good state and a safe run are, in the terms the statements use: the invariants of
spec/10_state.md R28 and R39, the caller's side of an operation (spec/70_reset_and_hazards.md R280, R281), frame
equality (spec/42_frame.md R167), quiescence (R292), and the caller's decode loop
(spec/30_encoding.md R112, spec/43_decoder.md R187). -/

namespace Sys2Proof.Machine

/-! ### What a caller may do -/

/-- The agent whose command runs owns the slice, as the block issued it (R281). -/
abbrev Owns (s : State) (h : Slice) : Prop :=
  findLive s.live h.id = some { slice := h, holder := .caller s.agent }

/-- The agent whose command runs owns the frame, as the block issued it (R281). -/
abbrev OwnsFrame (s : State) (f : Frame) : Prop :=
  findLive s.live f.buf.id
    = some { slice := f.buf, holder := .frame s.agent f.kind f.payOff f.payLen }

/-- The agent whose command runs holds a frame on the slice with this id, whatever the frame is (R281, log 10). -/
abbrev HoldsFrame (s : State) (id : Nat) : Prop :=
  ∃ e, findLive s.live id = some e ∧
    ((∃ kind off len, e.holder = .frame s.agent kind off len) ∨ e.holder = .damagedFrame s.agent)

/-- The agent whose command runs may drive the decoder of connection `c`, which is `D` (R280). -/
abbrev DrivesDec (s : State) (c : Nat) (D : DecState) : Prop :=
  s.decs[c]? = some D ∧ (D.driver = none ∨ D.driver = some s.agent)

/-- The agent whose command runs may drive the encoder of connection `c`, which is `E` (R280). -/
abbrev DrivesEnc (s : State) (c : Nat) (E : EncState) : Prop :=
  s.encs[c]? = some E ∧ (E.driver = none ∨ E.driver = some s.agent)

/-- `s` with a response recorded (R99). -/
def answered (st : Status) (r : Result) (s : State) : State :=
  { s with resp := some { status := st, result := r } }

/-- An acquire or release leaves the rest of the spec's state as it was: `POOLMEM`, `ABORT`, the decoders, the
encoders, and the configuration (R122, R127); and the count of ids from before the last reset (log 24). -/
def SameElsewhere (s t : State) : Prop :=
  t.poolmem = s.poolmem ∧ t.abort = s.abort ∧ t.decs = s.decs ∧ t.encs = s.encs ∧ t.cfg = s.cfg ∧
  t.idBase = s.idBase

/-- `u` is `s` with what a decoder or encoder held, if anything, given back (R127). -/
structure GaveBack (held : Option Slice) (s u : State) : Prop where
  nothing : held = none → u = s
  heap : ∀ h, held = some h → h.idx = s.cfg.untracked →
    u = { s with heap := dropHeap s.heap h.id, live := dropLive s.live h.id }
  slot : ∀ h, held = some h → h.idx ≠ s.cfg.untracked →
    u = { s with mask := s.mask &&& ~~~ slotBit h.idx
                 live := dropLive s.live h.id
                 log := logToggle h.idx false s }

/-- What the encoder has of its frame's bytes: the header, or nothing, then the payload as stored, each byte
absent where nothing has written it (R93, R94, R210). -/
def wireStored (s : State) (f : Frame) : List (Option Byte) :=
  (match f.kind with
    | .std h => (headerBytes h).map some
    | .hs => []) ++
  (List.range f.payLen).map fun i => storedByte s f.buf (f.payOff + i)

/-! ### Invariants -/

/-- Memory is in its canonical form, and every byte that counts as written has a stored value. -/
structure MemoryOk (s : State) : Prop where
  pool : s.poolmem.wf
  heap : ∀ b ∈ s.heap, b.mem.wf
  heapIds : (s.heap.map HeapBuf.id).Pairwise (· < ·)
  heapOld : ∀ b ∈ s.heap, b.id < freshId s
  written : s.written.Pairwise (· < ·)
  stored : ∀ a ∈ s.written, (s.poolmem.read a).isSome

/-- A slice as `Acquire` makes one (R35): in slot `idx`, or in a heap buffer of `cap` bytes. -/
def SliceOk (s : State) (h : Slice) : Prop :=
  h.len ≤ h.cap ∧
  ((placeOf s.cfg h.idx = .pool ∧ h.off = slotOff s.cfg h.idx ∧ h.cap = slotCap s.cfg h.idx) ∨
   (h.idx = s.cfg.untracked ∧ h.off = 0 ∧ ∃ b, findHeap s.heap h.id = some b ∧ b.size = h.cap))

/-- R26, R35, R39: handle ids, the shape of live slices, and `MASK` as the record of who holds which slot. -/
structure PoolOk (s : State) : Prop where
  ids : (s.live.map fun e => e.slice.id).Pairwise (· < ·)
  old : ∀ e ∈ s.live, e.slice.id < freshId s
  shape : ∀ e ∈ s.live, SliceOk s e.slice
  taken : ∀ k, 1 ≤ k → k ≤ s.cfg.nSlots →
    (slotTaken s.mask k = true ↔ ∃ e ∈ s.live, e.slice.idx = k)
  unused : ∀ k, s.cfg.nSlots < k → k ≤ 8 → slotTaken s.mask k = false
  alone : s.live.Pairwise fun a b => placeOf s.cfg a.slice.idx = .pool → a.slice.idx ≠ b.slice.idx
  heapHeld : ∀ b ∈ s.heap, ∃ e ∈ s.live, e.slice.id = b.id ∧ e.slice.idx = s.cfg.untracked

/-- R37: what a frame's fields say of its buffer. -/
def FrameShapeOk (c : Config) (h : Slice) (kind : FrameKind) (payOff payLen : Nat) : Prop :=
  payOff + payLen ≤ h.len ∧
  match kind with
  | .std hdr => payLen = hdr.msgLength.toNat ∧ (payOff = 0 ∨ payOff = headerSize)
  | .hs => payOff = 0 ∧ payLen = c.handshakeLen

/-- R28(d), R281: a buffer of a decoder or encoder is a live slice it alone holds, and it holds no other. -/
structure HoldersOk (s : State) : Prop where
  decHas : ∀ c D b, s.decs[c]? = some D → D.buf = some b →
    findLive s.live b.id = some { slice := b, holder := .dec c }
  encHas : ∀ c E b, s.encs[c]? = some E → E.buf = some b →
    findLive s.live b.id = some { slice := b, holder := .enc c }
  decHeld : ∀ e ∈ s.live, ∀ c, e.holder = .dec c → ∃ D, s.decs[c]? = some D ∧ D.buf = some e.slice
  encHeld : ∀ e ∈ s.live, ∀ c, e.holder = .enc c → ∃ E, s.encs[c]? = some E ∧ E.buf = some e.slice
  frames : ∀ e ∈ s.live, ∀ a kind off len, e.holder = .frame a kind off len →
    FrameShapeOk s.cfg e.slice kind off len

/-- R28: the invariants of one decoder. `kept` is its "already-read header is preserved", and `given` the
part of R274 that it rests on: every byte counted as received has been written. -/
structure DecoderOk (s : State) (D : DecState) : Prop where
  mode : D.mode = .hs ↔ D.phase = .ahs
  count : D.received + D.missing = target s.cfg D
  empty : D.buf = none → D.received = 0
  within : ∀ b, D.buf = some b → D.received ≤ b.len ∧ b.len ≤ target s.cfg D
  ap : D.phase = .ap → headerSize ≤ D.received ∧ D.buf.isSome ∧ D.hdr.msgLength.toNat ≤ s.cfg.maxMsg
  given : ∀ b, D.buf = some b → ∀ i < D.received, (storedByte s b i).isSome
  kept : D.phase = .ap → ∀ b, D.buf = some b → ∀ i < headerSize, storedByte s b i = (headerBytes D.hdr)[i]?

/-- R30: the invariants of one encoder. -/
structure EncoderOk (E : EncState) : Prop where
  empty : E.buf = none → E.outLen = 0
  within : ∀ b, E.buf = some b → E.outLen ≤ b.cap

/-- The invariant of the block: R12's constraints, R28, R39, and the canonical form of memory. -/
structure BlockOk (s : State) : Prop where
  cfg : s.cfg.WF
  decs : s.decs.length = s.cfg.nConn
  encs : s.encs.length = s.cfg.nConn
  memory : MemoryOk s
  pool : PoolOk s
  holders : HoldersOk s
  decoders : ∀ D ∈ s.decs, DecoderOk s D
  encoders : ∀ E ∈ s.encs, EncoderOk E

/-! ### Bytes and frames -/

/-- The bytes of a frame's payload as stored, each absent where nothing has written it (R37). -/
def payloadStored (s : State) (f : Frame) : List (Option Byte) :=
  (List.range f.payLen).map fun i => storedByte s f.buf (f.payOff + i)

/-- R167: the same variant, the same header fields, the same payload bytes; backing storage, `pay_off` and
identity do not enter. Two bytes that nothing has written count as the same byte here (log 25, DESIGN CHOICE). -/
def SameFrame (s : State) (f : Frame) (t : State) (g : Frame) : Prop :=
  f.kind = g.kind ∧ payloadStored s f = payloadStored t g

/-- R292: the block is clean: no unit in flight, no fault, no abort, and every live slice is the buffer of a
decoder or encoder. Every slice and frame of every agent counts as one of some connection, a pool client's heap-backed
slice too (log 26, DESIGN CHOICE). -/
def Clean (s : State) : Prop :=
  s.abort = false ∧ (∀ D ∈ s.decs, D.received = 0 ∧ D.fault = false) ∧
  ∀ e ∈ s.live, ∃ c, e.holder = .dec c ∨ e.holder = .enc c

/-- `popcount(MASK)` (R14, R126). -/
def slotsInUse (s : State) : Nat := ((List.range 8).filter fun i => s.mask.getLsbD i).length

/-! ### Sequences of operations -/

/-- Run a list of operations by the same agent, stopping at the first fault. -/
def execAll : List Instr → State → Host.Outcome State Fault Refusal
  | [], s => .next s
  | i :: is, s =>
    match exec i s with
    | .next t => execAll is t
    | .fault f => .fault f
    | .refused r => .refused r

/-- The pseudo-operation `DEC.FEED@c [bytes]` (R112). -/
def feed (c : Nat) (bytes : List Byte) : List Instr := [.decWritable c, .decFill c bytes]

/-- One round of the caller's loop of R187: learn the window, fill it any number of times, ask for the frame. -/
def decodeRound (c : Nat) (fills : List (List Byte)) : List Instr :=
  .decWritable c :: (fills.map (.decFill c) ++ [.decNextFrame c])

/-- The caller's loop of R187, round after round. -/
def decodeLoop (c : Nat) (rounds : List (List (List Byte))) : List Instr := rounds.flatMap (decodeRound c)

/-- The loop over one standard frame: rounds for the header, then for the payload; where an empty payload gets no round,
one more `DEC.NEXT_FRAME` (R192). -/
def frameLoop (c : Nat) (hs ps : List (List (List Byte))) : List Instr :=
  decodeLoop c (hs ++ ps) ++ if ps = [] then [.decNextFrame c] else []

/-- The bytes that some rounds deliver. -/
def delivered (rounds : List (List (List Byte))) : List Byte := rounds.flatten.flatten

/-- Rounds that bring the bytes `bs` of one phase in order, with fills of any size, and are over when all have come
(R187, R196). -/
structure Brings (rounds : List (List (List Byte))) (bs : List Byte) : Prop where
  bytes : delivered rounds = bs
  last : ∀ k, k < rounds.length → 0 < k → (delivered (rounds.take k)).length < bs.length

/-! ### Instrumentation -/

/-- A state with its instrumentation switched, and its log and counter replaced (R266). -/
def withInstrumentation (on : Bool) (log : List Toggle) (n : Nat) (s : State) : State :=
  { s with cfg := { s.cfg with instrumentation := on }, log := log, heapAcquires := n }

/-- What a step shows when its next state's instrumentation is set aside (R40(c)). -/
def unlogged : Host.Outcome State Fault Refusal → Host.Outcome State Fault Refusal
  | .next s => .next (withInstrumentation false [] 0 s)
  | .fault f => .fault f
  | .refused r => .refused r

end Sys2Proof.Machine
end

