-- ==== Sys2Proof/Certificates/Slice0/Obligations.lean ====
section
/-! DEFINITION. What is stated of the block, for the provers. Each docstring names the rules it formalises. -/

set_option autoImplicit false

open Sys2Proof Sys2Proof.Machine

/-! ### Encodings -/

/-- R100, R102, and the model's byte layout (log 3, log 4): decoding the packet of a well-formed instruction,
with any bytes after it, gives that instruction and those bytes. -/
def Obligations.DecodingAnEncodedInstructionGivesItBack : Prop :=
  ∀ (c : Config) (i : Instr) (rest : List Byte), i.wellFormed c = true →
    decode c { encode c i with bytes := (encode c i).bytes ++ rest } = .ok (i, rest)

/-- R100, R91, R102, at the widths of TC, in the model's byte layout (log 3): words written out by hand. -/
def Obligations.SpecWordsDecodeAsTheTableSays : Prop :=
  decode .tc { form := .command, bytes := [0x01, 0x08, 0x00, 0x00, 0x00], ghost := 0 } = .ok (.poolAcquire 8, []) ∧
  decode .tc { form := .command, bytes := [0x14, 0x00, 0x00, 0x18, 0x08, 0x00, 0x00], ghost := 0 }
    = .ok (.hdrMsgtype { extType := 0, msgType := 0x18, msgLength := 8 }, []) ∧
  decode .tc { form := .command, bytes := [0x31, 0, 0, 0, 0, 2, 0, 0, 0, 0xAA, 0xBB], ghost := 0 }
    = .ok (.decFill 0 [0xAA, 0xBB], []) ∧
  decode .tc { form := .wire, bytes := [0x00, 0x80, 0x1A, 0x04, 0x01, 0x00], ghost := 0 }
    = .ok (.wireHeader { extType := 0x8000, msgType := 0x1A, msgLength := 260 }, [])

/-- R101: the unassigned opcodes are refused by the decoder; a record that is no command, whatever the reason
(an unassigned opcode, an operand not of its type), is answered `REFUSED` and changes nothing; and so is a `conn`
not below `N_CONN`, by every operation that takes one. -/
def Obligations.RecordsThatAreNoCommandAreRefused : Prop :=
  (∀ (c : Config) (p : Packet) (op : Byte) (rest : List Byte), p.form = .command → p.bytes = op :: rest →
    (op.toNat = 0 ∨ (0x06 ≤ op.toNat ∧ op.toNat ≤ 0x0F) ∨ (0x16 ≤ op.toNat ∧ op.toNat ≤ 0x1F) ∨
      (0x26 ≤ op.toNat ∧ op.toNat ≤ 0x2F) ∨ (0x36 ≤ op.toNat ∧ op.toNat ≤ 0x3F) ∨ 0x43 ≤ op.toNat) →
    decode c p = .error (.unassignedOpcode op)) ∧
  (∀ (s : State) (a : Nat) (p : Packet) (rest : List Input) (e : DecodeError),
    s.abort = false → s.inbox = .command a p :: rest → decode s.cfg p = .error e →
    step s = .next (answered .refused .nothing { s with inbox := rest, agent := a })) ∧
  (∀ (s : State) (c : Nat) (bs : List Byte) (m : Mode) (f : Frame),
    s.abort = false → s.decs.length = s.cfg.nConn → s.encs.length = s.cfg.nConn → s.cfg.nConn ≤ c →
    ∀ i ∈ [Instr.decWritable c, .decFill c bs, .decNextFrame c, .decSetMode c m, .decReset c, .decStatus c,
      .encEncode c f, .encReset c, .encStatus c],
    exec i s = .next (answered .refused .nothing s))

/-- R145: `HDR.PARSE` and `HDR.SERIALIZE` are inverse to each other, and bijections between headers and six-byte
strings. -/
def Obligations.ParseAndSerializeAreInverse : Prop :=
  (∀ (h : Header) (s : State), s.abort = false →
    exec (.hdrSerialize h) s = .next (answered .ok (.bytes (headerBytes h)) s) ∧
    exec (.hdrParse (headerBytes h)) s = .next (answered .ok (.header h) s)) ∧
  (∀ (bs : List Byte) (s : State), s.abort = false → headerSize ≤ bs.length →
    ∃ h, exec (.hdrParse bs) s = .next (answered .ok (.header h) s) ∧
      exec (.hdrSerialize h) s = .next (answered .ok (.bytes (bs.take headerSize)) s)) ∧
  (∀ bs : List Byte, bs.length = headerSize → ∃ h, headerBytes h = bs ∧ ∀ g, headerBytes g = bs → g = h)

/-- R91, R92: the fields of the 48-bit value of a header, its wire bytes, and the header read back from it; the
arithmetic of the fields, in both directions; the channel-message flag is bit 7 of byte 1. -/
def Obligations.HeaderWordAndFieldsAgreeWithTheBytes : Prop :=
  (∀ h : Header,
    (headerWord h).extractLsb' 0 15 = h.extType.extractLsb' 0 15 ∧
    (headerWord h).getLsbD 15 = channelFlag h ∧
    (headerWord h).extractLsb' 16 8 = h.msgType ∧
    (headerWord h).extractLsb' 24 24 = h.msgLength ∧
    (headerWord h).extractLsb' 0 16 = h.extType ∧
    (∀ i, i < headerSize → (headerBytes h)[i]? = some ((headerWord h).extractLsb' (8 * i) 8)) ∧
    headerOfWord (headerWord h) = h) ∧
  (∀ (b0 b1 b2 b3 b4 b5 : Byte), ∃ h, headerOfBytes [b0, b1, b2, b3, b4, b5] = some h ∧
    h.extType.toNat = b0.toNat + 256 * b1.toNat ∧
    h.msgType = b2 ∧
    h.msgLength.toNat = b3.toNat + 256 * b4.toNat + 65536 * b5.toNat ∧
    channelFlag h = b1.getLsbD 7) ∧
  (∀ h : Header, headerBytes h =
    [h.extType.extractLsb' 0 8, h.extType.extractLsb' 8 8, h.msgType,
     h.msgLength.extractLsb' 0 8, h.msgLength.extractLsb' 8 8, h.msgLength.extractLsb' 16 8])

/-! ### Steps, reset, abort -/

/-- R3, R99, R261 (log 2): when the oldest input is a command whose bytes decode, the step is that instruction,
run by the agent that issued it, with the input taken; with no input the block is idle and all its state stays. -/
def Obligations.StepRunsTheDecodedInstruction : Prop :=
  (∀ (s : State) (a : Nat) (p : Packet) (rest : List Input) (i : Instr) (after : List Byte),
    s.inbox = .command a p :: rest → decode s.cfg p = .ok (i, after) →
    step s = exec i { s with inbox := rest, agent := a }) ∧
  (∀ s : State, s.inbox = [] → step s = .next s)

/-- R41, R270 (the values the spec states; what it leaves unspecified is not stated): reset from any state, an
aborted one too; and nothing else clears `ABORT`. -/
def Obligations.ResetPutsEveryElementAtItsValue : Prop :=
  (∀ (s : State) (rest : List Input), s.inbox = .reset :: rest →
    ∃ t, step s = .next t ∧ t.mask = 0 ∧ t.heap = [] ∧ t.abort = false ∧ t.live = [] ∧ t.nextId = 0 ∧
      t.cfg = s.cfg ∧ t.decs.length = s.cfg.nConn ∧ t.encs.length = s.cfg.nConn ∧
      (∀ D ∈ t.decs, D.mode = .std ∧ D.phase = .ah ∧ D.missing = 6 ∧ D.received = 0 ∧ D.buf = none ∧
        D.fault = false) ∧
      (∀ E ∈ t.encs, E.buf = none ∧ E.outLen = 0)) ∧
  (∀ s t : State, s.abort = true → step s = .next t → t.abort = true ∨ ∃ rest, s.inbox = .reset :: rest)

/-- R25, R246, R251 (1): while `ABORT = 1` no operation of any agent has a step, nor a hand-over. -/
def Obligations.AbortedBlockHasNoOperation : Prop :=
  (∀ (i : Instr) (s : State), s.abort = true → exec i s = .fault .aborted) ∧
  (∀ (s : State) (x : Input) (rest : List Input), s.abort = true → s.inbox = x :: rest → x ≠ .reset →
    step s = .fault .aborted)

/-! ### Buffer pool -/

/-- R121: the slots that fit are the free ones of sufficient capacity, and there is none exactly when every slot
is taken or too small. -/
def Obligations.FittingSetIsFreeAndLargeEnough : Prop :=
  ∀ (c : Config) (m : BitVec 8) (len : Nat),
    (∀ k, k ∈ fit c m len ↔ (1 ≤ k ∧ k ≤ c.nSlots) ∧ m.getLsbD (8 - k) = false ∧ len ≤ slotCap c k) ∧
    (fit c m len = [] ↔ ∀ k, 1 ≤ k → k ≤ c.nSlots → m.getLsbD (8 - k) = true ∨ slotCap c k < len)

/-- R122: an acquire takes some fitting slot (the least under `lowest_index`), or, when none fits, a heap buffer
of exactly `len` bytes; it draws a fresh id (`freshId`, log 24), answers `OK` with the slice, and changes nothing else. -/
def Obligations.AcquireTakesAFittingSlotElseTheHeap : Prop :=
  ∀ (s : State) (len : Nat), s.abort = false →
    opcodeOf (.poolAcquire len) = some 0x01 ∧
    (fit s.cfg s.mask len ≠ [] →
      ∃ k h t, k ∈ fit s.cfg s.mask len ∧ (s.cfg.scan = .lowestIndex → ∀ j ∈ fit s.cfg s.mask len, k ≤ j) ∧
        h = { id := freshId s, idx := k, off := slotOff s.cfg k, len := len, cap := slotCap s.cfg k } ∧
        exec (.poolAcquire len) s = .next t ∧ t.resp = some { status := .ok, result := .slice h } ∧
        t.mask = s.mask ||| slotBit k ∧ t.live = s.live ++ [{ slice := h, holder := .caller s.agent }] ∧
        t.nextId = s.nextId + 1 ∧ t.heap = s.heap ∧ SameElsewhere s t) ∧
    (fit s.cfg s.mask len = [] →
      ∃ h t, h = { id := freshId s, idx := s.cfg.untracked, off := 0, len := len, cap := len } ∧
        exec (.poolAcquire len) s = .next t ∧ t.resp = some { status := .ok, result := .slice h } ∧
        t.mask = s.mask ∧ t.live = s.live ++ [{ slice := h, holder := .caller s.agent }] ∧
        t.nextId = s.nextId + 1 ∧ t.heap = s.heap ++ [{ id := freshId s, size := len, mem := [] }] ∧
        SameElsewhere s t)

/-- R120, R124, U1: an acquire never fails; the slice it returns has the length asked for, is live and the
caller's, was not live before, and nothing has written its bytes. -/
def Obligations.AcquiredSliceIsFreshAndUnwritten : Prop :=
  ∀ (s : State) (len : Nat), BlockOk s → s.abort = false →
    ∃ t h, exec (.poolAcquire len) s = .next t ∧ t.resp = some { status := .ok, result := .slice h } ∧
      h.len = len ∧ len ≤ h.cap ∧ findLive s.live h.id = none ∧ Owns t h ∧
      (∀ o, o < h.cap → storedByte t h o = none) ∧
      (∀ e ∈ s.live, ∀ o, o < e.slice.cap → storedByte t e.slice o = storedByte s e.slice o)

/-- R22, R39(a), R123: the slot an acquire takes was free, so no other live slice has it; its bit alone is set. -/
def Obligations.AcquireSetsOneClearBit : Prop :=
  ∀ (s t : State) (len : Nat) (h : Slice), BlockOk s → exec (.poolAcquire len) s = .next t →
    t.resp = some { status := .ok, result := .slice h } →
    (1 ≤ h.idx ∧ h.idx ≤ s.cfg.nSlots → slotTaken s.mask h.idx = false ∧ slotTaken t.mask h.idx = true ∧
      (∀ j, 1 ≤ j → j ≤ 8 → j ≠ h.idx → slotTaken t.mask j = slotTaken s.mask j) ∧
      ∀ e ∈ s.live, e.slice.idx ≠ h.idx) ∧
    (¬ (1 ≤ h.idx ∧ h.idx ≤ s.cfg.nSlots) → h.idx = s.cfg.untracked ∧ t.mask = s.mask)

/-- R127, R125: the four cases of a release. What other slices hold stays, and which of their bytes have been written
(`written`, log 6). -/
def Obligations.ReleaseGivesBackTheSlotOrTheBuffer : Prop :=
  ∀ (s : State) (h : Slice), s.abort = false →
    opcodeOf (.poolRelease h) = some 0x02 ∧
    (findLive s.live h.id = none → exec (.poolRelease h) s = .fault .notLive) ∧
    (Owns s h → h.idx = s.cfg.untracked →
      ∃ t, exec (.poolRelease h) s = .next t ∧ t.resp = some { status := .ok, result := .nothing } ∧
        t.mask = s.mask ∧ t.heap = dropHeap s.heap h.id ∧ t.live = dropLive s.live h.id ∧
        t.nextId = s.nextId ∧ t.written = s.written ∧ SameElsewhere s t) ∧
    (Owns s h → h.idx ≠ s.cfg.untracked → 1 ≤ h.idx → h.idx ≤ s.cfg.nSlots →
      ∃ t, exec (.poolRelease h) s = .next t ∧ t.resp = some { status := .ok, result := .nothing } ∧
        t.mask = s.mask &&& ~~~ slotBit h.idx ∧ t.heap = s.heap ∧ t.live = dropLive s.live h.id ∧
        t.nextId = s.nextId ∧ t.written = s.written ∧ SameElsewhere s t) ∧
    (Owns s h → h.idx ≠ s.cfg.untracked → ¬ (1 ≤ h.idx ∧ h.idx ≤ s.cfg.nSlots) →
      exec (.poolRelease h) s = .next { s with abort := true, resp := none })

/-- R128, R125: releasing slot `k` clears bit `8 − k` and touches no other; on a live slice a flip would do the
same; and the bytes of the region stay, as do those of every other slice. -/
def Obligations.ReleaseClearsItsBitAlone : Prop :=
  ∀ (s : State) (h : Slice), BlockOk s → s.abort = false → Owns s h → 1 ≤ h.idx → h.idx ≤ s.cfg.nSlots →
    ∃ t, exec (.poolRelease h) s = .next t ∧ t.mask = s.mask ^^^ slotBit h.idx ∧
      slotTaken s.mask h.idx = true ∧ slotTaken t.mask h.idx = false ∧
      (∀ j, 1 ≤ j → j ≤ 8 → j ≠ h.idx → slotTaken t.mask j = slotTaken s.mask j) ∧
      t.poolmem = s.poolmem ∧ t.heap = s.heap ∧ t.written = s.written

/-- R129, R246 (log 10): a live handle with a corrupt index, its other fields being whatever they are, sets `ABORT`
when it reaches `Release`, gets no response and leaves what was done before. By `POOL.RELEASE` and `FRM.DROP` nothing
was; a frame may be built on such a handle, and its drop aborts; `ENC.ENCODE` has by then chosen its scratch buffer
and written the header into it, and leaves the frame's buffer, every other live slice and `E.out_len`. From then on no
operation has a step; an acquired slice never has such an index. Before `Release`, the handle names no memory: through it
`POOL.RD` answers any bytes, as many as asked for, and `POOL.WR` of at least one byte is the fault `noPlace`, each
`REFUSED` out of bounds; a write of no bytes does nothing (R64, R131). -/
def Obligations.CorruptIndexAborts : Prop :=
  (∀ (s : State) (g h : Slice), s.abort = false → Owns s g → h.id = g.id → placeOf s.cfg h.idx = .corrupt →
    exec (.poolRelease h) s = .next { s with abort := true, resp := none }) ∧
  (∀ (s : State) (f : Frame), s.abort = false → HoldsFrame s f.buf.id → placeOf s.cfg f.buf.idx = .corrupt →
    exec (.frmDrop f) s = .next { s with abort := true, resp := none }) ∧
  (∀ (s : State) (g h : Slice) (ty : BitVec 8) (e : BitVec 16) (flag : Bool), s.abort = false → Owns s g →
    h.id = g.id → placeOf s.cfg h.idx = .corrupt → h.len ≤ s.cfg.maxMsg →
    ∃ t f, exec (.frmFromMessage h ty e flag) s = .next t ∧ t.resp = some { status := .ok, result := .frame f } ∧
      f.buf = h ∧ HoldsFrame t h.id) ∧
  (∀ (s : State) (g h : Slice) (off n : Nat) (bs : List Byte), s.abort = false → Owns s g → h.id = g.id →
    placeOf s.cfg h.idx = .corrupt →
    (off + n ≤ h.len → ∃ xs, xs.length = n ∧
      exec (.poolRd (.slice h) off n) s = .next (answered .ok (.bytes xs) { s with free := s.free + n })) ∧
    (h.len < off + n → exec (.poolRd (.slice h) off n) s = .next (answered .refused .nothing s)) ∧
    (off + bs.length ≤ h.len → bs ≠ [] → exec (.poolWr h off bs) s = .fault .noPlace) ∧
    (off ≤ h.len → exec (.poolWr h off []) s = .next (answered .ok .nothing s)) ∧
    (h.len < off + bs.length → exec (.poolWr h off bs) s = .next (answered .refused .nothing s))) ∧
  (∀ (s : State) (c : Nat) (E : EncState) (f : Frame), BlockOk s → s.abort = false → DrivesEnc s c E →
    HoldsFrame s f.buf.id → placeOf s.cfg f.buf.idx = .corrupt →
    ∃ t b, exec (.encEncode c f) s = .next t ∧ t.abort = true ∧ t.resp = none ∧
      t.encs = s.encs.set c { E with buf := some b, driver := some s.agent } ∧ b.len = wireLength s.cfg f ∧
      findLive t.live b.id = some { slice := b, holder := .enc c } ∧
      (∀ h, f.kind = .std h → ∀ i, i < 6 → storedByte t b i = (headerBytes h)[i]?) ∧
      (∀ e ∈ s.live, E.buf.map Slice.id ≠ some e.slice.id →
        findLive t.live e.slice.id = some e ∧
        ∀ o, o < e.slice.cap → storedByte t e.slice o = storedByte s e.slice o) ∧
      t.decs = s.decs ∧ t.cfg = s.cfg) ∧
  (∀ (s : State) (i : Instr), s.abort = true → exec i s = .fault .aborted) ∧
  (∀ (s : State) (len : Nat) (who : Holder), s.cfg.WF → placeOf s.cfg (acquire len who s).1.idx ≠ .corrupt)

/-- R131: writing through a slice: dead handle, out of bounds, and the bytes stored. -/
def Obligations.WriteStoresInsideTheSlice : Prop :=
  ∀ (s : State) (h : Slice) (off : Nat) (bs : List Byte), s.abort = false →
    opcodeOf (.poolWr h off bs) = some 0x03 ∧
    (findLive s.live h.id = none → exec (.poolWr h off bs) s = .fault .notLive) ∧
    (Owns s h → h.len < off + bs.length →
      exec (.poolWr h off bs) s = .next (answered .refused .nothing s)) ∧
    (BlockOk s → Owns s h → off + bs.length ≤ h.len →
      exec (.poolWr h off bs) s = .next (answered .ok .nothing (storeBytes h off bs s)))

/-- R64, R65: what `POOL.WR` leaves in every byte. In its own slice the bytes written and the others as before;
the bytes of every other live slice as before; every byte of `POOLMEM` outside the addresses `h.off + off ..` as
before, and all of it when the slice is heap-backed; every other heap buffer as before; and the rest of the
state. -/
def Obligations.WriteChangesOnlyTheAddressedBytes : Prop :=
  ∀ (s t : State) (h : Slice) (off : Nat) (bs : List Byte), BlockOk s → Owns s h → off + bs.length ≤ h.len →
    exec (.poolWr h off bs) s = .next t →
    (∀ o, storedByte t h o = if off ≤ o ∧ o < off + bs.length then bs[o - off]? else storedByte s h o) ∧
    (∀ e ∈ s.live, e.slice.id ≠ h.id → ∀ o, o < e.slice.cap →
      storedByte t e.slice o = storedByte s e.slice o) ∧
    (∀ a, ¬ (h.off + off ≤ a ∧ a < h.off + off + bs.length) → t.poolmem.read a = s.poolmem.read a) ∧
    (h.idx = s.cfg.untracked → t.poolmem = s.poolmem ∧ t.written = s.written) ∧
    (∀ j, j ≠ h.id → findHeap t.heap j = findHeap s.heap j) ∧
    (h.idx ≠ s.cfg.untracked → t.heap = s.heap) ∧
    t.mask = s.mask ∧ t.abort = s.abort ∧ t.live = s.live ∧ t.nextId = s.nextId ∧ t.decs = s.decs ∧
    t.encs = s.encs ∧ t.cfg = s.cfg ∧ t.log = s.log

/-- R132, R63: reading through a slice the caller owns, or through a view of a frame's live buffer or of an encoder's
scratch buffer (there the view of its last output, log 13): the bytes, or `REFUSED` out of the bounds of the slice or
the view, or of the view's slice; the block's state stays (`free` counts free values used, log 6). -/
def Obligations.ReadAnswersTheBytes : Prop :=
  (∀ r off n, opcodeOf (.poolRd r off n) = some 0x04) ∧
  (∀ (s : State) (h : Slice) (off n : Nat), s.abort = false → Owns s h →
    (h.len < off + n → exec (.poolRd (.slice h) off n) s = .next (answered .refused .nothing s)) ∧
    (BlockOk s → off + n ≤ h.len →
      exec (.poolRd (.slice h) off n) s
        = .next (answered .ok (.bytes (bytesAt s h off n)) { s with free := s.free + n }))) ∧
  (∀ (s : State) (v : View) (who : Holder) (off n : Nat), s.abort = false →
    findLive s.live v.slice.id = some { slice := v.slice, holder := who } → isLastView s who v = true →
    (v.len < off + n ∨ v.slice.len < v.off + off + n →
      exec (.poolRd (.view v) off n) s = .next (answered .refused .nothing s)) ∧
    (BlockOk s → off + n ≤ v.len → v.off + off + n ≤ v.slice.len →
      exec (.poolRd (.view v) off n) s
        = .next (answered .ok (.bytes (bytesAt s v.slice (v.off + off) n)) { s with free := s.free + n }))) ∧
  (∀ (s : State) (h : Slice) (off n i : Nat) (b : Byte), i < n → storedByte s h (off + i) = some b →
    (bytesAt s h off n)[i]? = some b) ∧
  (∀ (s : State) (h : Slice) (off n : Nat), (bytesAt s h off n).length = n)

/-- R131, R132 (the examples' general form): what `POOL.WR` wrote, `POOL.RD` reads back. -/
def Obligations.ReadAfterWriteGivesTheBytesWritten : Prop :=
  ∀ (s : State) (h : Slice) (off : Nat) (bs : List Byte), BlockOk s → s.abort = false → Owns s h →
    off + bs.length ≤ h.len →
    ∃ t u, exec (.poolWr h off bs) s = .next t ∧ exec (.poolRd (.slice h) off bs.length) t = .next u ∧
      u.resp = some { status := .ok, result := .bytes bs }

/-- U12, R212, R284, R285 (log 13): a view of an encoder's output that is not its last reads any bytes, as many as
asked for, also where the scratch buffer has since been given another length; a view whose slice is dead is a
fault. -/
def Obligations.EndedViewsReadAnyBytesOrFault : Prop :=
  (∀ (s : State) (v : View) (c m off n : Nat), s.abort = false →
    findLive s.live v.slice.id = some { slice := { v.slice with len := m }, holder := .enc c } →
    placeOf s.cfg v.slice.idx ≠ .corrupt → m ≠ v.slice.len ∨ isLastView s (.enc c) v = false →
    (v.len < off + n ∨ v.slice.len < v.off + off + n →
      exec (.poolRd (.view v) off n) s = .next (answered .refused .nothing s)) ∧
    (off + n ≤ v.len → v.off + off + n ≤ v.slice.len → ∃ bs, bs.length = n ∧
      exec (.poolRd (.view v) off n) s = .next (answered .ok (.bytes bs) { s with free := s.free + n }))) ∧
  (∀ (s : State) (v : View) (off n : Nat), s.abort = false → findLive s.live v.slice.id = none →
    exec (.poolRd (.view v) off n) s = .fault .notLive)

/-! ### Headers -/

/-- R141, R144: `HDR.PARSE` of fewer than six bytes, and of six or more; `HDR.SERIALIZE`; no state changes. -/
def Obligations.ParseReadsAndSerializeWritesSixBytes : Prop :=
  ∀ s : State, s.abort = false →
    (∀ bs, opcodeOf (.hdrParse bs) = some 0x10 ∧
      (bs.length < 6 → exec (.hdrParse bs) s = .next (answered .malformedHeader .nothing s))) ∧
    (∀ b0 b1 b2 b3 b4 b5 rest, ∃ h : Header,
      exec (.hdrParse (b0 :: b1 :: b2 :: b3 :: b4 :: b5 :: rest)) s = .next (answered .ok (.header h) s) ∧
      h.extType.toNat = b0.toNat + 256 * b1.toNat ∧ h.msgType = b2 ∧
      h.msgLength.toNat = b3.toNat + 256 * b4.toNat + 65536 * b5.toNat) ∧
    (∀ h, opcodeOf (.hdrSerialize h) = some 0x11 ∧
      exec (.hdrSerialize h) s = .next (answered .ok (.bytes
        [h.extType.extractLsb' 0 8, h.extType.extractLsb' 8 8, h.msgType,
         h.msgLength.extractLsb' 0 8, h.msgLength.extractLsb' 8 8, h.msgLength.extractLsb' 16 8]) s))

/-- R147, R148: `HDR.BUILD` above `MAX_MSG_LENGTH` and not above it; the extension type is kept as given; no state
changes. -/
def Obligations.BuildChecksTheLength : Prop :=
  ∀ (s : State) (e : BitVec 16) (t : BitVec 8) (len : Nat), s.abort = false →
    opcodeOf (.hdrBuild e t len) = some 0x12 ∧
    (s.cfg.maxMsg < len → exec (.hdrBuild e t len) s = .next (answered .malformedHeader .nothing s)) ∧
    (len ≤ s.cfg.maxMsg → exec (.hdrBuild e t len) s = .next (answered .ok
      (.header { extType := e, msgType := t, msgLength := BitVec.ofNat 24 len }) s)) ∧
    (s.cfg.WF → len ≤ s.cfg.maxMsg → (BitVec.ofNat 24 len).toNat = len)

/-- R150, R151, R152: the accessors answer their field and change nothing. -/
def Obligations.AccessorsAnswerTheirField : Prop :=
  ∀ (s : State) (h : Header), s.abort = false →
    opcodeOf (.hdrChid h) = some 0x13 ∧ opcodeOf (.hdrMsgtype h) = some 0x14 ∧ opcodeOf (.hdrMsglen h) = some 0x15 ∧
    exec (.hdrChid h) s = .next (answered .ok (.bit (h.extType.getLsbD 15)) s) ∧
    exec (.hdrMsgtype h) s = .next (answered .ok (.msgType h.msgType) s) ∧
    exec (.hdrMsglen h) s = .next (answered .ok (.msgLength h.msgLength) s)

/-- R91, and the model's choice for the data format row `WIRE.HEADER` (log 5): six wire bytes handed to the block
as such are answered with the header they stand for, and nothing changes. -/
def Obligations.WireHeaderAnswersTheHeader : Prop :=
  ∀ (s : State) (h : Header) (a g o : Nat) (rest : List Input), s.abort = false →
    exec (.wireHeader h) s = .next (answered .ok (.header h) s) ∧
    step { s with inbox := .command a { form := .wire, bytes := headerBytes h, ghost := g, output := o } :: rest }
      = .next (answered .ok (.header h) { s with inbox := rest, agent := a })

/-! ### Frames -/

/-- R161, R162: `FRM.FROM_MESSAGE`: too long a payload answers `NONE` and changes nothing; else the frame, whose
flag bit is the flag operand, and which takes the slice over. -/
def Obligations.FromMessageBuildsAStandardFrame : Prop :=
  ∀ (s : State) (p : Slice) (t : BitVec 8) (e : BitVec 16) (flag : Bool), s.abort = false → Owns s p →
    opcodeOf (.frmFromMessage p t e flag) = some 0x20 ∧
    (s.cfg.maxMsg < p.len →
      exec (.frmFromMessage p t e flag) s = .next (answered .none .nothing s)) ∧
    (p.len ≤ s.cfg.maxMsg →
      ∃ x : BitVec 16, x.getLsbD 15 = flag ∧ (∀ i, i < 15 → x.getLsbD i = e.getLsbD i) ∧
        exec (.frmFromMessage p t e flag) s = .next (answered .ok
          (.frame { kind := .std { extType := x, msgType := t, msgLength := BitVec.ofNat 24 p.len }
                    buf := p, payOff := 0, payLen := p.len })
          (setHolder p.id
            (.frame s.agent (.std { extType := x, msgType := t, msgLength := BitVec.ofNat 24 p.len }) 0 p.len) s)))

/-- R164, R165, R166: the read-only frame operations answer and change nothing, the frame too; and what the view
of `FRM.PAYLOAD` spans in a block that meets the invariants. -/
def Obligations.FrameReadersAnswerAndChangeNothing : Prop :=
  ∀ (s : State) (f : Frame), s.abort = false → OwnsFrame s f →
    opcodeOf (.frmHeader f) = some 0x21 ∧ opcodeOf (.frmPayload f) = some 0x22 ∧
    opcodeOf (.frmEncodedLength f) = some 0x23 ∧
    (∀ h, f.kind = .std h → exec (.frmHeader f) s = .next (answered .ok (.header h) s)) ∧
    (f.kind = .hs → exec (.frmHeader f) s = .next (answered .none .nothing s)) ∧
    exec (.frmPayload f) s
      = .next (answered .ok (.view { slice := f.buf, off := f.payOff, len := f.payLen }) s) ∧
    (∀ h, f.kind = .std h →
      exec (.frmEncodedLength f) s = .next (answered .ok (.count (6 + h.msgLength.toNat)) s)) ∧
    (f.kind = .hs → exec (.frmEncodedLength f) s = .next (answered .ok (.count s.cfg.handshakeLen) s)) ∧
    (BlockOk s → (∀ h, f.kind = .std h → f.payLen = h.msgLength.toNat) ∧
      (f.kind = .hs → f.payOff = 0 ∧ f.payLen = s.cfg.handshakeLen))

/-- R168: `FRM.FROM_HANDSHAKE`: a wrong length answers `NONE` and changes nothing; else the frame. -/
def Obligations.FromHandshakeBuildsAHandshakeFrame : Prop :=
  ∀ (s : State) (p : Slice), s.abort = false → Owns s p →
    opcodeOf (.frmFromHandshake p) = some 0x24 ∧
    (p.len ≠ s.cfg.handshakeLen → exec (.frmFromHandshake p) s = .next (answered .none .nothing s)) ∧
    (p.len = s.cfg.handshakeLen →
      exec (.frmFromHandshake p) s = .next (answered .ok
        (.frame { kind := .hs, buf := p, payOff := 0, payLen := s.cfg.handshakeLen })
        (setHolder p.id (.frame s.agent .hs 0 s.cfg.handshakeLen) s)))

/-- R169, R125: `FRM.DROP` is the release of the frame's buffer, with the effects and the abort of `POOL.RELEASE`. -/
def Obligations.DropReleasesTheFramesBuffer : Prop :=
  ∀ (s : State) (f : Frame), s.abort = false →
    opcodeOf (.frmDrop f) = some 0x25 ∧
    (findLive s.live f.buf.id = none → exec (.frmDrop f) s = .fault .notLive) ∧
    (OwnsFrame s f → f.buf.idx = s.cfg.untracked →
      ∃ t, exec (.frmDrop f) s = .next t ∧ t.resp = some { status := .ok, result := .nothing } ∧
        t.mask = s.mask ∧ t.heap = dropHeap s.heap f.buf.id ∧ t.live = dropLive s.live f.buf.id ∧
        t.nextId = s.nextId ∧ t.written = s.written ∧ SameElsewhere s t) ∧
    (OwnsFrame s f → f.buf.idx ≠ s.cfg.untracked → 1 ≤ f.buf.idx → f.buf.idx ≤ s.cfg.nSlots →
      ∃ t, exec (.frmDrop f) s = .next t ∧ t.resp = some { status := .ok, result := .nothing } ∧
        t.mask = s.mask &&& ~~~ slotBit f.buf.idx ∧ t.heap = s.heap ∧ t.live = dropLive s.live f.buf.id ∧
        t.nextId = s.nextId ∧ t.written = s.written ∧ SameElsewhere s t) ∧
    (OwnsFrame s f → f.buf.idx ≠ s.cfg.untracked → ¬ (1 ≤ f.buf.idx ∧ f.buf.idx ≤ s.cfg.nSlots) →
      exec (.frmDrop f) s = .next { s with abort := true, resp := none })

/-! ### Decoder -/

/-- R182, R184, R185: `DEC.WRITABLE` answers the window. Faulted: refused. No buffer: one of `T` bytes is
acquired. A buffer of `T` bytes: nothing changes. A shorter one that has room: lengthened in place. A shorter one
without room: replaced, the bytes received so far kept, and the old one released. (`claimDec` records the driving
agent, ghost, log 12; `D.hdr` stays as it is, outside `AP` too, log 8.) -/
def Obligations.WritableOpensTheWindow : Prop :=
  ∀ (s : State) (c : Nat) (D : DecState), BlockOk s → s.abort = false → DrivesDec s c D →
    (D.fault = true → exec (.decWritable c) s = .next (answered .refused .nothing (claimDec c D s))) ∧
    (D.fault = false →
      (D.buf = none →
        exec (.decWritable c) s = .next (answered .ok (.window D.received D.missing)
          (setDec c { D with buf := some (acquire (target s.cfg D) (.dec c) (claimDec c D s)).1
                             driver := some s.agent }
            (acquire (target s.cfg D) (.dec c) (claimDec c D s)).2))) ∧
      (∀ b, D.buf = some b → target s.cfg D ≤ b.len →
        exec (.decWritable c) s = .next (answered .ok (.window D.received D.missing) (claimDec c D s))) ∧
      (∀ b, D.buf = some b → b.len < target s.cfg D → target s.cfg D ≤ b.cap →
        exec (.decWritable c) s = .next (answered .ok (.window D.received D.missing)
          (setDec c { D with buf := some { b with len := target s.cfg D }, driver := some s.agent }
            (setSliceLen b.id (target s.cfg D) (claimDec c D s))))) ∧
      (∀ b, D.buf = some b → b.len < target s.cfg D → b.cap < target s.cfg D →
        ∃ t n, exec (.decWritable c) s = .next t ∧
          t.resp = some { status := .ok, result := .window D.received D.missing } ∧
          n = (acquire (target s.cfg D) (.dec c) (claimDec c D s)).1 ∧
          t.decs[c]? = some { D with buf := some n, driver := some s.agent } ∧
          findLive t.live n.id = some { slice := n, holder := .dec c } ∧ findLive t.live b.id = none ∧
          (∀ i, i < D.received → storedByte t n i = storedByte s b i)))

/-- R64, R65, R184, R185: what `DEC.WRITABLE` leaves. The bytes of every live slice other than the decoder's old
buffer, every other decoder, every encoder, the configuration; of `POOLMEM`, only the copied bytes at the start of
the new buffer may change, and none when that is heap-backed; of `MASK`, only the bits of the decoder's old and new buffer. (Every heap buffer is some
live slice's, so the first clause speaks of those too.) -/
def Obligations.WritableChangesOnlyItsDecoderAndBuffer : Prop :=
  ∀ (s t : State) (c : Nat) (D : DecState), BlockOk s → DrivesDec s c D → exec (.decWritable c) s = .next t →
    (∀ e ∈ s.live, D.buf.map Slice.id ≠ some e.slice.id →
      findLive t.live e.slice.id = some e ∧
      ∀ o, o < e.slice.cap → storedByte t e.slice o = storedByte s e.slice o) ∧
    (∀ a, (∀ D' n, t.decs[c]? = some D' → D'.buf = some n → ¬ (n.off ≤ a ∧ a < n.off + D.received)) →
      t.poolmem.read a = s.poolmem.read a) ∧
    (∀ D' n, t.decs[c]? = some D' → D'.buf = some n → n.idx = s.cfg.untracked → t.poolmem = s.poolmem) ∧
    (∀ j, j ≠ c → t.decs[j]? = s.decs[j]?) ∧ t.encs = s.encs ∧ t.cfg = s.cfg ∧ t.abort = false ∧
    (∀ j, 1 ≤ j → j ≤ 8 → (∀ b, D.buf = some b → b.idx ≠ j) →
      (∀ D' n, t.decs[c]? = some D' → D'.buf = some n → n.idx ≠ j) → slotTaken t.mask j = slotTaken s.mask j)

/-- R186: `DEC.FILL`: its three refusals change nothing; else the bytes go into the window and the counters
move. (`driver` and `claimDec` are ghost, log 12; `D.hdr` stays as it is, outside `AP` too, log 8.) -/
def Obligations.FillStoresTheNextBytes : Prop :=
  ∀ (s : State) (c : Nat) (D : DecState) (bs : List Byte), BlockOk s → s.abort = false → DrivesDec s c D →
    (D.fault = true ∨ D.buf = none ∨ (∃ b, D.buf = some b ∧ b.len ≠ target s.cfg D) ∨ D.missing < bs.length →
      exec (.decFill c bs) s = .next (answered .refused .nothing (claimDec c D s))) ∧
    (∀ b, D.fault = false → D.buf = some b → b.len = target s.cfg D → bs.length ≤ D.missing →
      exec (.decFill c bs) s = .next (answered .ok .nothing
        (setDec c { D with received := D.received + bs.length
                           missing := D.missing - bs.length
                           driver := some s.agent }
          (storeBytes b D.received bs (claimDec c D s)))))

/-- R64, R65, R186: what `DEC.FILL` leaves in every byte: the bytes filled at offset `D.have` of the decoder's
buffer and no other, in `POOLMEM` and in every heap buffer; other decoders, the encoders and the pool's record are
unchanged. -/
def Obligations.FillChangesOnlyTheWindow : Prop :=
  ∀ (s t : State) (c : Nat) (D : DecState) (b : Slice) (bs : List Byte), BlockOk s → DrivesDec s c D →
    D.buf = some b → exec (.decFill c bs) s = .next t →
    (∀ o, storedByte t b o = if t.resp = some { status := .ok, result := .nothing } ∧
        D.received ≤ o ∧ o < D.received + bs.length then bs[o - D.received]? else storedByte s b o) ∧
    (∀ e ∈ s.live, e.slice.id ≠ b.id → ∀ o, o < e.slice.cap →
      storedByte t e.slice o = storedByte s e.slice o) ∧
    (∀ a, ¬ (b.off + D.received ≤ a ∧ a < b.off + D.received + bs.length) →
      t.poolmem.read a = s.poolmem.read a) ∧
    (b.idx = s.cfg.untracked → t.poolmem = s.poolmem) ∧
    (∀ j, j ≠ b.id → findHeap t.heap j = findHeap s.heap j) ∧
    (∀ j, j ≠ c → t.decs[j]? = s.decs[j]?) ∧
    t.mask = s.mask ∧ t.abort = s.abort ∧ t.live = s.live ∧ t.nextId = s.nextId ∧ t.encs = s.encs ∧
    t.cfg = s.cfg ∧ t.log = s.log

/-- R190, R192, R193, R195: `DEC.NEXT_FRAME`, arm by arm. (`driver` and `claimDec` are ghost, log 12; `free`
counts free values, log 6; with `AP` left, `D.hdr` is some header, R27, U10, and the other arms but `AH` keep it, log 8.) -/
def Obligations.NextFrameFollowsThePhase : Prop :=
  ∀ (s : State) (c : Nat) (D : DecState), BlockOk s → s.abort = false → DrivesDec s c D →
    (D.fault = true →
      exec (.decNextFrame c) s = .next (answered .malformedHeader .nothing (claimDec c D s))) ∧
    (D.fault = false → 0 < D.missing →
      exec (.decNextFrame c) s = .next (answered .needBytes (.count D.missing) (claimDec c D s))) ∧
    (D.fault = false → D.missing = 0 →
      ∃ b, D.buf = some b ∧
      (D.phase = .ah →
        ∃ h : Header, (∀ i, i < 6 → storedByte s b i = (headerBytes h)[i]?) ∧
          (s.cfg.maxMsg < h.msgLength.toNat →
            exec (.decNextFrame c) s = .next (answered .malformedHeader .nothing
              (setDec c { D with fault := true, driver := some s.agent }
                { claimDec c D s with free := s.free + 6 }))) ∧
          (h.msgLength.toNat ≤ s.cfg.maxMsg →
            exec (.decNextFrame c) s = .next (answered .needBytes (.count h.msgLength.toNat)
              (setDec c { D with hdr := h, phase := .ap, missing := h.msgLength.toNat, driver := some s.agent }
                { claimDec c D s with free := s.free + 6 })))) ∧
      (D.phase = .ap →
        ∃ g : Header, exec (.decNextFrame c) s = .next (answered .ok
          (.frame { kind := .std D.hdr, buf := b, payOff := 6, payLen := D.hdr.msgLength.toNat })
          (setHolder b.id (.frame s.agent (.std D.hdr) 6 D.hdr.msgLength.toNat)
            (setDec c { D with hdr := g, buf := none, received := 0, phase := .ah, missing := 6,
                               driver := some s.agent }
              { claimDec c D s with free := s.free + 1 })))) ∧
      (D.phase = .ahs →
        exec (.decNextFrame c) s = .next (answered .ok
          (.frame { kind := .hs, buf := b, payOff := 0, payLen := s.cfg.handshakeLen })
          (setHolder b.id (.frame s.agent .hs 0 s.cfg.handshakeLen)
            (setDec c { D with buf := none, received := 0, missing := s.cfg.handshakeLen, driver := some s.agent }
              (claimDec c D s))))))

/-- R181: the phase of a decoder changes only by its own `DEC.NEXT_FRAME`, `DEC.SET_MODE` or `DEC.RESET`, and
`DEC.NEXT_FRAME` moves it only from `AH` to `AP` and from `AP` to `AH`; with `D.fault = 1` only `DEC.RESET` moves it. -/
def Obligations.PhaseMovesOnlyAsTheTableSays : Prop :=
  ∀ (i : Instr) (s t : State) (c : Nat) (D D' : DecState), exec i s = .next t →
    s.decs[c]? = some D → t.decs[c]? = some D' → D'.phase ≠ D.phase →
    (i = .decNextFrame c ∧ D.fault = false ∧ D.missing = 0 ∧
      ((D.phase = .ah ∧ D'.phase = .ap ∧ D'.missing = D'.hdr.msgLength.toNat) ∨
       (D.phase = .ap ∧ D'.phase = .ah ∧ D'.missing = 6))) ∨
    (∃ m, i = .decSetMode c m ∧ D.fault = false ∧ D.received = 0 ∧ D'.phase = startPhase m) ∨
    (i = .decReset c ∧ D'.phase = .ah)

/-- R32, R191: `D.fault` is set only by the `AH` arm of `DEC.NEXT_FRAME`, and cleared only by `DEC.RESET`; from a state
that meets the invariants it is set only where the six buffered bytes are a header whose length is above the
maximum. -/
def Obligations.DecoderFaultIsSticky : Prop :=
  ∀ (i : Instr) (s t : State) (c : Nat) (D D' : DecState), exec i s = .next t →
    s.decs[c]? = some D → t.decs[c]? = some D' →
    (D.fault = false → D'.fault = true →
      i = .decNextFrame c ∧ D.phase = .ah ∧ D.missing = 0 ∧
      t.resp = some { status := .malformedHeader, result := .nothing } ∧ s.cfg.maxMsg < 16777215 ∧
      (BlockOk s → ∃ b h, D.buf = some b ∧ (∀ k, k < 6 → storedByte s b k = (headerBytes h)[k]?) ∧
        s.cfg.maxMsg < h.msgLength.toNat)) ∧
    (D.fault = true → D'.fault = false → i = .decReset c)

/-- R224: `DEC.SET_MODE` in mid-unit, or faulted, is refused; at a unit boundary it sets mode, phase and count, and
releases an empty buffer if one is held. (`driver` is ghost, log 12; `D.hdr` stays as it is, log 8.) -/
def Obligations.SetModeOnlyAtAUnitBoundary : Prop :=
  ∀ (s : State) (c : Nat) (D : DecState) (m : Mode), BlockOk s → s.abort = false → DrivesDec s c D →
    (D.fault = true ∨ 0 < D.received →
      exec (.decSetMode c m) s = .next (answered .refused .nothing (claimDec c D s))) ∧
    (D.fault = false → D.received = 0 →
      ∃ u, GaveBack D.buf (claimDec c D s) u ∧
        exec (.decSetMode c m) s = .next (answered .ok .nothing
          (setDec c { D with buf := none
                             mode := m
                             phase := match m with | .std => .ah | .hs => .ahs
                             missing := match m with | .std => 6 | .hs => s.cfg.handshakeLen
                             driver := some s.agent } u)))

/-- R226: `DEC.RESET` gives the working buffer back and puts the decoder at its reset values, in every state of
the decoder; `D.hdr` is left unspecified (some header). (`driver` is ghost, log 12; `free`, log 8.) -/
def Obligations.DecResetRestoresResetValues : Prop :=
  ∀ (s : State) (c : Nat) (D : DecState), BlockOk s → s.abort = false → DrivesDec s c D →
    ∃ u h, GaveBack D.buf (claimDec c D s) u ∧
      exec (.decReset c) s = .next (answered .ok .nothing
        (setDec c { mode := .std, phase := .ah, hdr := h, missing := 6, received := 0, buf := none,
                    fault := false, driver := some s.agent } { u with free := u.free + 1 }))

/-- R221, R228, R231: the status operations answer `MASK` and their records and change nothing (but for the ghost
driver, log 12); bits of slots above `N_SLOTS` read 0. -/
def Obligations.StatusOperationsAnswerTheirRecord : Prop :=
  opcodeOf .poolStatus = some 0x05 ∧
  (∀ s : State,
    (s.abort = false → exec .poolStatus s = .next (answered .ok (.mask s.mask) s)) ∧
    (BlockOk s → ∀ k, s.cfg.nSlots < k → k ≤ 8 → s.mask.getLsbD (8 - k) = false)) ∧
  (∀ (s : State) (c : Nat) (D : DecState), s.abort = false → DrivesDec s c D →
    exec (.decStatus c) s = .next (answered .ok
      (.decStatus D.mode D.phase D.missing D.received D.buf.isSome D.fault) (claimDec c D s))) ∧
  (∀ (s : State) (c : Nat) (E : EncState), s.abort = false → DrivesEnc s c E →
    exec (.encStatus c) s = .next (answered .ok (.encStatus E.buf.isSome E.outLen) (claimEnc c E s)))

/-! ### Encoder -/

/-- R210, R211, R214: encoding a frame all of whose payload has been written: the view's bytes are the header (or
nothing) followed by the payload; the scratch buffer is reused while it is large enough, else it is what `Acquire(need)`
gives, an old one being released first; the frame is consumed; `E.out_len` is the length. (`driver` is ghost, log 12; `outputs` and `output`, log 13; `freshId`, log 24.) -/
def Obligations.EncodeWritesHeaderAndPayload : Prop :=
  ∀ (s : State) (c : Nat) (E : EncState) (f : Frame), BlockOk s → s.abort = false → DrivesEnc s c E →
    OwnsFrame s f →
    ∃ t b, exec (.encEncode c f) s = .next t ∧
      t.resp = some { status := .ok, result := .view { slice := b, off := 0, len := wireLength s.cfg f,
                                                       output := E.outputs + 1 } } ∧
      t.encs[c]? = some { buf := some b, outLen := wireLength s.cfg f, outputs := E.outputs + 1,
                          driver := some s.agent } ∧
      b.len = wireLength s.cfg f ∧ findLive t.live b.id = some { slice := b, holder := .enc c } ∧
      findLive t.live f.buf.id = none ∧
      (∀ o, E.buf = some o → wireLength s.cfg f ≤ o.cap → b = { o with len := wireLength s.cfg f }) ∧
      (∀ o, E.buf = some o → o.cap < wireLength s.cfg f → findLive t.live o.id = none ∧ b.id = freshId s) ∧
      (E.buf = none → b.id = freshId s) ∧
      ((∀ o, E.buf = some o → o.cap < wireLength s.cfg f) →
        ∃ u, GaveBack E.buf (claimEnc c E s) u ∧ b = (acquire (wireLength s.cfg f) (.enc c) u).1) ∧
      ((∀ i, i < f.payLen → (storedByte s f.buf (f.payOff + i)).isSome) →
        (List.range (wireLength s.cfg f)).map (storedByte t b) = wireStored s f)

/-- R64, R65, R210, R214(f): what `ENC.ENCODE` leaves: the bytes of every live slice but the frame's and the scratch
buffer's, every decoder, every other encoder; of `POOLMEM` only the bytes of the output may change, and none when the
scratch buffer is heap-backed; of `MASK` only the bits of the frame's buffer and of the old and new scratch buffer. -/
def Obligations.EncodeChangesOnlyItsEncoderAndFrame : Prop :=
  ∀ (s t : State) (c : Nat) (E : EncState) (f : Frame), BlockOk s → s.abort = false → DrivesEnc s c E →
    OwnsFrame s f → exec (.encEncode c f) s = .next t →
    (∀ e ∈ s.live, e.slice.id ≠ f.buf.id → E.buf.map Slice.id ≠ some e.slice.id →
      findLive t.live e.slice.id = some e ∧
      ∀ o, o < e.slice.cap → storedByte t e.slice o = storedByte s e.slice o) ∧
    (∀ a, (∀ E' b, t.encs[c]? = some E' → E'.buf = some b → ¬ (b.off ≤ a ∧ a < b.off + wireLength s.cfg f)) →
      t.poolmem.read a = s.poolmem.read a) ∧
    (∀ E' b, t.encs[c]? = some E' → E'.buf = some b → b.idx = s.cfg.untracked → t.poolmem = s.poolmem) ∧
    (∀ j, 1 ≤ j → j ≤ 8 → j ≠ f.buf.idx → (∀ o, E.buf = some o → j ≠ o.idx) →
      (∀ E' b, t.encs[c]? = some E' → E'.buf = some b → j ≠ b.idx) → slotTaken t.mask j = slotTaken s.mask j) ∧
    (∀ j, j ≠ c → t.encs[j]? = s.encs[j]?) ∧ t.decs = s.decs ∧ t.cfg = s.cfg ∧ t.abort = false

/-- R213: the encoder's output depends on the header and the payload bytes alone: two frames of the same kind
with the same, fully written, payload give the same bytes, in any two states, on any connections. -/
def Obligations.EncodeIsDeterministic : Prop :=
  ∀ (s1 s2 t1 t2 : State) (c1 c2 : Nat) (E1 E2 : EncState) (f1 f2 : Frame),
    BlockOk s1 → BlockOk s2 → s1.abort = false → s2.abort = false → s1.cfg.handshakeLen = s2.cfg.handshakeLen →
    DrivesEnc s1 c1 E1 → DrivesEnc s2 c2 E2 → OwnsFrame s1 f1 → OwnsFrame s2 f2 → SameFrame s1 f1 s2 f2 →
    (∀ i, i < f1.payLen → (storedByte s1 f1.buf (f1.payOff + i)).isSome) →
    exec (.encEncode c1 f1) s1 = .next t1 → exec (.encEncode c2 f2) s2 = .next t2 →
    ∃ b1 b2 n o1 o2,
      t1.resp = some { status := .ok, result := .view { slice := b1, off := 0, len := n, output := o1 } } ∧
      t2.resp = some { status := .ok, result := .view { slice := b2, off := 0, len := n, output := o2 } } ∧
      (List.range n).map (storedByte t1 b1) = (List.range n).map (storedByte t2 b2)

/-- R230: `ENC.RESET` gives the scratch buffer back, which ends the validity of the last output view; every other
live slice stays. (`driver` is ghost, log 12; `outputs`, log 13.) -/
def Obligations.EncResetGivesTheScratchBack : Prop :=
  ∀ (s : State) (c : Nat) (E : EncState), BlockOk s → s.abort = false → DrivesEnc s c E →
    ∃ u, GaveBack E.buf (claimEnc c E s) u ∧
      exec (.encReset c) s = .next (answered .ok .nothing
        (setEnc c { buf := none, outLen := 0, outputs := E.outputs, driver := some s.agent } u)) ∧
      (∀ b, E.buf = some b → findLive u.live b.id = none) ∧
      (∀ e ∈ s.live, E.buf.map Slice.id ≠ some e.slice.id → findLive u.live e.slice.id = some e)

/-! ### Misuse -/

/-- U3, R26, R251 (3), R283: an operation on a handle that is not live is a fault, so a second release, or any
use after a release, is one. -/
def Obligations.DeadHandlesFault : Prop :=
  (∀ (s : State) (h : Slice) (off n : Nat) (bs : List Byte) (t : BitVec 8) (e : BitVec 16) (flag : Bool) (v : View),
    s.abort = false → findLive s.live h.id = none → v.slice = h →
    ∀ i ∈ [Instr.poolRelease h, .poolWr h off bs, .poolRd (.slice h) off n, .poolRd (.view v) off n,
      .frmFromMessage h t e flag, .frmFromHandshake h], exec i s = .fault .notLive) ∧
  (∀ (s : State) (f : Frame), s.abort = false → findLive s.live f.buf.id = none →
    (∀ i ∈ [Instr.frmHeader f, .frmPayload f, .frmEncodedLength f, .frmDrop f], exec i s = .fault .notLive) ∧
    ∀ (c : Nat) (E : EncState), DrivesEnc s c E → exec (.encEncode c f) s = .fault .notLive) ∧
  (∀ (s t : State) (h : Slice), Owns s h → placeOf s.cfg h.idx ≠ .corrupt → exec (.poolRelease h) s = .next t →
    exec (.poolRelease h) t = .fault .notLive)

/-- R271, R26 (that an id never comes twice, across resets too, is the model's ghost state, log 24): after a reset no
handle is live, so every operation on one from before is the fault `notLive`; and an id that has been drawn and is dead
is dead after any step, so every such handle stays dead for good. -/
def Obligations.HandlesFromBeforeAResetStayDead : Prop :=
  (∀ (s : State) (rest : List Input), s.inbox = .reset :: rest →
    ∃ t, step s = .next t ∧ freshId t = freshId s ∧
      ∀ (h : Slice) (v : View) (f : Frame) (off n : Nat) (bs : List Byte) (ty : BitVec 8) (e : BitVec 16) (flag : Bool),
      ∀ i ∈ [Instr.poolRelease h, .poolWr h off bs, .poolRd (.slice h) off n, .poolRd (.view v) off n,
        .frmFromMessage h ty e flag, .frmFromHandshake h, .frmHeader f, .frmPayload f, .frmEncodedLength f, .frmDrop f],
        exec i t = .fault .notLive ∧ ∀ c, c < s.cfg.nConn → exec (.encEncode c f) t = .fault .notLive) ∧
  (∀ (s t : State) (id : Nat), BlockOk s → step s = .next t → id < freshId s → findLive s.live id = none →
    id < freshId t ∧ findLive t.live id = none)

/-- U3, R281, R251 (3) (log 9): a live slice that the agent does not hold itself (another agent, a frame, a decoder or an
encoder does), or a frame that it does not (one over a slice it has given to no frame, whatever the index, is the model's
choice, log 27), is the fault `notOwner`; a live handle or frame of the agent's own with a
valid index that differs from the one issued, a frame built on a damaged handle and then given a valid index, and a view
of a live slice that the block has not issued, are the fault `forged`. -/
def Obligations.ForeignAndForgedHandlesFault : Prop :=
  (∀ (s : State) (h : Slice) (e : LiveEntry) (off n : Nat) (bs : List Byte) (ty : BitVec 8) (x : BitVec 16)
      (flag : Bool), s.abort = false → findLive s.live h.id = some e → e.holder ≠ .caller s.agent →
    ∀ i ∈ [Instr.poolRelease h, .poolWr h off bs, .poolRd (.slice h) off n, .frmFromMessage h ty x flag,
      .frmFromHandshake h], exec i s = .fault .notOwner) ∧
  (∀ (s : State) (f : Frame) (e : LiveEntry), s.abort = false → findLive s.live f.buf.id = some e →
    ¬ HoldsFrame s f.buf.id →
    (∀ i ∈ [Instr.frmHeader f, .frmPayload f, .frmEncodedLength f, .frmDrop f], exec i s = .fault .notOwner) ∧
    ∀ (c : Nat) (E : EncState), DrivesEnc s c E → exec (.encEncode c f) s = .fault .notOwner) ∧
  (∀ (s : State) (g h : Slice) (off n : Nat) (bs : List Byte) (ty : BitVec 8) (x : BitVec 16) (flag : Bool),
    s.abort = false → Owns s g → h.id = g.id → h ≠ g → placeOf s.cfg h.idx ≠ .corrupt →
    ∀ i ∈ [Instr.poolRelease h, .poolWr h off bs, .poolRd (.slice h) off n, .frmFromMessage h ty x flag,
      .frmFromHandshake h], exec i s = .fault .forged) ∧
  (∀ (s : State) (f : Frame), s.abort = false → HoldsFrame s f.buf.id → ¬ OwnsFrame s f →
    placeOf s.cfg f.buf.idx ≠ .corrupt →
    (∀ i ∈ [Instr.frmHeader f, .frmPayload f, .frmEncodedLength f, .frmDrop f], exec i s = .fault .forged) ∧
    ∀ (c : Nat) (E : EncState), DrivesEnc s c E → exec (.encEncode c f) s = .fault .forged) ∧
  (∀ (s : State) (v : View) (e : LiveEntry) (off n : Nat), s.abort = false → findLive s.live v.slice.id = some e →
    placeOf s.cfg v.slice.idx ≠ .corrupt → ¬ (v.slice = e.slice ∧ isLastView s e.holder v = true) →
    (∀ c, e.holder = .enc c → { v.slice with len := e.slice.len } ≠ e.slice) →
    exec (.poolRd (.view v) off n) s = .fault .forged)

/-- U3, R161, R168, R281: once a frame of either kind has taken a slice over, its former owner may not use the slice. -/
def Obligations.SliceGivenToAFrameIsNotTheCallers : Prop :=
  ∀ (s t : State) (p : Slice) (f : Frame) (ty : BitVec 8) (e : BitVec 16) (flag : Bool) (off n : Nat) (bs : List Byte),
    ∀ i ∈ [Instr.frmFromMessage p ty e flag, .frmFromHandshake p],
    Owns s p → exec i s = .next t → t.resp = some { status := .ok, result := .frame f } →
    OwnsFrame t f ∧
    ∀ j ∈ [Instr.poolWr p off bs, .poolRd (.slice p) off n, .poolRelease p, .frmFromMessage p ty e flag,
      .frmFromHandshake p], exec j t = .fault .notOwner

/-- U8, R280, R75 (ghost drivers, and what a hand-over of a decoder or encoder may do, are the model's, log 12): an
operation on a decoder or encoder that another agent drives is a race; a hand-over of one by its driver, or of one that
nobody drives yet, makes the receiver its driver; by another agent it is a race; and of a connection not below `N_CONN` it is
the fault `noConnection`. -/
def Obligations.SecondDriverIsARace : Prop :=
  (∀ (s : State) (c a : Nat) (D : DecState) (bs : List Byte) (m : Mode), s.abort = false →
    s.decs[c]? = some D → D.driver = some a → a ≠ s.agent →
    ∀ i ∈ [Instr.decWritable c, .decFill c bs, .decNextFrame c, .decSetMode c m, .decReset c, .decStatus c],
      exec i s = .fault .race) ∧
  (∀ (s : State) (c a : Nat) (E : EncState) (f : Frame), s.abort = false →
    s.encs[c]? = some E → E.driver = some a → a ≠ s.agent →
    ∀ i ∈ [Instr.encEncode c f, .encReset c, .encStatus c], exec i s = .fault .race) ∧
  (∀ (s : State) (c a b : Nat) (D : DecState) (rest : List Input), s.abort = false →
    s.inbox = .handOver a (.decoder c) b :: rest → s.decs[c]? = some D →
    (D.driver = none ∨ D.driver = some a →
      ∃ t, step s = .next t ∧ DrivesDec { t with agent := b } c { D with driver := some b }) ∧
    (∀ d, D.driver = some d → d ≠ a → step s = .fault .race)) ∧
  (∀ (s : State) (c a b : Nat) (E : EncState) (rest : List Input), s.abort = false →
    s.inbox = .handOver a (.encoder c) b :: rest → s.encs[c]? = some E →
    (E.driver = none ∨ E.driver = some a →
      ∃ t, step s = .next t ∧ DrivesEnc { t with agent := b } c { E with driver := some b }) ∧
    (∀ d, E.driver = some d → d ≠ a → step s = .fault .race)) ∧
  (∀ (s : State) (c a b : Nat) (rest : List Input), s.abort = false →
    (s.inbox = .handOver a (.decoder c) b :: rest → s.decs[c]? = none → step s = .fault .noConnection) ∧
    (s.inbox = .handOver a (.encoder c) b :: rest → s.encs[c]? = none → step s = .fault .noConnection))

/-- R75, R281: handing a slice or a frame over makes the receiver its owner and touches no byte; of a frame built on a
damaged handle too (log 10). Handing over a handle that is not live is the fault `notLive`, and one that another agent, a
decoder or an encoder holds the fault `notOwner` (log 12). -/
def Obligations.HandOverMovesOwnership : Prop :=
  ∀ (s : State) (a b id : Nat) (rest : List Input), s.abort = false → s.inbox = .handOver a (.handle id) b :: rest →
    (∀ h : Slice, h.id = id → findLive s.live id = some { slice := h, holder := .caller a } →
      ∃ t, step s = .next t ∧ Owns { t with agent := b } h ∧
        (∀ g o, storedByte t g o = storedByte s g o) ∧ t.mask = s.mask ∧ t.decs = s.decs ∧ t.encs = s.encs ∧
        (∀ j, j ≠ id → findLive t.live j = findLive s.live j)) ∧
    (∀ f : Frame, f.buf.id = id →
      findLive s.live id = some { slice := f.buf, holder := .frame a f.kind f.payOff f.payLen } →
      ∃ t, step s = .next t ∧ OwnsFrame { t with agent := b } f ∧
        (∀ g o, storedByte t g o = storedByte s g o) ∧ t.mask = s.mask ∧ t.decs = s.decs ∧ t.encs = s.encs ∧
        (∀ j, j ≠ id → findLive t.live j = findLive s.live j)) ∧
    (findLive s.live id = none → step s = .fault .notLive) ∧
    (∀ e, findLive s.live id = some e →
      (e.holder = .damagedFrame a → ∃ t, step s = .next t ∧
        findLive t.live id = some { slice := e.slice, holder := .damagedFrame b } ∧
        (∀ g o, storedByte t g o = storedByte s g o) ∧ t.mask = s.mask ∧ t.decs = s.decs ∧ t.encs = s.encs ∧
        (∀ j, j ≠ id → findLive t.live j = findLive s.live j)) ∧
      (e.holder ≠ .caller a → ¬ HoldsFrame { s with agent := a } id → step s = .fault .notOwner))

/-! ### Whole-machine rules -/

/-- The invariants hold after reset: of `State.reset`, whose configuration is TC (log 1), and with every
configuration that meets `Config.WF`: the constraints of R12, and the model's own on where a slot ends (log 23). -/
def Obligations.InvariantHoldsAtReset : Prop :=
  Config.tc.WF ∧ BlockOk State.reset ∧ ∀ c : Config, c.WF → BlockOk (State.resetWith c)

/-- R28, R39, R41: every step keeps the invariants of the pool, the decoders, the encoders and memory. -/
def Obligations.EveryStepKeepsTheInvariant : Prop :=
  ∀ s t : State, BlockOk s → step s = .next t → BlockOk t

/-- Every step keeps memory in its canonical form, from any state whose memory is in it. -/
def Obligations.EveryStepKeepsMemoryCanonical : Prop :=
  ∀ s t : State, MemoryOk s → step s = .next t → MemoryOk t

/-- R39(a), (b), (d), R65, R126: the number of slots in use never exceeds `N_SLOTS`; two distinct live slices never
share an id, a slot or a byte of `POOLMEM`, nor, their ids being distinct, a heap buffer. -/
def Obligations.LiveSlicesAreApartAndFitTheSlots : Prop :=
  ∀ s : State, BlockOk s →
    slotsInUse s ≤ s.cfg.nSlots ∧
    ∀ d e : LiveEntry, d ∈ s.live → e ∈ s.live → d ≠ e →
      d.slice.id ≠ e.slice.id ∧
      (d.slice.idx ≠ s.cfg.untracked → e.slice.idx ≠ s.cfg.untracked →
        d.slice.idx ≠ e.slice.idx ∧
        (d.slice.off + d.slice.len ≤ e.slice.off ∨ e.slice.off + e.slice.len ≤ d.slice.off))

/-- R21, R273: the configuration never changes, whatever the step. -/
def Obligations.ConfigurationNeverChanges : Prop :=
  ∀ s t : State, step s = .next t → t.cfg = s.cfg

/-- R63, R28 (logs 10, 19): from a state that meets the invariants, no operation stops on an access outside its
slice or on a missing working buffer, and one stops for want of a place only if it is `POOL.WR` of at least one byte
on a handle whose index is corrupt. -/
def Obligations.BlockNeverMisusesItsOwnMemory : Prop :=
  ∀ (s : State) (i : Instr), BlockOk s →
    exec i s ≠ .fault .badAccess ∧ exec i s ≠ .fault .noBuffer ∧
    (exec i s = .fault .noPlace →
      ∃ h off bs, i = .poolWr h off bs ∧ placeOf s.cfg h.idx = .corrupt ∧ bs ≠ [])

/-- R129, R246: from a state that meets the invariants, `ABORT` is set only by an operation whose own slice or
frame operand has a corrupt index. -/
def Obligations.AbortComesOnlyFromADamagedHandle : Prop :=
  ∀ (s t : State) (i : Instr), BlockOk s → exec i s = .next t → t.abort = true →
    (∃ h, i = .poolRelease h ∧ placeOf s.cfg h.idx = .corrupt) ∨
    (∃ f, i = .frmDrop f ∧ placeOf s.cfg f.buf.idx = .corrupt) ∨
    (∃ c f, i = .encEncode c f ∧ placeOf s.cfg f.buf.idx = .corrupt)

/-- R71, R260: an operation changes no decoder and no encoder but those of the connection it names. -/
def Obligations.ConnectionsDoNotTouchEachOther : Prop :=
  ∀ (i : Instr) (s t : State), exec i s = .next t →
    (∀ c, (∀ bs m, i ≠ .decWritable c ∧ i ≠ .decFill c bs ∧ i ≠ .decNextFrame c ∧ i ≠ .decSetMode c m ∧
      i ≠ .decReset c ∧ i ≠ .decStatus c) → t.decs[c]? = s.decs[c]?) ∧
    (∀ c, (∀ f, i ≠ .encEncode c f ∧ i ≠ .encReset c ∧ i ≠ .encStatus c) → t.encs[c]? = s.encs[c]?)

/-- R40(c), R266: instrumentation changes no observable behaviour: two states that differ only in the switch, the
log and the counter give the same step, those three apart. -/
def Obligations.InstrumentationIsNotObservable : Prop :=
  ∀ (s : State) (on : Bool) (log : List Toggle) (n : Nat),
    unlogged (step (withInstrumentation on log n s)) = unlogged (step s)

/-- R292: in a clean block that meets the invariants and whose decoders and encoders hold no buffer, no slot is
taken and no heap buffer is left. -/
def Obligations.CleanBlockHoldsNoSlot : Prop :=
  ∀ s : State, BlockOk s → Clean s → (∀ D ∈ s.decs, D.buf = none) → (∀ E ∈ s.encs, E.buf = none) →
    (∀ k, 1 ≤ k → k ≤ 8 → slotTaken s.mask k = false) ∧ s.heap = [] ∧ s.live = []

/-- R196: from a decoder at a frame boundary, any run of the loop of R187 whose fills (any number of them a round, of
any sizes, empty ones too) bring the six header bytes and then the `L` payload bytes ends with the frame and with the
decoder at a frame boundary again (when `L = 0` with one round more, or one more `DEC.NEXT_FRAME`, R192). Every round
before the last is answered `NEED_BYTES(r)`, with `r` the bytes of the phase not yet delivered, so at most those of the
frame; and the one round after which the phase is first `AP`, where the `AH` arm was taken, answers `NEED_BYTES(L)`. -/
def Obligations.DecoderReassemblesAnyChunking : Prop :=
  ∀ (s : State) (c : Nat) (D : DecState) (h : Header) (pay : List Byte) (hs ps : List (List (List Byte))),
    BlockOk s → s.abort = false → DrivesDec s c D → D.phase = .ah → D.received = 0 → D.fault = false →
    h.msgLength.toNat ≤ s.cfg.maxMsg → pay.length = h.msgLength.toNat →
    Brings hs (headerBytes h) → Brings ps pay →
    (∃ t b D', execAll (frameLoop c hs ps) s = .next t ∧
      t.resp = some { status := .ok,
                      result := .frame { kind := .std h, buf := b, payOff := 6, payLen := pay.length } } ∧
      (∀ i, i < 6 + pay.length → storedByte t b i = (headerBytes h ++ pay)[i]?) ∧
      OwnsFrame t { kind := .std h, buf := b, payOff := 6, payLen := pay.length } ∧
      t.decs[c]? = some D' ∧ D'.phase = .ah ∧ D'.received = 0 ∧ D'.missing = 6 ∧ D'.buf = none) ∧
    ∀ k, 0 < k → k < hs.length + max 1 ps.length →
      ∃ u D' r, execAll (decodeLoop c ((hs ++ ps).take k)) s = .next u ∧
        u.resp = some { status := .needBytes, result := .count r } ∧ u.decs[c]? = some D' ∧
        (k < hs.length → D'.phase = .ah ∧ r + (delivered ((hs ++ ps).take k)).length = 6) ∧
        (hs.length ≤ k → D'.phase = .ap ∧ r + (delivered ((hs ++ ps).take k)).length = 6 + pay.length) ∧
        (k = hs.length → r = pay.length)

/-- R197: encoding a frame whose payload has been written, reading its output through the view, and bringing those bytes
to a decoder at a frame boundary, in rounds of any fills, gives an equal frame (R167); for a handshake frame through a
decoder in handshake mode. -/
def Obligations.RoundTripGivesTheFrameBack : Prop :=
  ∀ (s : State) (c d : Nat) (E : EncState) (D : DecState) (f : Frame), BlockOk s → s.abort = false →
    DrivesEnc s c E → DrivesDec s d D → D.received = 0 → D.fault = false → OwnsFrame s f →
    (∀ i, i < f.payLen → (storedByte s f.buf (f.payOff + i)).isSome) →
    ∃ t v u out, exec (.encEncode c f) s = .next t ∧ t.resp = some { status := .ok, result := .view v } ∧
      exec (.poolRd (.view v) 0 v.len) t = .next u ∧ u.resp = some { status := .ok, result := .bytes out } ∧
      (∀ h hs ps, f.kind = .std h → h.msgLength.toNat ≤ s.cfg.maxMsg → D.phase = .ah →
        Brings hs (out.take 6) → Brings ps (out.drop 6) →
        ∃ w g, execAll (frameLoop d hs ps) u = .next w ∧ w.resp = some { status := .ok, result := .frame g } ∧
          OwnsFrame w g ∧ SameFrame s f w g) ∧
      (∀ hs, f.kind = .hs → D.phase = .ahs → Brings hs out →
        ∃ w g, execAll (decodeLoop d hs) u = .next w ∧ w.resp = some { status := .ok, result := .frame g } ∧
          OwnsFrame w g ∧ SameFrame s f w g)
end

