-- ==== Sys2Proof/Laws/Check.lean ====
section
/-! SUPPORT. A check that the invariant of Sys2Proof/Safety.lean holds of a concrete state, by evaluation:
`blockCheck s` computes, and where it answers `true` the state meets `BlockOk`. -/

namespace Sys2Proof.Machine

/-- `Config.WF`, by evaluation. -/
def configCheck (c : Config) : Bool :=
  decide (1 ≤ c.nSlots ∧ c.nSlots ≤ 8) && decide (∀ r ∈ c.regions, 1 ≤ r.cap) &&
  decide (∀ r ∈ c.regions, r.off + r.cap < 2 ^ c.lenW) && decide (c.regions.Pairwise Region.Disjoint) &&
  decide (1 ≤ c.handshakeLen ∧ c.handshakeLen < 2 ^ c.lenW) &&
  decide (¬ (1 ≤ c.untracked ∧ c.untracked ≤ 8) ∧ c.untracked < 2 ^ c.idxW) &&
  decide (25 ≤ c.lenW ∧ 4 ≤ c.idxW ∧ 1 ≤ c.nConn ∧ c.maxMsg ≤ lengthFieldMax)

theorem configCheck_ok {c : Config} (h : configCheck c = true) : c.WF := by
  simp only [configCheck, Bool.and_eq_true, decide_eq_true_eq] at h
  obtain ⟨⟨⟨⟨⟨⟨h1, h2⟩, h3⟩, h4⟩, h5⟩, h6⟩, h7, h8, h9, h10⟩ := h
  exact ⟨h1, h2, h3, h4, h5, h6, h7, h8, h9, h10⟩

/-- `MemoryOk`, by evaluation. -/
def memoryCheck (s : State) : Bool :=
  decide s.poolmem.wf && decide (∀ b ∈ s.heap, b.mem.wf) &&
  decide ((s.heap.map HeapBuf.id).Pairwise (· < ·)) && decide (∀ b ∈ s.heap, b.id < freshId s) &&
  decide (s.written.Pairwise (· < ·)) && decide (∀ a ∈ s.written, (s.poolmem.read a).isSome)

theorem memoryCheck_ok {s : State} (h : memoryCheck s = true) : MemoryOk s := by
  simp only [memoryCheck, Bool.and_eq_true, decide_eq_true_eq] at h
  obtain ⟨⟨⟨⟨⟨h1, h2⟩, h3⟩, h4⟩, h5⟩, h6⟩ := h
  exact ⟨h1, h2, h3, h4, h5, h6⟩

/-- `SliceOk`, by evaluation. -/
def sliceCheck (s : State) (h : Slice) : Bool :=
  decide (h.len ≤ h.cap) &&
  (decide (placeOf s.cfg h.idx = .pool ∧ h.off = slotOff s.cfg h.idx ∧ h.cap = slotCap s.cfg h.idx) ||
   (decide (h.idx = s.cfg.untracked ∧ h.off = 0) && (findHeap s.heap h.id).any fun b => b.size == h.cap))

theorem sliceCheck_ok {s : State} {h : Slice} (hc : sliceCheck s h = true) : SliceOk s h := by
  simp only [sliceCheck, Bool.and_eq_true, Bool.or_eq_true, decide_eq_true_eq, Option.any_eq_true, beq_iff_eq] at hc
  obtain ⟨h1, h2 | ⟨⟨h2, h3⟩, b, hb, h4⟩⟩ := hc
  · exact ⟨h1, .inl h2⟩
  · exact ⟨h1, .inr ⟨h2, h3, b, hb, h4⟩⟩

/-- `PoolOk`, by evaluation. -/
def poolCheck (s : State) : Bool :=
  decide ((s.live.map fun e => e.slice.id).Pairwise (· < ·)) && decide (∀ e ∈ s.live, e.slice.id < freshId s) &&
  decide (∀ e ∈ s.live, sliceCheck s e.slice = true) &&
  decide (∀ k ∈ List.range 9, 1 ≤ k → k ≤ s.cfg.nSlots → (slotTaken s.mask k = true ↔ ∃ e ∈ s.live, e.slice.idx = k)) &&
  decide (∀ k ∈ List.range 9, s.cfg.nSlots < k → slotTaken s.mask k = false) &&
  decide (s.live.Pairwise fun a b => placeOf s.cfg a.slice.idx = .pool → a.slice.idx ≠ b.slice.idx) &&
  decide (∀ b ∈ s.heap, ∃ e ∈ s.live, e.slice.id = b.id ∧ e.slice.idx = s.cfg.untracked)

theorem poolCheck_ok {s : State} (hc : s.cfg.WF) (h : poolCheck s = true) : PoolOk s := by
  simp only [poolCheck, Bool.and_eq_true, decide_eq_true_eq] at h
  obtain ⟨⟨⟨⟨⟨⟨h1, h2⟩, h3⟩, h4⟩, h5⟩, h6⟩, h7⟩ := h
  have hn := hc.slots.2
  exact ⟨h1, h2, fun e he => sliceCheck_ok (h3 e he), fun k hk hkn => h4 k (by simp; omega) hk hkn,
    fun k hk h8 => h5 k (by simp; omega) hk, h6, h7⟩

/-- What a holder says of the rest of the state, by evaluation. -/
def heldCheck (s : State) (e : LiveEntry) : Bool :=
  match e.holder with
  | .caller _ => true
  | .frame _ kind off len =>
    decide (off + len ≤ e.slice.len) &&
    match kind with
    | .std hdr => decide (len = hdr.msgLength.toNat ∧ (off = 0 ∨ off = headerSize))
    | .hs => decide (off = 0 ∧ len = s.cfg.handshakeLen)
  | .damagedFrame _ => true
  | .dec c => (s.decs[c]?).any fun D => D.buf == some e.slice
  | .enc c => (s.encs[c]?).any fun E => E.buf == some e.slice

/-- `HoldersOk`, by evaluation. -/
def holdersCheck (s : State) : Bool :=
  (s.decs.zipIdx.all fun p => p.1.buf.all fun b => findLive s.live b.id == some { slice := b, holder := .dec p.2 }) &&
  (s.encs.zipIdx.all fun p => p.1.buf.all fun b => findLive s.live b.id == some { slice := b, holder := .enc p.2 }) &&
  s.live.all (heldCheck s)

theorem holdersCheck_ok {s : State} (h : holdersCheck s = true) : HoldersOk s := by
  simp only [holdersCheck, Bool.and_eq_true, List.all_eq_true] at h
  obtain ⟨⟨h1, h2⟩, h3⟩ := h
  refine ⟨fun c D b hD hb => ?_, fun c E b hE hb => ?_, fun e he c hc => ?_, fun e he c hc => ?_,
    fun e he a kind off len hf => ?_⟩
  · simpa [hb] using h1 (D, c) (List.mem_zipIdx_iff_getElem?.2 hD)
  · simpa [hb] using h2 (E, c) (List.mem_zipIdx_iff_getElem?.2 hE)
  · simpa [heldCheck, hc, Option.any_eq_true] using h3 e he
  · simpa [heldCheck, hc, Option.any_eq_true] using h3 e he
  · have h := h3 e he
    cases kind <;> simpa [heldCheck, hf, FrameShapeOk] using h

/-- `DecoderOk`, by evaluation. -/
def decoderCheck (s : State) (D : DecState) : Bool :=
  decide (D.mode = .hs ↔ D.phase = .ahs) && decide (D.received + D.missing = target s.cfg D) &&
  decide (D.buf = none → D.received = 0) &&
  decide (D.phase = .ap → headerSize ≤ D.received ∧ D.buf.isSome ∧ D.hdr.msgLength.toNat ≤ s.cfg.maxMsg) &&
  D.buf.all fun b =>
    decide (D.received ≤ b.len ∧ b.len ≤ target s.cfg D) &&
    decide (∀ i < D.received, (storedByte s b i).isSome) &&
    decide (D.phase = .ap → ∀ i < headerSize, storedByte s b i = (headerBytes D.hdr)[i]?)

theorem decoderCheck_ok {s : State} {D : DecState} (h : decoderCheck s D = true) : DecoderOk s D := by
  simp only [decoderCheck, Bool.and_eq_true, decide_eq_true_eq] at h
  obtain ⟨⟨⟨⟨h1, h2⟩, h3⟩, h4⟩, h5⟩ := h
  refine ⟨h1, h2, h3, fun b hb => ?_, h4, fun b hb => ?_, fun hp b hb => ?_⟩ <;>
    simp only [hb, Option.all_some, Bool.and_eq_true, decide_eq_true_eq] at h5
  exacts [h5.1.1, h5.1.2, h5.2 hp]

/-- `EncoderOk`, by evaluation. -/
def encoderCheck (E : EncState) : Bool :=
  decide (E.buf = none → E.outLen = 0) && E.buf.all fun b => decide (E.outLen ≤ b.cap)

theorem encoderCheck_ok {E : EncState} (h : encoderCheck E = true) : EncoderOk E := by
  simp only [encoderCheck, Bool.and_eq_true, decide_eq_true_eq] at h
  exact ⟨h.1, fun b hb => by simpa [hb] using h.2⟩

/-- `BlockOk`, by evaluation. -/
def blockCheck (s : State) : Bool :=
  configCheck s.cfg && decide (s.decs.length = s.cfg.nConn ∧ s.encs.length = s.cfg.nConn) &&
  memoryCheck s && poolCheck s && holdersCheck s && s.decs.all (decoderCheck s) && s.encs.all encoderCheck

theorem blockCheck_ok {s : State} (h : blockCheck s = true) : BlockOk s := by
  simp only [blockCheck, Bool.and_eq_true, decide_eq_true_eq, List.all_eq_true] at h
  obtain ⟨⟨⟨⟨⟨⟨h1, h2, h3⟩, h4⟩, h5⟩, h6⟩, h7⟩, h8⟩ := h
  have hc := configCheck_ok h1
  exact ⟨hc, h2, h3, memoryCheck_ok h4, poolCheck_ok hc h5, holdersCheck_ok h6,
    fun D hD => decoderCheck_ok (h7 D hD), fun E hE => encoderCheck_ok (h8 E hE)⟩

end Sys2Proof.Machine
end

