-- ==== Sys2Proof/Laws/Decode.lean ====
section
/-! SUPPORT. Laws of the readers and writers of Sys2Proof/Decode.lean: each reader, on what its writer wrote,
answers what was written and the bytes after it. -/

namespace Sys2Proof

@[simp] theorem Parsed.andThen_ok {α β : Type} (a : α) (rest : List Byte) (k : α → List Byte → Parsed β) :
    Parsed.andThen (.ok (a, rest)) k = k a rest := rfl

@[simp] theorem Parsed.andThen_error {α β : Type} (e : DecodeError) (k : α → List Byte → Parsed β) :
    Parsed.andThen (.error e : Parsed α) k = .error e := rfl

@[simp] theorem leBytes_length (n v : Nat) : (leBytes n v).length = n := by
  induction n generalizing v with
  | zero => rfl
  | succ n ih => simp [leBytes, ih]

theorem leVal_leBytes (n v : Nat) (h : v < 256 ^ n) : leVal (leBytes n v) = v := by
  induction n generalizing v with
  | zero => simp at h; simp [leBytes, leVal, h]
  | succ n ih =>
    have hv : v / 256 < 256 ^ n := by
      rw [Nat.div_lt_iff_lt_mul (by decide)]; rw [Nat.pow_succ] at h; exact h
    simp only [leBytes, leVal, BitVec.toNat_ofNat, ih _ hv]
    omega

/-- A field's bytes have room for its width. -/
theorem lt_pow_fieldBytes {w v : Nat} (h : v < 2 ^ w) : v < 256 ^ fieldBytes w := by
  have h256 : (256 : Nat) ^ fieldBytes w = 2 ^ (8 * fieldBytes w) := by
    rw [show (256 : Nat) = 2 ^ 8 by decide, ← Nat.pow_mul]
  rw [h256]
  exact lt_of_lt_of_le h (Nat.pow_le_pow_right (by decide) (by unfold fieldBytes; omega))

@[simp] theorem readRaw_append (bs rest : List Byte) : readRaw bs.length (bs ++ rest) = .ok (bs, rest) := by
  simp [readRaw]

theorem readRaw_append_of {n : Nat} {bs : List Byte} (h : bs.length = n) (rest : List Byte) :
    readRaw n (bs ++ rest) = .ok (bs, rest) := by
  subst h; simp

theorem readField_putField {w v : Nat} (h : v < 2 ^ w) (rest : List Byte) :
    readField w (putField w v ++ rest) = .ok (v, rest) := by
  have hv := leVal_leBytes _ _ (lt_pow_fieldBytes h)
  simp [readField, putField, readRaw_append_of, hv, h]

theorem readLen_putLen {c : Config} {n : Nat} (h : n < 2 ^ c.lenW) (rest : List Byte) :
    readLen c (putLen c n ++ rest) = .ok (n, rest) := readField_putField h rest

@[simp] theorem readBit_putBit (b : Bool) (rest : List Byte) : readBit (putBit b ++ rest) = .ok (b, rest) := by
  cases b <;> rfl

theorem readBytes_putBytes {c : Config} {bs : List Byte} (h : bs.length < 2 ^ c.lenW) (rest : List Byte) :
    readBytes c (putBytes c bs ++ rest) = .ok (bs, rest) := by
  simp [readBytes, putBytes, List.append_assoc, readLen_putLen h]

@[simp] theorem headerBytes_length (h : Header) : (headerBytes h).length = headerSize := rfl

/-- Six bytes make a header, and the bytes after them are not read (R143). -/
theorem headerOfBytes_append {bs : List Byte} (h : bs.length = headerSize) (rest : List Byte) :
    headerOfBytes (bs ++ rest) = headerOfBytes bs := by
  match bs, h with
  | [_, _, _, _, _, _], _ => rfl

theorem readSlice_putSlice {c : Config} {h : Slice} (hf : h.fits c = true) (rest : List Byte) :
    readSlice c h.id (putSlice c h ++ rest) = .ok (h, rest) := by
  simp only [Slice.fits, lenFits, Bool.and_eq_true, decide_eq_true_eq] at hf
  simp [readSlice, putSlice, List.append_assoc, readField_putField hf.1.1.1, readLen_putLen hf.1.1.2,
    readLen_putLen hf.1.2, readLen_putLen hf.2]

theorem readView_putView {c : Config} {v : View} (hf : v.fits c = true) (rest : List Byte) :
    readView c v.slice.id v.output (putView c v ++ rest) = .ok (v, rest) := by
  simp only [View.fits, lenFits, Bool.and_eq_true, decide_eq_true_eq] at hf
  simp [readView, putView, List.append_assoc, readSlice_putSlice hf.1.1, readLen_putLen hf.1.2,
    readLen_putLen hf.2]

end Sys2Proof
end

