-- ==== Sys2Proof/Laws/State.lean ====
section
/-! SUPPORT. One lemma per field of State per named update: what the update leaves in that field. -/

namespace Sys2Proof.Machine

/-! ### Parts of an operation -/

@[simp] theorem Res.bind_ok {α β : Type} (a : α) (s : State) (k : α → State → Res β) :
    (Res.ok a s).bind k = k a s := rfl

@[simp] theorem Res.bind_abort {α β : Type} (s : State) (k : α → State → Res β) :
    (Res.abort s : Res α).bind k = .abort s := rfl

@[simp] theorem Res.bind_fault {α β : Type} (f : Fault) (k : α → State → Res β) :
    (Res.fault f : Res α).bind k = .fault f := rfl

@[simp] theorem conclude_ok (a : Response) (s : State) : conclude (.ok a s) = .next { s with resp := some a } := rfl

@[simp] theorem conclude_abort (s : State) : conclude (.abort s) = .next (takeAbort s) := rfl

@[simp] theorem conclude_fault (f : Fault) : conclude (.fault f) = .fault f := rfl

/-- A bound part answers a value exactly when both parts do. -/
theorem Res.bind_eq_ok {α β : Type} {r : Res α} {k : α → State → Res β} {b : β} {t : State} :
    r.bind k = .ok b t ↔ ∃ a u, r = .ok a u ∧ k a u = .ok b t := by
  cases r <;> simp

/-- A bound part aborts exactly when the first does, or the second after it. -/
theorem Res.bind_eq_abort {α β : Type} {r : Res α} {k : α → State → Res β} {t : State} :
    r.bind k = .abort t ↔ r = .abort t ∨ ∃ a u, r = .ok a u ∧ k a u = .abort t := by
  cases r <;> simp

/-- A bound part faults exactly when the first does, or the second after it. -/
theorem Res.bind_eq_fault {α β : Type} {r : Res α} {k : α → State → Res β} {f : Fault} :
    r.bind k = .fault f ↔ r = .fault f ∨ ∃ a u, r = .ok a u ∧ k a u = .fault f := by
  cases r <;> simp

/-- The end of an operation: where its next state comes from. -/
theorem conclude_eq_next {r : Res Response} {t : State} :
    conclude r = .next t ↔ (∃ a u, r = .ok a u ∧ t = { u with resp := some a }) ∨
      (∃ u, r = .abort u ∧ t = takeAbort u) := by
  cases r <;> simp [eq_comm]

theorem conclude_eq_fault {r : Res Response} {f : Fault} : conclude r = .fault f ↔ r = .fault f := by
  cases r <;> simp

theorem conclude_ne_refused (r : Res Response) (q : Refusal) : conclude r ≠ .refused q := by
  cases r <;> simp

theorem unlessAborted_of {s : State} (h : s.abort = false) (k : State → Res Response) :
    unlessAborted s k = conclude (k s) := by simp [unlessAborted, h]

/-- The step every operation takes: not aborted, and its own part answers or aborts. -/
theorem unlessAborted_eq_next {s t : State} {k : State → Res Response} :
    unlessAborted s k = .next t ↔ s.abort = false ∧
      ((∃ a u, k s = .ok a u ∧ t = { u with resp := some a }) ∨ (∃ u, k s = .abort u ∧ t = takeAbort u)) := by
  cases h : s.abort <;> simp [unlessAborted, h, conclude_eq_next]

/-! ### `setDec` -/

@[simp] theorem setDec_mask (c : Nat) (D : DecState) (s : State) : (setDec c D s).mask = s.mask := rfl
@[simp] theorem setDec_poolmem (c : Nat) (D : DecState) (s : State) : (setDec c D s).poolmem = s.poolmem := rfl
@[simp] theorem setDec_heap (c : Nat) (D : DecState) (s : State) : (setDec c D s).heap = s.heap := rfl
@[simp] theorem setDec_abort (c : Nat) (D : DecState) (s : State) : (setDec c D s).abort = s.abort := rfl
@[simp] theorem setDec_live (c : Nat) (D : DecState) (s : State) : (setDec c D s).live = s.live := rfl
@[simp] theorem setDec_nextId (c : Nat) (D : DecState) (s : State) : (setDec c D s).nextId = s.nextId := rfl
@[simp] theorem setDec_idBase (c : Nat) (D : DecState) (s : State) : (setDec c D s).idBase = s.idBase := rfl
@[simp] theorem setDec_decs (c : Nat) (D : DecState) (s : State) : (setDec c D s).decs = s.decs.set c D := rfl
@[simp] theorem setDec_encs (c : Nat) (D : DecState) (s : State) : (setDec c D s).encs = s.encs := rfl
@[simp] theorem setDec_log (c : Nat) (D : DecState) (s : State) : (setDec c D s).log = s.log := rfl
@[simp] theorem setDec_heapAcquires (c : Nat) (D : DecState) (s : State) :
    (setDec c D s).heapAcquires = s.heapAcquires := rfl
@[simp] theorem setDec_cfg (c : Nat) (D : DecState) (s : State) : (setDec c D s).cfg = s.cfg := rfl
@[simp] theorem setDec_written (c : Nat) (D : DecState) (s : State) : (setDec c D s).written = s.written := rfl
@[simp] theorem setDec_free (c : Nat) (D : DecState) (s : State) : (setDec c D s).free = s.free := rfl
@[simp] theorem setDec_agent (c : Nat) (D : DecState) (s : State) : (setDec c D s).agent = s.agent := rfl
@[simp] theorem setDec_resp (c : Nat) (D : DecState) (s : State) : (setDec c D s).resp = s.resp := rfl
@[simp] theorem setDec_inbox (c : Nat) (D : DecState) (s : State) : (setDec c D s).inbox = s.inbox := rfl

/-- Leaving `D.hdr` unspecified is a change of the decoder and of the count of free values. -/
@[simp] theorem setDecNoHeader_eq (c : Nat) (D : DecState) (s : State) :
    setDecNoHeader c D s
      = setDec c { D with hdr := headerOfWord (Config.freeHeader s.free) } { s with free := s.free + 1 } := rfl

/-! ### `setEnc` -/

@[simp] theorem setEnc_mask (c : Nat) (E : EncState) (s : State) : (setEnc c E s).mask = s.mask := rfl
@[simp] theorem setEnc_poolmem (c : Nat) (E : EncState) (s : State) : (setEnc c E s).poolmem = s.poolmem := rfl
@[simp] theorem setEnc_heap (c : Nat) (E : EncState) (s : State) : (setEnc c E s).heap = s.heap := rfl
@[simp] theorem setEnc_abort (c : Nat) (E : EncState) (s : State) : (setEnc c E s).abort = s.abort := rfl
@[simp] theorem setEnc_live (c : Nat) (E : EncState) (s : State) : (setEnc c E s).live = s.live := rfl
@[simp] theorem setEnc_nextId (c : Nat) (E : EncState) (s : State) : (setEnc c E s).nextId = s.nextId := rfl
@[simp] theorem setEnc_idBase (c : Nat) (E : EncState) (s : State) : (setEnc c E s).idBase = s.idBase := rfl
@[simp] theorem setEnc_decs (c : Nat) (E : EncState) (s : State) : (setEnc c E s).decs = s.decs := rfl
@[simp] theorem setEnc_encs (c : Nat) (E : EncState) (s : State) : (setEnc c E s).encs = s.encs.set c E := rfl
@[simp] theorem setEnc_log (c : Nat) (E : EncState) (s : State) : (setEnc c E s).log = s.log := rfl
@[simp] theorem setEnc_heapAcquires (c : Nat) (E : EncState) (s : State) :
    (setEnc c E s).heapAcquires = s.heapAcquires := rfl
@[simp] theorem setEnc_cfg (c : Nat) (E : EncState) (s : State) : (setEnc c E s).cfg = s.cfg := rfl
@[simp] theorem setEnc_written (c : Nat) (E : EncState) (s : State) : (setEnc c E s).written = s.written := rfl
@[simp] theorem setEnc_free (c : Nat) (E : EncState) (s : State) : (setEnc c E s).free = s.free := rfl
@[simp] theorem setEnc_agent (c : Nat) (E : EncState) (s : State) : (setEnc c E s).agent = s.agent := rfl
@[simp] theorem setEnc_resp (c : Nat) (E : EncState) (s : State) : (setEnc c E s).resp = s.resp := rfl
@[simp] theorem setEnc_inbox (c : Nat) (E : EncState) (s : State) : (setEnc c E s).inbox = s.inbox := rfl

/-! ### `setHolder` -/

@[simp] theorem setHolder_mask (id : Nat) (who : Holder) (s : State) :
    (setHolder id who s).mask = s.mask := rfl
@[simp] theorem setHolder_poolmem (id : Nat) (who : Holder) (s : State) :
    (setHolder id who s).poolmem = s.poolmem := rfl
@[simp] theorem setHolder_heap (id : Nat) (who : Holder) (s : State) :
    (setHolder id who s).heap = s.heap := rfl
@[simp] theorem setHolder_abort (id : Nat) (who : Holder) (s : State) :
    (setHolder id who s).abort = s.abort := rfl
@[simp] theorem setHolder_live (id : Nat) (who : Holder) (s : State) :
    (setHolder id who s).live = mapLive s.live id fun e => { e with holder := who } := rfl
@[simp] theorem setHolder_nextId (id : Nat) (who : Holder) (s : State) :
    (setHolder id who s).nextId = s.nextId := rfl
@[simp] theorem setHolder_idBase (id : Nat) (who : Holder) (s : State) :
    (setHolder id who s).idBase = s.idBase := rfl
@[simp] theorem setHolder_decs (id : Nat) (who : Holder) (s : State) :
    (setHolder id who s).decs = s.decs := rfl
@[simp] theorem setHolder_encs (id : Nat) (who : Holder) (s : State) :
    (setHolder id who s).encs = s.encs := rfl
@[simp] theorem setHolder_log (id : Nat) (who : Holder) (s : State) : (setHolder id who s).log = s.log := rfl
@[simp] theorem setHolder_heapAcquires (id : Nat) (who : Holder) (s : State) :
    (setHolder id who s).heapAcquires = s.heapAcquires := rfl
@[simp] theorem setHolder_cfg (id : Nat) (who : Holder) (s : State) : (setHolder id who s).cfg = s.cfg := rfl
@[simp] theorem setHolder_written (id : Nat) (who : Holder) (s : State) :
    (setHolder id who s).written = s.written := rfl
@[simp] theorem setHolder_free (id : Nat) (who : Holder) (s : State) :
    (setHolder id who s).free = s.free := rfl
@[simp] theorem setHolder_agent (id : Nat) (who : Holder) (s : State) :
    (setHolder id who s).agent = s.agent := rfl
@[simp] theorem setHolder_resp (id : Nat) (who : Holder) (s : State) :
    (setHolder id who s).resp = s.resp := rfl
@[simp] theorem setHolder_inbox (id : Nat) (who : Holder) (s : State) :
    (setHolder id who s).inbox = s.inbox := rfl

/-! ### `setSliceLen` -/

@[simp] theorem setSliceLen_mask (id n : Nat) (s : State) : (setSliceLen id n s).mask = s.mask := rfl
@[simp] theorem setSliceLen_poolmem (id n : Nat) (s : State) : (setSliceLen id n s).poolmem = s.poolmem := rfl
@[simp] theorem setSliceLen_heap (id n : Nat) (s : State) : (setSliceLen id n s).heap = s.heap := rfl
@[simp] theorem setSliceLen_abort (id n : Nat) (s : State) : (setSliceLen id n s).abort = s.abort := rfl
@[simp] theorem setSliceLen_live (id n : Nat) (s : State) :
    (setSliceLen id n s).live = mapLive s.live id fun e => { e with slice := { e.slice with len := n } } := rfl
@[simp] theorem setSliceLen_nextId (id n : Nat) (s : State) : (setSliceLen id n s).nextId = s.nextId := rfl
@[simp] theorem setSliceLen_idBase (id n : Nat) (s : State) : (setSliceLen id n s).idBase = s.idBase := rfl
@[simp] theorem setSliceLen_decs (id n : Nat) (s : State) : (setSliceLen id n s).decs = s.decs := rfl
@[simp] theorem setSliceLen_encs (id n : Nat) (s : State) : (setSliceLen id n s).encs = s.encs := rfl
@[simp] theorem setSliceLen_log (id n : Nat) (s : State) : (setSliceLen id n s).log = s.log := rfl
@[simp] theorem setSliceLen_heapAcquires (id n : Nat) (s : State) :
    (setSliceLen id n s).heapAcquires = s.heapAcquires := rfl
@[simp] theorem setSliceLen_cfg (id n : Nat) (s : State) : (setSliceLen id n s).cfg = s.cfg := rfl
@[simp] theorem setSliceLen_written (id n : Nat) (s : State) : (setSliceLen id n s).written = s.written := rfl
@[simp] theorem setSliceLen_free (id n : Nat) (s : State) : (setSliceLen id n s).free = s.free := rfl
@[simp] theorem setSliceLen_agent (id n : Nat) (s : State) : (setSliceLen id n s).agent = s.agent := rfl
@[simp] theorem setSliceLen_resp (id n : Nat) (s : State) : (setSliceLen id n s).resp = s.resp := rfl
@[simp] theorem setSliceLen_inbox (id n : Nat) (s : State) : (setSliceLen id n s).inbox = s.inbox := rfl

/-! ### `takeAbort` -/

@[simp] theorem takeAbort_mask (s : State) : (takeAbort s).mask = s.mask := rfl
@[simp] theorem takeAbort_poolmem (s : State) : (takeAbort s).poolmem = s.poolmem := rfl
@[simp] theorem takeAbort_heap (s : State) : (takeAbort s).heap = s.heap := rfl
@[simp] theorem takeAbort_abort (s : State) : (takeAbort s).abort = true := rfl
@[simp] theorem takeAbort_live (s : State) : (takeAbort s).live = s.live := rfl
@[simp] theorem takeAbort_nextId (s : State) : (takeAbort s).nextId = s.nextId := rfl
@[simp] theorem takeAbort_idBase (s : State) : (takeAbort s).idBase = s.idBase := rfl
@[simp] theorem takeAbort_decs (s : State) : (takeAbort s).decs = s.decs := rfl
@[simp] theorem takeAbort_encs (s : State) : (takeAbort s).encs = s.encs := rfl
@[simp] theorem takeAbort_log (s : State) : (takeAbort s).log = s.log := rfl
@[simp] theorem takeAbort_heapAcquires (s : State) : (takeAbort s).heapAcquires = s.heapAcquires := rfl
@[simp] theorem takeAbort_cfg (s : State) : (takeAbort s).cfg = s.cfg := rfl
@[simp] theorem takeAbort_written (s : State) : (takeAbort s).written = s.written := rfl
@[simp] theorem takeAbort_free (s : State) : (takeAbort s).free = s.free := rfl
@[simp] theorem takeAbort_agent (s : State) : (takeAbort s).agent = s.agent := rfl
@[simp] theorem takeAbort_resp (s : State) : (takeAbort s).resp = none := rfl
@[simp] theorem takeAbort_inbox (s : State) : (takeAbort s).inbox = s.inbox := rfl

/-! ### `claimDec` -/

@[simp] theorem claimDec_mask (c : Nat) (D : DecState) (s : State) : (claimDec c D s).mask = s.mask := rfl
@[simp] theorem claimDec_poolmem (c : Nat) (D : DecState) (s : State) :
    (claimDec c D s).poolmem = s.poolmem := rfl
@[simp] theorem claimDec_heap (c : Nat) (D : DecState) (s : State) : (claimDec c D s).heap = s.heap := rfl
@[simp] theorem claimDec_abort (c : Nat) (D : DecState) (s : State) : (claimDec c D s).abort = s.abort := rfl
@[simp] theorem claimDec_live (c : Nat) (D : DecState) (s : State) : (claimDec c D s).live = s.live := rfl
@[simp] theorem claimDec_nextId (c : Nat) (D : DecState) (s : State) :
    (claimDec c D s).nextId = s.nextId := rfl
@[simp] theorem claimDec_idBase (c : Nat) (D : DecState) (s : State) :
    (claimDec c D s).idBase = s.idBase := rfl
@[simp] theorem claimDec_decs (c : Nat) (D : DecState) (s : State) :
    (claimDec c D s).decs = s.decs.set c { D with driver := some s.agent } := rfl
@[simp] theorem claimDec_encs (c : Nat) (D : DecState) (s : State) : (claimDec c D s).encs = s.encs := rfl
@[simp] theorem claimDec_log (c : Nat) (D : DecState) (s : State) : (claimDec c D s).log = s.log := rfl
@[simp] theorem claimDec_heapAcquires (c : Nat) (D : DecState) (s : State) :
    (claimDec c D s).heapAcquires = s.heapAcquires := rfl
@[simp] theorem claimDec_cfg (c : Nat) (D : DecState) (s : State) : (claimDec c D s).cfg = s.cfg := rfl
@[simp] theorem claimDec_written (c : Nat) (D : DecState) (s : State) :
    (claimDec c D s).written = s.written := rfl
@[simp] theorem claimDec_free (c : Nat) (D : DecState) (s : State) : (claimDec c D s).free = s.free := rfl
@[simp] theorem claimDec_agent (c : Nat) (D : DecState) (s : State) : (claimDec c D s).agent = s.agent := rfl
@[simp] theorem claimDec_resp (c : Nat) (D : DecState) (s : State) : (claimDec c D s).resp = s.resp := rfl
@[simp] theorem claimDec_inbox (c : Nat) (D : DecState) (s : State) : (claimDec c D s).inbox = s.inbox := rfl

/-! ### `claimEnc` -/

@[simp] theorem claimEnc_mask (c : Nat) (E : EncState) (s : State) : (claimEnc c E s).mask = s.mask := rfl
@[simp] theorem claimEnc_poolmem (c : Nat) (E : EncState) (s : State) :
    (claimEnc c E s).poolmem = s.poolmem := rfl
@[simp] theorem claimEnc_heap (c : Nat) (E : EncState) (s : State) : (claimEnc c E s).heap = s.heap := rfl
@[simp] theorem claimEnc_abort (c : Nat) (E : EncState) (s : State) : (claimEnc c E s).abort = s.abort := rfl
@[simp] theorem claimEnc_live (c : Nat) (E : EncState) (s : State) : (claimEnc c E s).live = s.live := rfl
@[simp] theorem claimEnc_nextId (c : Nat) (E : EncState) (s : State) :
    (claimEnc c E s).nextId = s.nextId := rfl
@[simp] theorem claimEnc_idBase (c : Nat) (E : EncState) (s : State) :
    (claimEnc c E s).idBase = s.idBase := rfl
@[simp] theorem claimEnc_decs (c : Nat) (E : EncState) (s : State) : (claimEnc c E s).decs = s.decs := rfl
@[simp] theorem claimEnc_encs (c : Nat) (E : EncState) (s : State) :
    (claimEnc c E s).encs = s.encs.set c { E with driver := some s.agent } := rfl
@[simp] theorem claimEnc_log (c : Nat) (E : EncState) (s : State) : (claimEnc c E s).log = s.log := rfl
@[simp] theorem claimEnc_heapAcquires (c : Nat) (E : EncState) (s : State) :
    (claimEnc c E s).heapAcquires = s.heapAcquires := rfl
@[simp] theorem claimEnc_cfg (c : Nat) (E : EncState) (s : State) : (claimEnc c E s).cfg = s.cfg := rfl
@[simp] theorem claimEnc_written (c : Nat) (E : EncState) (s : State) :
    (claimEnc c E s).written = s.written := rfl
@[simp] theorem claimEnc_free (c : Nat) (E : EncState) (s : State) : (claimEnc c E s).free = s.free := rfl
@[simp] theorem claimEnc_agent (c : Nat) (E : EncState) (s : State) : (claimEnc c E s).agent = s.agent := rfl
@[simp] theorem claimEnc_resp (c : Nat) (E : EncState) (s : State) : (claimEnc c E s).resp = s.resp := rfl
@[simp] theorem claimEnc_inbox (c : Nat) (E : EncState) (s : State) : (claimEnc c E s).inbox = s.inbox := rfl

/-! ### `raiseFault` -/

@[simp] theorem raiseFault_mask (c : Nat) (D : DecState) (s : State) : (raiseFault c D s).mask = s.mask := rfl
@[simp] theorem raiseFault_poolmem (c : Nat) (D : DecState) (s : State) :
    (raiseFault c D s).poolmem = s.poolmem := rfl
@[simp] theorem raiseFault_heap (c : Nat) (D : DecState) (s : State) : (raiseFault c D s).heap = s.heap := rfl
@[simp] theorem raiseFault_abort (c : Nat) (D : DecState) (s : State) :
    (raiseFault c D s).abort = s.abort := rfl
@[simp] theorem raiseFault_live (c : Nat) (D : DecState) (s : State) : (raiseFault c D s).live = s.live := rfl
@[simp] theorem raiseFault_nextId (c : Nat) (D : DecState) (s : State) :
    (raiseFault c D s).nextId = s.nextId := rfl
@[simp] theorem raiseFault_idBase (c : Nat) (D : DecState) (s : State) :
    (raiseFault c D s).idBase = s.idBase := rfl
@[simp] theorem raiseFault_decs (c : Nat) (D : DecState) (s : State) :
    (raiseFault c D s).decs = s.decs.set c { D with fault := true } := rfl
@[simp] theorem raiseFault_encs (c : Nat) (D : DecState) (s : State) : (raiseFault c D s).encs = s.encs := rfl
@[simp] theorem raiseFault_log (c : Nat) (D : DecState) (s : State) : (raiseFault c D s).log = s.log := rfl
@[simp] theorem raiseFault_heapAcquires (c : Nat) (D : DecState) (s : State) :
    (raiseFault c D s).heapAcquires = s.heapAcquires := rfl
@[simp] theorem raiseFault_cfg (c : Nat) (D : DecState) (s : State) : (raiseFault c D s).cfg = s.cfg := rfl
@[simp] theorem raiseFault_written (c : Nat) (D : DecState) (s : State) :
    (raiseFault c D s).written = s.written := rfl
@[simp] theorem raiseFault_free (c : Nat) (D : DecState) (s : State) : (raiseFault c D s).free = s.free := rfl
@[simp] theorem raiseFault_agent (c : Nat) (D : DecState) (s : State) :
    (raiseFault c D s).agent = s.agent := rfl
@[simp] theorem raiseFault_resp (c : Nat) (D : DecState) (s : State) : (raiseFault c D s).resp = s.resp := rfl
@[simp] theorem raiseFault_inbox (c : Nat) (D : DecState) (s : State) :
    (raiseFault c D s).inbox = s.inbox := rfl

/-! ### `storeBytes` -/

@[simp] theorem storeBytes_mask (h : Slice) (off : Nat) (bs : List Byte) (s : State) :
    (storeBytes h off bs s).mask = s.mask := by unfold storeBytes; split <;> rfl
@[simp] theorem storeBytes_abort (h : Slice) (off : Nat) (bs : List Byte) (s : State) :
    (storeBytes h off bs s).abort = s.abort := by unfold storeBytes; split <;> rfl
@[simp] theorem storeBytes_live (h : Slice) (off : Nat) (bs : List Byte) (s : State) :
    (storeBytes h off bs s).live = s.live := by unfold storeBytes; split <;> rfl
@[simp] theorem storeBytes_nextId (h : Slice) (off : Nat) (bs : List Byte) (s : State) :
    (storeBytes h off bs s).nextId = s.nextId := by unfold storeBytes; split <;> rfl
@[simp] theorem storeBytes_idBase (h : Slice) (off : Nat) (bs : List Byte) (s : State) :
    (storeBytes h off bs s).idBase = s.idBase := by unfold storeBytes; split <;> rfl
@[simp] theorem storeBytes_freshId (h : Slice) (off : Nat) (bs : List Byte) (s : State) :
    freshId (storeBytes h off bs s) = freshId s := by simp [freshId]
@[simp] theorem storeBytes_decs (h : Slice) (off : Nat) (bs : List Byte) (s : State) :
    (storeBytes h off bs s).decs = s.decs := by unfold storeBytes; split <;> rfl
@[simp] theorem storeBytes_encs (h : Slice) (off : Nat) (bs : List Byte) (s : State) :
    (storeBytes h off bs s).encs = s.encs := by unfold storeBytes; split <;> rfl
@[simp] theorem storeBytes_log (h : Slice) (off : Nat) (bs : List Byte) (s : State) :
    (storeBytes h off bs s).log = s.log := by unfold storeBytes; split <;> rfl
@[simp] theorem storeBytes_heapAcquires (h : Slice) (off : Nat) (bs : List Byte) (s : State) :
    (storeBytes h off bs s).heapAcquires = s.heapAcquires := by unfold storeBytes; split <;> rfl
@[simp] theorem storeBytes_cfg (h : Slice) (off : Nat) (bs : List Byte) (s : State) :
    (storeBytes h off bs s).cfg = s.cfg := by unfold storeBytes; split <;> rfl
@[simp] theorem storeBytes_free (h : Slice) (off : Nat) (bs : List Byte) (s : State) :
    (storeBytes h off bs s).free = s.free := by unfold storeBytes; split <;> rfl
@[simp] theorem storeBytes_agent (h : Slice) (off : Nat) (bs : List Byte) (s : State) :
    (storeBytes h off bs s).agent = s.agent := by unfold storeBytes; split <;> rfl
@[simp] theorem storeBytes_resp (h : Slice) (off : Nat) (bs : List Byte) (s : State) :
    (storeBytes h off bs s).resp = s.resp := by unfold storeBytes; split <;> rfl
@[simp] theorem storeBytes_inbox (h : Slice) (off : Nat) (bs : List Byte) (s : State) :
    (storeBytes h off bs s).inbox = s.inbox := by unfold storeBytes; split <;> rfl

end Sys2Proof.Machine
end

