-- ==== Sys2Proof/Laws/Memory.lean ====
section
/-! SUPPORT. Laws of memory: a read after a write, the canonical form kept by every memory operation, and what
`MemWrite` does to every byte (spec/20_memory.md R64). -/

namespace Sys2Proof.Machine

/-! ### One byte -/

@[simp] theorem Memory.read_nil (x : Nat) : Memory.read [] x = none := rfl

/-- A write changes the byte at its own address and no other. -/
theorem Memory.read_write (m : Memory) (hm : m.wf) (x y : Nat) (b : Byte) :
    (Memory.write m x b).read y = if y = x then some b else m.read y := by
  obtain ⟨hs, -⟩ := hm
  induction m with
  | nil => simp only [Memory.write, Memory.read, Memory.unlisted, eq_comm]
  | cons c m ih =>
    obtain ⟨a, d⟩ := c
    simp only [List.map_cons, List.pairwise_cons] at hs
    have ih := ih hs.2
    by_cases hy : y = x
    · subst hy
      rw [if_pos rfl] at ih ⊢
      simp only [Memory.write]
      split
      · simp [Memory.read]
      · split
        · simp [Memory.read]
        · rename_i h2
          rw [Memory.read, if_neg (fun h => h2 h.symm), ih]
    · rw [if_neg hy] at ih ⊢
      have hx : ¬ x = y := fun h => hy h.symm
      simp only [Memory.write]
      split
      · rw [Memory.read, if_neg hx]
      · split
        · rename_i h2
          rw [Memory.read, if_neg hx, Memory.read, if_neg (h2 ▸ hx)]
        · rw [Memory.read, ih, Memory.read]

/-- Every address of a list after a write is the one written or was there before. -/
theorem Memory.mem_write {m : Memory} {x : Nat} {b : Byte} {c : Host.Cell} (h : c ∈ Memory.write m x b) :
    c = (x, b) ∨ c ∈ m := by
  induction m with
  | nil => simpa [Memory.write] using h
  | cons d m ih =>
    simp only [Memory.write] at h
    split at h
    · simpa using h
    · split at h
      · simp only [List.mem_cons] at h ⊢; tauto
      · simp only [List.mem_cons] at h ⊢
        rcases h with h | h
        · tauto
        · rcases ih h with h | h <;> tauto

/-- A write keeps the canonical form. -/
theorem Memory.write_wf {m : Memory} (hm : m.wf) (x : Nat) (b : Byte) : (Memory.write m x b).wf := by
  refine ⟨?_, fun c _ => by simp [Memory.unlisted]⟩
  obtain ⟨hs, -⟩ := hm
  induction m with
  | nil => simp [Memory.write]
  | cons c m ih =>
    obtain ⟨a, d⟩ := c
    simp only [List.map_cons, List.pairwise_cons, List.mem_map] at hs
    simp only [Memory.write]
    split
    · rename_i h
      simp only [List.map_cons, List.pairwise_cons, List.mem_cons, List.mem_map]
      refine ⟨?_, ?_, hs.2⟩
      · rintro y (rfl | hy)
        · exact h
        · exact lt_trans h (hs.1 y hy)
      · intro y hy; exact hs.1 y hy
    · split
      · rename_i h1 h2
        simp only [List.map_cons, List.pairwise_cons, List.mem_map]
        exact ⟨fun y hy => h2 ▸ hs.1 y hy, hs.2⟩
      · rename_i h1 h2
        simp only [List.map_cons, List.pairwise_cons, List.mem_map]
        refine ⟨?_, ih hs.2⟩
        rintro y ⟨c, hc, rfl⟩
        rcases Memory.mem_write hc with rfl | hc
        · simp; omega
        · exact hs.1 _ ⟨c, hc, rfl⟩

/-! ### A byte sequence -/

/-- A sequence written from `x` on is what is read there; every other byte is as before. -/
theorem Memory.read_writeAll (bs : List Byte) (m : Memory) (hm : m.wf) (x y : Nat) :
    (Memory.writeAll m x bs).read y = if x ≤ y ∧ y < x + bs.length then bs[y - x]? else m.read y := by
  induction bs generalizing m x with
  | nil => simp only [Memory.writeAll, List.length_nil]; rw [if_neg (by omega)]
  | cons b bs ih =>
    rw [Memory.writeAll, ih _ (Memory.write_wf hm x b), Memory.read_write m hm]
    simp only [List.length_cons]
    by_cases h1 : x + 1 ≤ y ∧ y < x + 1 + bs.length
    · rw [if_pos h1, if_pos (by omega)]
      obtain ⟨k, rfl⟩ : ∃ k, y = x + 1 + k := ⟨y - (x + 1), by omega⟩
      rw [show x + 1 + k - (x + 1) = k by omega, show x + 1 + k - x = k + 1 by omega, List.getElem?_cons_succ]
    · rw [if_neg h1]
      by_cases h2 : y = x
      · subst h2; simp
      · rw [if_neg h2, if_neg (by omega)]

/-- Writing a sequence keeps the canonical form. -/
theorem Memory.writeAll_wf {bs : List Byte} {m : Memory} (hm : m.wf) (x : Nat) :
    (Memory.writeAll m x bs).wf := by
  induction bs generalizing m x with
  | nil => exact hm
  | cons b bs ih => exact ih (Memory.write_wf hm x b) (x + 1)

/-! ### The written addresses -/

@[simp] theorem mem_addAddr {l : List Nat} {x y : Nat} : y ∈ addAddr l x ↔ y = x ∨ y ∈ l := by
  induction l with
  | nil => simp [addAddr]
  | cons a l ih =>
    simp only [addAddr]
    split
    · simp
    · split
      · rename_i h; subst h; simp
      · simp only [List.mem_cons, ih]; tauto

theorem addAddr_rising {l : List Nat} (h : l.Pairwise (· < ·)) (x : Nat) : (addAddr l x).Pairwise (· < ·) := by
  induction l with
  | nil => simp [addAddr]
  | cons a l ih =>
    rw [List.pairwise_cons] at h
    simp only [addAddr]
    split
    · rename_i hx
      refine List.pairwise_cons.2 ⟨fun y hy => ?_, List.pairwise_cons.2 h⟩
      rcases List.mem_cons.1 hy with rfl | hy
      · exact hx
      · exact lt_trans hx (h.1 y hy)
    · split
      · exact List.pairwise_cons.2 h
      · refine List.pairwise_cons.2 ⟨fun y hy => ?_, ih h.2⟩
        rcases mem_addAddr.1 hy with rfl | hy
        · omega
        · exact h.1 y hy

@[simp] theorem mem_addAddrs {n : Nat} {l : List Nat} {x y : Nat} :
    y ∈ addAddrs l x n ↔ (x ≤ y ∧ y < x + n) ∨ y ∈ l := by
  induction n generalizing l x with
  | zero => simp [addAddrs]
  | succ n ih =>
    rw [addAddrs, ih, mem_addAddr]
    constructor
    · rintro (h | rfl | h)
      · left; omega
      · left; omega
      · right; exact h
    · rintro (h | h)
      · by_cases hx : y = x
        · right; left; exact hx
        · left; omega
      · right; right; exact h

theorem addAddrs_rising {n : Nat} {l : List Nat} (h : l.Pairwise (· < ·)) (x : Nat) :
    (addAddrs l x n).Pairwise (· < ·) := by
  induction n generalizing l x with
  | zero => exact h
  | succ n ih => exact ih (addAddr_rising h x) (x + 1)

/-! ### Heap buffers -/

@[simp] theorem findHeap_nil (id : Nat) : findHeap [] id = none := rfl

theorem findHeap_cons (b : HeapBuf) (l : List HeapBuf) (id : Nat) :
    findHeap (b :: l) id = if b.id = id then some b else findHeap l id := by
  by_cases h : b.id = id <;> simp [findHeap, h]

theorem findHeap_some {l : List HeapBuf} {id : Nat} {b : HeapBuf} (h : findHeap l id = some b) :
    b ∈ l ∧ b.id = id := by
  unfold findHeap at h
  exact ⟨List.mem_of_find?_eq_some h, by simpa using List.find?_some h⟩

/-- Writing one buffer leaves every other as it was. -/
theorem findHeap_writeHeap (l : List HeapBuf) (id off : Nat) (bs : List Byte) (j : Nat) :
    findHeap (writeHeap l id off bs) j
      = (findHeap l j).map fun b => if j = id then { b with mem := b.mem.writeAll off bs } else b := by
  induction l with
  | nil => rfl
  | cons b l ih =>
    have e : writeHeap (b :: l) id off bs
        = (if b.id = id then { b with mem := b.mem.writeAll off bs } else b) :: writeHeap l id off bs := rfl
    rw [e, findHeap_cons, findHeap_cons, ih]
    by_cases h1 : b.id = j
    · subst h1; by_cases h2 : b.id = id <;> simp [h2]
    · rw [if_neg h1]
      by_cases h2 : b.id = id
      · rw [if_pos h2, if_neg]; exact h1
      · rw [if_neg h2, if_neg h1]

@[simp] theorem writeHeap_ids (l : List HeapBuf) (id off : Nat) (bs : List Byte) :
    (writeHeap l id off bs).map HeapBuf.id = l.map HeapBuf.id := by
  unfold writeHeap
  rw [List.map_map]
  apply List.map_congr_left
  intro b _
  simp only [Function.comp]
  split <;> rfl

/-! ### `MemWrite` and the canonical form -/

/-- Writing bytes through a slice keeps memory in canonical form. -/
theorem storeBytes_memoryOk {s : State} (hs : MemoryOk s) (h : Slice) (off : Nat) (bs : List Byte) :
    MemoryOk (storeBytes h off bs s) := by
  obtain ⟨h1, h2, h3, h4, h5, h6⟩ := hs
  unfold storeBytes
  split
  · refine ⟨Memory.writeAll_wf h1 _, h2, h3, h4, addAddrs_rising h5 _, fun a ha => ?_⟩
    simp only [mem_addAddrs] at ha
    rw [Memory.read_writeAll _ _ h1]
    split
    · rename_i hr; rw [List.getElem?_eq_getElem (by omega)]; rfl
    · rcases ha with ha | ha
      · exact absurd ha ‹_›
      · exact h6 a ha
  · refine ⟨h1, fun b hb => ?_, by simpa using h3, fun b hb => ?_, h5, h6⟩
    · simp only [writeHeap, List.mem_map] at hb
      obtain ⟨d, hd, rfl⟩ := hb
      split
      · exact Memory.writeAll_wf (h2 d hd) _
      · exact h2 d hd
    · simp only [writeHeap, List.mem_map] at hb
      obtain ⟨d, hd, rfl⟩ := hb
      split <;> exact h4 d hd
  · exact ⟨h1, h2, h3, h4, h5, h6⟩

/-- Reset memory is in canonical form. -/
theorem resetWith_memoryOk (c : Config) : MemoryOk (State.resetWith c) := by
  constructor <;> simp [State.resetWith, Memory.wf]

end Sys2Proof.Machine
end

