-- ==== Sys2Proof/Laws/Handles.lean ====
section
/-! SUPPORT. Laws of `LIVE` (spec/10_state.md R26): finding a handle after each change of the live entries. -/

namespace Sys2Proof.Machine

@[simp] theorem findLive_nil (id : Nat) : findLive [] id = none := rfl

theorem findLive_cons (e : LiveEntry) (l : List LiveEntry) (id : Nat) :
    findLive (e :: l) id = if e.slice.id = id then some e else findLive l id := by
  by_cases h : e.slice.id = id <;> simp [findLive, h]

theorem findLive_some {l : List LiveEntry} {id : Nat} {e : LiveEntry} (h : findLive l id = some e) :
    e ∈ l ∧ e.slice.id = id := by
  unfold findLive at h
  exact ⟨List.mem_of_find?_eq_some h, by simpa using List.find?_some h⟩

theorem findLive_none {l : List LiveEntry} {id : Nat} : findLive l id = none ↔ ∀ e ∈ l, e.slice.id ≠ id := by
  simp [findLive]

/-- With distinct ids, an entry is in the list exactly when its id finds it. -/
theorem mem_iff_findLive {l : List LiveEntry} (h : (l.map fun e => e.slice.id).Pairwise (· < ·)) (e : LiveEntry) :
    e ∈ l ↔ findLive l e.slice.id = some e := by
  refine ⟨fun he => ?_, fun he => (findLive_some he).1⟩
  induction l with
  | nil => cases he
  | cons d l ih =>
    simp only [List.map_cons, List.pairwise_cons, List.mem_map, forall_exists_index, and_imp,
      forall_apply_eq_imp_iff₂] at h
    rw [findLive_cons]
    rcases List.mem_cons.1 he with rfl | he'
    · simp
    · rw [if_neg (by have := h.1 e he'; omega)]
      exact ih h.2 he'

/-- Adding an entry with a fresh id. -/
theorem findLive_append {l : List LiveEntry} {e : LiveEntry} (h : ∀ d ∈ l, d.slice.id < e.slice.id) (id : Nat) :
    findLive (l ++ [e]) id = if id = e.slice.id then some e else findLive l id := by
  induction l with
  | nil => simp [findLive_cons, eq_comm]
  | cons d l ih =>
    have hd := h d (by simp)
    rw [List.cons_append, findLive_cons, ih (fun x hx => h x (by simp [hx])), findLive_cons]
    by_cases h1 : d.slice.id = id
    · subst h1; rw [if_pos rfl, if_pos rfl, if_neg (by omega)]
    · rw [if_neg h1, if_neg h1]

/-- Removing an entry. -/
theorem findLive_dropLive (l : List LiveEntry) (id j : Nat) :
    findLive (dropLive l id) j = if j = id then none else findLive l j := by
  induction l with
  | nil => simp [dropLive]
  | cons d l ih =>
    simp only [dropLive, List.filter_cons] at ih ⊢
    by_cases h1 : d.slice.id = id
    · simp only [h1, bne_self_eq_false, Bool.false_eq_true, if_false, ih, findLive_cons]
      by_cases h2 : j = id
      · simp [h2]
      · rw [if_neg h2, if_neg h2, if_neg (fun h => h2 h.symm)]
    · have hb : (d.slice.id != id) = true := by simpa using h1
      rw [if_pos hb, findLive_cons, ih, findLive_cons]
      by_cases h2 : j = id
      · subst h2; rw [if_neg h1, if_pos rfl, if_pos rfl]
      · rw [if_neg h2, if_neg h2]

/-- Changing one entry and not its id. -/
theorem findLive_mapLive (l : List LiveEntry) (id : Nat) (f : LiveEntry → LiveEntry)
    (hf : ∀ e, (f e).slice.id = e.slice.id) (j : Nat) :
    findLive (mapLive l id f) j = (findLive l j).map fun e => if j = id then f e else e := by
  induction l with
  | nil => rfl
  | cons d l ih =>
    have e : mapLive (d :: l) id f = (if d.slice.id = id then f d else d) :: mapLive l id f := rfl
    rw [e, findLive_cons, findLive_cons, ih]
    have hid : (if d.slice.id = id then f d else d).slice.id = d.slice.id := by split <;> simp [hf]
    rw [hid]
    by_cases h1 : d.slice.id = j
    · subst h1; by_cases h2 : d.slice.id = id <;> simp [h2]
    · rw [if_neg h1, if_neg h1]

theorem mem_dropLive {l : List LiveEntry} {id : Nat} {e : LiveEntry} :
    e ∈ dropLive l id ↔ e ∈ l ∧ e.slice.id ≠ id := by simp [dropLive]

theorem mem_dropHeap {l : List HeapBuf} {id : Nat} {b : HeapBuf} :
    b ∈ dropHeap l id ↔ b ∈ l ∧ b.id ≠ id := by simp [dropHeap]

/-- Changing an entry and not its id leaves the ids as they are. -/
theorem mapLive_ids (l : List LiveEntry) (id : Nat) (f : LiveEntry → LiveEntry)
    (hf : ∀ e, (f e).slice.id = e.slice.id) :
    (mapLive l id f).map (fun e => e.slice.id) = l.map fun e => e.slice.id := by
  unfold mapLive
  rw [List.map_map]
  apply List.map_congr_left
  intro e _
  simp only [Function.comp]
  split <;> simp [hf]

theorem mem_mapLive {l : List LiveEntry} {id : Nat} {f : LiveEntry → LiveEntry} {e : LiveEntry} :
    e ∈ mapLive l id f ↔ ∃ d ∈ l, e = if d.slice.id = id then f d else d := by
  simp [mapLive, eq_comm]

/-- Adding a heap buffer with a fresh id. -/
theorem findHeap_append {l : List HeapBuf} {b : HeapBuf} (h : ∀ d ∈ l, d.id < b.id) (id : Nat) :
    findHeap (l ++ [b]) id = if id = b.id then some b else findHeap l id := by
  induction l with
  | nil => simp [findHeap_cons, eq_comm]
  | cons d l ih =>
    have hd := h d (by simp)
    rw [List.cons_append, findHeap_cons, ih (fun x hx => h x (by simp [hx])), findHeap_cons]
    by_cases h1 : d.id = id
    · subst h1; rw [if_pos rfl, if_pos rfl, if_neg (by omega)]
    · rw [if_neg h1, if_neg h1]

/-- Removing a heap buffer. -/
theorem findHeap_dropHeap (l : List HeapBuf) (id j : Nat) :
    findHeap (dropHeap l id) j = if j = id then none else findHeap l j := by
  induction l with
  | nil => simp [dropHeap]
  | cons d l ih =>
    simp only [dropHeap, List.filter_cons] at ih ⊢
    by_cases h1 : d.id = id
    · simp only [h1, bne_self_eq_false, Bool.false_eq_true, if_false, ih, findHeap_cons]
      by_cases h2 : j = id
      · simp [h2]
      · rw [if_neg h2, if_neg h2, if_neg (fun h => h2 h.symm)]
    · have hb : (d.id != id) = true := by simpa using h1
      rw [if_pos hb, findHeap_cons, ih, findHeap_cons]
      by_cases h2 : j = id
      · subst h2; rw [if_neg h1, if_pos rfl, if_pos rfl]
      · rw [if_neg h2, if_neg h2]

end Sys2Proof.Machine
end

