-- ==== Sys2Proof/Laws/Pool.lean ====
section
/-! SUPPORT. Laws of the pool (spec/40_pool.md): bits of `MASK`, the fitting set, and what `Acquire` and
`Release` can do. -/

namespace Sys2Proof.Machine

/-! ### Bits of `MASK` (R22) -/

theorem slotTaken_slotBit {j k : Nat} (hj : 1 ≤ j) (hj8 : j ≤ 8) (hk : 1 ≤ k) (hk8 : k ≤ 8) :
    slotTaken (slotBit k) j = decide (j = k) := by
  interval_cases j <;> interval_cases k <;> rfl

/-- Setting a slot's bit sets that bit alone. -/
theorem slotTaken_set (m : BitVec 8) {j k : Nat} (hj : 1 ≤ j) (hj8 : j ≤ 8) (hk : 1 ≤ k) (hk8 : k ≤ 8) :
    slotTaken (m ||| slotBit k) j = (slotTaken m j || decide (j = k)) := by
  rw [← slotTaken_slotBit hj hj8 hk hk8]
  simp [slotTaken]

/-- Clearing a slot's bit clears that bit alone. -/
theorem slotTaken_clear (m : BitVec 8) {j k : Nat} (hj : 1 ≤ j) (hj8 : j ≤ 8) (hk : 1 ≤ k) (hk8 : k ≤ 8) :
    slotTaken (m &&& ~~~ slotBit k) j = (slotTaken m j && !decide (j = k)) := by
  rw [← slotTaken_slotBit hj hj8 hk hk8]
  have : 8 - j < 8 := by omega
  simp [slotTaken, this]

/-! ### Places -/

theorem placeOf_pool {c : Config} {i : Nat} :
    placeOf c i = .pool ↔ i ≠ c.untracked ∧ 1 ≤ i ∧ i ≤ c.nSlots := by
  unfold placeOf; split
  · simp_all
  · split <;> simp_all

theorem placeOf_heap {c : Config} {i : Nat} : placeOf c i = .heap ↔ i = c.untracked := by
  unfold placeOf; split
  · simp_all
  · split <;> simp_all

theorem placeOf_corrupt {c : Config} {i : Nat} :
    placeOf c i = .corrupt ↔ i ≠ c.untracked ∧ ¬ (1 ≤ i ∧ i ≤ c.nSlots) := by
  unfold placeOf; split
  · simp_all
  · split <;> simp_all

/-- Under R12's constraints every slot index names the pool. -/
theorem placeOf_slot {c : Config} (hc : c.WF) {k : Nat} (h1 : 1 ≤ k) (hn : k ≤ c.nSlots) :
    placeOf c k = .pool := by
  refine placeOf_pool.2 ⟨fun h => hc.untracked.1 ?_, h1, hn⟩
  have := hc.slots.2
  omega

/-! ### The fitting set and the choice (R121, R122) -/

theorem mem_fit {c : Config} {m : BitVec 8} {len k : Nat} :
    k ∈ fit c m len ↔ (1 ≤ k ∧ k ≤ c.nSlots) ∧ slotTaken m k = false ∧ len ≤ slotCap c k := by
  simp only [fit, List.mem_filter, List.mem_range'_1, Bool.and_eq_true, Bool.not_eq_true', decide_eq_true_eq]
  constructor
  · rintro ⟨h, h2⟩; exact ⟨by omega, h2⟩
  · rintro ⟨h, h2⟩; exact ⟨by omega, h2⟩

/-- Whatever the policy and the free choice, the slot picked is one of the fitting slots. -/
theorem pick_mem (p : ScanPolicy) (n : Nat) {F : List Nat} (h : F ≠ []) : pick p n F ∈ F := by
  cases p with
  | lowestIndex =>
    cases F with
    | nil => exact absurd rfl h
    | cons a F => simp [pick]
  | any =>
    have hl : Config.freeChoice n % F.length < F.length := Nat.mod_lt _ (List.length_pos_iff.2 h)
    simp only [pick, List.getD_eq_getElem?_getD, List.getElem?_eq_getElem hl, Option.getD_some]
    exact List.getElem_mem hl

/-- What `Acquire` can do: take a fitting slot, or, when none fits, make a heap buffer. -/
theorem acquire_cases (len : Nat) (who : Holder) (s : State) :
    (∃ k ∈ fit s.cfg s.mask len, acquire len who s = acquireSlot k len who s) ∨
    (fit s.cfg s.mask len = [] ∧ acquire len who s = acquireHeap len who s) := by
  unfold acquire
  split
  · exact .inr ⟨‹_›, rfl⟩
  · rename_i k ks h
    rw [h]
    exact .inl ⟨_, pick_mem _ _ (List.cons_ne_nil k ks), rfl⟩

/-- What `Release` can do (R127 to R129). -/
theorem release_cases (h : Slice) (s : State) :
    (findLive s.live h.id = none ∧ release h s = .fault .notLive) ∨
    ((findLive s.live h.id).isSome ∧
      ((placeOf s.cfg h.idx = .heap ∧
          release h s = .ok () { s with heap := dropHeap s.heap h.id, live := dropLive s.live h.id }) ∨
       (placeOf s.cfg h.idx = .pool ∧
          release h s = .ok () { s with mask := s.mask &&& ~~~ slotBit h.idx
                                        live := dropLive s.live h.id
                                        log := logToggle h.idx false s }) ∨
       (placeOf s.cfg h.idx = .corrupt ∧ release h s = .abort s))) := by
  unfold release
  cases hl : findLive s.live h.id with
  | none => simp
  | some e => cases hp : placeOf s.cfg h.idx <;> simp

/-! ### What `Acquire` leaves alone -/

/-- The slice `Acquire` returns. -/
theorem acquire_slice (len : Nat) (who : Holder) (s : State) :
    (acquire len who s).1.id = freshId s ∧ (acquire len who s).1.len = len := by
  rcases acquire_cases len who s with ⟨k, -, h⟩ | ⟨-, h⟩ <;> simp [h, acquireSlot, acquireHeap]

/-- `Acquire` adds one live entry, draws one id, and touches no connection, flag, input or stored byte. -/
theorem acquire_frame (len : Nat) (who : Holder) (s : State) :
    (acquire len who s).2.live = s.live ++ [{ slice := (acquire len who s).1, holder := who }] ∧
    (acquire len who s).2.nextId = s.nextId + 1 ∧
    (acquire len who s).2.idBase = s.idBase ∧
    (acquire len who s).2.poolmem = s.poolmem ∧
    (acquire len who s).2.abort = s.abort ∧
    (acquire len who s).2.decs = s.decs ∧
    (acquire len who s).2.encs = s.encs ∧
    (acquire len who s).2.cfg = s.cfg ∧
    (acquire len who s).2.agent = s.agent ∧
    (acquire len who s).2.resp = s.resp ∧
    (acquire len who s).2.inbox = s.inbox := by
  rcases acquire_cases len who s with ⟨k, -, h⟩ | ⟨-, h⟩ <;> simp [h, acquireSlot, acquireHeap]

@[simp] theorem acquire_live (len : Nat) (who : Holder) (s : State) :
    (acquire len who s).2.live = s.live ++ [{ slice := (acquire len who s).1, holder := who }] :=
  (acquire_frame len who s).1

@[simp] theorem acquire_nextId (len : Nat) (who : Holder) (s : State) :
    (acquire len who s).2.nextId = s.nextId + 1 := (acquire_frame len who s).2.1

@[simp] theorem acquire_idBase (len : Nat) (who : Holder) (s : State) :
    (acquire len who s).2.idBase = s.idBase := (acquire_frame len who s).2.2.1

/-- An acquire draws one id. -/
theorem freshId_acquire (len : Nat) (who : Holder) (s : State) :
    freshId (acquire len who s).2 = freshId s + 1 := by
  simp only [freshId, acquire_nextId, acquire_idBase]; omega

@[simp] theorem acquire_poolmem (len : Nat) (who : Holder) (s : State) :
    (acquire len who s).2.poolmem = s.poolmem := (acquire_frame len who s).2.2.2.1

@[simp] theorem acquire_abort (len : Nat) (who : Holder) (s : State) :
    (acquire len who s).2.abort = s.abort := (acquire_frame len who s).2.2.2.2.1

@[simp] theorem acquire_decs (len : Nat) (who : Holder) (s : State) :
    (acquire len who s).2.decs = s.decs := (acquire_frame len who s).2.2.2.2.2.1

@[simp] theorem acquire_encs (len : Nat) (who : Holder) (s : State) :
    (acquire len who s).2.encs = s.encs := (acquire_frame len who s).2.2.2.2.2.2.1

@[simp] theorem acquire_cfg (len : Nat) (who : Holder) (s : State) :
    (acquire len who s).2.cfg = s.cfg := (acquire_frame len who s).2.2.2.2.2.2.2.1

@[simp] theorem acquire_agent (len : Nat) (who : Holder) (s : State) :
    (acquire len who s).2.agent = s.agent := (acquire_frame len who s).2.2.2.2.2.2.2.2.1

@[simp] theorem acquire_resp (len : Nat) (who : Holder) (s : State) :
    (acquire len who s).2.resp = s.resp := (acquire_frame len who s).2.2.2.2.2.2.2.2.2.1

@[simp] theorem acquire_inbox (len : Nat) (who : Holder) (s : State) :
    (acquire len who s).2.inbox = s.inbox := (acquire_frame len who s).2.2.2.2.2.2.2.2.2.2

/-- What `Release` leaves alone, wherever it ends. -/
theorem release_frame {h : Slice} {s t : State} (hr : release h s = .ok () t) :
    t.live = dropLive s.live h.id ∧ freshId t = freshId s ∧ t.poolmem = s.poolmem ∧ t.written = s.written ∧
    t.abort = s.abort ∧ t.decs = s.decs ∧ t.encs = s.encs ∧ t.cfg = s.cfg ∧ t.free = s.free ∧
    t.agent = s.agent ∧ t.resp = s.resp ∧ t.inbox = s.inbox := by
  rcases release_cases h s with ⟨-, h1⟩ | ⟨-, ⟨-, h1⟩ | ⟨-, h1⟩ | ⟨-, h1⟩⟩ <;> rw [h1] at hr <;>
    simp only [reduceCtorEq, Res.ok.injEq, true_and] at hr <;> subst hr <;> simp [freshId]

end Sys2Proof.Machine
end

