-- ==== Sys2Proof/Laws/Stored.lean ====
section
/-! SUPPORT. Laws of the stored bytes of live slices (spec/20_memory.md R63 to R65): what each shared operation
leaves in the bytes of a slice other than the one it acts on, and in the one it acts on. -/

namespace Sys2Proof.Machine

/-- The bytes of a slice rest on the configuration, the pool's bytes and the heap alone. -/
theorem storedByte_congr {s t : State} (hc : t.cfg = s.cfg) (hw : t.written = s.written)
    (hp : t.poolmem = s.poolmem) (hh : t.heap = s.heap) (h : Slice) (o : Nat) :
    storedByte t h o = storedByte s h o := by
  simp [storedByte, hc, hw, hp, hh]

/-- A change of a slice's length moves no byte (R38). -/
@[simp] theorem storedByte_len (s : State) (h : Slice) (n o : Nat) :
    storedByte s { h with len := n } o = storedByte s h o := rfl

/-! ### Regions -/

theorem region?_eq {c : Config} {k : Nat} (h1 : 1 ≤ k) (hn : k ≤ c.nSlots) :
    ∃ (h : k - 1 < c.regions.length), region? c k = some c.regions[k - 1] := by
  obtain ⟨k, rfl⟩ : ∃ j, k = j + 1 := ⟨k - 1, by omega⟩
  simp only [Config.nSlots] at hn
  refine ⟨by omega, ?_⟩
  simp [region?]

/-- Distinct slots share no byte (R12, R23). -/
theorem slots_disjoint {c : Config} (hc : c.WF) {j k : Nat} (hj : 1 ≤ j) (hjn : j ≤ c.nSlots)
    (hk : 1 ≤ k) (hkn : k ≤ c.nSlots) (hne : j ≠ k) :
    slotOff c j + slotCap c j ≤ slotOff c k ∨ slotOff c k + slotCap c k ≤ slotOff c j := by
  obtain ⟨lj, ej⟩ := region?_eq hj hjn
  obtain ⟨lk, ek⟩ := region?_eq hk hkn
  simp only [slotOff, slotCap, ej, ek, Option.map_some, Option.getD_some]
  have hp := List.pairwise_iff_getElem.1 hc.disjoint
  rcases Nat.lt_or_gt_of_ne hne with h | h
  · exact hp (j - 1) (k - 1) lj lk (by omega)
  · exact (hp (k - 1) (j - 1) lk lj (by omega)).symm

theorem foldr_max_ge (l : List Region) (r : Region) (h : r ∈ l) :
    r.off + r.cap ≤ l.foldr (fun r n => max (r.off + r.cap) n) 0 := by
  induction l with
  | nil => cases h
  | cons a l ih =>
    simp only [List.foldr_cons]
    rcases List.mem_cons.1 h with rfl | h
    · exact le_max_left _ _
    · exact le_trans (ih h) (le_max_right _ _)

/-- Every slot lies inside `POOLMEM` (R23). -/
theorem slot_within {c : Config} {k : Nat} (h1 : 1 ≤ k) (hn : k ≤ c.nSlots) :
    slotOff c k + slotCap c k ≤ poolBytes c := by
  obtain ⟨l, e⟩ := region?_eq h1 hn
  simp only [slotOff, slotCap, e, Option.map_some, Option.getD_some, poolBytes]
  exact foldr_max_ge _ _ (List.getElem_mem l)

/-! ### Live slices are apart (R39) -/

/-- Two live slices that are not one are in different slots, or in different heap buffers, or one of each. -/
theorem live_apart {s : State} (hs : PoolOk s) {d e : LiveEntry} (hd : d ∈ s.live) (he : e ∈ s.live)
    (hne : d.slice.id ≠ e.slice.id) (hp : placeOf s.cfg d.slice.idx = .pool) : d.slice.idx ≠ e.slice.idx := by
  have halone := List.pairwise_iff_getElem.1 hs.alone
  obtain ⟨i, hi, rfl⟩ := List.getElem_of_mem hd
  obtain ⟨j, hj, rfl⟩ := List.getElem_of_mem he
  rcases Nat.lt_trichotomy i j with h | rfl | h
  · exact halone i j hi hj h hp
  · exact absurd rfl hne
  · intro heq
    rw [heq] at hp
    exact halone j i hj hi h hp heq.symm

/-- A live slice is accessible throughout its length (R63). -/
theorem accessible_of_live {s : State} (hs : PoolOk s) {e : LiveEntry} (he : e ∈ s.live)
    {off n : Nat} (hn : off + n ≤ e.slice.len) : accessible s e.slice off n = true := by
  obtain ⟨hl, ⟨hp, ho, hcap⟩ | ⟨hi, -, b, hb, hsz⟩⟩ := hs.shape e he
  · obtain ⟨-, h1, h2⟩ := placeOf_pool.1 hp
    have := slot_within (c := s.cfg) h1 h2
    simp only [accessible, hp, decide_eq_true_eq]
    omega
  · have hp : placeOf s.cfg e.slice.idx = .heap := placeOf_heap.2 hi
    simp only [accessible, hp, hb, Option.any_some, Bool.and_eq_true, decide_eq_true_eq]
    omega

/-- A live slice's index is never corrupt (R129). -/
theorem live_not_corrupt {s : State} (hs : PoolOk s) {e : LiveEntry} (he : e ∈ s.live) :
    placeOf s.cfg e.slice.idx ≠ .corrupt := by
  obtain ⟨-, ⟨hp, -⟩ | ⟨hi, -⟩⟩ := hs.shape e he
  · simp [hp]
  · simp [placeOf_heap.2 hi]

/-- `MemWrite` on a live slice, inside its length, answers. -/
theorem memWrite_of_live {s : State} (hs : PoolOk s) {e : LiveEntry} (he : e ∈ s.live)
    {off : Nat} {bs : List Byte} (hn : off + bs.length ≤ e.slice.len) :
    memWrite e.slice off bs s = .ok () (storeBytes e.slice off bs s) := by
  simp [memWrite, live_not_corrupt hs he, accessible_of_live hs he hn]

/-- `MemRead` on a live slice, inside its length, answers. -/
theorem memRead_of_live {s : State} (hs : PoolOk s) {e : LiveEntry} (he : e ∈ s.live)
    {off n : Nat} (hn : off + n ≤ e.slice.len) :
    memRead e.slice off n s = .ok (bytesAt s e.slice off n) { s with free := s.free + n } := by
  simp [memRead, accessible_of_live hs he hn]

/-- `Release` of a live slice answers, and never aborts (R129). -/
theorem release_of_live {s : State} (hs : PoolOk s) {e : LiveEntry} (he : e ∈ s.live) :
    ∃ t, release e.slice s = .ok () t := by
  have hf := (mem_iff_findLive hs.ids e).1 he
  rcases release_cases e.slice s with ⟨h, -⟩ | ⟨-, ⟨-, h⟩ | ⟨-, h⟩ | ⟨h, -⟩⟩
  · simp [hf] at h
  · exact ⟨_, h⟩
  · exact ⟨_, h⟩
  · exact absurd h (live_not_corrupt hs he)

/-! ### Writing -/

/-- The bytes written through a live slice are what is stored there; its other bytes are as before. -/
theorem storedByte_storeBytes_self {s : State} (hm : MemoryOk s) (hs : PoolOk s) {e : LiveEntry}
    (he : e ∈ s.live) (off : Nat) (bs : List Byte) (o : Nat) :
    storedByte (storeBytes e.slice off bs s) e.slice o
      = if off ≤ o ∧ o < off + bs.length then bs[o - off]? else storedByte s e.slice o := by
  obtain ⟨-, ⟨hp, -⟩ | ⟨hi, -, b, hb, -⟩⟩ := hs.shape e he
  · have hw := Memory.read_writeAll bs s.poolmem hm.pool (e.slice.off + off) (e.slice.off + o)
    simp only [storedByte, storeBytes, hp, mem_addAddrs, hw]
    by_cases h : off ≤ o ∧ o < off + bs.length
    · have h' : e.slice.off + off ≤ e.slice.off + o ∧ e.slice.off + o < e.slice.off + off + bs.length := by omega
      rw [if_pos h, if_pos (.inl h'), if_pos h']
      congr 1; omega
    · have h' : ¬ (e.slice.off + off ≤ e.slice.off + o ∧ e.slice.off + o < e.slice.off + off + bs.length) := by
        omega
      rw [if_neg h, if_neg h']
      simp only [h', false_or]
  · have hp : placeOf s.cfg e.slice.idx = .heap := placeOf_heap.2 hi
    have hbm := hm.heap b (findHeap_some hb).1
    simp only [storedByte, storeBytes, hp, findHeap_writeHeap, hb, Option.map_some, if_true, Option.bind_some,
      Memory.read_writeAll bs b.mem hbm]

/-- Writing through one live slice leaves every byte of another as it was (R65). -/
theorem storedByte_storeBytes_other {s : State} (hc : s.cfg.WF) (hm : MemoryOk s) (hs : PoolOk s)
    {d e : LiveEntry} (hd : d ∈ s.live) (he : e ∈ s.live) (hne : d.slice.id ≠ e.slice.id)
    {off : Nat} {bs : List Byte} (hin : off + bs.length ≤ d.slice.len) {o : Nat} (ho : o < e.slice.cap) :
    storedByte (storeBytes d.slice off bs s) e.slice o = storedByte s e.slice o := by
  obtain ⟨hdl, ⟨hdp, hdo, hdc⟩ | ⟨hdi, -⟩⟩ := hs.shape d hd
  · obtain ⟨-, ⟨hep, heo, hec⟩ | ⟨hei, -⟩⟩ := hs.shape e he
    · obtain ⟨-, d1, d2⟩ := placeOf_pool.1 hdp
      obtain ⟨-, e1, e2⟩ := placeOf_pool.1 hep
      have hdis := slots_disjoint hc d1 d2 e1 e2 (live_apart hs hd he hne hdp)
      have hout : ¬ (d.slice.off + off ≤ e.slice.off + o ∧ e.slice.off + o < d.slice.off + off + bs.length) := by
        omega
      simp only [storedByte, storeBytes, hdp, hep, mem_addAddrs, hout, false_or,
        Memory.read_writeAll bs s.poolmem hm.pool, if_false]
    · have hp : placeOf s.cfg e.slice.idx = .heap := placeOf_heap.2 hei
      simp [storedByte, storeBytes, hdp, hp]
  · have hp : placeOf s.cfg d.slice.idx = .heap := placeOf_heap.2 hdi
    have hid : ¬ e.slice.id = d.slice.id := fun h => hne h.symm
    simp only [storedByte, storeBytes, hp, findHeap_writeHeap, hid, if_false]
    cases placeOf s.cfg e.slice.idx <;> simp

/-! ### Acquiring and releasing -/

/-- `Acquire` leaves every byte of a live slice as it was. -/
theorem storedByte_acquire {s : State} (hc : s.cfg.WF) (hm : MemoryOk s) (hs : PoolOk s) (len : Nat)
    (who : Holder) {e : LiveEntry} (he : e ∈ s.live) {o : Nat} (ho : o < e.slice.cap) :
    storedByte (acquire len who s).2 e.slice o = storedByte s e.slice o := by
  rcases acquire_cases len who s with ⟨k, hk, h⟩ | ⟨-, h⟩
  · obtain ⟨⟨k1, kn⟩, hfree, -⟩ := mem_fit.1 hk
    rw [h]
    simp only [acquireSlot, storedByte]
    obtain ⟨-, ⟨hp, heo, hec⟩ | ⟨hi, -⟩⟩ := hs.shape e he
    · obtain ⟨-, e1, e2⟩ := placeOf_pool.1 hp
      have hne : e.slice.idx ≠ k := by
        rintro rfl
        have := (hs.taken _ k1 kn).2 ⟨e, he, rfl⟩
        simp [this] at hfree
      have hdis := slots_disjoint hc e1 e2 k1 kn hne
      have hin : (e.slice.off + o ∈ s.written.filter fun a =>
          !(decide (slotOff s.cfg k ≤ a) && decide (a < slotOff s.cfg k + slotCap s.cfg k)))
          ↔ e.slice.off + o ∈ s.written := by
        simp only [List.mem_filter, Bool.not_eq_true', Bool.and_eq_false_iff, decide_eq_false_iff_not]
        exact ⟨fun h => h.1, fun h => ⟨h, by omega⟩⟩
      simp only [hp, hin]
    · simp [placeOf_heap.2 hi]
  · rw [h]
    simp only [acquireHeap, storedByte]
    obtain ⟨-, ⟨hp, -⟩ | ⟨hi, -, b, hb, -⟩⟩ := hs.shape e he
    · simp only [hp]; rfl
    · have hid : ¬ e.slice.id = freshId s := by have := hs.old e he; omega
      simp only [placeOf_heap.2 hi]
      rw [findHeap_append (fun d hd => hm.heapOld d hd)]
      simp [hid]

/-- Nothing has written the bytes of a slice just acquired (U1). -/
theorem storedByte_acquired {s : State} (hc : s.cfg.WF) (hm : MemoryOk s) (len : Nat) (who : Holder)
    {o : Nat} (ho : o < (acquire len who s).1.cap) :
    storedByte (acquire len who s).2 (acquire len who s).1 o = none := by
  rcases acquire_cases len who s with ⟨k, hk, h⟩ | ⟨-, h⟩
  · obtain ⟨⟨k1, kn⟩, -, -⟩ := mem_fit.1 hk
    rw [h] at ho ⊢
    simp only [acquireSlot] at ho
    have hno : ¬ (slotOff s.cfg k + o ∈ s.written.filter fun a =>
        !(decide (slotOff s.cfg k ≤ a) && decide (a < slotOff s.cfg k + slotCap s.cfg k))) := by
      simp only [List.mem_filter, Bool.not_eq_true', Bool.and_eq_false_iff, decide_eq_false_iff_not]
      omega
    simp only [acquireSlot, storedByte, placeOf_slot hc k1 kn]
    exact if_neg hno
  · rw [h]
    simp only [acquireHeap, storedByte, placeOf_heap.2]
    rw [findHeap_append (fun d hd => hm.heapOld d hd)]
    simp

/-- `Release` leaves every byte of a slice with another id as it was. -/
theorem storedByte_release {s t : State} {g : Slice} (hr : release g s = .ok () t) {h : Slice}
    (hne : h.id ≠ g.id) (o : Nat) : storedByte t h o = storedByte s h o := by
  rcases release_cases g s with ⟨-, h1⟩ | ⟨-, ⟨-, h1⟩ | ⟨-, h1⟩ | ⟨-, h1⟩⟩ <;> rw [h1] at hr <;>
    simp only [reduceCtorEq, Res.ok.injEq, true_and] at hr <;> subst hr
  · simp [storedByte, findHeap_dropHeap, hne]
  · rfl

end Sys2Proof.Machine
end

