-- ==== Sys2Proof/Laws/Invariant.lean ====
section
/-! SUPPORT. Every shared operation keeps the canonical form of memory (`MemoryOk`) and the pool's invariants
(`PoolOk`, spec/10_state.md R39). -/

namespace Sys2Proof.Machine

/-! ### What the invariants rest on -/

theorem MemoryOk.congr {s t : State} (hs : MemoryOk s) (hp : t.poolmem = s.poolmem) (hh : t.heap = s.heap)
    (hn : freshId t = freshId s) (hw : t.written = s.written) : MemoryOk t := by
  obtain ⟨h1, h2, h3, h4, h5, h6⟩ := hs
  exact ⟨hp ▸ h1, hh ▸ h2, hh ▸ h3, by rw [hh, hn]; exact h4, hw ▸ h5, by rw [hp, hw]; exact h6⟩

theorem SliceOk.congr {s t : State} {h : Slice} (hs : SliceOk s h) (hc : t.cfg = s.cfg) (hh : t.heap = s.heap) :
    SliceOk t h := by
  unfold SliceOk at hs ⊢
  rw [hc, hh]; exact hs

theorem PoolOk.congr {s t : State} (hs : PoolOk s) (hm : t.mask = s.mask) (hh : t.heap = s.heap)
    (hl : t.live = s.live) (hn : freshId t = freshId s) (hc : t.cfg = s.cfg) : PoolOk t := by
  obtain ⟨h1, h2, h3, h4, h5, h6, h7⟩ := hs
  refine ⟨hl ▸ h1, by rw [hl, hn]; exact h2, ?_, by rw [hl, hc, hm]; exact h4, by rw [hc, hm]; exact h5,
    by rw [hl, hc]; exact h6, by rw [hh, hl, hc]; exact h7⟩
  rw [hl]; exact fun e he => (h3 e he).congr hc hh

/-! ### `MemWrite` -/

theorem SliceOk.storeBytes {s : State} {h : Slice} (hs : SliceOk s h) (g : Slice) (off : Nat) (bs : List Byte) :
    SliceOk (storeBytes g off bs s) h := by
  obtain ⟨hl, ho | ⟨hi, h0, b, hb, hsz⟩⟩ := hs
  · exact ⟨hl, .inl (by simpa using ho)⟩
  · refine ⟨hl, .inr ⟨by simpa using hi, h0, ?_⟩⟩
    unfold Machine.storeBytes
    split
    · exact ⟨b, hb, hsz⟩
    · refine ⟨_, by rw [findHeap_writeHeap, hb]; rfl, ?_⟩
      split <;> exact hsz
    · exact ⟨b, hb, hsz⟩

theorem storeBytes_heap_ids (g : Slice) (off : Nat) (bs : List Byte) (s : State) :
    (storeBytes g off bs s).heap.map HeapBuf.id = s.heap.map HeapBuf.id := by
  unfold storeBytes; split <;> simp

/-- Writing bytes through any slice keeps the pool's invariants. -/
theorem storeBytes_poolOk {s : State} (hs : PoolOk s) (g : Slice) (off : Nat) (bs : List Byte) :
    PoolOk (storeBytes g off bs s) := by
  obtain ⟨h1, h2, h3, h4, h5, h6, h7⟩ := hs
  refine ⟨by simpa using h1, by simpa using h2, fun e he => ?_, by simpa using h4, by simpa using h5,
    by simpa using h6, fun b hb => ?_⟩
  · exact (h3 e (by simpa using he)).storeBytes g off bs
  · have : b.id ∈ (storeBytes g off bs s).heap.map HeapBuf.id := List.mem_map_of_mem hb
    rw [storeBytes_heap_ids] at this
    obtain ⟨d, hd, hdb⟩ := List.mem_map.1 this
    obtain ⟨e, he, hed, hei⟩ := h7 d hd
    exact ⟨e, by simpa using he, hed.trans hdb, by simpa using hei⟩

/-! ### `Acquire` -/

/-- `Acquire` keeps memory in canonical form. -/
theorem acquire_memoryOk {s : State} (hs : MemoryOk s) (len : Nat) (who : Holder) :
    MemoryOk (acquire len who s).2 := by
  obtain ⟨h1, h2, h3, h4, h5, h6⟩ := hs
  have hf := freshId_acquire len who s
  rcases acquire_cases len who s with ⟨k, -, h⟩ | ⟨-, h⟩ <;> rw [h] at hf ⊢
  · refine ⟨h1, h2, h3, fun b hb => ?_, h5.filter _, fun a ha => h6 a (List.mem_filter.1 ha).1⟩
    have := h4 b hb
    omega
  · refine ⟨h1, ?_, ?_, ?_, h5, h6⟩
    · intro b hb
      rcases List.mem_append.1 hb with hb | hb
      · exact h2 b hb
      · rw [List.mem_singleton.1 hb]; simp [Memory.wf]
    · simp only [acquireHeap, List.map_append, List.map_cons, List.map_nil, List.pairwise_append]
      refine ⟨h3, by simp, ?_⟩
      intro a ha b hb
      obtain ⟨d, hd, rfl⟩ := List.mem_map.1 ha
      rw [List.mem_singleton.1 hb]
      exact h4 d hd
    · intro b hb
      rcases List.mem_append.1 hb with hb | hb
      · have := h4 b hb; omega
      · rw [List.mem_singleton.1 hb, hf]; simp

/-- `Acquire` keeps the pool's invariants: the slot it takes was free, and its id is fresh. -/
theorem acquire_poolOk {s : State} (hc : s.cfg.WF) (hm : MemoryOk s) (hs : PoolOk s) (len : Nat) (who : Holder) :
    PoolOk (acquire len who s).2 := by
  obtain ⟨h1, h2, h3, h4, h5, h6, h7⟩ := hs
  have hn8 := hc.slots.2
  have hids : ((s.live ++ [({ slice := (acquire len who s).1, holder := who } : LiveEntry)]).map
      fun e => e.slice.id).Pairwise (· < ·) := by
    rw [List.map_append, List.pairwise_append]
    refine ⟨h1, by simp, ?_⟩
    intro a ha b hb
    obtain ⟨d, hd, rfl⟩ := List.mem_map.1 ha
    simp only [List.map_cons, List.map_nil, List.mem_singleton] at hb
    rw [hb, (acquire_slice len who s).1]
    exact h2 d hd
  have hold : ∀ e ∈ s.live ++ [({ slice := (acquire len who s).1, holder := who } : LiveEntry)],
      e.slice.id < freshId (acquire len who s).2 := by
    intro e he
    rw [freshId_acquire]
    rcases List.mem_append.1 he with he | he
    · have := h2 e he; omega
    · rw [List.mem_singleton.1 he, (acquire_slice len who s).1]; omega
  have hheld : ∀ b ∈ s.heap, ∃ e ∈ s.live ++ [({ slice := (acquire len who s).1, holder := who } : LiveEntry)],
      e.slice.id = b.id ∧ e.slice.idx = s.cfg.untracked := fun b hb => by
    obtain ⟨e, he, h⟩ := h7 b hb
    exact ⟨e, List.mem_append_left _ he, h⟩
  rcases acquire_cases len who s with ⟨k, hk, h⟩ | ⟨-, h⟩ <;> rw [h] at hids hold hheld ⊢
  · obtain ⟨⟨k1, kn⟩, hfree, hcap⟩ := mem_fit.1 hk
    refine ⟨hids, hold, ?_, ?_, ?_, ?_, hheld⟩
    · intro e he
      rcases List.mem_append.1 he with he | he
      · exact (h3 e he).congr rfl rfl
      · rw [List.mem_singleton.1 he]
        exact ⟨hcap, .inl ⟨placeOf_slot hc k1 kn, rfl, rfl⟩⟩
    · intro j j1 jn
      replace jn : j ≤ s.cfg.nSlots := jn
      simp only [acquireSlot]
      rw [slotTaken_set _ j1 (by omega) k1 (by omega)]
      simp only [Bool.or_eq_true, decide_eq_true_eq, h4 j j1 jn, List.mem_append, List.mem_singleton]
      constructor
      · rintro (⟨e, he, hej⟩ | rfl)
        · exact ⟨e, .inl he, hej⟩
        · exact ⟨_, .inr rfl, rfl⟩
      · rintro ⟨e, he | rfl, hej⟩
        · exact .inl ⟨e, he, hej⟩
        · exact .inr hej.symm
    · intro j jn j8
      replace jn : s.cfg.nSlots < j := jn
      simp only [acquireSlot]
      rw [slotTaken_set _ (by omega) j8 k1 (by omega), h5 j jn j8]
      simp; omega
    · simp only [acquireSlot, List.pairwise_append, List.pairwise_cons, List.mem_singleton]
      refine ⟨h6, ⟨by simp, List.Pairwise.nil⟩, ?_⟩
      rintro a ha b rfl - heq
      have := (h4 k k1 kn).2 ⟨a, ha, heq⟩
      simp [this] at hfree
  · refine ⟨hids, hold, ?_, ?_, h5, ?_, ?_⟩
    · intro e he
      rcases List.mem_append.1 he with he | he
      · obtain ⟨hl, ho | ⟨hi, h0, b, hb, hsz⟩⟩ := h3 e he
        · exact ⟨hl, .inl ho⟩
        · refine ⟨hl, .inr ⟨hi, h0, b, ?_, hsz⟩⟩
          simp only [acquireHeap]
          rw [findHeap_append (fun d hd => hm.heapOld d hd), if_neg (by have := h2 e he; simp; omega), hb]
      · rw [List.mem_singleton.1 he]
        refine ⟨le_refl _, .inr ⟨rfl, rfl, { id := freshId s, size := len, mem := [] }, ?_, rfl⟩⟩
        simp only [acquireHeap]
        rw [findHeap_append (fun d hd => hm.heapOld d hd), if_pos rfl]
    · intro j j1 jn
      replace jn : j ≤ s.cfg.nSlots := jn
      simp only [acquireHeap, h4 j j1 jn, List.mem_append, List.mem_singleton]
      constructor
      · rintro ⟨e, he, hej⟩; exact ⟨e, .inl he, hej⟩
      · rintro ⟨e, he | rfl, hej⟩
        · exact ⟨e, he, hej⟩
        · exact absurd ⟨by simp at hej; omega, by simp at hej; omega⟩ hc.untracked.1
    · simp only [acquireHeap, List.pairwise_append, List.pairwise_cons, List.mem_singleton]
      refine ⟨h6, ⟨by simp, List.Pairwise.nil⟩, ?_⟩
      rintro a ha b rfl hp
      exact (placeOf_pool.1 hp).1
    · intro b hb
      rcases List.mem_append.1 hb with hb | hb
      · exact hheld b hb
      · rw [List.mem_singleton.1 hb]
        exact ⟨_, List.mem_append_right _ (List.mem_singleton.2 rfl), rfl, rfl⟩

/-! ### `Release` -/

/-- `Release` keeps memory in canonical form. -/
theorem release_memoryOk {s t : State} {h : Slice} (hs : MemoryOk s) (hr : release h s = .ok () t) :
    MemoryOk t := by
  obtain ⟨h1, h2, h3, h4, h5, h6⟩ := hs
  rcases release_cases h s with ⟨-, hx⟩ | ⟨-, ⟨-, hx⟩ | ⟨-, hx⟩ | ⟨-, hx⟩⟩ <;> rw [hx] at hr <;>
    simp only [reduceCtorEq, Res.ok.injEq, true_and] at hr <;> subst hr
  · refine ⟨h1, fun b hb => h2 b (mem_dropHeap.1 hb).1, ?_, fun b hb => h4 b (mem_dropHeap.1 hb).1, h5, h6⟩
    exact h3.sublist (List.Sublist.map _ List.filter_sublist)
  · exact ⟨h1, h2, h3, h4, h5, h6⟩

/-- `Release` of a live slice keeps the pool's invariants: its slot is free again, and no other changes. -/
theorem release_poolOk {s t : State} (hc : s.cfg.WF) (hs : PoolOk s) {e : LiveEntry} (he : e ∈ s.live)
    (hr : release e.slice s = .ok () t) : PoolOk t := by
  have hn8 := hc.slots.2
  have hfl := (mem_iff_findLive hs.ids e).1 he
  have happ := fun d hd hne => live_apart hs (d := e) (e := d) he hd hne
  obtain ⟨h1, h2, h3, h4, h5, h6, h7⟩ := hs
  have hids : ((dropLive s.live e.slice.id).map fun e => e.slice.id).Pairwise (· < ·) :=
    h1.sublist (List.Sublist.map _ List.filter_sublist)
  have hold : ∀ d ∈ dropLive s.live e.slice.id, d.slice.id < freshId s := fun d hd => h2 d (mem_dropLive.1 hd).1
  have halone : (dropLive s.live e.slice.id).Pairwise fun a b =>
      placeOf s.cfg a.slice.idx = .pool → a.slice.idx ≠ b.slice.idx := h6.sublist List.filter_sublist
  rcases release_cases e.slice s with ⟨-, hx⟩ | ⟨-, ⟨hp, hx⟩ | ⟨hp, hx⟩ | ⟨-, hx⟩⟩ <;> rw [hx] at hr <;>
    simp only [reduceCtorEq, Res.ok.injEq, true_and] at hr <;> subst hr
  · have hu := placeOf_heap.1 hp
    refine ⟨hids, hold, ?_, ?_, h5, halone, ?_⟩
    · intro d hd
      obtain ⟨hd, hne⟩ := mem_dropLive.1 hd
      obtain ⟨hl, ho | ⟨hi, h0, b, hb, hsz⟩⟩ := h3 d hd
      · exact ⟨hl, .inl ho⟩
      · exact ⟨hl, .inr ⟨hi, h0, b, by simp [findHeap_dropHeap, hne, hb], hsz⟩⟩
    · intro j j1 jn
      simp only [h4 j j1 jn, mem_dropLive]
      constructor
      · rintro ⟨d, hd, hdj⟩
        refine ⟨d, ⟨hd, fun heq => ?_⟩, hdj⟩
        have : some d = some e := by rw [← (mem_iff_findLive h1 d).1 hd, heq, hfl]
        obtain rfl := Option.some.inj this
        have hj : placeOf s.cfg j = .pool := placeOf_slot hc j1 jn
        rw [← hdj, hp] at hj
        cases hj
      · rintro ⟨d, ⟨hd, -⟩, hdj⟩; exact ⟨d, hd, hdj⟩
    · intro b hb
      obtain ⟨hb, hne⟩ := mem_dropHeap.1 hb
      obtain ⟨d, hd, hdb, hdi⟩ := h7 b hb
      exact ⟨d, mem_dropLive.2 ⟨hd, by rw [hdb]; exact hne⟩, hdb, hdi⟩
  · obtain ⟨hu, i1, inn⟩ := placeOf_pool.1 hp
    refine ⟨hids, hold, ?_, ?_, ?_, halone, ?_⟩
    · intro d hd
      exact (h3 d (mem_dropLive.1 hd).1).congr rfl rfl
    · intro j j1 jn
      replace jn : j ≤ s.cfg.nSlots := jn
      show slotTaken (s.mask &&& ~~~ slotBit e.slice.idx) j = true ↔ _
      rw [slotTaken_clear _ j1 (by omega) i1 (by omega)]
      simp only [Bool.and_eq_true, Bool.not_eq_true', decide_eq_false_iff_not, h4 j j1 jn, mem_dropLive]
      constructor
      · rintro ⟨⟨d, hd, hdj⟩, hne⟩
        refine ⟨d, ⟨hd, fun heq => hne ?_⟩, hdj⟩
        have : some d = some e := by rw [← (mem_iff_findLive h1 d).1 hd, heq, hfl]
        obtain rfl := Option.some.inj this
        exact hdj.symm
      · rintro ⟨d, ⟨hd, hne⟩, hdj⟩
        exact ⟨⟨d, hd, hdj⟩, fun heq => happ d hd (fun h => hne h.symm) hp (by rw [hdj, heq])⟩
    · intro j jn j8
      replace jn : s.cfg.nSlots < j := jn
      show slotTaken (s.mask &&& ~~~ slotBit e.slice.idx) j = false
      rw [slotTaken_clear _ (by omega) j8 i1 (by omega), h5 j jn j8]
      rfl
    · intro b hb
      obtain ⟨d, hd, hdb, hdi⟩ := h7 b hb
      refine ⟨d, mem_dropLive.2 ⟨hd, fun heq => ?_⟩, hdb, hdi⟩
      have hde : some d = some e := by rw [← (mem_iff_findLive h1 d).1 hd, heq, hfl]
      obtain rfl := Option.some.inj hde
      exact hu hdi

/-! ### Changes of a live entry -/

/-- Giving a live slice to another holder keeps the pool's invariants. -/
theorem setHolder_poolOk {s : State} (hs : PoolOk s) (id : Nat) (who : Holder) : PoolOk (setHolder id who s) := by
  obtain ⟨h1, h2, h3, h4, h5, h6, h7⟩ := hs
  have hsl : ∀ e ∈ (setHolder id who s).live, ∃ d ∈ s.live, e.slice = d.slice := by
    intro e he
    obtain ⟨d, hd, rfl⟩ := mem_mapLive.1 he
    exact ⟨d, hd, by split <;> rfl⟩
  have hsl' : ∀ d ∈ s.live, ∃ e ∈ (setHolder id who s).live, e.slice = d.slice := by
    intro d hd
    exact ⟨_, mem_mapLive.2 ⟨d, hd, rfl⟩, by split <;> rfl⟩
  refine ⟨?_, ?_, ?_, ?_, h5, ?_, ?_⟩
  · show ((mapLive _ _ _).map fun e => e.slice.id).Pairwise (· < ·)
    rw [mapLive_ids]
    · exact h1
    · intro e; rfl
  · intro e he
    obtain ⟨d, hd, h⟩ := hsl e he
    rw [h]; exact h2 d hd
  · intro e he
    obtain ⟨d, hd, h⟩ := hsl e he
    rw [h]; exact (h3 d hd).congr rfl rfl
  · intro k k1 kn
    refine (h4 k k1 kn).trans ⟨?_, ?_⟩
    · rintro ⟨d, hd, hk⟩
      obtain ⟨e, he, h⟩ := hsl' d hd
      exact ⟨e, he, by rw [h, hk]⟩
    · rintro ⟨e, he, hk⟩
      obtain ⟨d, hd, h⟩ := hsl e he
      exact ⟨d, hd, by rw [← h, hk]⟩
  · show (mapLive _ _ _).Pairwise _
    unfold mapLive
    rw [List.pairwise_map]
    refine h6.imp ?_
    intro a b h
    have ha : ∀ x : LiveEntry, (if x.slice.id = id then { x with holder := who } else x).slice = x.slice := by
      intro x; split <;> rfl
    rw [ha, ha]; exact h
  · intro b hb
    obtain ⟨d, hd, h, hi⟩ := h7 b hb
    obtain ⟨e, he, hed⟩ := hsl' d hd
    exact ⟨e, he, by rw [hed, h], by rw [hed]; exact hi⟩

/-- Lengthening a live slice in place, within its capacity, keeps the pool's invariants (R38). -/
theorem setSliceLen_poolOk {s : State} (hs : PoolOk s) {id n : Nat}
    (hn : ∀ e ∈ s.live, e.slice.id = id → n ≤ e.slice.cap) : PoolOk (setSliceLen id n s) := by
  obtain ⟨h1, h2, h3, h4, h5, h6, h7⟩ := hs
  have key : ∀ x : LiveEntry,
      (if x.slice.id = id then { x with slice := { x.slice with len := n } } else x).slice.id = x.slice.id ∧
      (if x.slice.id = id then { x with slice := { x.slice with len := n } } else x).slice.idx = x.slice.idx := by
    intro x; split <;> exact ⟨rfl, rfl⟩
  refine ⟨?_, ?_, ?_, ?_, h5, ?_, ?_⟩
  · show ((mapLive _ _ _).map fun e => e.slice.id).Pairwise (· < ·)
    rw [mapLive_ids]
    · exact h1
    · intro e; rfl
  · intro e he
    obtain ⟨d, hd, rfl⟩ := mem_mapLive.1 he
    rw [(key d).1]; exact h2 d hd
  · intro e he
    obtain ⟨d, hd, rfl⟩ := mem_mapLive.1 he
    obtain ⟨hl, ho⟩ := h3 d hd
    split
    · rename_i hid
      exact ⟨hn d hd hid, ho⟩
    · exact ⟨hl, ho⟩
  · intro k k1 kn
    refine (h4 k k1 kn).trans ⟨?_, ?_⟩
    · rintro ⟨d, hd, hk⟩
      exact ⟨_, mem_mapLive.2 ⟨d, hd, rfl⟩, by rw [(key d).2, hk]⟩
    · rintro ⟨e, he, hk⟩
      obtain ⟨d, hd, rfl⟩ := mem_mapLive.1 he
      exact ⟨d, hd, by rw [← (key d).2, hk]⟩
  · show (mapLive _ _ _).Pairwise _
    unfold mapLive
    rw [List.pairwise_map]
    refine h6.imp ?_
    intro a b h
    rw [(key a).2, (key b).2]; exact h
  · intro b hb
    obtain ⟨d, hd, h, hi⟩ := h7 b hb
    exact ⟨_, mem_mapLive.2 ⟨d, hd, rfl⟩, by rw [(key d).1, h], by rw [(key d).2]; exact hi⟩

end Sys2Proof.Machine
end

