-- ==== Sys2Proof/Laws/Operands.lean ====
section
/-! SUPPORT. What the checks on operands can answer (spec/60_exceptions.md R251): one lemma per check, and one for
an operand that meets it. -/

namespace Sys2Proof.Machine

/-! ### Slices and frames -/

theorem sameHandle_self (c : Config) (h : Slice) : sameHandle c h h = true := by simp [sameHandle]

/-- A handle that passes is the one issued, or has a corrupt index. -/
theorem sameHandle_iff {c : Config} {issued given : Slice} :
    sameHandle c issued given = true ↔ given = issued ∨ placeOf c given.idx = .corrupt := by
  simp [sameHandle]

theorem useSlice_owned {s : State} {h : Slice} (ho : Owns s h) : useSlice h s = .ok () s := by
  simp [useSlice, ho, sameHandle_self]

/-- The agent's own slice, named by a handle with a corrupt index, passes (R129). -/
theorem useSlice_corrupt {s : State} {g h : Slice} (ho : Owns s g) (hid : h.id = g.id)
    (hp : placeOf s.cfg h.idx = .corrupt) : useSlice h s = .ok () s := by
  have ho' : findLive s.live h.id = some { slice := g, holder := .caller s.agent } := by rw [hid]; exact ho
  simp [useSlice, ho', sameHandle_iff, hp]

/-- What a Slice operand can answer. -/
theorem useSlice_cases (h : Slice) (s : State) :
    (∃ f, useSlice h s = .fault f ∧ (f = .notLive ∨ f = .notOwner ∨ f = .forged)) ∨
    (useSlice h s = .ok () s ∧ Owns s h) ∨
    (useSlice h s = .ok () s ∧ placeOf s.cfg h.idx = .corrupt ∧ ∃ g, Owns s g ∧ g.id = h.id) := by
  unfold useSlice
  cases hl : findLive s.live h.id with
  | none => exact .inl ⟨_, rfl, by simp⟩
  | some e =>
    obtain ⟨g, who⟩ := e
    by_cases hw : who = .caller s.agent
    · subst hw
      cases hsame : sameHandle s.cfg g h with
      | false => exact .inl ⟨.forged, by simp [hsame], by simp⟩
      | true =>
        right
        rcases sameHandle_iff.1 hsame with rfl | hp
        · exact .inl ⟨by simp [hsame], hl⟩
        · have hid : g.id = h.id := (findLive_some hl).2
          exact .inr ⟨by simp [hsame], hp, g, by rw [Owns, hid]; exact hl, hid⟩
    · exact .inl ⟨.notOwner, by simp [hw], by simp⟩

theorem useFrame_owned {s : State} {f : Frame} (ho : OwnsFrame s f) : useFrame f s = .ok () s := by
  simp [useFrame, ho]

/-- The agent's own frame, or one that it built on a damaged handle, named by a frame whose buffer has a corrupt
index, passes (R129). -/
theorem useFrame_corrupt {s : State} {f : Frame} {e : LiveEntry} (hl : findLive s.live f.buf.id = some e)
    (hw : (∃ kind off len, e.holder = .frame s.agent kind off len) ∨ e.holder = .damagedFrame s.agent)
    (hp : placeOf s.cfg f.buf.idx = .corrupt) : useFrame f s = .ok () s := by
  rcases hw with ⟨kind, off, len, hw⟩ | hw <;> simp [useFrame, hl, hw, hp]

/-- What a Frame operand can answer. -/
theorem useFrame_cases (f : Frame) (s : State) :
    (∃ x, useFrame f s = .fault x ∧ (x = .notLive ∨ x = .notOwner ∨ x = .forged)) ∨
    (useFrame f s = .ok () s ∧ OwnsFrame s f) ∨
    (useFrame f s = .ok () s ∧ placeOf s.cfg f.buf.idx = .corrupt ∧
      ∃ e, findLive s.live f.buf.id = some e ∧
        ((∃ kind off len, e.holder = .frame s.agent kind off len) ∨ e.holder = .damagedFrame s.agent)) := by
  unfold useFrame
  cases hl : findLive s.live f.buf.id with
  | none => exact .inl ⟨_, rfl, by simp⟩
  | some e =>
    obtain ⟨g, who⟩ := e
    cases who with
    | caller a => exact .inl ⟨.notOwner, by simp, by simp⟩
    | dec c => exact .inl ⟨.notOwner, by simp, by simp⟩
    | enc c => exact .inl ⟨.notOwner, by simp, by simp⟩
    | frame a kind off len =>
      by_cases ha : a = s.agent
      · subst ha
        by_cases hp : placeOf s.cfg f.buf.idx = .corrupt
        · exact .inr (.inr ⟨by simp [hp], hp, _, rfl, .inl ⟨kind, off, len, rfl⟩⟩)
        · by_cases hk : f.buf = g ∧ kind = f.kind ∧ off = f.payOff ∧ len = f.payLen
          · obtain ⟨rfl, rfl, rfl, rfl⟩ := hk
            exact .inr (.inl ⟨by simp, hl⟩)
          · exact .inl ⟨.forged, by simp [hp, hk], by simp⟩
      · exact .inl ⟨.notOwner, by simp [ha], by simp⟩
    | damagedFrame a =>
      by_cases ha : a = s.agent
      · subst ha
        by_cases hp : placeOf s.cfg f.buf.idx = .corrupt
        · exact .inr (.inr ⟨by simp [hp], hp, _, rfl, .inr rfl⟩)
        · exact .inl ⟨.forged, by simp [hp], by simp⟩
      · exact .inl ⟨.notOwner, by simp [ha], by simp⟩

/-- What a View operand can answer. -/
theorem useView_cases (v : View) (s : State) :
    (∃ f, useView v s = .fault f ∧ (f = .notLive ∨ f = .forged)) ∨
    (useView v s = .ok .fresh s ∧
      ∃ who, findLive s.live v.slice.id = some { slice := v.slice, holder := who } ∧ isLastView s who v = true) ∨
    (useView v s = .ok .fresh s ∧ placeOf s.cfg v.slice.idx = .corrupt) ∨
    useView v s = .ok .stale s := by
  unfold useView
  cases hl : findLive s.live v.slice.id with
  | none => exact .inl ⟨_, rfl, by simp⟩
  | some e =>
    obtain ⟨g, who⟩ := e
    simp only
    split
    · rename_i h
      rcases h with h | ⟨h1, h2⟩
      · exact .inr (.inr (.inl ⟨rfl, h⟩))
      · exact .inr (.inl ⟨rfl, who, h1 ▸ rfl, h2⟩)
    · cases who with
      | enc c =>
        by_cases he : { v.slice with len := g.len } = g
        · exact .inr (.inr (.inr (if_pos he)))
        · exact .inl ⟨.forged, if_neg he, by simp⟩
      | caller a => simp
      | frame a kind off len => simp
      | damagedFrame a => simp
      | dec c => simp

theorem useView_live {s : State} {v : View} {who : Holder}
    (h : findLive s.live v.slice.id = some { slice := v.slice, holder := who }) (hl : isLastView s who v = true) :
    useView v s = .ok .fresh s := by
  simp [useView, h, hl]

/-! ### Connections -/

/-- What the `conn` operand of a `DEC` operation can lead to. -/
theorem withDec_cases (c : Nat) (s : State) (k : DecState → State → Res Response) :
    (s.decs[c]? = none ∧ withDec c s k = refuse s) ∨
    (∃ D, s.decs[c]? = some D ∧ D.driver ≠ none ∧ D.driver ≠ some s.agent ∧ withDec c s k = .fault .race) ∨
    (∃ D, DrivesDec s c D ∧ withDec c s k = k { D with driver := some s.agent } (claimDec c D s)) := by
  unfold withDec
  cases h : s.decs[c]? with
  | none => simp
  | some D =>
    by_cases hd : D.driver = none ∨ D.driver = some s.agent
    · exact .inr (.inr ⟨D, ⟨h, hd⟩, by simp [hd]⟩)
    · exact .inr (.inl ⟨D, rfl, fun h => hd (.inl h), fun h => hd (.inr h), by simp [hd]⟩)

theorem withDec_of {s : State} {c : Nat} {D : DecState} (h : DrivesDec s c D)
    (k : DecState → State → Res Response) :
    withDec c s k = k { D with driver := some s.agent } (claimDec c D s) := by
  simp only [withDec, h.1, if_pos h.2]

/-- What the `conn` operand of an `ENC` operation can lead to. -/
theorem withEnc_cases (c : Nat) (s : State) (k : EncState → State → Res Response) :
    (s.encs[c]? = none ∧ withEnc c s k = refuse s) ∨
    (∃ E, s.encs[c]? = some E ∧ E.driver ≠ none ∧ E.driver ≠ some s.agent ∧ withEnc c s k = .fault .race) ∨
    (∃ E, DrivesEnc s c E ∧ withEnc c s k = k { E with driver := some s.agent } (claimEnc c E s)) := by
  unfold withEnc
  cases h : s.encs[c]? with
  | none => simp
  | some E =>
    by_cases hd : E.driver = none ∨ E.driver = some s.agent
    · exact .inr (.inr ⟨E, ⟨h, hd⟩, by simp [hd]⟩)
    · exact .inr (.inl ⟨E, rfl, fun h => hd (.inl h), fun h => hd (.inr h), by simp [hd]⟩)

theorem withEnc_of {s : State} {c : Nat} {E : EncState} (h : DrivesEnc s c E)
    (k : EncState → State → Res Response) :
    withEnc c s k = k { E with driver := some s.agent } (claimEnc c E s) := by
  simp only [withEnc, h.1, if_pos h.2]

/-! ### Memory accesses -/

/-- What `MemRead` can answer (R64): the misuse of R63 on a valid index, or the bytes. -/
theorem memRead_cases (h : Slice) (off n : Nat) (s : State) :
    (memRead h off n s = .fault .badAccess ∧ placeOf s.cfg h.idx ≠ .corrupt ∧ accessible s h off n = false) ∨
    memRead h off n s = .ok (bytesAt s h off n) { s with free := s.free + n } := by
  unfold memRead
  split
  · exact .inr rfl
  · rename_i hn
    exact .inl ⟨rfl, fun h => hn (.inl h), by simpa using fun h => hn (.inr h)⟩

/-- Through a corrupt index `MemRead` answers free values (log 10). -/
theorem memRead_corrupt {s : State} {h : Slice} (hp : placeOf s.cfg h.idx = .corrupt) (off n : Nat) :
    memRead h off n s = freeBytes n s := by
  simp [memRead, hp, freeBytes, bytesAt, storedByte]

/-- What `MemWrite` can answer (R64). -/
theorem memWrite_cases (h : Slice) (off : Nat) (bs : List Byte) (s : State) :
    (memWrite h off bs s = .fault .noPlace ∧ placeOf s.cfg h.idx = .corrupt ∧ bs ≠ []) ∨
    (memWrite h off bs s = .fault .badAccess ∧ accessible s h off bs.length = false) ∨
    memWrite h off bs s = .ok () (storeBytes h off bs s) := by
  unfold memWrite
  split
  · split
    · exact .inr (.inr (by simp [storeBytes, *]))
    · exact .inl ⟨rfl, ‹_›, ‹_›⟩
  · split
    · simp
    · simp_all

@[simp] theorem bytesAt_length (s : State) (h : Slice) (off n : Nat) : (bytesAt s h off n).length = n := by
  simp [bytesAt]

/-- A byte that has been written is read as it was written. -/
theorem bytesAt_get {s : State} {h : Slice} {off n i : Nat} {b : Byte} (hi : i < n)
    (hb : storedByte s h (off + i) = some b) : (bytesAt s h off n)[i]? = some b := by
  simp [bytesAt, hi, hb]

end Sys2Proof.Machine
end

