-- ==== Sys2Proof/Laws/Holders.lean ====
section
/-! SUPPORT. The whole invariant (`BlockOk`) under each change a meaning makes: who holds a slice, and what a decoder
or encoder says of its buffer (spec/10_state.md R28, R30, R39). -/

namespace Sys2Proof.Machine

/-! ### Reading `HoldersOk` by handle id -/

/-- What the holder of a live slice says of the decoders, encoders and frames. -/
def HolderOk (s : State) (e : LiveEntry) : Prop :=
  match e.holder with
  | .caller _ => True
  | .frame _ kind off len => FrameShapeOk s.cfg e.slice kind off len
  | .damagedFrame _ => True
  | .dec c => ∃ D, s.decs[c]? = some D ∧ D.buf = some e.slice
  | .enc c => ∃ E, s.encs[c]? = some E ∧ E.buf = some e.slice

/-- `HoldersOk`, one handle at a time. -/
theorem holdersOk_iff {s : State} :
    HoldersOk s ↔
      (∀ c D b, s.decs[c]? = some D → D.buf = some b →
        findLive s.live b.id = some { slice := b, holder := .dec c }) ∧
      (∀ c E b, s.encs[c]? = some E → E.buf = some b →
        findLive s.live b.id = some { slice := b, holder := .enc c }) ∧
      ∀ e ∈ s.live, HolderOk s e := by
  constructor
  · rintro ⟨h1, h2, h3, h4, h5⟩
    refine ⟨h1, h2, fun e he => ?_⟩
    unfold HolderOk
    split
    · trivial
    · exact h5 e he _ _ _ _ ‹_›
    · trivial
    · exact h3 e he _ ‹_›
    · exact h4 e he _ ‹_›
  · rintro ⟨h1, h2, h3⟩
    refine ⟨h1, h2, fun e he c hc => ?_, fun e he c hc => ?_, fun e he a k o l hc => ?_⟩ <;>
    · have := h3 e he; unfold HolderOk at this; rw [hc] at this; exact this

/-- A connection's decoder, and every other one, after one is replaced. -/
theorem getElem?_set_cases {α : Type} {l : List α} {c j : Nat} {x y : α} (h : (l.set c x)[j]? = some y) :
    (j = c ∧ y = x) ∨ (j ≠ c ∧ l[j]? = some y) := by
  rw [List.getElem?_set] at h
  split at h
  · rename_i hc
    split at h
    · exact .inl ⟨hc.symm, (Option.some.inj h).symm⟩
    · cases h
  · rename_i hc
    exact .inr ⟨fun h => hc h.symm, h⟩

theorem getElem?_set_same {α : Type} {l : List α} {c : Nat} {x y : α} (h : l[c]? = some y) :
    (l.set c x)[c]? = some x := by
  rw [List.getElem?_set_self (List.getElem?_eq_some_iff.1 h).1]

/-! ### One decoder -/

/-- A decoder's invariants rest on the configuration and on the bytes of its own buffer. -/
theorem DecoderOk.transfer {s t : State} {D : DecState} (h : DecoderOk s D) (hc : t.cfg = s.cfg)
    (hb : ∀ b, D.buf = some b → ∀ i < b.len, storedByte t b i = storedByte s b i) : DecoderOk t D := by
  obtain ⟨h1, h2, h3, h4, h5, h6, h7⟩ := h
  refine ⟨h1, by rw [hc]; exact h2, h3, by rw [hc]; exact h4, by rw [hc]; exact h5, ?_, ?_⟩
  · intro b e i hi
    have := (h4 b e).1
    rw [hb b e i (by omega)]; exact h6 b e i hi
  · intro hp b e i hi
    have h8 := (h4 b e).1
    have h9 := (h5 hp).1
    rw [hb b e i (by omega)]; exact h7 hp b e i hi

/-- Every decoder's invariants, when one decoder is replaced and the bytes of the other ones' buffers stay. -/
theorem decoders_set {s t : State} {c : Nat} {D : DecState} (h : ∀ D ∈ s.decs, DecoderOk s D)
    (hd : t.decs = s.decs.set c D) (hc : t.cfg = s.cfg) (hD : DecoderOk t D)
    (hb : ∀ j E b, j ≠ c → s.decs[j]? = some E → E.buf = some b → ∀ i < b.len,
      storedByte t b i = storedByte s b i) : ∀ D ∈ t.decs, DecoderOk t D := by
  intro E hE
  rw [hd] at hE
  obtain ⟨j, hj⟩ := List.mem_iff_getElem?.1 hE
  rcases getElem?_set_cases hj with ⟨-, rfl⟩ | ⟨hne, hj⟩
  · exact hD
  · exact (h E (List.mem_of_getElem? hj)).transfer hc (fun b e => hb j E b hne hj e)

/-! ### Live entries of an invariant state -/

/-- A decoder's buffer is a live entry that the decoder holds. -/
theorem BlockOk.decBuf {s : State} (hs : BlockOk s) {c : Nat} {D : DecState} {b : Slice} (hD : s.decs[c]? = some D)
    (hb : D.buf = some b) : (⟨b, .dec c⟩ : LiveEntry) ∈ s.live :=
  (findLive_some (hs.holders.decHas c D b hD hb)).1

/-- An encoder's buffer is a live entry that the encoder holds. -/
theorem BlockOk.encBuf {s : State} (hs : BlockOk s) {c : Nat} {E : EncState} {b : Slice} (hE : s.encs[c]? = some E)
    (hb : E.buf = some b) : (⟨b, .enc c⟩ : LiveEntry) ∈ s.live :=
  (findLive_some (hs.holders.encHas c E b hE hb)).1

theorem BlockOk.decOk {s : State} (hs : BlockOk s) {c : Nat} {D : DecState} (hD : s.decs[c]? = some D) : DecoderOk s D :=
  hs.decoders D (List.mem_of_getElem? hD)

theorem BlockOk.encOk {s : State} (hs : BlockOk s) {c : Nat} {E : EncState} (hE : s.encs[c]? = some E) : EncoderOk E :=
  hs.encoders E (List.mem_of_getElem? hE)

/-- A live slice is not longer than its capacity. -/
theorem BlockOk.lenCap {s : State} (hs : BlockOk s) {e : LiveEntry} (he : e ∈ s.live) : e.slice.len ≤ e.slice.cap :=
  (hs.pool.shape e he).1

/-- The entry of an id is the only one with it. -/
theorem BlockOk.find {s : State} (hs : BlockOk s) {e : LiveEntry} (he : e ∈ s.live) : findLive s.live e.slice.id = some e :=
  (mem_iff_findLive hs.pool.ids e).1 he

/-- Two live entries with one id are one. -/
theorem BlockOk.sameId {s : State} (hs : BlockOk s) {d e : LiveEntry} (hd : d ∈ s.live) (he : e ∈ s.live)
    (h : d.slice.id = e.slice.id) : d = e := by
  have h1 := hs.find hd
  rw [h, hs.find he] at h1
  exact (Option.some.inj h1).symm

/-- The buffers of two decoders have different ids. -/
theorem BlockOk.decBufs {s : State} (hs : BlockOk s) {c j : Nat} {D E : DecState} {a b : Slice} (hD : s.decs[c]? = some D)
    (ha : D.buf = some a) (hE : s.decs[j]? = some E) (hb : E.buf = some b) (hne : j ≠ c) : b.id ≠ a.id := by
  intro h
  have := hs.sameId (hs.decBuf hE hb) (hs.decBuf hD ha) h
  simp at this
  exact hne this.2

/-! ### Changes that touch no slice -/

/-- What the invariant rests on: not the response, the inputs, the agent, the log or the counters. -/
theorem BlockOk.congr {s t : State} (hs : BlockOk s) (h1 : t.mask = s.mask) (h2 : t.poolmem = s.poolmem)
    (h3 : t.heap = s.heap) (h4 : t.live = s.live) (h5 : freshId t = freshId s) (h6 : t.decs = s.decs)
    (h7 : t.encs = s.encs) (h8 : t.cfg = s.cfg) (h9 : t.written = s.written) : BlockOk t := by
  obtain ⟨a, b, c, d, e, ⟨f1, f2, f3, f4, f5⟩, g, h⟩ := hs
  refine ⟨h8 ▸ a, by rw [h6, h8]; exact b, by rw [h7, h8]; exact c, d.congr h2 h3 h5 h9, e.congr h1 h3 h4 h5 h8,
    ⟨by rw [h4, h6]; exact f1, by rw [h4, h7]; exact f2, by rw [h4, h6]; exact f3, by rw [h4, h7]; exact f4,
      by rw [h4, h8]; exact f5⟩, ?_, by rw [h7]; exact h⟩
  rw [h6]
  exact fun D hD => (g D hD).transfer h8 (fun b _ i _ => storedByte_congr h8 h9 h2 h3 b i)

/-- A decoder replaced by one with the same buffer. -/
theorem BlockOk.setDec {s : State} (hs : BlockOk s) {c : Nat} {D D' : DecState} (hD : s.decs[c]? = some D)
    (hb : D'.buf = D.buf) (hok : DecoderOk s D') : BlockOk (setDec c D' s) := by
  refine ⟨hs.cfg, by simpa using hs.decs, hs.encs, hs.memory.congr rfl rfl rfl rfl,
    hs.pool.congr rfl rfl rfl rfl rfl, ?_, ?_, hs.encoders⟩
  · obtain ⟨h1, h2, h3⟩ := holdersOk_iff.1 hs.holders
    refine holdersOk_iff.2 ⟨?_, h2, ?_⟩
    · intro j E b hj hE
      rcases getElem?_set_cases hj with ⟨rfl, rfl⟩ | ⟨-, hj⟩
      · exact h1 j D b hD (hb ▸ hE)
      · exact h1 j E b hj hE
    · intro e he
      have := h3 e he
      unfold HolderOk at this ⊢
      split
      · trivial
      · rename_i h; rw [h] at this; exact this
      · trivial
      · rename_i j h
        rw [h] at this
        obtain ⟨E, hE, hEb⟩ := this
        by_cases hj : j = c
        · subst hj
          rw [hD] at hE; cases hE
          exact ⟨D', getElem?_set_same hD, hb.trans hEb⟩
        · exact ⟨E, by rw [setDec_decs, List.getElem?_set_ne (fun h => hj h.symm)]; exact hE, hEb⟩
      · rename_i h; rw [h] at this; exact this
  · exact decoders_set hs.decoders rfl rfl (hok.transfer rfl (fun _ _ _ _ => rfl)) (fun _ _ _ _ _ _ _ _ => rfl)

/-- An encoder replaced by one with the same buffer. -/
theorem BlockOk.setEnc {s : State} (hs : BlockOk s) {c : Nat} {E E' : EncState} (hE : s.encs[c]? = some E)
    (hb : E'.buf = E.buf) (hok : EncoderOk E') : BlockOk (setEnc c E' s) := by
  refine ⟨hs.cfg, hs.decs, by simpa using hs.encs, hs.memory.congr rfl rfl rfl rfl,
    hs.pool.congr rfl rfl rfl rfl rfl, ?_, ?_, ?_⟩
  · obtain ⟨h1, h2, h3⟩ := holdersOk_iff.1 hs.holders
    refine holdersOk_iff.2 ⟨h1, ?_, ?_⟩
    · intro j F b hj hF
      rcases getElem?_set_cases hj with ⟨rfl, rfl⟩ | ⟨-, hj⟩
      · exact h2 j E b hE (hb ▸ hF)
      · exact h2 j F b hj hF
    · intro e he
      have := h3 e he
      unfold HolderOk at this ⊢
      split
      · trivial
      · rename_i h; rw [h] at this; exact this
      · trivial
      · rename_i h; rw [h] at this; exact this
      · rename_i j h
        rw [h] at this
        obtain ⟨F, hF, hFb⟩ := this
        by_cases hj : j = c
        · subst hj
          rw [hE] at hF; cases hF
          exact ⟨E', getElem?_set_same hE, hb.trans hFb⟩
        · exact ⟨F, by rw [setEnc_encs, List.getElem?_set_ne (fun h => hj h.symm)]; exact hF, hFb⟩
  · exact fun D hD => (hs.decoders D hD).transfer rfl (fun _ _ _ _ => rfl)
  · intro F hF
    obtain ⟨j, hj⟩ := List.mem_iff_getElem?.1 hF
    rcases getElem?_set_cases hj with ⟨-, rfl⟩ | ⟨-, hj⟩
    · exact hok
    · exact hs.encoders F (List.mem_of_getElem? hj)

/-- Claiming a decoder or encoder. -/
theorem BlockOk.claimDec {s : State} (hs : BlockOk s) {c : Nat} {D : DecState} (hD : s.decs[c]? = some D) :
    BlockOk (claimDec c D s) := by
  obtain ⟨h1, h2, h3, h4, h5, h6, h7⟩ := hs.decOk hD
  exact hs.setDec hD rfl ⟨h1, h2, h3, h4, h5, h6, h7⟩

theorem BlockOk.claimEnc {s : State} (hs : BlockOk s) {c : Nat} {E : EncState} (hE : s.encs[c]? = some E) :
    BlockOk (claimEnc c E s) := by
  obtain ⟨h1, h2⟩ := hs.encOk hE
  exact hs.setEnc hE rfl ⟨h1, h2⟩

/-! ### Stores -/

/-- Writing through a live slice that no decoder holds. -/
theorem BlockOk.store {s : State} (hs : BlockOk s) {e : LiveEntry} (he : e ∈ s.live) (hh : ∀ c, e.holder ≠ .dec c)
    {off : Nat} {bs : List Byte} (hn : off + bs.length ≤ e.slice.len) : BlockOk (storeBytes e.slice off bs s) := by
  refine ⟨by simpa using hs.cfg, by simpa using hs.decs, by simpa using hs.encs, storeBytes_memoryOk hs.memory _ _ _,
    storeBytes_poolOk hs.pool _ _ _, ?_, ?_, by simpa using hs.encoders⟩
  · obtain ⟨h1, h2, h3, h4, h5⟩ := hs.holders
    exact ⟨by simpa using h1, by simpa using h2, by simpa using h3, by simpa using h4, by simpa using h5⟩
  · intro D hD
    rw [storeBytes_decs] at hD
    refine (hs.decoders D hD).transfer (by simp) (fun b hb i hi => ?_)
    obtain ⟨j, hj⟩ := List.mem_iff_getElem?.1 hD
    have hl := hs.decBuf hj hb
    refine storedByte_storeBytes_other hs.cfg hs.memory hs.pool he hl ?_ hn
      (lt_of_lt_of_le hi (hs.lenCap hl))
    intro heq
    have := hs.sameId he hl heq
    exact hh j (by rw [this])

/-- Writing the next bytes through a decoder's own buffer, the decoder replaced by one with the same buffer. -/
theorem BlockOk.storeDec {s : State} (hs : BlockOk s) {c : Nat} {D D' : DecState} {b : Slice} (hD : s.decs[c]? = some D)
    (hb : D.buf = some b) (hb' : D'.buf = some b) {off : Nat} {bs : List Byte} (hn : off + bs.length ≤ b.len)
    (hok : DecoderOk (storeBytes b off bs s) D') : BlockOk (Machine.setDec c D' (storeBytes b off bs s)) := by
  have he := hs.decBuf hD hb
  refine ⟨by simpa using hs.cfg, by simpa using hs.decs, by simpa using hs.encs,
    (storeBytes_memoryOk hs.memory _ _ _).congr rfl rfl rfl rfl,
    (storeBytes_poolOk hs.pool _ _ _).congr rfl rfl rfl rfl rfl, ?_, ?_, by simpa using hs.encoders⟩
  · refine holdersOk_iff.2 ⟨?_, by simpa using hs.holders.encHas, ?_⟩
    · intro j E g hj hE
      simp only [setDec_decs, storeBytes_decs] at hj
      simp only [setDec_live, storeBytes_live]
      rcases getElem?_set_cases hj with ⟨rfl, rfl⟩ | ⟨-, hj⟩
      · rw [hb'] at hE; cases hE
        exact hs.holders.decHas j D b hD hb
      · exact hs.holders.decHas j E g hj hE
    · intro e he'
      simp only [setDec_live, storeBytes_live] at he'
      have := (holdersOk_iff.1 hs.holders).2.2 e he'
      unfold HolderOk at this ⊢
      split
      · trivial
      · rename_i h; rw [h] at this; simpa using this
      · trivial
      · rename_i j h
        rw [h] at this
        obtain ⟨E, hE, hEb⟩ := this
        simp only [setDec_decs, storeBytes_decs]
        by_cases hj : j = c
        · subst hj
          rw [hD] at hE; cases hE
          exact ⟨D', getElem?_set_same hD, by rw [hb', ← hb, hEb]⟩
        · exact ⟨E, by rw [List.getElem?_set_ne (fun h => hj h.symm)]; exact hE, hEb⟩
      · rename_i h; rw [h] at this; simpa using this
  · refine decoders_set (c := c) (D := D') hs.decoders (by simp) (by simp) (hok.transfer rfl (fun _ _ _ _ => rfl)) ?_
    intro j E g hj hE hg i hi
    have hl := hs.decBuf hE hg
    show storedByte (storeBytes b off bs s) g i = _
    exact storedByte_storeBytes_other hs.cfg hs.memory hs.pool he hl
      (fun h => hs.decBufs hD hb hE hg hj h.symm) hn (lt_of_lt_of_le hi (hs.lenCap hl))

end Sys2Proof.Machine
end

