-- ==== Sys2Proof/Laws/Ownership.lean ====
section
/-! SUPPORT. The whole invariant (`BlockOk`) where slices come, go, grow or change hands: `Acquire` (spec/40_pool.md
R122), lengthening in place (spec/10_state.md R38), `Release` (R127), and the hand-overs to frames and agents
(spec/70_reset_and_hazards.md R281). -/

namespace Sys2Proof.Machine

/-! ### Keeping what holders say -/

theorem HolderOk.mono {s t : State} {e : LiveEntry} (h : HolderOk s e) (hc : t.cfg = s.cfg)
    (hd : ∀ c D, e.holder = .dec c → s.decs[c]? = some D → D.buf = some e.slice →
      ∃ D', t.decs[c]? = some D' ∧ D'.buf = some e.slice)
    (he : ∀ c E, e.holder = .enc c → s.encs[c]? = some E → E.buf = some e.slice →
      ∃ E', t.encs[c]? = some E' ∧ E'.buf = some e.slice) : HolderOk t e := by
  unfold HolderOk at h ⊢
  split
  · trivial
  · rename_i hh; rw [hh] at h; rw [hc]; exact h
  · trivial
  · rename_i c hh
    rw [hh] at h
    obtain ⟨D, h1, h2⟩ := h
    exact hd c D hh h1 h2
  · rename_i c hh
    rw [hh] at h
    obtain ⟨E, h1, h2⟩ := h
    exact he c E hh h1 h2

theorem BlockOk.holderOk {s : State} (hs : BlockOk s) {e : LiveEntry} (he : e ∈ s.live) : HolderOk s e :=
  (holdersOk_iff.1 hs.holders).2.2 e he

/-- Finding a handle after an acquire. -/
theorem BlockOk.find_acquire {s : State} (hs : BlockOk s) (len : Nat) (who : Holder) (id : Nat) :
    findLive (acquire len who s).2.live id
      = if id = freshId s then some { slice := (acquire len who s).1, holder := who } else findLive s.live id := by
  rw [acquire_live, findLive_append]
  · simp [(acquire_slice len who s).1]
  · intro d hd
    simp only [(acquire_slice len who s).1]
    exact hs.pool.old d hd

theorem BlockOk.mem_acquire {len : Nat} {who : Holder} {s : State} {e : LiveEntry}
    (he : e ∈ (acquire len who s).2.live) : e ∈ s.live ∨ e = { slice := (acquire len who s).1, holder := who } := by
  simpa using he

theorem BlockOk.old {s : State} (hs : BlockOk s) {e : LiveEntry} (he : e ∈ s.live) : e.slice.id ≠ freshId s :=
  Nat.ne_of_lt (hs.pool.old e he)

/-- Every decoder's invariants after an acquire. -/
theorem BlockOk.decoders_acquire {s : State} (hs : BlockOk s) (len : Nat) (who : Holder) {D : DecState} {c : Nat}
    (hD : s.decs[c]? = some D) : DecoderOk (acquire len who s).2 D :=
  (hs.decOk hD).transfer (by simp) fun b hb i hi =>
    storedByte_acquire hs.cfg hs.memory hs.pool len who (hs.decBuf hD hb)
      (lt_of_lt_of_le hi (hs.lenCap (hs.decBuf hD hb)))

/-! ### `Acquire` -/

/-- A slice acquired for an agent. -/
theorem BlockOk.acquireCaller {s : State} (hs : BlockOk s) (len a : Nat) : BlockOk (acquire len (.caller a) s).2 := by
  refine ⟨by simpa using hs.cfg, by simpa using hs.decs, by simpa using hs.encs, acquire_memoryOk hs.memory _ _,
    acquire_poolOk hs.cfg hs.memory hs.pool _ _, holdersOk_iff.2 ⟨?_, ?_, ?_⟩, ?_, by simpa using hs.encoders⟩
  · intro c D b hD hb
    rw [acquire_decs] at hD
    have := hs.decBuf hD hb
    rw [hs.find_acquire, if_neg (hs.old this), hs.find this]
  · intro c E b hE hb
    rw [acquire_encs] at hE
    have := hs.encBuf hE hb
    rw [hs.find_acquire, if_neg (hs.old this), hs.find this]
  · intro e he
    rcases BlockOk.mem_acquire he with he | rfl
    · exact (hs.holderOk he).mono (by simp) (fun c D _ h1 h2 => ⟨D, by simpa using h1, h2⟩)
        (fun c E _ h1 h2 => ⟨E, by simpa using h1, h2⟩)
    · trivial
  · intro D hD
    rw [acquire_decs] at hD
    obtain ⟨c, hc⟩ := List.mem_iff_getElem?.1 hD
    exact hs.decoders_acquire _ _ hc

/-- A buffer acquired for a decoder that has none (R184). -/
theorem BlockOk.acquireDec {s : State} (hs : BlockOk s) {c : Nat} {D : DecState} (hD : s.decs[c]? = some D)
    (hn : D.buf = none) {len : Nat} (hl : len ≤ target s.cfg D) :
    BlockOk (Machine.setDec c { D with buf := some (acquire len (.dec c) s).1 } (acquire len (.dec c) s).2) := by
  refine ⟨by simpa using hs.cfg, by simpa using hs.decs, by simpa using hs.encs,
    (acquire_memoryOk hs.memory _ _).congr rfl rfl rfl rfl,
    (acquire_poolOk hs.cfg hs.memory hs.pool _ _).congr rfl rfl rfl rfl rfl, holdersOk_iff.2 ⟨?_, ?_, ?_⟩, ?_,
    by simpa using hs.encoders⟩
  · intro j E b hj hb
    rw [setDec_decs, acquire_decs] at hj
    rw [setDec_live, hs.find_acquire]
    rcases getElem?_set_cases hj with ⟨rfl, rfl⟩ | ⟨-, hj⟩
    · cases hb
      rw [if_pos (acquire_slice ..).1]
    · have := hs.decBuf hj hb
      rw [if_neg (hs.old this), hs.find this]
  · intro j E b hE hb
    rw [setDec_encs, acquire_encs] at hE
    have := hs.encBuf hE hb
    rw [setDec_live, hs.find_acquire, if_neg (hs.old this), hs.find this]
  · intro e he
    rw [setDec_live] at he
    rcases BlockOk.mem_acquire he with he | rfl
    · refine (hs.holderOk he).mono (by simp) (fun j E _ h1 h2 => ⟨E, ?_, h2⟩)
        (fun j E _ h1 h2 => ⟨E, by simpa using h1, h2⟩)
      rw [setDec_decs, acquire_decs, List.getElem?_set_ne, h1]
      rintro rfl
      rw [hD] at h1; cases h1
      rw [hn] at h2; cases h2
    · exact ⟨_, by rw [setDec_decs, acquire_decs]; exact getElem?_set_same hD, rfl⟩
  · refine decoders_set (c := c) hs.decoders (by simp; rfl) (by simp) ?_ ?_
    · obtain ⟨h1, h2, h3, h4, h5, h6, h7⟩ := hs.decOk hD
      have h0 := h3 hn
      have hap : D.phase ≠ .ap := fun h => by have := (h5 h).2.1; simp [hn] at this
      have ht : ∀ x, target s.cfg { D with buf := x } = target s.cfg D := fun _ => rfl
      refine ⟨h1, by simpa [ht] using h2, by simp, ?_, fun h => absurd h hap, ?_, fun h => absurd h hap⟩
      · intro b hb
        cases hb
        simp only [setDec_cfg, acquire_cfg, ht, (acquire_slice _ _ _).2]
        omega
      · intro b hb i hi
        simp only at hi
        omega
    · intro j E b hj hE hb i hi
      have := hs.decBuf hE hb
      exact storedByte_acquire hs.cfg hs.memory hs.pool len _ this (lt_of_lt_of_le hi (hs.lenCap this))

/-- A buffer acquired for an encoder that has none (R210). -/
theorem BlockOk.acquireEnc {s : State} (hs : BlockOk s) {c : Nat} {E : EncState} (hE : s.encs[c]? = some E)
    (hn : E.buf = none) (len : Nat) :
    BlockOk (Machine.setEnc c { E with buf := some (acquire len (.enc c) s).1 } (acquire len (.enc c) s).2) := by
  refine ⟨by simpa using hs.cfg, by simpa using hs.decs, by simpa using hs.encs,
    (acquire_memoryOk hs.memory _ _).congr rfl rfl rfl rfl,
    (acquire_poolOk hs.cfg hs.memory hs.pool _ _).congr rfl rfl rfl rfl rfl, holdersOk_iff.2 ⟨?_, ?_, ?_⟩, ?_, ?_⟩
  · intro j D b hD hb
    rw [setEnc_decs, acquire_decs] at hD
    have := hs.decBuf hD hb
    rw [setEnc_live, hs.find_acquire, if_neg (hs.old this), hs.find this]
  · intro j F b hj hb
    rw [setEnc_encs, acquire_encs] at hj
    rw [setEnc_live, hs.find_acquire]
    rcases getElem?_set_cases hj with ⟨rfl, rfl⟩ | ⟨-, hj⟩
    · cases hb
      rw [if_pos (acquire_slice ..).1]
    · have := hs.encBuf hj hb
      rw [if_neg (hs.old this), hs.find this]
  · intro e he
    rw [setEnc_live] at he
    rcases BlockOk.mem_acquire he with he | rfl
    · refine (hs.holderOk he).mono (by simp) (fun j E _ h1 h2 => ⟨E, by simpa using h1, h2⟩)
        (fun j F _ h1 h2 => ⟨F, ?_, h2⟩)
      rw [setEnc_encs, acquire_encs, List.getElem?_set_ne, h1]
      rintro rfl
      rw [hE] at h1; cases h1
      rw [hn] at h2; cases h2
    · exact ⟨_, by rw [setEnc_encs, acquire_encs]; exact getElem?_set_same hE, rfl⟩
  · intro D hD
    rw [setEnc_decs, acquire_decs] at hD
    obtain ⟨j, hj⟩ := List.mem_iff_getElem?.1 hD
    exact (hs.decoders_acquire len (.enc c) hj).transfer rfl (fun _ _ _ _ => rfl)
  · intro F hF
    rw [setEnc_encs, acquire_encs] at hF
    obtain ⟨j, hj⟩ := List.mem_iff_getElem?.1 hF
    rcases getElem?_set_cases hj with ⟨-, rfl⟩ | ⟨-, hj⟩
    · refine ⟨fun h => by simp at h, fun b _ => ?_⟩
      simp [(hs.encOk hE).empty hn]
    · exact hs.encOk hj

/-! ### Lengthening in place -/

/-- The entries after a lengthening: the one lengthened, and every other as it was. -/
theorem BlockOk.mem_setSliceLen {s : State} (hs : BlockOk s) {d : LiveEntry} (hd : d ∈ s.live) {n : Nat} {e : LiveEntry}
    (he : e ∈ (setSliceLen d.slice.id n s).live) :
    e = { d with slice := { d.slice with len := n } } ∨ (e ∈ s.live ∧ e.slice.id ≠ d.slice.id) := by
  obtain ⟨g, hg, rfl⟩ := mem_mapLive.1 he
  by_cases h : g.slice.id = d.slice.id
  · rw [if_pos h, hs.sameId hg hd h]; exact .inl rfl
  · rw [if_neg h]; exact .inr ⟨hg, h⟩

theorem find_setSliceLen (s : State) (id n j : Nat) :
    findLive (setSliceLen id n s).live j
      = (findLive s.live j).map fun e => if j = id then { e with slice := { e.slice with len := n } } else e :=
  findLive_mapLive s.live id (fun e => { e with slice := { e.slice with len := n } }) (fun _ => rfl) j

theorem BlockOk.setSliceLen_poolOk {s : State} (hs : BlockOk s) {d : LiveEntry} (hd : d ∈ s.live) {n : Nat}
    (hn : n ≤ d.slice.cap) : PoolOk (setSliceLen d.slice.id n s) :=
  Machine.setSliceLen_poolOk hs.pool fun e he h => by rw [hs.sameId he hd h]; exact hn

/-- A decoder's buffer lengthened in place (R184). -/
theorem BlockOk.lengthenDec {s : State} (hs : BlockOk s) {c : Nat} {D : DecState} {b : Slice} (hD : s.decs[c]? = some D)
    (hb : D.buf = some b) {n : Nat} (h1 : b.len ≤ n) (h2 : n ≤ target s.cfg D) (h3 : n ≤ b.cap) :
    BlockOk (Machine.setDec c { D with buf := some { b with len := n } } (setSliceLen b.id n s)) := by
  have hd := hs.decBuf hD hb
  refine ⟨hs.cfg, by simpa using hs.decs, hs.encs, hs.memory.congr rfl rfl rfl rfl,
    (hs.setSliceLen_poolOk hd h3).congr rfl rfl rfl rfl rfl, holdersOk_iff.2 ⟨?_, ?_, ?_⟩, ?_, hs.encoders⟩
  · intro j E g hj hg
    rw [setDec_live, find_setSliceLen]
    rcases getElem?_set_cases hj with ⟨rfl, rfl⟩ | ⟨hne, hj⟩
    · cases hg
      simp [hs.holders.decHas j D b hD hb]
    · have hne' := hs.decBufs hD hb hj hg hne
      rw [hs.holders.decHas j E g hj hg]
      simp [hne']
  · intro j E g hE hg
    rw [setDec_live, find_setSliceLen]
    have hm := hs.encBuf hE hg
    have hne : g.id ≠ b.id := fun h => by have := hs.sameId hm hd h; simp at this
    rw [hs.holders.encHas j E g hE hg]
    simp [hne]
  · intro e he
    rw [setDec_live] at he
    rcases hs.mem_setSliceLen hd he with rfl | ⟨he, hne⟩
    · exact ⟨_, getElem?_set_same hD, rfl⟩
    · refine (hs.holderOk he).mono rfl (fun j E _ g1 g2 => ⟨E, ?_, g2⟩) (fun j E _ g1 g2 => ⟨E, g1, g2⟩)
      rw [setDec_decs, setSliceLen_decs, List.getElem?_set_ne, g1]
      rintro rfl
      rw [hD] at g1; cases g1
      rw [hb] at g2; cases g2
      exact hne rfl
  · refine decoders_set (c := c) hs.decoders rfl rfl ?_ (fun _ _ _ _ _ _ _ _ => rfl)
    obtain ⟨g1, g2, g3, g4, g5, g6, g7⟩ := hs.decOk hD
    have ht : ∀ x, target s.cfg { D with buf := x } = target s.cfg D := fun _ => rfl
    refine ⟨g1, g2, by simp, ?_, fun h => ⟨(g5 h).1, rfl, (g5 h).2.2⟩, ?_, ?_⟩
    · intro g hg
      cases hg
      have := (g4 b hb).1
      simp only [setDec_cfg, setSliceLen_cfg, ht]
      omega
    · intro g hg i hi
      cases hg
      exact g6 b hb i hi
    · intro hp g hg i hi
      cases hg
      exact g7 hp b hb i hi

/-- An encoder's buffer given another length (R211). -/
theorem BlockOk.lengthenEnc {s : State} (hs : BlockOk s) {c : Nat} {E : EncState} {b : Slice} (hE : s.encs[c]? = some E)
    (hb : E.buf = some b) {n : Nat} (h3 : n ≤ b.cap) :
    BlockOk (Machine.setEnc c { E with buf := some { b with len := n } } (setSliceLen b.id n s)) := by
  have hd := hs.encBuf hE hb
  refine ⟨hs.cfg, hs.decs, by simpa using hs.encs, hs.memory.congr rfl rfl rfl rfl,
    (hs.setSliceLen_poolOk hd h3).congr rfl rfl rfl rfl rfl, holdersOk_iff.2 ⟨?_, ?_, ?_⟩, ?_, ?_⟩
  · intro j D g hD hg
    rw [setEnc_live, find_setSliceLen]
    have hm := hs.decBuf hD hg
    have hne : g.id ≠ b.id := fun h => by have := hs.sameId hm hd h; simp at this
    rw [hs.holders.decHas j D g hD hg]
    simp [hne]
  · intro j F g hj hg
    rw [setEnc_live, find_setSliceLen]
    rcases getElem?_set_cases hj with ⟨rfl, rfl⟩ | ⟨hne, hj⟩
    · cases hg
      simp [hs.holders.encHas j E b hE hb]
    · have hne' : g.id ≠ b.id := fun h => by
        have := hs.sameId (hs.encBuf hj hg) hd h
        simp at this; exact hne this.2
      rw [hs.holders.encHas j F g hj hg]
      simp [hne']
  · intro e he
    rw [setEnc_live] at he
    rcases hs.mem_setSliceLen hd he with rfl | ⟨he, hne⟩
    · exact ⟨_, getElem?_set_same hE, rfl⟩
    · refine (hs.holderOk he).mono rfl (fun j D _ g1 g2 => ⟨D, g1, g2⟩) (fun j F _ g1 g2 => ⟨F, ?_, g2⟩)
      rw [setEnc_encs, setSliceLen_encs, List.getElem?_set_ne, g1]
      rintro rfl
      rw [hE] at g1; cases g1
      rw [hb] at g2; cases g2
      exact hne rfl
  · exact fun D hD => (hs.decoders D hD).transfer rfl (fun _ _ _ _ => rfl)
  · intro F hF
    obtain ⟨j, hj⟩ := List.mem_iff_getElem?.1 hF
    rcases getElem?_set_cases hj with ⟨-, rfl⟩ | ⟨-, hj⟩
    · refine ⟨fun h => by simp at h, fun g hg => ?_⟩
      cases hg
      exact (hs.encOk hE).within b hb
    · exact hs.encOk hj

/-! ### `Release` -/

/-- A decoder's bytes after another slice is released. -/
theorem decoderOk_release {s t : State} {D : DecState} {g : Slice} (h : DecoderOk s D)
    (hr : release g s = .ok () t) (hne : ∀ b, D.buf = some b → b.id ≠ g.id) : DecoderOk t D :=
  h.transfer (release_frame hr).2.2.2.2.2.2.2.1 fun b hb i _ => storedByte_release hr (hne b hb) i

/-- Releasing a slice that an agent or a frame holds. -/
theorem BlockOk.release {s t : State} (hs : BlockOk s) {e : LiveEntry} (he : e ∈ s.live) (h1 : ∀ c, e.holder ≠ .dec c)
    (h2 : ∀ c, e.holder ≠ .enc c) (hr : Machine.release e.slice s = .ok () t) : BlockOk t := by
  have hf := release_frame hr
  have hdec : ∀ (c : Nat) (D : DecState) (b : Slice), s.decs[c]? = some D → D.buf = some b → b.id ≠ e.slice.id := fun c D b hD hb h => by
    have := hs.sameId (hs.decBuf hD hb) he h
    exact h1 c (by rw [← this])
  have henc : ∀ (c : Nat) (E : EncState) (b : Slice), s.encs[c]? = some E → E.buf = some b → b.id ≠ e.slice.id := fun c E b hE hb h => by
    have := hs.sameId (hs.encBuf hE hb) he h
    exact h2 c (by rw [← this])
  obtain ⟨hl, -, -, -, -, hds, hes, hc, -⟩ := hf
  refine ⟨hc ▸ hs.cfg, by rw [hds, hc]; exact hs.decs, by rw [hes, hc]; exact hs.encs, release_memoryOk hs.memory hr,
    release_poolOk hs.cfg hs.pool he hr, holdersOk_iff.2 ⟨?_, ?_, ?_⟩, ?_, by rw [hes]; exact hs.encoders⟩
  · intro c D b hD hb
    rw [hds] at hD
    rw [hl, findLive_dropLive, if_neg (hdec c D b hD hb)]
    exact hs.holders.decHas c D b hD hb
  · intro c E b hE hb
    rw [hes] at hE
    rw [hl, findLive_dropLive, if_neg (henc c E b hE hb)]
    exact hs.holders.encHas c E b hE hb
  · intro d hd
    rw [hl] at hd
    exact (hs.holderOk (mem_dropLive.1 hd).1).mono hc (fun c D _ g1 g2 => ⟨D, by rw [hds]; exact g1, g2⟩)
      (fun c E _ g1 g2 => ⟨E, by rw [hes]; exact g1, g2⟩)
  · intro D hD
    rw [hds] at hD
    obtain ⟨c, hD⟩ := List.mem_iff_getElem?.1 hD
    exact decoderOk_release (hs.decOk hD) hr (fun b hb => hdec c D b hD hb)

/-- Releasing a decoder's buffer, the decoder replaced by one without a buffer. -/
theorem BlockOk.releaseDec {s t : State} (hs : BlockOk s) {c : Nat} {D D' : DecState} {b : Slice}
    (hD : s.decs[c]? = some D) (hb : D.buf = some b) (hr : Machine.release b s = .ok () t)
    (hn : D'.buf = none) (hok : DecoderOk s D') : BlockOk (Machine.setDec c D' t) := by
  have hm := hs.decBuf hD hb
  obtain ⟨hl, -, -, -, -, hds, hes, hc, -⟩ := release_frame hr
  have hcap := (release_memoryOk hs.memory hr)
  have hpool := (release_poolOk hs.cfg hs.pool hm hr)
  have hdec : ∀ (j : Nat) (E : DecState) (g : Slice), j ≠ c → s.decs[j]? = some E → E.buf = some g → g.id ≠ b.id :=
    fun j E g hj hE hg => hs.decBufs hD hb hE hg hj
  have henc : ∀ (j : Nat) (E : EncState) (g : Slice), s.encs[j]? = some E → E.buf = some g → g.id ≠ b.id := fun j E g hE hg h => by
    have := hs.sameId (hs.encBuf hE hg) hm h
    simp at this
  refine ⟨by rw [setDec_cfg, hc]; exact hs.cfg, by rw [setDec_decs, setDec_cfg, hds, hc]; simpa using hs.decs,
    by rw [setDec_encs, setDec_cfg, hes, hc]; exact hs.encs, hcap.congr rfl rfl rfl rfl,
    hpool.congr rfl rfl rfl rfl rfl, holdersOk_iff.2 ⟨?_, ?_, ?_⟩, ?_, by rw [setDec_encs, hes]; exact hs.encoders⟩
  · intro j E g hj hg
    rw [setDec_decs, hds] at hj
    rcases getElem?_set_cases hj with ⟨rfl, rfl⟩ | ⟨hne, hj⟩
    · rw [hn] at hg; cases hg
    · rw [setDec_live, hl, findLive_dropLive, if_neg (hdec j E g hne hj hg)]
      exact hs.holders.decHas j E g hj hg
  · intro j E g hE hg
    rw [setDec_encs, hes] at hE
    rw [setDec_live, hl, findLive_dropLive, if_neg (henc j E g hE hg)]
    exact hs.holders.encHas j E g hE hg
  · intro d hd
    rw [setDec_live, hl] at hd
    obtain ⟨hd, hne⟩ := mem_dropLive.1 hd
    refine (hs.holderOk hd).mono (by rw [setDec_cfg, hc]) (fun j E _ g1 g2 => ⟨E, ?_, g2⟩)
      (fun j E _ g1 g2 => ⟨E, by rw [setDec_encs, hes]; exact g1, g2⟩)
    rw [setDec_decs, hds, List.getElem?_set_ne, g1]
    rintro rfl
    rw [hD] at g1; cases g1
    rw [hb] at g2; cases g2
    exact hne rfl
  · refine decoders_set (c := c) hs.decoders (by rw [setDec_decs, hds]) (by rw [setDec_cfg, hc]) ?_ ?_
    · exact hok.transfer (by rw [setDec_cfg, hc]) (fun g hg => by rw [hn] at hg; cases hg)
    · intro j E g hj hE hg i hi
      exact storedByte_release hr (hdec j E g hj hE hg) i

/-- Releasing an encoder's buffer, the encoder replaced by one without a buffer. -/
theorem BlockOk.releaseEnc {s t : State} (hs : BlockOk s) {c : Nat} {E E' : EncState} {b : Slice}
    (hE : s.encs[c]? = some E) (hb : E.buf = some b) (hr : Machine.release b s = .ok () t)
    (hn : E'.buf = none) (hok : EncoderOk E') : BlockOk (Machine.setEnc c E' t) := by
  have hm := hs.encBuf hE hb
  obtain ⟨hl, -, -, -, -, hds, hes, hc, -⟩ := release_frame hr
  have hdec : ∀ (j : Nat) (D : DecState) (g : Slice), s.decs[j]? = some D → D.buf = some g → g.id ≠ b.id := fun j D g hD hg h => by
    have := hs.sameId (hs.decBuf hD hg) hm h
    simp at this
  have henc : ∀ (j : Nat) (F : EncState) (g : Slice), j ≠ c → s.encs[j]? = some F → F.buf = some g → g.id ≠ b.id := fun j F g hj hF hg h => by
    have := hs.sameId (hs.encBuf hF hg) hm h
    simp at this; exact hj this.2
  refine ⟨by rw [setEnc_cfg, hc]; exact hs.cfg, by rw [setEnc_decs, setEnc_cfg, hds, hc]; exact hs.decs,
    by rw [setEnc_encs, setEnc_cfg, hes, hc]; simpa using hs.encs,
    (release_memoryOk hs.memory hr).congr rfl rfl rfl rfl,
    (release_poolOk hs.cfg hs.pool hm hr).congr rfl rfl rfl rfl rfl, holdersOk_iff.2 ⟨?_, ?_, ?_⟩, ?_, ?_⟩
  · intro j D g hD hg
    rw [setEnc_decs, hds] at hD
    rw [setEnc_live, hl, findLive_dropLive, if_neg (hdec j D g hD hg)]
    exact hs.holders.decHas j D g hD hg
  · intro j F g hj hg
    rw [setEnc_encs, hes] at hj
    rcases getElem?_set_cases hj with ⟨rfl, rfl⟩ | ⟨hne, hj⟩
    · rw [hn] at hg; cases hg
    · rw [setEnc_live, hl, findLive_dropLive, if_neg (henc j F g hne hj hg)]
      exact hs.holders.encHas j F g hj hg
  · intro d hd
    rw [setEnc_live, hl] at hd
    obtain ⟨hd, hne⟩ := mem_dropLive.1 hd
    refine (hs.holderOk hd).mono (by rw [setEnc_cfg, hc]) (fun j D _ g1 g2 => ⟨D, by rw [setEnc_decs, hds]; exact g1, g2⟩)
      (fun j F _ g1 g2 => ⟨F, ?_, g2⟩)
    rw [setEnc_encs, hes, List.getElem?_set_ne, g1]
    rintro rfl
    rw [hE] at g1; cases g1
    rw [hb] at g2; cases g2
    exact hne rfl
  · intro D hD
    rw [setEnc_decs, hds] at hD
    obtain ⟨j, hD⟩ := List.mem_iff_getElem?.1 hD
    exact (decoderOk_release (hs.decOk hD) hr (fun g hg => hdec j D g hD hg)).transfer rfl (fun _ _ _ _ => rfl)
  · intro F hF
    rw [setEnc_encs, hes] at hF
    obtain ⟨j, hj⟩ := List.mem_iff_getElem?.1 hF
    rcases getElem?_set_cases hj with ⟨-, rfl⟩ | ⟨-, hj⟩
    · exact hok
    · exact hs.encOk hj

/-! ### Changes of hand -/

/-- The entries after a change of holder: the one given, and every other as it was. -/
theorem BlockOk.mem_setHolder {s : State} (hs : BlockOk s) {d : LiveEntry} (hd : d ∈ s.live) {who : Holder} {e : LiveEntry}
    (he : e ∈ (setHolder d.slice.id who s).live) :
    e = { d with holder := who } ∨ (e ∈ s.live ∧ e.slice.id ≠ d.slice.id) := by
  obtain ⟨g, hg, rfl⟩ := mem_mapLive.1 he
  by_cases h : g.slice.id = d.slice.id
  · rw [if_pos h, hs.sameId hg hd h]; exact .inl rfl
  · rw [if_neg h]; exact .inr ⟨hg, h⟩

theorem find_setHolder (s : State) (id : Nat) (who : Holder) (j : Nat) :
    findLive (setHolder id who s).live j
      = (findLive s.live j).map fun e => if j = id then { e with holder := who } else e :=
  findLive_mapLive s.live id (fun e => { e with holder := who }) (fun _ => rfl) j

/-- A slice that an agent or a frame holds goes to an agent or a frame. -/
theorem BlockOk.setHolder {s : State} (hs : BlockOk s) {d : LiveEntry} (hd : d ∈ s.live) (h1 : ∀ c, d.holder ≠ .dec c)
    (h2 : ∀ c, d.holder ≠ .enc c) {who : Holder} (h3 : ∀ c, who ≠ .dec c) (h4 : ∀ c, who ≠ .enc c)
    (h5 : ∀ a kind off len, who = .frame a kind off len → FrameShapeOk s.cfg d.slice kind off len) :
    BlockOk (Machine.setHolder d.slice.id who s) := by
  refine ⟨hs.cfg, hs.decs, hs.encs, hs.memory.congr rfl rfl rfl rfl, setHolder_poolOk hs.pool _ _,
    holdersOk_iff.2 ⟨?_, ?_, ?_⟩, ?_, hs.encoders⟩
  · intro c D b hD hb
    have hne : b.id ≠ d.slice.id := fun h => by
      have := hs.sameId (hs.decBuf hD hb) hd h
      exact h1 c (by rw [← this])
    rw [find_setHolder, hs.holders.decHas c D b hD hb]
    simp [hne]
  · intro c E b hE hb
    have hne : b.id ≠ d.slice.id := fun h => by
      have := hs.sameId (hs.encBuf hE hb) hd h
      exact h2 c (by rw [← this])
    rw [find_setHolder, hs.holders.encHas c E b hE hb]
    simp [hne]
  · intro e he
    rcases hs.mem_setHolder hd he with rfl | ⟨he, -⟩
    · unfold HolderOk
      split
      · trivial
      · exact h5 _ _ _ _ ‹_›
      · trivial
      · exact absurd ‹_› (h3 _)
      · exact absurd ‹_› (h4 _)
    · exact (hs.holderOk he).mono rfl (fun c D _ g1 g2 => ⟨D, g1, g2⟩) (fun c E _ g1 g2 => ⟨E, g1, g2⟩)
  · exact fun D hD => (hs.decoders D hD).transfer rfl (fun _ _ _ _ => rfl)

/-- A decoder's buffer goes to a frame, the decoder replaced by one without a buffer (R192, R195). -/
theorem BlockOk.giveDec {s : State} (hs : BlockOk s) {c : Nat} {D D' : DecState} {b : Slice} (hD : s.decs[c]? = some D)
    (hb : D.buf = some b) (hn : D'.buf = none) (hok : DecoderOk s D') {a : Nat} {kind : FrameKind} {off len : Nat}
    (hf : FrameShapeOk s.cfg b kind off len) :
    BlockOk (Machine.setHolder b.id (.frame a kind off len) (Machine.setDec c D' s)) := by
  have hm := hs.decBuf hD hb
  refine ⟨hs.cfg, by simpa using hs.decs, hs.encs, hs.memory.congr rfl rfl rfl rfl,
    (setHolder_poolOk hs.pool _ _).congr rfl rfl rfl rfl rfl, holdersOk_iff.2 ⟨?_, ?_, ?_⟩, ?_, hs.encoders⟩
  · intro j E g hj hg
    rw [setHolder_decs, setDec_decs] at hj
    rw [find_setHolder, setDec_live]
    rcases getElem?_set_cases hj with ⟨rfl, rfl⟩ | ⟨hne, hj⟩
    · rw [hn] at hg; cases hg
    · rw [hs.holders.decHas j E g hj hg]
      simp [hs.decBufs hD hb hj hg hne]
  · intro j E g hE hg
    have hne : g.id ≠ b.id := fun h => by
      have := hs.sameId (hs.encBuf hE hg) hm h
      simp at this
    rw [find_setHolder, setDec_live, hs.holders.encHas j E g hE hg]
    simp [hne]
  · intro e he
    have he' : e ∈ (Machine.setHolder b.id (.frame a kind off len) s).live := he
    rcases hs.mem_setHolder hm he' with rfl | ⟨he, hne⟩
    · exact hf
    · refine (hs.holderOk he).mono rfl (fun j E _ g1 g2 => ⟨E, ?_, g2⟩) (fun j E _ g1 g2 => ⟨E, g1, g2⟩)
      rw [setHolder_decs, setDec_decs, List.getElem?_set_ne, g1]
      rintro rfl
      rw [hD] at g1; cases g1
      rw [hb] at g2; cases g2
      exact hne rfl
  · exact decoders_set (c := c) hs.decoders rfl rfl
      (hok.transfer rfl (fun g hg => by rw [hn] at hg; cases hg)) (fun _ _ _ _ _ _ _ _ => rfl)

/-- A frame built on a slice as issued holds it as what it is. -/
theorem frameHolder_issued {s : State} {h : Slice} {who : Holder} (hl : findLive s.live h.id = some ⟨h, who⟩)
    (kind : FrameKind) (off len : Nat) : frameHolder kind h off len s = .frame s.agent kind off len := by
  simp [frameHolder, asIssued, hl]

/-- A frame built on a handle with a corrupt index is damaged. -/
theorem frameHolder_corrupt {s : State} (hs : PoolOk s) {h : Slice} (hp : placeOf s.cfg h.idx = .corrupt)
    (kind : FrameKind) (off len : Nat) : frameHolder kind h off len s = .damagedFrame s.agent := by
  have : asIssued s h = false := by
    unfold asIssued
    cases hl : findLive s.live h.id with
    | none => rfl
    | some e =>
      have hne : e.slice ≠ h := fun he => live_not_corrupt hs (findLive_some hl).1 (by rw [he]; exact hp)
      simpa using hne
  simp [frameHolder, this]

/-- A slice that an agent holds goes to the frame built on it, which it fits, or which is damaged (R281, log 10). -/
theorem BlockOk.giveCaller {s : State} (hs : BlockOk s) {d : LiveEntry} (hd : d ∈ s.live) {a : Nat}
    (hw : d.holder = .caller a) {h : Slice} (hid : h.id = d.slice.id) {kind : FrameKind} {off len : Nat}
    (hf : h = d.slice → FrameShapeOk s.cfg h kind off len) :
    BlockOk (Machine.setHolder h.id (frameHolder kind h off len s) s) := by
  rw [hid]
  have key : frameHolder kind h off len s = .damagedFrame s.agent ∨
      (frameHolder kind h off len s = .frame s.agent kind off len ∧ h = d.slice) := by
    by_cases hh : h = d.slice
    · exact .inr ⟨frameHolder_issued (by rw [hid, hs.find hd, hh]) _ _ _, hh⟩
    · left
      have : asIssued s h = false := by simp [asIssued, hid, hs.find hd, Ne.symm hh]
      simp [frameHolder, this]
  rcases key with hk | ⟨hk, hh⟩ <;> rw [hk]
  · exact hs.setHolder hd (by simp [hw]) (by simp [hw]) (by simp) (by simp) (by simp)
  · refine hs.setHolder hd (by simp [hw]) (by simp [hw]) (by simp) (by simp) ?_
    rintro a' k' o' l' he
    cases he
    exact hh ▸ hf hh

end Sys2Proof.Machine
end

