-- ==== Sys2Proof/Laws/Encoding.lean ====
section
/-! SUPPORT. Everything the parts of `ENC.ENCODE` do (spec/44_encoder.md R210, R211): choosing the scratch buffer,
and writing the header and the payload into it. -/

namespace Sys2Proof.Machine

/-! ### The scratch buffer -/

/-- `Acquire` reads no encoder, so it commutes with a change of one. -/
theorem acquire_setEnc (len : Nat) (who : Holder) (c : Nat) (E : EncState) (s : State) :
    acquire len who (setEnc c E s) = ((acquire len who s).1, setEnc c E (acquire len who s).2) := by
  unfold acquire
  simp only [setEnc_cfg, setEnc_mask, setEnc_free]
  split <;> rfl

theorem setEnc_setEnc (c : Nat) (E F : EncState) (s : State) : setEnc c E (setEnc c F s) = setEnc c E s := by
  simp [setEnc]

/-- `Acquire` leaves every slot's bit but that of the slot it takes. -/
theorem acquire_slotTaken {s : State} (hc : s.cfg.WF) (len : Nat) (who : Holder) {j : Nat} (j1 : 1 ≤ j) (j8 : j ≤ 8)
    (hj : j ≠ (acquire len who s).1.idx) : slotTaken (acquire len who s).2.mask j = slotTaken s.mask j := by
  rcases acquire_cases len who s with ⟨k, hk, h⟩ | ⟨-, h⟩ <;> rw [h] at hj ⊢
  · obtain ⟨⟨k1, kn⟩, -, -⟩ := mem_fit.1 hk
    simp only [acquireSlot] at hj ⊢
    rw [slotTaken_set _ j1 j8 k1 (le_trans kn hc.slots.2)]
    simp [hj]
  · rfl

/-- `Release` leaves every slot's bit but that of the slot it frees. -/
theorem release_slotTaken {s t : State} (hc : s.cfg.WF) {h : Slice} (hr : release h s = .ok () t) {j : Nat}
    (j1 : 1 ≤ j) (j8 : j ≤ 8) (hj : j ≠ h.idx) : slotTaken t.mask j = slotTaken s.mask j := by
  rcases release_cases h s with ⟨-, h1⟩ | ⟨-, ⟨-, h1⟩ | ⟨hp, h1⟩ | ⟨-, h1⟩⟩ <;> rw [h1] at hr <;>
    simp only [reduceCtorEq, Res.ok.injEq, true_and] at hr <;> subst hr
  · rfl
  · obtain ⟨-, p1, p2⟩ := placeOf_pool.1 hp
    rw [slotTaken_clear _ j1 j8 p1 (le_trans p2 hc.slots.2)]
    simp [hj]

/-- Everything the choice of the scratch buffer does. -/
theorem scratch_ok {s : State} (hs : BlockOk s) {c : Nat} {E : EncState} (hE : s.encs[c]? = some E) (need : Nat) :
    ∃ t b, scratch c need E s = .ok b t ∧ BlockOk t ∧ t.encs = s.encs.set c { E with buf := some b } ∧
      b.len = need ∧ t.decs = s.decs ∧ t.cfg = s.cfg ∧ t.abort = s.abort ∧ t.agent = s.agent ∧
      t.poolmem = s.poolmem ∧
      (∀ j, 1 ≤ j → j ≤ 8 → j ≠ b.idx → (∀ o, E.buf = some o → j ≠ o.idx) →
        slotTaken t.mask j = slotTaken s.mask j) ∧
      (∀ e ∈ s.live, E.buf.map Slice.id ≠ some e.slice.id →
        e ∈ t.live ∧ ∀ o < e.slice.cap, storedByte t e.slice o = storedByte s e.slice o) ∧
      (E.buf = none → b.id = freshId s) ∧
      (∀ o, E.buf = some o → need ≤ o.cap → b = { o with len := need }) ∧
      (∀ o, E.buf = some o → o.cap < need → b.id = freshId s ∧ o.id ≠ b.id ∧ findLive t.live o.id = none) ∧
      ((∀ o, E.buf = some o → o.cap < need) →
        ∃ u, releaseHeld E.buf s = .ok () u ∧ b = (acquire need (.enc c) u).1) := by
  cases hb : E.buf with
  | none =>
    refine ⟨_, (acquire need (.enc c) s).1, by simp only [scratch, hb], hs.acquireEnc hE hb need, by simp, (acquire_slice _ _ _).2, by simp,
      by simp, by simp, by simp, by simp, fun j j1 j8 hj _ => acquire_slotTaken hs.cfg _ _ j1 j8 hj, ?_,
      fun _ => (acquire_slice _ _ _).1, by simp, by simp, fun _ => ⟨s, rfl, rfl⟩⟩
    intro e he _
    exact ⟨by simp [he], fun o ho => storedByte_acquire hs.cfg hs.memory hs.pool _ _ he ho⟩
  | some g =>
    have hm := hs.encBuf hE hb
    by_cases hn : need ≤ g.cap
    · refine ⟨_, { g with len := need }, by simp only [scratch, hb, if_pos hn], hs.lengthenEnc hE hb hn, by simp, rfl, by simp,
        by simp, by simp, by simp, by simp, fun _ _ _ _ _ => rfl, ?_, by simp, ?_, ?_, fun h => absurd (h g rfl) (by omega)⟩
      · intro e he hne
        refine ⟨mem_mapLive.2 ⟨e, he, ?_⟩, fun o ho => rfl⟩
        rw [if_neg]
        simpa [eq_comm] using hne
      · intro o ho _; cases ho; rfl
      · intro o ho h; cases ho; omega
    · obtain ⟨u, hu⟩ := release_of_live hs.pool hm
      simp only at hu
      obtain ⟨f1, f2, f3, f4, f5, f6, f7, f8, f9, f10, -⟩ := release_frame hu
      have hv := hs.releaseEnc (E' := { E with buf := none, outLen := 0 }) hE hb hu rfl ⟨fun _ => rfl, by simp⟩
      have hvE : (setEnc c { E with buf := none, outLen := 0 } u).encs[c]?
          = some { E with buf := none, outLen := 0 } := by
        rw [setEnc_encs, f7]; exact getElem?_set_same hE
      have hw := hv.acquireEnc hvE rfl need
      rw [acquire_setEnc] at hw
      simp only [setEnc_setEnc] at hw
      have hcap : need ≤ (acquire need (.enc c) u).1.cap := by
        have h1 := hw.lenCap (e := ⟨(acquire need (.enc c) u).1, .enc c⟩) (by simp)
        have h2 : (acquire need (.enc c) u).1.len = need := (acquire_slice _ _ _).2
        simp only [h2] at h1
        exact h1
      have hold := (hs.encOk hE).within g hb
      have hwE : (setEnc c { E with buf := some (acquire need (.enc c) u).1, outLen := 0 }
          (acquire need (.enc c) u).2).encs[c]?
            = some { E with buf := some (acquire need (.enc c) u).1, outLen := 0 } := by
        rw [setEnc_encs, acquire_encs, f7]; exact getElem?_set_same hE
      have hz := hw.setEnc (E' := { E with buf := some (acquire need (.enc c) u).1 }) hwE rfl
        ⟨by simp, fun x hx => by cases hx; simp only; omega⟩
      rw [setEnc_setEnc] at hz
      refine ⟨_, (acquire need (.enc c) u).1, by simp only [scratch, hb, if_neg hn, hu, Res.bind_ok], hz, by simp [f7],
        (acquire_slice _ _ _).2, by simp [f6], by simp [f8], by simp [f5], by simp [f10], by simp [f3],
        fun j j1 j8 hj ho => ?_, ?_, by simp, ?_, ?_, fun _ => ⟨u, hu, rfl⟩⟩
      · exact (acquire_slotTaken (f8 ▸ hs.cfg) _ _ j1 j8 hj).trans
          (release_slotTaken hs.cfg hu j1 j8 (ho g rfl))
      · intro e he hne
        have hne' : e.slice.id ≠ g.id := by simpa [eq_comm] using hne
        have hev : e ∈ (setEnc c { E with buf := none, outLen := 0 } u).live := by
          rw [setEnc_live, f1]; exact mem_dropLive.2 ⟨he, hne'⟩
        refine ⟨by simp only [setEnc_live, acquire_live, List.mem_append]; exact .inl hev, fun o ho => ?_⟩
        have h1 := storedByte_acquire hv.cfg hv.memory hv.pool need (.enc c) hev ho
        rw [acquire_setEnc] at h1
        exact h1.trans (storedByte_release hu hne' o)
      · intro o ho h; cases ho; omega
      · intro o ho _
        cases ho
        have hid : (acquire need (.enc c) u).1.id = freshId s := by rw [(acquire_slice _ _ _).1, f2]
        have hne : g.id ≠ freshId s := hs.old hm
        refine ⟨hid, by rw [hid]; exact hne, ?_⟩
        have h1 := hv.find_acquire need (.enc c) g.id
        rw [acquire_setEnc] at h1
        have hfr : freshId (setEnc c { E with buf := none, outLen := 0 } u) = freshId s := f2
        simp only [setEnc_live, hfr, if_neg hne, f1, findLive_dropLive, if_true] at h1
        exact h1

/-! ### The output -/

/-- A frame's length on the wire is that of its header, or nothing, and of its payload. -/
theorem wireLength_eq (c : Config) (f : Frame) :
    wireLength c f = (match f.kind with | .std _ => headerSize | .hs => 0) + payloadLength c f := by
  obtain ⟨k, g, o, l⟩ := f
  cases k <;> simp [wireLength, payloadLength]

/-- A frame's payload has the bytes its wire form has (R37). -/
theorem payloadLength_of_shape {c : Config} {h : Slice} {f : Frame}
    (hf : FrameShapeOk c h f.kind f.payOff f.payLen) : payloadLength c f = f.payLen := by
  obtain ⟨k, g, o, l⟩ := f
  cases k
  · exact hf.2.1.symm
  · exact hf.2.2.symm

/-- The stored bytes of a slice, all of them written, as a list. -/
theorem bytesAt_stored {s : State} {h : Slice} {off n : Nat} (hw : ∀ i < n, (storedByte s h (off + i)).isSome)
    {i : Nat} (hi : i < n) : (bytesAt s h off n)[i]? = storedByte s h (off + i) := by
  obtain ⟨x, hx⟩ := Option.isSome_iff_exists.1 (hw i hi)
  rw [hx]; exact bytesAt_get hi hx

/-- What an encoder may take as its frame: one on a live slice that is not the scratch buffer and that it fits, or one
whose buffer's index is corrupt. -/
def Encodable (s : State) (b : Slice) (f : Frame) : Prop :=
  (∃ who, (⟨f.buf, who⟩ : LiveEntry) ∈ s.live ∧ f.buf.id ≠ b.id ∧
    FrameShapeOk s.cfg f.buf f.kind f.payOff f.payLen) ∨
  placeOf s.cfg f.buf.idx = .corrupt

/-- The payload as `ENC.ENCODE` reads it: as many bytes as the output has. -/
theorem readPayload_ok {s u : State} {b : Slice} {f : Frame} (hf : Encodable s b f) (hu : BlockOk u)
    (hl : u.live = s.live) (hc : u.cfg = s.cfg) {off n : Nat}
    (ho : FrameShapeOk s.cfg f.buf f.kind f.payOff f.payLen → off = f.payOff ∧ n = f.payLen) :
    ∃ bs, bs.length = payloadLength s.cfg f ∧
      readPayload f off n u = .ok bs { u with free := u.free + payloadLength s.cfg f } ∧
      (placeOf s.cfg f.buf.idx ≠ .corrupt → bs = bytesAt u f.buf f.payOff f.payLen) := by
  rcases hf with ⟨who, he, -, hs⟩ | hp
  · obtain ⟨rfl, rfl⟩ := ho hs
    have he' : (⟨f.buf, who⟩ : LiveEntry) ∈ u.live := hl ▸ he
    have hp := live_not_corrupt hu.pool he'
    have hr := memRead_of_live hu.pool he' hs.1
    simp only at hp hr
    rw [payloadLength_of_shape hs]
    exact ⟨_, bytesAt_length .., by simp only [readPayload, if_neg hp, hr], fun _ => rfl⟩
  · exact ⟨(List.range (payloadLength s.cfg f)).map fun i => Config.freeByte (u.free + i), by simp,
      by simp [readPayload, hc, hp, freeBytes], fun h => absurd hp h⟩

/-- Everything the writing of the output does. -/
theorem writeFrame_ok {s : State} (hs : BlockOk s) {c : Nat} {b : Slice} {f : Frame}
    (hb : (⟨b, .enc c⟩ : LiveEntry) ∈ s.live) (hlen : b.len = wireLength s.cfg f) (hf : Encodable s b f) :
    ∃ t, writeFrame b f s = .ok () t ∧ BlockOk t ∧ t.live = s.live ∧ t.decs = s.decs ∧ t.encs = s.encs ∧
      t.cfg = s.cfg ∧ t.abort = s.abort ∧ t.agent = s.agent ∧ freshId t = freshId s ∧ t.mask = s.mask ∧
      (∀ d ∈ s.live, d.slice.id ≠ b.id → ∀ o < d.slice.cap, storedByte t d.slice o = storedByte s d.slice o) ∧
      (∀ a, ¬ (b.off ≤ a ∧ a < b.off + wireLength s.cfg f) → t.poolmem.read a = s.poolmem.read a) ∧
      (b.idx = s.cfg.untracked → t.poolmem = s.poolmem) ∧
      (∀ h, f.kind = .std h → ∀ i < headerSize, storedByte t b i = (headerBytes h)[i]?) ∧
      (placeOf s.cfg f.buf.idx ≠ .corrupt → (∀ i < f.payLen, (storedByte s f.buf (f.payOff + i)).isSome) →
        (List.range (wireLength s.cfg f)).map (storedByte t b) = wireStored s f) := by
  have hwl := wireLength_eq s.cfg f
  have store : ∀ (u : State) (off : Nat) (bs : List Byte), BlockOk u → u.live = s.live → u.cfg = s.cfg →
      off + bs.length ≤ wireLength s.cfg f →
      memWrite b off bs u = .ok () (storeBytes b off bs u) ∧ BlockOk (storeBytes b off bs u) ∧
      (∀ d ∈ s.live, d.slice.id ≠ b.id → ∀ o < d.slice.cap,
        storedByte (storeBytes b off bs u) d.slice o = storedByte u d.slice o) ∧
      (∀ a, ¬ (b.off ≤ a ∧ a < b.off + wireLength s.cfg f) →
        (storeBytes b off bs u).poolmem.read a = u.poolmem.read a) ∧
      (b.idx = s.cfg.untracked → (storeBytes b off bs u).poolmem = u.poolmem) ∧
      (∀ o, storedByte (storeBytes b off bs u) b o
        = if off ≤ o ∧ o < off + bs.length then bs[o - off]? else storedByte u b o) := by
    intro u off bs hu hl hc hin
    have hbu : (⟨b, .enc c⟩ : LiveEntry) ∈ u.live := hl ▸ hb
    refine ⟨memWrite_of_live hu.pool hbu (by simp only; omega), hu.store hbu (by simp) (by simp only; omega), ?_, ?_, ?_,
      fun o => storedByte_storeBytes_self hu.memory hu.pool hbu off bs o⟩
    · intro d hd hdb o ho
      exact storedByte_storeBytes_other hu.cfg hu.memory hu.pool hbu (hl ▸ hd) (fun h => hdb h.symm)
        (by simp only; omega) ho
    · intro a ha
      unfold storeBytes
      split
      · simp only [Memory.read_writeAll _ _ hu.memory.pool]
        rw [if_neg (by omega)]
      · rfl
      · rfl
    · intro hi
      simp [storeBytes, hc, placeOf_heap.2 hi]
  cases hk : f.kind with
  | std h =>
    simp only [hk] at hwl
    obtain ⟨m1, B1, o1, p1, q1, g1⟩ := store s 0 (headerBytes h) hs rfl rfl
      (by rw [hwl]; simp [headerBytes, headerSize])
    generalize hu1 : storeBytes b 0 (headerBytes h) s = u1 at m1 B1 o1 p1 q1 g1
    have l1 : u1.live = s.live := by subst hu1; simp
    have c1 : u1.cfg = s.cfg := by subst hu1; simp
    obtain ⟨bs, r1, r2, r3⟩ := readPayload_ok (off := f.payOff) (n := f.payLen) hf B1 l1 c1 (fun _ => ⟨rfl, rfl⟩)
    have B2 : BlockOk { u1 with free := u1.free + payloadLength s.cfg f } :=
      B1.congr rfl rfl rfl rfl rfl rfl rfl rfl rfl
    obtain ⟨m3, B3, o3, p3, q3, g3⟩ := store { u1 with free := u1.free + payloadLength s.cfg f } headerSize bs B2 l1 c1
      (by rw [hwl, r1])
    have g6 : ∀ i < headerSize, storedByte u1 b i = (headerBytes h)[i]? := by
      intro i hi
      rw [g1, if_pos (by simp [headerBytes, headerSize] at hi ⊢; omega), Nat.sub_zero]
    refine ⟨_, by simp only [writeFrame, hk, m1, Res.bind_ok, r2, m3], B3, ?_⟩
    refine ⟨by simp [l1], by subst hu1; simp, by subst hu1; simp, by simp [c1], by subst hu1; simp, by subst hu1; simp,
      by subst hu1; rw [storeBytes_freshId]; exact storeBytes_freshId .., by subst hu1; simp, ?_, ?_, ?_, ?_, ?_⟩
    · intro d hd hdb o ho
      rw [o3 d hd hdb o ho]; exact o1 d hd hdb o ho
    · intro a ha
      rw [p3 a ha]; exact p1 a ha
    · intro hi
      rw [q3 hi]; exact q1 hi
    · intro h' hh i hi
      cases hh
      rw [g3, if_neg (by omega)]
      exact g6 i hi
    · intro hp hw
      obtain ⟨who, he, hne, hsh⟩ := hf.resolve_right hp
      have hpl := payloadLength_of_shape hsh
      have hsame : ∀ i < f.payLen, storedByte u1 f.buf (f.payOff + i) = storedByte s f.buf (f.payOff + i) := by
        intro i hi
        refine o1 _ he hne _ (lt_of_lt_of_le ?_ (hs.lenCap he))
        have := hsh.1
        simp only; omega
      have hbs := r3 hp
      apply List.ext_getElem?
      intro i
      rw [hpl] at r1
      replace hwl : wireLength s.cfg f = headerSize + f.payLen := by rw [hwl, hpl]
      rw [hwl]
      simp only [wireStored, hk]
      by_cases hi : i < headerSize + f.payLen
      · rw [List.getElem?_map, List.getElem?_range hi, Option.map_some, g3]
        by_cases h6 : i < headerSize
        · rw [if_neg (by omega)]
          rw [List.getElem?_append_left (by simpa [headerBytes, headerSize] using h6)]
          show some (storedByte u1 b i) = _
          rw [g6 i h6, List.getElem?_map, List.getElem?_eq_getElem (by simpa [headerBytes, headerSize] using h6)]
          rfl
        · rw [if_pos (by omega)]
          rw [List.getElem?_append_right (by simp [headerBytes, headerSize] at h6 ⊢; omega)]
          simp only [List.length_map, headerBytes, List.length_cons, List.length_nil]
          have hk : i - headerSize < f.payLen := by omega
          rw [List.getElem?_map, List.getElem?_range (by simpa [headerSize] using hk), Option.map_some, hbs,
            bytesAt_stored (fun i hi => by rw [hsame i hi]; exact hw i hi) hk, hsame _ hk]
          rfl
      · rw [List.getElem?_eq_none (by simp; omega), List.getElem?_eq_none (by simp [headerBytes, headerSize] at hi ⊢; omega)]
  | hs =>
    simp only [hk] at hwl
    obtain ⟨bs, r1, r2, r3⟩ := readPayload_ok (off := 0) (n := s.cfg.handshakeLen) hf hs rfl rfl (fun h => by
      simp only [hk, FrameShapeOk] at h
      omega)
    have B2 : BlockOk { s with free := s.free + payloadLength s.cfg f } := hs.congr rfl rfl rfl rfl rfl rfl rfl rfl rfl
    obtain ⟨m3, B3, o3, p3, q3, g3⟩ := store { s with free := s.free + payloadLength s.cfg f } 0 bs B2 rfl rfl
      (by rw [hwl, r1])
    refine ⟨_, by simp only [writeFrame, hk, r2, Res.bind_ok, m3], B3, ?_⟩
    refine ⟨by simp, by simp, by simp, by simp, by simp, by simp, by rw [storeBytes_freshId]; rfl, by simp, ?_, ?_, ?_,
      fun h hh => by simp at hh, ?_⟩
    · intro d hd hdb o ho
      rw [o3 d hd hdb o ho]; rfl
    · intro a ha
      rw [p3 a ha]
    · intro hi
      rw [q3 hi]
    · intro hp hw
      obtain ⟨who, he, hne, hsh⟩ := hf.resolve_right hp
      have hpl := payloadLength_of_shape hsh
      have h0 : f.payOff = 0 := by simp only [hk, FrameShapeOk] at hsh; exact hsh.2.1
      have hbs := r3 hp
      apply List.ext_getElem?
      intro i
      rw [hpl] at r1
      replace hwl : wireLength s.cfg f = f.payLen := by rw [hwl, hpl, Nat.zero_add]
      rw [hwl]
      simp only [wireStored, hk, List.nil_append]
      by_cases hi : i < f.payLen
      · rw [List.getElem?_map, List.getElem?_range hi, Option.map_some, g3, if_pos (by omega), List.getElem?_map,
          List.getElem?_range hi, Option.map_some, hbs, Nat.sub_zero, bytesAt_stored (fun i hi => hw i hi) hi]
      · rw [List.getElem?_eq_none (by simp; omega), List.getElem?_eq_none (by simp; omega)]

end Sys2Proof.Machine
end

