-- ==== Sys2Proof/Laws/Step.lean ====
section
/-! SUPPORT. Everything a step can do (spec/00_scope.md R3; spec/30_encoding.md R101). -/

namespace Sys2Proof.Machine

/-- A step is idle, a reset, a hand-over, an operation, or the refusal of a record that is no command. -/
theorem step_cases (s : State) :
    (s.inbox = [] ∧ step s = .next s) ∨
    (∃ rest, s.inbox = .reset :: rest ∧ step s = .next (resetEvent rest s)) ∨
    (∃ a item r rest, s.inbox = .handOver a item r :: rest ∧
      step s = if s.abort then .fault .aborted else concludeEvent (handOver a item r { s with inbox := rest })) ∨
    (∃ a p rest i after, s.inbox = .command a p :: rest ∧ decode s.cfg p = .ok (i, after) ∧
      step s = exec i { s with inbox := rest, agent := a }) ∨
    (∃ a p rest e, s.inbox = .command a p :: rest ∧ decode s.cfg p = .error e ∧
      step s = unlessAborted { s with inbox := rest, agent := a } refuse) := by
  cases hi : s.inbox with
  | nil => exact .inl ⟨rfl, by simp [step, fetch, hi]⟩
  | cons x rest =>
    right
    cases x with
    | reset => exact .inl ⟨rest, rfl, by simp [step, fetch, hi]⟩
    | handOver a item r =>
      refine .inr (.inl ⟨a, item, r, rest, rfl, ?_⟩)
      cases hb : s.abort <;> simp [step, fetch, hi, hb]
    | command a p =>
      right; right
      cases hd : decode s.cfg p with
      | ok q =>
        obtain ⟨i, after⟩ := q
        exact .inl ⟨a, p, rest, i, after, rfl, hd, by simp [step, fetch, hi, hd]⟩
      | error e => exact .inr ⟨a, p, rest, e, rfl, hd, by simp [step, fetch, hi, hd]⟩

/-- Everything a hand-over can do (R75, U3, U8). -/
theorem handOver_cases (a : Nat) (item : Item) (r : Nat) (s : State) :
    (∃ f, handOver a item r s = .fault f) ∨
    (∃ id e, item = .handle id ∧ findLive s.live id = some e ∧ e.holder = .caller a ∧
      handOver a item r s = .ok () (setHolder id (.caller r) s)) ∨
    (∃ id e kind off len, item = .handle id ∧ findLive s.live id = some e ∧ e.holder = .frame a kind off len ∧
      handOver a item r s = .ok () (setHolder id (.frame r kind off len) s)) ∨
    (∃ id e, item = .handle id ∧ findLive s.live id = some e ∧ e.holder = .damagedFrame a ∧
      handOver a item r s = .ok () (setHolder id (.damagedFrame r) s)) ∨
    (∃ c D, item = .decoder c ∧ s.decs[c]? = some D ∧ (D.driver = none ∨ D.driver = some a) ∧
      handOver a item r s = .ok () (setDec c { D with driver := some r } s)) ∨
    (∃ c E, item = .encoder c ∧ s.encs[c]? = some E ∧ (E.driver = none ∨ E.driver = some a) ∧
      handOver a item r s = .ok () (setEnc c { E with driver := some r } s)) := by
  cases item with
  | handle id =>
    cases hl : findLive s.live id with
    | none => exact .inl ⟨_, by simp [handOver, hl]; rfl⟩
    | some e =>
      obtain ⟨g, who⟩ := e
      cases who with
      | caller b =>
        by_cases hb : b = a
        · subst hb
          exact .inr (.inl ⟨id, _, rfl, hl, rfl, by simp [handOver, hl]⟩)
        · exact .inl ⟨.notOwner, by simp [handOver, hl, hb]⟩
      | frame b kind off len =>
        by_cases hb : b = a
        · subst hb
          exact .inr (.inr (.inl ⟨id, _, kind, off, len, rfl, hl, rfl, by simp [handOver, hl]⟩))
        · exact .inl ⟨.notOwner, by simp [handOver, hl, hb]⟩
      | damagedFrame b =>
        by_cases hb : b = a
        · subst hb
          exact .inr (.inr (.inr (.inl ⟨id, _, rfl, hl, rfl, by simp [handOver, hl]⟩)))
        · exact .inl ⟨.notOwner, by simp [handOver, hl, hb]⟩
      | dec c => exact .inl ⟨.notOwner, by simp [handOver, hl]⟩
      | enc c => exact .inl ⟨.notOwner, by simp [handOver, hl]⟩
  | decoder c =>
    cases hD : s.decs[c]? with
    | none => exact .inl ⟨.noConnection, by simp [handOver, hD]⟩
    | some D =>
      by_cases hd : D.driver = none ∨ D.driver = some a
      · exact .inr (.inr (.inr (.inr (.inl ⟨c, D, rfl, hD, hd, by simp [handOver, hD, hd]⟩))))
      · exact .inl ⟨.race, by simp [handOver, hD, hd]⟩
  | encoder c =>
    cases hE : s.encs[c]? with
    | none => exact .inl ⟨.noConnection, by simp [handOver, hE]⟩
    | some E =>
      by_cases hd : E.driver = none ∨ E.driver = some a
      · exact .inr (.inr (.inr (.inr (.inr ⟨c, E, rfl, hE, hd, by simp [handOver, hE, hd]⟩))))
      · exact .inl ⟨.race, by simp [handOver, hE, hd]⟩

end Sys2Proof.Machine
end

