-- ==== Sys2Proof/Laws/Keeps.lean ====
section
/-! SUPPORT. A property of states that every part of an operation keeps: the rule for parts in sequence, and the
shared operations for a property that rests on memory, the pool and the configuration. -/

namespace Sys2Proof.Machine

/-- Wherever a part ends, its state has the property. -/
def Keeps {α : Type} (P : State → Prop) (r : Res α) : Prop :=
  (∀ a t, r = .ok a t → P t) ∧ ∀ t, r = .abort t → P t

theorem Keeps.ok {α : Type} {P : State → Prop} {a : α} {s : State} (h : P s) : Keeps P (.ok a s) :=
  ⟨fun _ _ e => (by cases e; exact h), fun _ e => (by cases e)⟩

theorem Keeps.abort {α : Type} {P : State → Prop} {s : State} (h : P s) : Keeps P (.abort s : Res α) :=
  ⟨fun _ _ e => (by cases e), fun _ e => (by cases e; exact h)⟩

theorem Keeps.fault {α : Type} {P : State → Prop} {f : Fault} : Keeps P (.fault f : Res α) :=
  ⟨fun _ _ e => (by cases e), fun _ e => (by cases e)⟩

theorem Keeps.bind {α β : Type} {P : State → Prop} {r : Res α} {k : α → State → Res β} (h : Keeps P r)
    (hk : ∀ a t, P t → Keeps P (k a t)) : Keeps P (r.bind k) := by
  cases r with
  | ok a s => exact hk a s (h.1 a s rfl)
  | abort s => exact Keeps.abort (h.2 s rfl)
  | fault f => exact Keeps.fault

/-- An operation's next state has a property that its part keeps and that the response does not touch. -/
theorem Keeps.next {P : State → Prop} {s t : State} {k : State → Res Response}
    (hr : ∀ u r, P u → P { u with resp := r }) (ha : ∀ u, P u → P (takeAbort u)) (h : Keeps P (k s))
    (hx : unlessAborted s k = .next t) : P t := by
  obtain ⟨-, ⟨a, u, h1, rfl⟩ | ⟨u, h1, rfl⟩⟩ := unlessAborted_eq_next.1 hx
  · exact hr _ _ (h.1 a u h1)
  · exact ha _ (h.2 u h1)

theorem Keeps.useSlice {P : State → Prop} {s : State} (h : P s) (x : Slice) : Keeps P (Machine.useSlice x s) := by
  rcases useSlice_cases x s with ⟨f, e, -⟩ | ⟨e, -⟩ | ⟨e, -⟩ <;> rw [e]
  · exact Keeps.fault
  · exact Keeps.ok h
  · exact Keeps.ok h

theorem Keeps.useFrame {P : State → Prop} {s : State} (h : P s) (x : Frame) : Keeps P (Machine.useFrame x s) := by
  rcases useFrame_cases x s with ⟨f, e, -⟩ | ⟨e, -⟩ | ⟨e, -⟩ <;> rw [e]
  · exact Keeps.fault
  · exact Keeps.ok h
  · exact Keeps.ok h

theorem Keeps.useView {P : State → Prop} {s : State} (h : P s) (x : View) : Keeps P (Machine.useView x s) := by
  rcases useView_cases x s with ⟨f, e, -⟩ | ⟨e, -⟩ | ⟨e, -⟩ | e <;> rw [e]
  · exact Keeps.fault
  · exact Keeps.ok h
  · exact Keeps.ok h
  · exact Keeps.ok h

theorem Keeps.withDec {P : State → Prop} {c : Nat} {s : State} {k : DecState → State → Res Response} (h : P s)
    (hk : ∀ D, DrivesDec s c D → Keeps P (k { D with driver := some s.agent } (claimDec c D s))) :
    Keeps P (Machine.withDec c s k) := by
  rcases withDec_cases c s k with ⟨-, e⟩ | ⟨D, -, -, -, e⟩ | ⟨D, hD, e⟩ <;> rw [e]
  · exact Keeps.ok h
  · exact Keeps.fault
  · exact hk D hD

theorem Keeps.withEnc {P : State → Prop} {c : Nat} {s : State} {k : EncState → State → Res Response} (h : P s)
    (hk : ∀ E, DrivesEnc s c E → Keeps P (k { E with driver := some s.agent } (claimEnc c E s))) :
    Keeps P (Machine.withEnc c s k) := by
  rcases withEnc_cases c s k with ⟨-, e⟩ | ⟨D, -, -, -, e⟩ | ⟨E, hE, e⟩ <;> rw [e]
  · exact Keeps.ok h
  · exact Keeps.fault
  · exact hk E hE

theorem Keeps.unlessFaulted {P : State → Prop} {D : DecState} {s : State} {k : Res Response} (h : P s)
    (hk : D.fault = false → Keeps P k) : Keeps P (Machine.unlessFaulted D s k) := by
  unfold Machine.unlessFaulted
  split
  · exact Keeps.ok h
  · rename_i hf; exact hk (by cases hd : D.fault; rfl; exact absurd hd hf)

theorem Keeps.memRead {P : State → Prop} {s : State} (h : ∀ n, P { s with free := n }) (x : Slice) (off n : Nat) :
    Keeps P (Machine.memRead x off n s) := by
  rcases memRead_cases x off n s with ⟨e, -⟩ | e <;> rw [e]
  · exact Keeps.fault
  · exact Keeps.ok (h _)

theorem Keeps.readPayload {P : State → Prop} {s : State} (h : ∀ n, P { s with free := n }) (f : Frame)
    (off n : Nat) : Keeps P (Machine.readPayload f off n s) := by
  unfold Machine.readPayload
  split
  · exact Keeps.ok (h _)
  · exact Keeps.memRead h _ off n

theorem Keeps.memWrite {P : State → Prop} {s : State} (x : Slice) (off : Nat) (bs : List Byte)
    (h : P (storeBytes x off bs s)) : Keeps P (Machine.memWrite x off bs s) := by
  rcases memWrite_cases x off bs s with ⟨e, -⟩ | ⟨e, -⟩ | e <;> rw [e]
  · exact Keeps.fault
  · exact Keeps.fault
  · exact Keeps.ok h

theorem Keeps.release {P : State → Prop} {s : State} (x : Slice) (h : P s)
    (hk : ∀ t, Machine.release x s = .ok () t → P t) : Keeps P (Machine.release x s) := by
  refine ⟨fun _ t e => hk t e, fun t e => ?_⟩
  rcases release_cases x s with ⟨-, h1⟩ | ⟨-, ⟨-, h1⟩ | ⟨-, h1⟩ | ⟨-, h1⟩⟩ <;> rw [h1] at e <;>
    simp only [reduceCtorEq, Res.abort.injEq] at e
  exact e ▸ h

theorem Keeps.releaseHeld {P : State → Prop} {s : State} (b : Option Slice) (h : P s)
    (hk : ∀ x t, Machine.release x s = .ok () t → P t) : Keeps P (Machine.releaseHeld b s) := by
  cases b with
  | none => exact Keeps.ok h
  | some x => exact Keeps.release x h (hk x)

end Sys2Proof.Machine
end

