-- ==== Sys2Proof/Laws/PerInstr.lean ====
section
/-! SUPPORT. A statement per instruction, about its packet: a command's record begins with the opcode of
spec/30_encoding.md R100 in the range of its unit, and the data format row is its six bytes (R91). -/

namespace Sys2Proof.Laws.OpcodeFirst

/-- The opcodes of a unit that R100 assigns. -/
def Assigned (op : Byte) : Prop :=
  (0x01 ≤ op.toNat ∧ op.toNat ≤ 0x05) ∨ (0x10 ≤ op.toNat ∧ op.toNat ≤ 0x15) ∨
  (0x20 ≤ op.toNat ∧ op.toNat ≤ 0x25) ∨ (0x30 ≤ op.toNat ∧ op.toNat ≤ 0x35) ∨
  (0x40 ≤ op.toNat ∧ op.toNat ≤ 0x42)

/-- At every configuration the packet of `i` is a command record that begins with `i`'s own assigned opcode, or,
where `i` has no opcode, the six bytes of the wire header. -/
def Statement (i : Instr) : Prop :=
  ∀ c : Config,
    match opcodeOf i with
    | some op => Assigned op ∧ (encode c i).form = .command ∧ (encode c i).bytes.head? = some op
    | none => (encode c i).form = .wire ∧ (encode c i).bytes.length = headerSize

/-- What is left to show of a command once its opcode is computed. -/
theorem command {c : Config} {i : Instr} {op : Byte} (h : opcodeOf i = some op) (ha : Assigned op) :
    Assigned op ∧ (encode c i).form = .command ∧ (encode c i).bytes.head? = some op := by
  simp [encode, h, ha]

theorem poolAcquire (len : Nat) : Statement (.poolAcquire len) :=
  fun _ => command rfl (by simp [Assigned])
theorem poolRelease (h : Slice) : Statement (.poolRelease h) :=
  fun _ => command rfl (by simp [Assigned])
theorem poolWr (h : Slice) (off : Nat) (bytes : List Byte) : Statement (.poolWr h off bytes) :=
  fun _ => command rfl (by simp [Assigned])
theorem poolRd (r : Readable) (off n : Nat) : Statement (.poolRd r off n) :=
  fun _ => command rfl (by simp [Assigned])
theorem poolStatus : Statement (.poolStatus) :=
  fun _ => command rfl (by simp [Assigned])
theorem hdrParse (bytes : List Byte) : Statement (.hdrParse bytes) :=
  fun _ => command rfl (by simp [Assigned])
theorem hdrSerialize (h : Header) : Statement (.hdrSerialize h) :=
  fun _ => command rfl (by simp [Assigned])
theorem hdrBuild (extType : BitVec 16) (msgType : BitVec 8) (len : Nat) : Statement (.hdrBuild extType msgType len) :=
  fun _ => command rfl (by simp [Assigned])
theorem hdrChid (h : Header) : Statement (.hdrChid h) :=
  fun _ => command rfl (by simp [Assigned])
theorem hdrMsgtype (h : Header) : Statement (.hdrMsgtype h) :=
  fun _ => command rfl (by simp [Assigned])
theorem hdrMsglen (h : Header) : Statement (.hdrMsglen h) :=
  fun _ => command rfl (by simp [Assigned])
theorem frmFromMessage (p : Slice) (msgType : BitVec 8) (extType : BitVec 16) (flag : Bool) : Statement (.frmFromMessage p msgType extType flag) :=
  fun _ => command rfl (by simp [Assigned])
theorem frmHeader (f : Frame) : Statement (.frmHeader f) :=
  fun _ => command rfl (by simp [Assigned])
theorem frmPayload (f : Frame) : Statement (.frmPayload f) :=
  fun _ => command rfl (by simp [Assigned])
theorem frmEncodedLength (f : Frame) : Statement (.frmEncodedLength f) :=
  fun _ => command rfl (by simp [Assigned])
theorem frmFromHandshake (p : Slice) : Statement (.frmFromHandshake p) :=
  fun _ => command rfl (by simp [Assigned])
theorem frmDrop (f : Frame) : Statement (.frmDrop f) :=
  fun _ => command rfl (by simp [Assigned])
theorem decWritable (c : Nat) : Statement (.decWritable c) :=
  fun _ => command rfl (by simp [Assigned])
theorem decFill (c : Nat) (bytes : List Byte) : Statement (.decFill c bytes) :=
  fun _ => command rfl (by simp [Assigned])
theorem decNextFrame (c : Nat) : Statement (.decNextFrame c) :=
  fun _ => command rfl (by simp [Assigned])
theorem decSetMode (c : Nat) (m : Mode) : Statement (.decSetMode c m) :=
  fun _ => command rfl (by simp [Assigned])
theorem decReset (c : Nat) : Statement (.decReset c) :=
  fun _ => command rfl (by simp [Assigned])
theorem decStatus (c : Nat) : Statement (.decStatus c) :=
  fun _ => command rfl (by simp [Assigned])
theorem encEncode (c : Nat) (f : Frame) : Statement (.encEncode c f) :=
  fun _ => command rfl (by simp [Assigned])
theorem encReset (c : Nat) : Statement (.encReset c) :=
  fun _ => command rfl (by simp [Assigned])
theorem encStatus (c : Nat) : Statement (.encStatus c) :=
  fun _ => command rfl (by simp [Assigned])
theorem wireHeader (h : Header) : Statement (.wireHeader h) := fun _ => ⟨rfl, rfl⟩

end Sys2Proof.Laws.OpcodeFirst
end

