-- ==== Sys2Proof/Laws/Reallocation.lean ====
section
/-! SUPPORT. Everything the reallocation of `DEC.WRITABLE` does (spec/43_decoder.md R184, R185). -/

namespace Sys2Proof.Machine

/-- The parts of a reallocation, from a state that meets the invariants: all of them answer. -/
theorem reallocate_parts {s : State} (hs : BlockOk s) {c : Nat} {D : DecState} {b : Slice}
    (hD : s.decs[c]? = some D) (hb : D.buf = some b) (hlt : b.len < target s.cfg D) :
    ∃ u t, u = { (acquire (target s.cfg D) (.dec c) s).2 with
                 free := (acquire (target s.cfg D) (.dec c) s).2.free + D.received } ∧
      release b (storeBytes (acquire (target s.cfg D) (.dec c) s).1 0
        (bytesAt (acquire (target s.cfg D) (.dec c) s).2 b 0 D.received) u) = .ok () t ∧
      reallocate c D b s = window D
        (setDec c { D with buf := some (acquire (target s.cfg D) (.dec c) s).1 } t) := by
  have hm := hs.decBuf hD hb
  obtain ⟨-, -, -, h4, -⟩ := hs.decOk hD
  have hr := (h4 b hb).1
  have hp1 := acquire_poolOk hs.cfg hs.memory hs.pool (target s.cfg D) (.dec c)
  have hm1 : (⟨b, .dec c⟩ : LiveEntry) ∈ (acquire (target s.cfg D) (.dec c) s).2.live := by simp [hm]
  have hn1 : (⟨(acquire (target s.cfg D) (.dec c) s).1, .dec c⟩ : LiveEntry)
      ∈ (acquire (target s.cfg D) (.dec c) s).2.live := by simp
  have hread := memRead_of_live hp1 hm1 (off := 0) (n := D.received) (by simpa using hr)
  simp only at hread
  generalize hu : ({ (acquire (target s.cfg D) (.dec c) s).2 with
    free := (acquire (target s.cfg D) (.dec c) s).2.free + D.received } : State) = u at hread
  have hp2 : PoolOk u := by subst hu; exact hp1.congr rfl rfl rfl rfl rfl
  have hn2 : (⟨(acquire (target s.cfg D) (.dec c) s).1, .dec c⟩ : LiveEntry) ∈ u.live := by subst hu; exact hn1
  have hm2 : (⟨b, .dec c⟩ : LiveEntry) ∈ u.live := by subst hu; exact hm1
  have hlen : (acquire (target s.cfg D) (.dec c) s).1.len = target s.cfg D := (acquire_slice _ _ _).2
  have hwrite := memWrite_of_live hp2 hn2 (off := 0)
    (bs := bytesAt (acquire (target s.cfg D) (.dec c) s).2 b 0 D.received)
    (by simp only [bytesAt_length, hlen]; omega)
  simp only at hwrite
  obtain ⟨t, ht⟩ := release_of_live (storeBytes_poolOk hp2 (acquire (target s.cfg D) (.dec c) s).1 0
    (bytesAt (acquire (target s.cfg D) (.dec c) s).2 b 0 D.received)) (e := ⟨b, .dec c⟩) (by simpa using hm2)
  simp only at ht
  refine ⟨u, t, rfl, ht, ?_⟩
  simp only [reallocate, hread, Res.bind_ok, hwrite, ht]

/-- Everything a reallocation does. -/
theorem reallocate_ok {s : State} (hs : BlockOk s) {c : Nat} {D : DecState} {b n : Slice}
    (hD : s.decs[c]? = some D) (hb : D.buf = some b) (hlt : b.len < target s.cfg D)
    (hn : n = (acquire (target s.cfg D) (.dec c) s).1) :
    ∃ t, reallocate c D b s = .ok { status := .ok, result := .window D.received D.missing } t ∧
      BlockOk t ∧
      t.live = dropLive (s.live ++ [{ slice := n, holder := .dec c }]) b.id ∧
      t.decs = s.decs.set c { D with buf := some n } ∧
      t.encs = s.encs ∧ t.cfg = s.cfg ∧ t.abort = s.abort ∧ t.agent = s.agent ∧
      (∀ i < D.received, storedByte t n i = storedByte s b i) ∧
      (∀ e ∈ s.live, e.slice.id ≠ b.id → ∀ o < e.slice.cap, storedByte t e.slice o = storedByte s e.slice o) ∧
      (∀ a, ¬ (n.off ≤ a ∧ a < n.off + D.received) → t.poolmem.read a = s.poolmem.read a) ∧
      (n.idx = s.cfg.untracked → t.poolmem = s.poolmem) ∧
      (∀ j, 1 ≤ j → j ≤ 8 → j ≠ n.idx → j ≠ b.idx → slotTaken t.mask j = slotTaken s.mask j) := by
  obtain ⟨u, t, hu, ht, hre⟩ := reallocate_parts hs hD hb hlt
  rw [← hn] at ht hre
  have hm := hs.decBuf hD hb
  obtain ⟨k1, k2, k3, k4, k5, k6, k7⟩ := hs.decOk hD
  have hr := (k4 b hb).1
  have hnid : n.id = freshId s := by rw [hn]; exact (acquire_slice _ _ _).1
  have hnlen : n.len = target s.cfg D := by rw [hn]; exact (acquire_slice _ _ _).2
  have hbid : b.id ≠ n.id := by rw [hnid]; exact hs.old hm
  have hp1 := acquire_poolOk hs.cfg hs.memory hs.pool (target s.cfg D) (.dec c)
  have hmem1 := acquire_memoryOk hs.memory (target s.cfg D) (.dec c)
  have hulive : u.live = s.live ++ [{ slice := n, holder := .dec c }] := by subst hu; rw [hn]; exact acquire_live _ _ _
  have hucfg : u.cfg = s.cfg := by subst hu; exact acquire_cfg _ _ _
  have hudecs : u.decs = s.decs := by subst hu; exact acquire_decs _ _ _
  have huencs : u.encs = s.encs := by subst hu; exact acquire_encs _ _ _
  have hp2 : PoolOk u := by subst hu; exact hp1.congr rfl rfl rfl rfl rfl
  have hmem2 : MemoryOk u := by subst hu; exact hmem1.congr rfl rfl rfl rfl
  have hn2 : (⟨n, .dec c⟩ : LiveEntry) ∈ u.live := by rw [hulive]; simp
  have hold2 : ∀ e ∈ s.live, e ∈ u.live := fun e he => by rw [hulive]; simp [he]
  have hub : ∀ e ∈ s.live, ∀ o < e.slice.cap, storedByte u e.slice o = storedByte s e.slice o := by
    intro e he o ho
    subst hu
    exact storedByte_acquire hs.cfg hs.memory hs.pool _ _ he ho
  generalize hbs : bytesAt (acquire (target s.cfg D) (.dec c) s).2 b 0 D.received = bs at ht
  have hbslen : bs.length = D.received := by rw [← hbs]; exact bytesAt_length _ _ _ _
  have hin : 0 + bs.length ≤ n.len := by rw [hbslen, hnlen]; omega
  have hp3 := storeBytes_poolOk hp2 n 0 bs
  have hmem3 := storeBytes_memoryOk hmem2 n 0 bs
  have hm3 : (⟨b, .dec c⟩ : LiveEntry) ∈ (storeBytes n 0 bs u).live := by simpa using hold2 _ hm
  have hp4 := release_poolOk (by simpa [hucfg] using hs.cfg) hp3 hm3 ht
  have hmem4 := release_memoryOk hmem3 ht
  obtain ⟨f1, f2, f3, f4, f5, f6, f7, f8, f9, f10, -⟩ := release_frame ht
  have hother : ∀ e ∈ s.live, e.slice.id ≠ b.id → ∀ o < e.slice.cap,
      storedByte t e.slice o = storedByte s e.slice o := by
    intro e he hne o ho
    rw [storedByte_release ht hne, ← hub e he o ho]
    refine storedByte_storeBytes_other (by rw [hucfg]; exact hs.cfg) hmem2 hp2 hn2 (hold2 e he) ?_ hin ho
    simp only [hnid]
    exact fun h => hs.old he h.symm
  have hown : ∀ i < D.received, storedByte t n i = storedByte s b i := by
    intro i hi
    rw [storedByte_release ht (fun h => hbid h.symm)]
    have h1 := storedByte_storeBytes_self hmem2 hp2 hn2 0 bs i
    simp only at h1
    rw [h1, if_pos (by omega), ← hbs]
    have h2 := k6 b hb i hi
    obtain ⟨x, hx⟩ := Option.isSome_iff_exists.1 h2
    have h3 : storedByte (acquire (target s.cfg D) (.dec c) s).2 b i = storedByte s b i :=
      storedByte_acquire hs.cfg hs.memory hs.pool _ _ hm (lt_of_lt_of_le (by omega : i < b.len) (hs.lenCap hm))
    rw [hx]
    exact bytesAt_get (by omega) (by rw [Nat.zero_add, Nat.sub_zero, h3, hx])
  have htl : t.live = dropLive (s.live ++ [{ slice := n, holder := .dec c }]) b.id := by
    rw [f1, storeBytes_live, hulive]
  have htd : t.decs = s.decs := by rw [f6, storeBytes_decs, hudecs]
  have hte : t.encs = s.encs := by rw [f7, storeBytes_encs, huencs]
  have htc : t.cfg = s.cfg := by rw [f8, storeBytes_cfg, hucfg]
  have hfind : ∀ j, findLive t.live j
      = if j = b.id then none else if j = n.id then some ⟨n, .dec c⟩ else findLive s.live j := by
    intro j
    rw [htl, findLive_dropLive, findLive_append]
    simp only [hnid]
    exact hs.pool.old
  refine ⟨setDec c { D with buf := some n } t, hre, ?_, htl, by rw [setDec_decs, htd], by rw [setDec_encs, hte],
    by rw [setDec_cfg, htc], ?_, ?_, hown, hother, ?_, ?_, ?_⟩
  · refine ⟨by rw [setDec_cfg, htc]; exact hs.cfg, by rw [setDec_decs, setDec_cfg, htd, htc]; simpa using hs.decs,
      by rw [setDec_encs, setDec_cfg, hte, htc]; exact hs.encs, hmem4.congr rfl rfl rfl rfl,
      hp4.congr rfl rfl rfl rfl rfl, holdersOk_iff.2 ⟨?_, ?_, ?_⟩, ?_, by rw [setDec_encs, hte]; exact hs.encoders⟩
    · intro j E g hj hg
      rw [setDec_decs, htd] at hj
      rw [setDec_live, hfind]
      rcases getElem?_set_cases hj with ⟨rfl, rfl⟩ | ⟨hne, hj⟩
      · cases hg
        rw [if_neg (fun h => hbid h.symm), if_pos rfl]
      · have hg' := hs.decBuf hj hg
        rw [if_neg (hs.decBufs hD hb hj hg hne), if_neg (by rw [hnid]; exact hs.old hg'), hs.find hg']
    · intro j E g hE hg
      rw [setDec_encs, hte] at hE
      have hg' := hs.encBuf hE hg
      have hne : g.id ≠ b.id := fun h => by
        have := hs.sameId hg' hm h
        simp at this
      rw [setDec_live, hfind, if_neg hne, if_neg (by rw [hnid]; exact hs.old hg'), hs.find hg']
    · intro e he
      rw [setDec_live, htl] at he
      obtain ⟨he, hne⟩ := mem_dropLive.1 he
      rcases List.mem_append.1 he with he | he
      · refine (hs.holderOk he).mono (by rw [setDec_cfg, htc]) (fun j E _ g1 g2 => ⟨E, ?_, g2⟩)
          (fun j E _ g1 g2 => ⟨E, by rw [setDec_encs, hte]; exact g1, g2⟩)
        rw [setDec_decs, htd, List.getElem?_set_ne, g1]
        rintro rfl
        rw [hD] at g1; cases g1
        rw [hb] at g2; cases g2
        exact hne rfl
      · rw [List.mem_singleton.1 he]
        exact ⟨_, by rw [setDec_decs, htd]; exact getElem?_set_same hD, rfl⟩
    · refine decoders_set (c := c) hs.decoders (by rw [setDec_decs, htd]) (by rw [setDec_cfg, htc]) ?_ ?_
      · have ht' : ∀ x, target s.cfg { D with buf := x } = target s.cfg D := fun _ => rfl
        refine ⟨k1, by rw [setDec_cfg, htc, ht']; exact k2, by simp, ?_, ?_, ?_, ?_⟩
        · intro g hg
          cases hg
          simp only [setDec_cfg, htc, ht', hnlen]
          omega
        · intro hp
          have := k5 hp
          exact ⟨this.1, rfl, by rw [setDec_cfg, htc]; exact this.2.2⟩
        · intro g hg i hi
          cases hg
          show (storedByte t n i).isSome
          rw [hown i hi]
          exact k6 b hb i hi
        · intro hp g hg i hi
          cases hg
          show storedByte t n i = _
          rw [hown i (lt_of_lt_of_le hi (k5 hp).1)]
          exact k7 hp b hb i hi
      · intro j E g hj hE hg i hi
        exact hother _ (hs.decBuf hE hg) (hs.decBufs hD hb hE hg hj) i
          (lt_of_lt_of_le hi (hs.lenCap (hs.decBuf hE hg)))
  · rw [setDec_abort, f5, storeBytes_abort]; subst hu; exact acquire_abort _ _ _
  · rw [setDec_agent, f10, storeBytes_agent]; subst hu; exact acquire_agent _ _ _
  · intro a ha
    have h0 : u.poolmem = s.poolmem := by subst hu; exact acquire_poolmem _ _ _
    rw [setDec_poolmem, f3, ← h0]
    unfold storeBytes
    split
    · simp only [Memory.read_writeAll _ _ hmem2.pool]
      rw [if_neg (by omega)]
    · rfl
    · rfl
  · intro hi
    have h0 : u.poolmem = s.poolmem := by subst hu; exact acquire_poolmem _ _ _
    rw [setDec_poolmem, f3, ← h0]
    simp [storeBytes, hucfg, placeOf_heap.2 hi]
  · intro j j1 j8 hjn hjb
    have h0 : slotTaken u.mask j = slotTaken s.mask j := by
      have : u.mask = (acquire (target s.cfg D) (.dec c) s).2.mask := by subst hu; rfl
      rw [this]
      rcases acquire_cases (target s.cfg D) (.dec c) s with ⟨k, hk, h⟩ | ⟨-, h⟩
      · obtain ⟨⟨q1, q2⟩, -, -⟩ := mem_fit.1 hk
        have hki : n.idx = k := by rw [hn, h]; rfl
        rw [h]
        simp only [acquireSlot]
        rw [slotTaken_set _ j1 j8 q1 (le_trans q2 hs.cfg.slots.2)]
        have : j ≠ k := by rw [← hki]; exact hjn
        simp [this]
      · rw [h]; rfl
    rw [setDec_mask, ← h0]
    rcases release_cases b (storeBytes n 0 bs u) with ⟨-, h1⟩ | ⟨-, ⟨-, h1⟩ | ⟨hp, h1⟩ | ⟨-, h1⟩⟩ <;> rw [h1] at ht <;>
      simp only [reduceCtorEq, Res.ok.injEq, true_and] at ht <;> subst ht
    · simp
    · obtain ⟨-, q1, q2⟩ := placeOf_pool.1 hp
      rw [storeBytes_cfg, hucfg] at q2
      simp only [storeBytes_mask]
      rw [slotTaken_clear _ j1 j8 q1 (le_trans q2 hs.cfg.slots.2)]
      simp [hjb]

end Sys2Proof.Machine
end

