-- ==== Sys2Proof/Tests/Slice0.lean ====
section
/-! SUPPORT. Tests on small states. Expected results come from spec/95_test_vectors.md (the vector is named) or
from the rule named; and for each statement with hypotheses a witness that meets them all together. -/

set_option autoImplicit false

namespace Sys2Proof.Tests

open Sys2Proof.Machine

/-! ### Ill-formed instructions, one for each check of WellFormed -/

theorem test_wellFormed_length :
    Instr.wellFormed .tc (.poolAcquire 4294967296) = false ∧ Instr.wellFormed .tc (.poolAcquire 4294967295) = true := by
  decide

theorem test_wellFormed_slice :
    Instr.wellFormed .tc (.poolRelease ⟨0, 256, 0, 0, 0⟩) = false ∧
    Instr.wellFormed .tc (.poolRelease ⟨0, 1, 4294967296, 0, 0⟩) = false ∧
    Instr.wellFormed .tc (.poolRelease ⟨0, 1, 0, 4294967296, 0⟩) = false ∧
    Instr.wellFormed .tc (.poolRelease ⟨0, 1, 0, 0, 4294967296⟩) = false ∧
    Instr.wellFormed .tc (.poolRelease ⟨0, 255, 0, 0, 4294967295⟩) = true := by
  decide

theorem test_wellFormed_view :
    Instr.wellFormed .tc (.poolRd (.view ⟨⟨0, 256, 0, 0, 0⟩, 0, 0, 0⟩) 0 0) = false ∧
    Instr.wellFormed .tc (.poolRd (.view ⟨⟨0, 1, 0, 0, 0⟩, 4294967296, 0, 0⟩) 0 0) = false ∧
    Instr.wellFormed .tc (.poolRd (.view ⟨⟨0, 1, 0, 0, 0⟩, 0, 4294967296, 0⟩) 0 0) = false := by
  decide

theorem test_wellFormed_frame :
    Instr.wellFormed .tc (.frmDrop ⟨.hs, ⟨0, 256, 0, 0, 0⟩, 0, 0⟩) = false ∧
    Instr.wellFormed .tc (.frmDrop ⟨.hs, ⟨0, 1, 0, 0, 0⟩, 4294967296, 0⟩) = false ∧
    Instr.wellFormed .tc (.frmDrop ⟨.hs, ⟨0, 1, 0, 0, 0⟩, 0, 4294967296⟩) = false := by
  decide

/-- The length of a byte sequence, at widths of one bit. -/
theorem test_wellFormed_bytes :
    Instr.wellFormed { Config.tc with lenW := 1 } (.hdrParse [0, 0]) = false ∧
    Instr.wellFormed { Config.tc with lenW := 1 } (.hdrParse [0]) = true := by
  decide

/-! ### Decoding, the words written out from R100, R102 and R91 at the widths of TC (log 3) -/

/-- A command record, its handle's ghost id 5. -/
def record (bs : List Byte) : Packet := { form := .command, bytes := bs, ghost := 5 }

/-- `{idx 1, off 64, len 6, cap 64}`. -/
def slice5 : Slice := { id := 5, idx := 1, off := 64, len := 6, cap := 64 }

/-- The bytes of `slice5` in a record. -/
def slice5Bytes : List Byte := [1, 64, 0, 0, 0, 6, 0, 0, 0, 64, 0, 0, 0]

/-- A standard frame on `slice5`. -/
def frame5 : Frame := { kind := .std { extType := 0x8001, msgType := 2, msgLength := 3 }, buf := slice5, payOff := 0, payLen := 3 }

/-- The bytes of `frame5` in a record. -/
def frame5Bytes : List Byte := [0, 0x01, 0x80, 0x02, 3, 0, 0] ++ slice5Bytes ++ [0, 0, 0, 0, 3, 0, 0, 0]

theorem test_decode_poolAcquire : decode .tc (record [0x01, 8, 0, 0, 0]) = .ok (.poolAcquire 8, []) := by decide

theorem test_decode_poolRelease : decode .tc (record (0x02 :: slice5Bytes)) = .ok (.poolRelease slice5, []) := by decide

theorem test_decode_poolWr :
    decode .tc (record (0x03 :: (slice5Bytes ++ [4, 0, 0, 0, 2, 0, 0, 0, 0xAA, 0xBB])))
      = .ok (.poolWr slice5 4 [0xAA, 0xBB], []) := by
  decide

theorem test_decode_poolRd_slice :
    decode .tc (record (0x04 :: 0 :: (slice5Bytes ++ [2, 0, 0, 0, 3, 0, 0, 0]))) = .ok (.poolRd (.slice slice5) 2 3, []) := by
  decide

theorem test_decode_poolRd_view :
    decode .tc (record (0x04 :: 1 :: (slice5Bytes ++ [6, 0, 0, 0, 1, 0, 0, 0, 0, 0, 0, 0, 0, 1, 0, 0])))
      = .ok (.poolRd (.view { slice := slice5, off := 6, len := 1 }) 0 256, []) := by
  decide

theorem test_decode_poolStatus : decode .tc (record [0x05]) = .ok (.poolStatus, []) := by decide

theorem test_decode_hdrParse :
    decode .tc (record [0x10, 2, 0, 0, 0, 0x18, 0x19]) = .ok (.hdrParse [0x18, 0x19], []) := by decide

theorem test_decode_hdrSerialize :
    decode .tc (record [0x11, 0x00, 0x80, 0x1A, 0x04, 0x01, 0x00])
      = .ok (.hdrSerialize { extType := 0x8000, msgType := 0x1A, msgLength := 260 }, []) := by
  decide

theorem test_decode_hdrBuild :
    decode .tc (record [0x12, 0x34, 0x12, 0xFF, 0, 0, 0, 1]) = .ok (.hdrBuild 0x1234 0xFF 16777216, []) := by decide

theorem test_decode_hdrChid :
    decode .tc (record [0x13, 0xFF, 0x7F, 0, 0, 0, 0])
      = .ok (.hdrChid { extType := 0x7FFF, msgType := 0, msgLength := 0 }, []) := by
  decide

theorem test_decode_hdrMsgtype :
    decode .tc (record [0x14, 0, 0, 0x18, 8, 0, 0])
      = .ok (.hdrMsgtype { extType := 0, msgType := 0x18, msgLength := 8 }, []) := by
  decide

theorem test_decode_hdrMsglen :
    decode .tc (record [0x15, 0, 0, 0, 0, 0, 1])
      = .ok (.hdrMsglen { extType := 0, msgType := 0, msgLength := 65536 }, []) := by
  decide

theorem test_decode_frmFromMessage :
    decode .tc (record (0x20 :: (slice5Bytes ++ [0x1B, 0x05, 0x00, 1]))) = .ok (.frmFromMessage slice5 0x1B 5 true, []) := by
  decide

theorem test_decode_frmHeader : decode .tc (record (0x21 :: frame5Bytes)) = .ok (.frmHeader frame5, []) := by decide

theorem test_decode_frmPayload : decode .tc (record (0x22 :: frame5Bytes)) = .ok (.frmPayload frame5, []) := by decide

theorem test_decode_frmEncodedLength :
    decode .tc (record (0x23 :: frame5Bytes)) = .ok (.frmEncodedLength frame5, []) := by decide

theorem test_decode_frmFromHandshake :
    decode .tc (record (0x24 :: slice5Bytes)) = .ok (.frmFromHandshake slice5, []) := by decide

/-- A handshake frame: its `hdr` bits, here all ones, are ignored (R102). -/
theorem test_decode_frmDrop :
    decode .tc (record (0x25 :: ([1, 255, 255, 255, 255, 255, 255] ++ slice5Bytes ++ [0, 0, 0, 0, 32, 0, 0, 0])))
      = .ok (.frmDrop { kind := .hs, buf := slice5, payOff := 0, payLen := 32 }, []) := by
  decide

theorem test_decode_decWritable : decode .tc (record [0x30, 1, 0, 0, 0]) = .ok (.decWritable 1, []) := by decide

theorem test_decode_decFill :
    decode .tc (record [0x31, 0, 0, 0, 0, 1, 0, 0, 0, 0xCC]) = .ok (.decFill 0 [0xCC], []) := by decide

theorem test_decode_decNextFrame : decode .tc (record [0x32, 0, 1, 0, 0]) = .ok (.decNextFrame 256, []) := by decide

theorem test_decode_decSetMode :
    decode .tc (record [0x33, 0, 0, 0, 0, 1]) = .ok (.decSetMode 0 .hs, []) ∧
    decode .tc (record [0x33, 0, 0, 0, 0, 0]) = .ok (.decSetMode 0 .std, []) := by
  decide

theorem test_decode_decReset : decode .tc (record [0x34, 2, 0, 0, 0]) = .ok (.decReset 2, []) := by decide

theorem test_decode_decStatus : decode .tc (record [0x35, 3, 0, 0, 0]) = .ok (.decStatus 3, []) := by decide

theorem test_decode_encEncode :
    decode .tc (record (0x40 :: ([1, 0, 0, 0] ++ frame5Bytes))) = .ok (.encEncode 1 frame5, []) := by decide

theorem test_decode_encReset : decode .tc (record [0x41, 0, 0, 0, 0]) = .ok (.encReset 0, []) := by decide

theorem test_decode_encStatus : decode .tc (record [0x42, 0, 0, 0, 0]) = .ok (.encStatus 0, []) := by decide

/-- V-H3, as the data format. -/
theorem test_decode_wireHeader :
    decode .tc { form := .wire, bytes := [0x34, 0x12, 0xFF, 0xFF, 0xFF, 0xFF], ghost := 0 }
      = .ok (.wireHeader { extType := 0x1234, msgType := 0xFF, msgLength := 0xFFFFFF }, []) := by
  decide

/-- R101: a mode that is not one bit, and too few bytes. -/
theorem test_decode_rejects :
    decode .tc (record [0x33, 0, 0, 0, 0, 2]) = .error .operandTooWide ∧
    decode .tc (record [0x01, 8, 0, 0]) = .error .truncated ∧ decode .tc (record []) = .error .truncated := by
  decide

/-- Words of the opcode table, numbered as it numbers them: V-H2's `W`, and `POOL.STATUS`. -/
theorem test_tableWord :
    decodeTableWord 48 0x0001041A8000 = some (.wireHeader { extType := 0x8000, msgType := 0x1A, msgLength := 260 }) ∧
    decodeTableWord 8 0x05 = some .poolStatus ∧ decodeTableWord 8 0x42 = some (.encStatus 0) ∧
    decodeTableWord 8 0x43 = none := by
  decide

/-! ### Small states -/

/-- After reset, under TC with handshake blobs of two bytes and lengths up to 1024 (D14), two connections. -/
def small : State := State.resetWith { Config.tc with handshakeLen := 2, maxMsg := 1024, nConn := 2 }

/-- The cells of a byte sequence at address `a`. -/
def cells (a : Nat) (bs : List Byte) : Memory := Memory.writeAll [] a bs

/-- The bytes `01 .. 08`. -/
def oneToEight : List Byte := [1, 2, 3, 4, 5, 6, 7, 8]

/-- The header of the source's examples, `{0, 0x18, 8}`. -/
def hdr8 : Header := { extType := 0, msgType := 0x18, msgLength := 8 }

/-- `s` with slot 1 checked out as a slice of `len` bytes held by `who`, its first bytes `bs`. -/
def withSlot1 (len : Nat) (who : Holder) (bs : List Byte) (s : State) : State :=
  { s with
    mask := 0x80
    poolmem := cells 0 bs
    written := List.range bs.length
    live := [{ slice := { id := 0, idx := 1, off := 0, len := len, cap := 64 }, holder := who }]
    nextId := 1 }

/-- The slice that `withSlot1` makes. -/
def slot1 (len : Nat) : Slice := { id := 0, idx := 1, off := 0, len := len, cap := 64 }

/-- Agent 0 owns a slice of 8 bytes in slot 1, `01 .. 08` (the start of V-F1). -/
def holding : State := withSlot1 8 (.caller 0) oneToEight small

/-- Agent 0 owns a slice of `n` bytes in slot 1 that nothing has written. -/
def holdingBare (n : Nat) : State := withSlot1 n (.caller 0) [] small

/-- Agent 0 owns a slice of 2 bytes in slot 1. -/
def holding2 : State := withSlot1 2 (.caller 0) [0xAA, 0xBB] small

/-- The frame of V-F1. -/
def frame8 : Frame := { kind := .std hdr8, buf := slot1 8, payOff := 0, payLen := 8 }

/-- Agent 0 owns the frame of V-F1. -/
def framed : State := withSlot1 8 (.frame 0 (.std hdr8) 0 8) oneToEight small

/-- A handshake frame. -/
def frameHs : Frame := { kind := .hs, buf := slot1 2, payOff := 0, payLen := 2 }

/-- Agent 0 owns a handshake frame. -/
def framedHs : State := withSlot1 2 (.frame 0 .hs 0 2) [0xAA, 0xBB] small

/-- A heap-backed slice of 3 bytes. -/
def heap3 : Slice := { id := 0, idx := 0, off := 0, len := 3, cap := 3 }

/-- Agent 0 owns a heap-backed slice of 3 bytes. -/
def heaped : State :=
  { small with heap := [{ id := 0, size := 3, mem := cells 0 [7, 8, 9] }]
               live := [{ slice := heap3, holder := .caller 0 }], nextId := 1 }

/-- A frame on `heap3`. -/
def frameHeap : Frame := { kind := .std { hdr8 with msgLength := 3 }, buf := heap3, payOff := 0, payLen := 3 }

/-- Agent 0 owns a frame on a heap-backed slice. -/
def framedHeap : State :=
  { heaped with live := [{ slice := heap3, holder := .frame 0 (.std { hdr8 with msgLength := 3 }) 0 3 }] }

/-- All eight slots taken by agent 0, one byte each. -/
def exhausted : State :=
  { small with
    mask := 0xFF
    live := (List.range 8).map fun k =>
      { slice := { id := k, idx := k + 1, off := 64 * k, len := 1, cap := 64 }, holder := .caller 0 }
    nextId := 8 }

/-- Connection 0's decoder is `D`, its buffer slot 1 of `len` bytes beginning with `bs`. -/
def decoding (D : DecState) (len : Nat) (bs : List Byte) : State :=
  { withSlot1 len (.dec 0) bs small with decs := [{ D with buf := some (slot1 len) }, .reset] }

/-- A header buffer with nothing received. -/
def decOpen : DecState := { DecState.reset with buf := some (slot1 6) }
def inOpen : State := decoding decOpen 6 []

/-- Three header bytes received. -/
def decThree : DecState := { decOpen with missing := 3, received := 3 }
def inThree : State := decoding decThree 6 [0, 0, 0x18]

/-- A whole header received, V-D1 after step 4. -/
def decHeader : DecState := { decOpen with missing := 0, received := 6 }
def inHeader : State := decoding decHeader 6 [0, 0, 0x18, 8, 0, 0]

/-- A whole header whose length, 1025, is above the maximum (V-D9). -/
def inTooLong : State := decoding decHeader 6 [0, 0, 0x18, 1, 4, 0]

/-- The decoder of V-D9 after its first `DEC.NEXT_FRAME`. -/
def decFaulted : DecState := { decHeader with fault := true }
def inFaulted : State := decoding decFaulted 6 [0, 0, 0x18, 1, 4, 0]

/-- V-D1 after step 5. -/
def decPayload : DecState := { decHeader with phase := .ap, hdr := hdr8, missing := 8 }
def inPayload : State := decoding decPayload 6 [0, 0, 0x18, 8, 0, 0]

/-- V-D4 before its second window: 100 payload bytes awaited. -/
def decLong : DecState := { decPayload with hdr := { hdr8 with msgLength := 100 }, missing := 100 }
def inLong : State := decoding decLong 6 [0, 0, 0x18, 100, 0, 0]

/-- V-D1 after step 7. -/
def decDone : DecState := { decPayload with missing := 0, received := 14, buf := some (slot1 14) }
def inDone : State := decoding decDone 14 ([0, 0, 0x18, 8, 0, 0] ++ oneToEight)

/-- A handshake blob received. -/
def decHs : DecState := { decOpen with mode := .hs, phase := .ahs, missing := 0, received := 2, buf := some (slot1 2) }
def inHs : State := decoding decHs 2 [0xAA, 0xBB]

/-- A decoder that awaits a handshake blob of two bytes. -/
def decHsOpen : DecState := { DecState.reset with mode := .hs, phase := .ahs, missing := 2 }

/-- The scratch buffer of the states below, slot 2. -/
def scratch2 : Slice := { id := 1, idx := 2, off := 64, len := 14, cap := 64 }

/-- Connection 0's encoder after V-E1. -/
def encScratch : EncState := { buf := some scratch2, outLen := 14, outputs := 1, driver := none }

/-- `s` with that scratch buffer. -/
def withScratch (s : State) : State :=
  { s with mask := s.mask ||| 0x40
           live := s.live ++ [{ slice := scratch2, holder := .enc 0 }]
           nextId := 2
           encs := [encScratch, .reset] }

/-- A frame of 100 bytes on the heap (V-E3) and the scratch buffer, too small for it. -/
def heap100 : Slice := { id := 0, idx := 0, off := 0, len := 100, cap := 100 }
def frame100 : Frame := { kind := .std { hdr8 with msgLength := 100 }, buf := heap100, payOff := 0, payLen := 100 }
def inScratchShort : State :=
  withScratch { small with
    heap := [{ id := 0, size := 100, mem := [] }]
    live := [{ slice := heap100, holder := .frame 0 (.std { hdr8 with msgLength := 100 }) 0 100 }] }

/-- The response and `MASK` after an operation that has a next state. -/
def shown (o : Host.Outcome State Fault Refusal) : Option (Option Response × BitVec 8) :=
  match o with
  | .next t => some (t.resp, t.mask)
  | .fault _ => none
  | .refused _ => none

/-- A part of the next state. -/
def after {α : Type} (o : Host.Outcome State Fault Refusal) (f : State → α) : Option α :=
  match o with
  | .next t => some (f t)
  | .fault _ => none
  | .refused _ => none

/-- A response. -/
def ok (r : Result) : Option Response := some { status := .ok, result := r }

/-- A response with another status and no result. -/
def plain (st : Status) : Option Response := some { status := st, result := .nothing }

/-! ### Vectors: the pool -/

/-- V-P6. -/
theorem test_acquire_slot : shown (exec (.poolAcquire 64) small) = some (ok (.slice ⟨0, 1, 0, 64, 64⟩), 0x80) := by
  decide

/-- V-P2: every slot taken, so a heap buffer of exactly the length. -/
theorem test_acquire_heap :
    shown (exec (.poolAcquire 6) exhausted) = some (ok (.slice ⟨8, 0, 0, 6, 6⟩), 0xFF) ∧
    after (exec (.poolAcquire 6) exhausted) (fun t => t.heap) = some [⟨8, 6, []⟩] := by
  decide

/-- V-P8, the first acquire: slot 1 is too small. -/
theorem test_acquire_skips :
    shown (exec (.poolAcquire 32) (State.resetWith .tc2)) = some (ok (.slice ⟨0, 2, 16, 32, 64⟩), 0x40) := by
  decide

/-- V-P3: exactly one bit changes. -/
theorem test_release_slot3 :
    shown (exec (.poolRelease ⟨2, 3, 128, 1, 64⟩) exhausted) = some (ok .nothing, 0xDF) := by
  decide

/-- V-P10: the index damaged to 9. -/
theorem test_release_corrupt :
    shown (exec (.poolRelease { slot1 8 with idx := 9 }) holding) = some (none, 0x80) ∧
    after (exec (.poolRelease { slot1 8 with idx := 9 }) holding) (fun t => t.abort) = some true := by
  decide

/-- R129: a corrupt index aborts whatever the handle's other fields are, a frame's too. -/
theorem test_release_corrupt_fields :
    shown (exec (.poolRelease { id := 0, idx := 9, off := 77, len := 3, cap := 5 }) holding) = some (none, 0x80) ∧
    shown (exec (.frmDrop { frameHs with buf := { slot1 3 with idx := 255, off := 1 }, payLen := 9 }) framed)
      = some (none, 0x80) := by
  decide

/-- V-P11: the index damaged from 1 to 0, a valid one, is the fault of U3. -/
theorem test_release_forged : exec (.poolRelease { slot1 8 with idx := 0 }) holding = .fault .forged := rfl

/-- R271: a handle from before a reset stays dead when its `NEXT_ID` is drawn again. -/
theorem test_reset_handles :
    shown (exec (.poolAcquire 8) (resetEvent [] holding)) = some (ok (.slice { slot1 8 with id := 1 }), 0x80) ∧
    after (exec (.poolAcquire 8) (resetEvent [] holding)) (fun t => (t.nextId, findLive t.live (slot1 8).id))
      = some (1, none) := by
  decide

/-- V-P9: the fourth and fifth byte replaced. -/
theorem test_wr :
    after (exec (.poolWr (slot1 8) 3 [0xDD, 0xEE]) holding) (fun t => t.poolmem.map Prod.snd)
      = some [1, 2, 3, 0xDD, 0xEE, 6, 7, 8] := by
  decide

/-- R64, R131: no bytes written through a handle whose index is corrupt. -/
theorem test_wr_empty_corrupt :
    shown (exec (.poolWr { slot1 8 with idx := 9 } 8 []) holding) = some (plain .ok, 0x80) := by
  decide

/-- V-P9: 4 + 5 > 8. -/
theorem test_wr_bounds :
    shown (exec (.poolWr (slot1 8) 4 [0xAA, 0xBB, 0xCC, 0xDD, 0xEE]) holding) = some (plain .refused, 0x80) := by
  decide

/-- V-P9. -/
theorem test_rd : shown (exec (.poolRd (.slice (slot1 8)) 2 3) holding) = some (ok (.bytes [3, 4, 5]), 0x80) := by
  decide

/-- V-P9: the bound is `len`, not `cap`; no bytes at the end are legal. -/
theorem test_rd_bounds :
    shown (exec (.poolRd (.slice (slot1 8)) 8 1) holding) = some (plain .refused, 0x80) ∧
    shown (exec (.poolRd (.slice (slot1 8)) 8 0) holding) = some (ok (.bytes []), 0x80) := by
  decide

/-- V-S1. -/
theorem test_status : shown (exec .poolStatus exhausted) = some (ok (.mask 0xFF), 0xFF) := by decide

/-! ### Vectors: headers and frames -/

/-- V-H9 and V-H8. -/
theorem test_parse :
    shown (exec (.hdrParse [0x00, 0x80, 0x1A, 0x04, 0x01, 0x00, 0xAA]) small)
      = some (ok (.header { extType := 0x8000, msgType := 0x1A, msgLength := 260 }), 0) ∧
    shown (exec (.hdrParse [0x00, 0x00, 0x18, 0x08, 0x00]) small) = some (plain .malformedHeader, 0) := by
  decide

/-- V-H1. -/
theorem test_serialize : shown (exec (.hdrSerialize hdr8) small) = some (ok (.bytes [0, 0, 0x18, 8, 0, 0]), 0) := by
  decide

/-- V-H6, V-H7, under TC. -/
theorem test_build :
    shown (exec (.hdrBuild 0 0x18 16777216) State.reset) = some (plain .malformedHeader, 0) ∧
    shown (exec (.hdrBuild 0 0x18 16777215) State.reset)
      = some (ok (.header { extType := 0, msgType := 0x18, msgLength := 0xFFFFFF }), 0) := by
  decide

/-- V-H10, V-H4. -/
theorem test_chid :
    shown (exec (.hdrChid { extType := 0xFFFF, msgType := 0xFF, msgLength := 0xFFFFFF }) small) = some (ok (.bit true), 0) ∧
    shown (exec (.hdrChid { extType := 0x7FFF, msgType := 0, msgLength := 0 }) small) = some (ok (.bit false), 0) := by
  decide

/-- V-H2. -/
theorem test_msgtype :
    shown (exec (.hdrMsgtype { extType := 0x8000, msgType := 0x1A, msgLength := 260 }) small)
      = some (ok (.msgType 0x1A), 0) := by
  decide

/-- V-H2. -/
theorem test_msglen :
    shown (exec (.hdrMsglen { extType := 0x8000, msgType := 0x1A, msgLength := 260 }) small)
      = some (ok (.msgLength 260), 0) := by
  decide

/-- V-F1 and two rows of V-F2. -/
theorem test_fromMessage :
    shown (exec (.frmFromMessage (slot1 8) 0x18 0 false) holding) = some (ok (.frame frame8), 0x80) ∧
    withChannelFlag 0x0001 true = 0x8001 ∧ withChannelFlag 0xFFFF false = 0x7FFF := by
  decide

/-- V-F1a; R164 for a handshake frame. -/
theorem test_header :
    shown (exec (.frmHeader frame8) framed) = some (ok (.header hdr8), 0x80) ∧
    shown (exec (.frmHeader frameHs) framedHs) = some (plain .none, 0x80) := by
  decide

/-- V-F1a. -/
theorem test_payload :
    shown (exec (.frmPayload frame8) framed) = some (ok (.view { slice := slot1 8, off := 0, len := 8 }), 0x80) := by
  decide

/-- V-F1a. -/
theorem test_encodedLength : shown (exec (.frmEncodedLength frame8) framed) = some (ok (.count 14), 0x80) := by decide

/-- R129, R246: a frame built on a handle with a corrupt index; its encode aborts, the header already written. -/
theorem test_corrupt_frame :
    after (exec (.frmFromMessage { slot1 8 with idx := 9, len := 2 } 0x18 0 false) holding)
        (fun t => t.live.map LiveEntry.holder) = some [.damagedFrame 0] ∧
    after (exec (.encEncode 0 { frame8 with buf := { slot1 8 with idx := 9 } }) framed)
        (fun t => (t.abort, t.resp, t.mask, (List.range 6).map (t.poolmem.read <| 64 + ·)))
      = some (true, none, 0xC0, [0, 0, 0x18, 8, 0, 0].map some) := by
  decide

/-- R168 with blobs of 2 bytes; V-F5a's refusal. -/
theorem test_fromHandshake :
    shown (exec (.frmFromHandshake (slot1 2)) holding2) = some (ok (.frame frameHs), 0x80) ∧
    shown (exec (.frmFromHandshake (slot1 8)) holding) = some (plain .none, 0x80) := by
  decide

/-- V-F6a. -/
theorem test_drop_heap : after (exec (.frmDrop frameHeap) framedHeap) (fun t => (t.heap, t.live)) = some ([], []) := by
  decide

/-! ### Vectors: the decoder -/

/-- V-D1, step 6: lengthened in place. -/
theorem test_writable_lengthens :
    shown (exec (.decWritable 0) inPayload) = some (ok (.window 6 8), 0x80) ∧
    after (exec (.decWritable 0) inPayload) (fun t => t.live.map LiveEntry.slice) = some [slot1 14] := by
  decide

/-- V-D4: the received bytes move to the heap, and slot 1 is released. -/
theorem test_writable_reallocates :
    shown (exec (.decWritable 0) inLong) = some (ok (.window 6 100), 0x00) ∧
    after (exec (.decWritable 0) inLong) (fun t => t.heap) = some [⟨1, 106, cells 0 [0, 0, 0x18, 100, 0, 0]⟩] := by
  decide

/-- V-D1, step 4. -/
theorem test_fill :
    after (exec (.decFill 0 [0, 0, 0x18, 8, 0, 0]) inOpen) (fun t => (t.resp, t.decs.map DecState.received, t.poolmem))
      = some (ok .nothing, [6, 0], cells 0 [0, 0, 0x18, 8, 0, 0]) := by
  decide

/-- R186: more bytes than the window. -/
theorem test_fill_refused :
    shown (exec (.decFill 0 [0, 0, 0, 0]) inThree) = some (plain .refused, 0x80) := by
  decide

/-- V-D1, step 5. -/
theorem test_nextFrame_header :
    after (exec (.decNextFrame 0) inHeader) (fun t => (t.resp, t.decs.map fun D => (D.phase, D.missing, D.hdr)))
      = some (some { status := .needBytes, result := .count 8 }, [(.ap, 8, hdr8), (.ah, 6, ⟨0, 0, 0⟩)]) := by
  decide

/-- V-D6: the channel id is part of the payload, so 5 bytes are missing and not 5 + `CHANNEL_ID_SIZE`. -/
theorem test_nextFrame_channel :
    after (exec (.decNextFrame 0) (decoding decHeader 6 [0, 0x80, 0x1A, 5, 0, 0]))
        (fun t => t.decs.map fun D => decide (D.missing = 5 ∧ D.missing ≠ 5 + channelIdSize)) = some [true, false] ∧
    channelIdSize = 4 ∧ channelFlag { hdr8 with extType := channelFlagBit } = true := by
  decide

/-- V-D1, step 8; V-D9's first `DEC.NEXT_FRAME`. -/
theorem test_nextFrame_frame :
    shown (exec (.decNextFrame 0) inDone)
      = some (ok (.frame { kind := .std hdr8, buf := slot1 14, payOff := 6, payLen := 8 }), 0x80) ∧
    shown (exec (.decNextFrame 0) inTooLong) = some (plain .malformedHeader, 0x80) := by
  decide

/-- R224, R225: with a buffer held and nothing filled; and in mid-unit. -/
theorem test_setMode :
    shown (exec (.decSetMode 0 .hs) inOpen) = some (ok .nothing, 0x00) ∧
    shown (exec (.decSetMode 0 .hs) inThree) = some (plain .refused, 0x80) := by
  decide

/-- V-D9, its `DEC.RESET`; `D.hdr` is not looked at. -/
theorem test_decReset :
    shown (exec (.decReset 0) inFaulted) = some (ok .nothing, 0x00) ∧
    after (exec (.decReset 0) inFaulted) (fun t => t.decs.map fun D => (D.phase, D.missing, D.received, D.fault))
      = some [(.ah, 6, 0, false), (.ah, 6, 0, false)] := by
  decide

/-- V-D9, its `DEC.STATUS`. -/
theorem test_decStatus :
    shown (exec (.decStatus 0) inFaulted) = some (ok (.decStatus .std .ah 0 6 true true), 0x80) := by
  decide

/-- R187 and R112: a round with one fill is `DEC.FEED` and `DEC.NEXT_FRAME`. -/
theorem test_round (c : Nat) (bs : List Byte) : decodeRound c [bs] = feed c bs ++ [.decNextFrame c] := rfl

/-- R101: a `conn` not below `N_CONN`. -/
theorem test_conn : shown (exec (.decWritable 2) small) = some (plain .refused, 0) := by decide

/-! ### Vectors: the encoder -/

/-- V-E1. -/
theorem test_encode :
    shown (exec (.encEncode 0 frame8) framed)
      = some (ok (.view { slice := { scratch2 with len := 14 }, off := 0, len := 14, output := 1 }), 0x40) ∧
    after (exec (.encEncode 0 frame8) framed) (fun t => (List.range 14).map (t.poolmem.read <| 64 + ·))
      = some (([0, 0, 0x18, 8, 0, 0] ++ oneToEight).map some) := by
  decide

/-- V-E2: the scratch buffer is reused. -/
theorem test_encode_reuses :
    after (exec (.encEncode 0 frame8) (withScratch framed)) (fun t => (t.nextId, t.mask)) = some (2, 0x40) := by
  decide

/-- V-S5. -/
theorem test_encReset :
    shown (exec (.encReset 0) (withScratch small)) = some (ok .nothing, 0x00) ∧
    after (exec (.encReset 0) (withScratch small)) (fun t => t.encs.map EncState.buf) = some [none, none] := by
  decide

/-- V-S5. -/
theorem test_encStatus :
    shown (exec (.encStatus 0) (withScratch small)) = some (ok (.encStatus true 14), 0x40) := by
  decide

/-! ### Steps -/

/-- The first step after reset, of a word of the opcode table. -/
theorem test_step_word :
    shown (step (State.reset.withFetchWord 8 0x01)) = some (ok (.slice ⟨0, 1, 0, 0, 64⟩), 0x80) ∧
    shown (step (State.reset.withFetchWord 48 0x000008180000)) = some (ok (.header hdr8), 0) := by
  decide

/-- V-S6: an unassigned opcode through a step. -/
theorem test_step_unassigned : shown (step (State.reset.withFetchWord 8 0x43)) = some (plain .refused, 0) := by decide

/-! ### Witnesses: for each statement with hypotheses, states and operands that meet them -/

/-- A next state of which `p` holds, from an evaluation. -/
theorem exists_next {o : Host.Outcome State Fault Refusal} {p : State → Bool} (h : after o p = some true) :
    ∃ t, o = .next t ∧ p t = true := by
  cases o with
  | next t => exact ⟨t, rfl, by simpa [after] using h⟩
  | fault f => simp [after] at h
  | refused r => simp [after] at h

theorem small_ok : BlockOk small := blockCheck_ok (by decide)
theorem holding_ok : BlockOk holding := blockCheck_ok (by decide)
theorem holding2_ok : BlockOk holding2 := blockCheck_ok (by decide)
theorem framed_ok : BlockOk framed := blockCheck_ok (by decide)
theorem framedHs_ok : BlockOk framedHs := blockCheck_ok (by decide)
theorem heaped_ok : BlockOk heaped := blockCheck_ok (by decide)
theorem framedHeap_ok : BlockOk framedHeap := blockCheck_ok (by decide)
theorem exhausted_ok : BlockOk exhausted := blockCheck_ok (by decide)
theorem inOpen_ok : BlockOk inOpen := blockCheck_ok (by decide)
theorem inThree_ok : BlockOk inThree := blockCheck_ok (by decide)
theorem inHeader_ok : BlockOk inHeader := blockCheck_ok (by decide)
theorem inTooLong_ok : BlockOk inTooLong := blockCheck_ok (by decide)
theorem inFaulted_ok : BlockOk inFaulted := blockCheck_ok (by decide)
theorem inPayload_ok : BlockOk inPayload := blockCheck_ok (by decide)
theorem inLong_ok : BlockOk inLong := blockCheck_ok (by decide)
theorem inDone_ok : BlockOk inDone := blockCheck_ok (by decide)
theorem inHs_ok : BlockOk inHs := blockCheck_ok (by decide)
theorem scratch_ok : BlockOk (withScratch framed) := blockCheck_ok (by decide)
theorem scratchBare_ok : BlockOk (withScratch { small with nextId := 1 }) := blockCheck_ok (by decide)
theorem inScratchShort_ok : BlockOk inScratchShort := blockCheck_ok (by decide)

theorem witness_DecodingAnEncodedInstructionGivesItBack :
    (Instr.encEncode 4294967295 frame5).wellFormed .tc = true := by
  decide

theorem witness_RecordsThatAreNoCommandAreRefused :
    (record [0xFF]).form = .command ∧ (record [0xFF]).bytes = 0xFF :: [] ∧
    (0x00#8).toNat = 0 ∧
    (∀ op ∈ [0x06#8, 0x0F#8], 0x06 ≤ op.toNat ∧ op.toNat ≤ 0x0F) ∧
    (∀ op ∈ [0x16#8, 0x1F#8], 0x16 ≤ op.toNat ∧ op.toNat ≤ 0x1F) ∧
    (∀ op ∈ [0x26#8, 0x2F#8], 0x26 ≤ op.toNat ∧ op.toNat ≤ 0x2F) ∧
    (∀ op ∈ [0x36#8, 0x3F#8], 0x36 ≤ op.toNat ∧ op.toNat ≤ 0x3F) ∧
    (∀ op ∈ [0x43#8, 0xFF#8], 0x43 ≤ op.toNat) ∧
    small.abort = false ∧ decode small.cfg (record [0xFF]) = .error (.unassignedOpcode 0xFF) ∧
    { small with inbox := [.command 0 (record [0xFF])] }.inbox = [.command 0 (record [0xFF])] ∧
    small.decs.length = small.cfg.nConn ∧ small.encs.length = small.cfg.nConn ∧ small.cfg.nConn ≤ 2 := by
  decide

theorem witness_ParseAndSerializeAreInverse :
    small.abort = false ∧ headerSize ≤ (headerBytes hdr8).length ∧ (headerBytes hdr8).length = headerSize := by
  decide

theorem witness_StepRunsTheDecodedInstruction :
    decode small.cfg (record [0x05, 9]) = .ok (.poolStatus, [9]) ∧
    { small with inbox := [.command 3 (record [0x05, 9])] }.inbox = [.command 3 (record [0x05, 9])] ∧
    small.inbox = [] := by
  decide

theorem witness_ResetPutsEveryElementAtItsValue :
    { holding with inbox := [.reset] }.inbox = [.reset] ∧
    { small with abort := true }.abort = true ∧
    step { small with abort := true } = .next { small with abort := true } ∧
    step { small with abort := true, inbox := [.reset] } = .next small :=
  ⟨rfl, rfl, rfl, rfl⟩

theorem witness_AbortedBlockHasNoOperation :
    { small with abort := true }.abort = true ∧
    { small with inbox := [.handOver 0 (.decoder 0) 1] }.inbox = [.handOver 0 (.decoder 0) 1] ∧
    Input.handOver 0 (.decoder 0) 1 ≠ .reset := by
  decide

/-- Capacity exactly the length, one more, and none free. -/
theorem witness_FittingSetIsFreeAndLargeEnough :
    fit .tc 0x7F 64 = [1] ∧ fit .tc 0 65 = [] ∧ fit .tc 0xFF 0 = [] ∧ fit .tc2 0 64 = [2, 3] := by decide

theorem witness_AcquireTakesAFittingSlotElseTheHeap :
    small.abort = false ∧ fit small.cfg small.mask 64 ≠ [] ∧ small.cfg.scan = .lowestIndex ∧
    exhausted.abort = false ∧ fit exhausted.cfg exhausted.mask 0 = [] := by
  decide

theorem witness_AcquiredSliceIsFreshAndUnwritten :
    BlockOk holding ∧ holding.abort = false ∧ BlockOk exhausted ∧ exhausted.abort = false :=
  ⟨holding_ok, rfl, exhausted_ok, rfl⟩

theorem witness_AcquireSetsOneClearBit :
    (BlockOk holding ∧ ∃ t, exec (.poolAcquire 6) holding = .next t ∧
      decide (t.resp = ok (.slice ⟨1, 2, 64, 6, 64⟩)) = true) ∧
    (BlockOk exhausted ∧ ∃ t, exec (.poolAcquire 6) exhausted = .next t ∧
      decide (t.resp = ok (.slice ⟨8, 0, 0, 6, 6⟩)) = true) :=
  ⟨⟨holding_ok, exists_next (by decide)⟩, exhausted_ok, exists_next (by decide)⟩

/-- A dead handle; a heap-backed one; slots 1 and 8; a slice whose index names nothing. -/
theorem witness_ReleaseGivesBackTheSlotOrTheBuffer :
    (small.abort = false ∧ findLive small.live (slot1 8).id = none) ∧
    (heaped.abort = false ∧ Owns heaped heap3 ∧ heap3.idx = heaped.cfg.untracked) ∧
    (holding.abort = false ∧ Owns holding (slot1 8) ∧ (slot1 8).idx ≠ holding.cfg.untracked ∧ 1 ≤ (slot1 8).idx ∧
      (slot1 8).idx ≤ holding.cfg.nSlots) ∧
    (exhausted.abort = false ∧ Owns exhausted ⟨7, 8, 448, 1, 64⟩ ∧ 8 ≠ exhausted.cfg.untracked ∧
      8 ≤ exhausted.cfg.nSlots) ∧
    (Owns { small with live := [⟨{ slot1 8 with idx := 9 }, .caller 0⟩] } { slot1 8 with idx := 9 } ∧
      9 ≠ small.cfg.untracked ∧ ¬ (1 ≤ 9 ∧ 9 ≤ small.cfg.nSlots)) := by
  decide

theorem witness_ReleaseClearsItsBitAlone :
    BlockOk holding ∧ holding.abort = false ∧ Owns holding (slot1 8) ∧ 1 ≤ (slot1 8).idx ∧
    (slot1 8).idx ≤ holding.cfg.nSlots :=
  ⟨holding_ok, rfl, by decide, by decide, by decide⟩

/-- A slice; a frame; a frame built on a damaged handle; and an encoder without and with a scratch buffer. -/
theorem witness_CorruptIndexAborts :
    (holding.abort = false ∧ Owns holding (slot1 8) ∧ { slot1 3 with idx := 9 }.id = (slot1 8).id ∧
      placeOf holding.cfg 9 = .corrupt ∧ (slot1 3).len ≤ holding.cfg.maxMsg ∧ 0 + 3 ≤ (slot1 3).len ∧
      (slot1 3).len < 0 + 4 ∧ 2 + [0xAA#8].length ≤ (slot1 3).len ∧ (slot1 3).len < 3 + [0xAA#8].length ∧
      [0xAA#8] ≠ [] ∧ 3 ≤ (slot1 3).len) ∧
    (framed.abort = false ∧ HoldsFrame framed (slot1 8).id) ∧
    HoldsFrame { holding with live := [⟨slot1 8, .damagedFrame 0⟩] } (slot1 8).id ∧
    (BlockOk framed ∧ DrivesEnc framed 0 .reset) ∧
    (BlockOk (withScratch framed) ∧ (withScratch framed).abort = false ∧ DrivesEnc (withScratch framed) 0 encScratch ∧
      HoldsFrame (withScratch framed) (slot1 8).id) ∧
    { small with abort := true }.abort = true ∧ small.cfg.WF :=
  ⟨by decide, ⟨rfl, _, rfl, .inl ⟨_, _, _, rfl⟩⟩, ⟨_, rfl, .inr rfl⟩, ⟨framed_ok, by decide⟩,
    ⟨scratch_ok, rfl, by decide, _, rfl, .inl ⟨_, _, _, rfl⟩⟩, rfl, small_ok.cfg⟩

/-- In bounds up to the last byte, and one byte beyond. -/
theorem witness_WriteStoresInsideTheSlice :
    findLive small.live 0 = none ∧ Owns holding (slot1 8) ∧ holding.abort = false ∧
    (slot1 8).len < 8 + [0xAA#8].length ∧ BlockOk holding ∧ 7 + [0xAA#8].length ≤ (slot1 8).len :=
  ⟨by decide, by decide, rfl, by decide, holding_ok, by decide⟩

theorem witness_WriteChangesOnlyTheAddressedBytes :
    (BlockOk holding ∧ Owns holding (slot1 8) ∧ 7 + [0xAA#8].length ≤ (slot1 8).len ∧
      ∃ t, exec (.poolWr (slot1 8) 7 [0xAA]) holding = .next t ∧ decide (t.resp = ok .nothing) = true) ∧
    (BlockOk heaped ∧ Owns heaped heap3 ∧ 0 + [0xAA#8].length ≤ heap3.len ∧ heap3.idx = heaped.cfg.untracked ∧
      ∃ t, exec (.poolWr heap3 0 [0xAA]) heaped = .next t ∧ decide (t.resp = ok .nothing) = true) :=
  ⟨⟨holding_ok, by decide, by decide, exists_next (by decide)⟩,
    heaped_ok, by decide, by decide, by decide, exists_next (by decide)⟩

/-- A slice, a view of a frame's payload and one of an encoder's output, each read to its end and one beyond; and a view
that ends beyond its slice. -/
theorem witness_ReadAnswersTheBytes :
    (holding.abort = false ∧ Owns holding (slot1 8) ∧ (slot1 8).len < 0 + 9 ∧ BlockOk holding ∧ 0 + 8 ≤ (slot1 8).len) ∧
    (framed.abort = false ∧
      findLive framed.live (slot1 8).id = some { slice := slot1 8, holder := .frame 0 (.std hdr8) 0 8 } ∧
      isLastView framed (.frame 0 (.std hdr8) 0 8) ⟨slot1 8, 0, 8, 0⟩ = true ∧ 8 < 0 + 9 ∧
      (slot1 8).len < 0 + 8 + 1 ∧ BlockOk framed ∧ 0 + 8 ≤ 8 ∧ 0 + 0 + 8 ≤ (slot1 8).len) ∧
    (findLive (withScratch framed).live scratch2.id = some { slice := scratch2, holder := .enc 0 } ∧
      isLastView (withScratch framed) (.enc 0) ⟨scratch2, 0, 14, 1⟩ = true) ∧
    (1 < 2 ∧ storedByte holding (slot1 8) (0 + 1) = some 2) :=
  ⟨⟨rfl, by decide, by decide, holding_ok, by decide⟩,
    ⟨rfl, by decide, by decide, by decide, by decide, framed_ok, by decide, by decide⟩, by decide, by decide, by decide⟩

theorem witness_ReadAfterWriteGivesTheBytesWritten :
    BlockOk holding ∧ holding.abort = false ∧ Owns holding (slot1 8) ∧ 6 + [0xAA#8, 0xBB#8].length ≤ (slot1 8).len :=
  ⟨holding_ok, rfl, by decide, by decide⟩

/-- The output view of an encode of 12 bytes, and one of 14, after another of 14 has reused the scratch buffer; the
view of that one; and a dead one. -/
theorem witness_EndedViewsReadAnyBytesOrFault :
    ((withScratch small).abort = false ∧
      findLive (withScratch small).live scratch2.id
        = some { slice := { { scratch2 with len := 12 } with len := 14 }, holder := .enc 0 } ∧
      placeOf (withScratch small).cfg scratch2.idx ≠ .corrupt ∧
      14 ≠ { scratch2 with len := 12 }.len ∧ 12 < 0 + 13 ∧ { scratch2 with len := 12 }.len < 0 + 13 + 0 ∧ 0 + 12 ≤ 12 ∧
      0 + 0 + 12 ≤ { scratch2 with len := 12 }.len) ∧
    (isLastView (withScratch small) (.enc 0) { slice := scratch2, off := 0, len := 14, output := 0 } = false ∧
      isLastView (withScratch small) (.enc 0) { slice := scratch2, off := 0, len := 14, output := 1 } = true) ∧
    (small.abort = false ∧ findLive small.live scratch2.id = none) := by
  decide

theorem witness_ParseReadsAndSerializeWritesSixBytes : small.abort = false ∧ [0#8, 0#8, 0#8, 0#8, 0#8].length < 6 := by
  decide

/-- The greatest length, and one more. -/
theorem witness_BuildChecksTheLength :
    State.reset.abort = false ∧ State.reset.cfg.maxMsg < 16777216 ∧ 16777215 ≤ State.reset.cfg.maxMsg ∧
    State.reset.cfg.WF :=
  ⟨rfl, by decide, by decide, configCheck_ok (by decide)⟩

theorem witness_AccessorsAnswerTheirField : small.abort = false := rfl

theorem witness_WireHeaderAnswersTheHeader : small.abort = false := rfl

theorem witness_FromMessageBuildsAStandardFrame :
    (holding.abort = false ∧ Owns holding (slot1 8) ∧ (slot1 8).len ≤ holding.cfg.maxMsg) ∧
    (Owns { holding with cfg := { holding.cfg with maxMsg := 7 } } (slot1 8) ∧ 7 < (slot1 8).len) := by
  decide

theorem witness_FrameReadersAnswerAndChangeNothing :
    (framed.abort = false ∧ OwnsFrame framed frame8 ∧ frame8.kind = .std hdr8) ∧
    (framedHs.abort = false ∧ OwnsFrame framedHs frameHs ∧ frameHs.kind = .hs) := by
  decide

theorem witness_FromHandshakeBuildsAHandshakeFrame :
    (holding.abort = false ∧ Owns holding (slot1 8) ∧ (slot1 8).len ≠ holding.cfg.handshakeLen) ∧
    (holding2.abort = false ∧ Owns holding2 (slot1 2) ∧ (slot1 2).len = holding2.cfg.handshakeLen) := by
  decide

theorem witness_DropReleasesTheFramesBuffer :
    (small.abort = false ∧ findLive small.live frame8.buf.id = none) ∧
    (framedHeap.abort = false ∧ OwnsFrame framedHeap frameHeap ∧ frameHeap.buf.idx = framedHeap.cfg.untracked) ∧
    (framed.abort = false ∧ OwnsFrame framed frame8 ∧ frame8.buf.idx ≠ framed.cfg.untracked ∧ 1 ≤ frame8.buf.idx ∧
      frame8.buf.idx ≤ framed.cfg.nSlots) ∧
    (OwnsFrame { framed with live := [⟨{ slot1 8 with idx := 9 }, .frame 0 (.std hdr8) 0 8⟩] }
        { frame8 with buf := { slot1 8 with idx := 9 } } ∧ 9 ≠ framed.cfg.untracked ∧
      ¬ (1 ≤ 9 ∧ 9 ≤ framed.cfg.nSlots)) := by
  decide

/-- Faulted; no buffer; a buffer of `T` bytes; one with room; one without. -/
theorem witness_WritableOpensTheWindow :
    (BlockOk inFaulted ∧ inFaulted.abort = false ∧ DrivesDec inFaulted 0 decFaulted ∧ decFaulted.fault = true) ∧
    (BlockOk small ∧ small.abort = false ∧ DrivesDec small 0 .reset ∧ DecState.reset.buf = none) ∧
    (BlockOk inThree ∧ inThree.abort = false ∧ DrivesDec inThree 0 decThree ∧ target inThree.cfg decThree ≤ (slot1 6).len) ∧
    (BlockOk inPayload ∧ inPayload.abort = false ∧ DrivesDec inPayload 0 decPayload ∧
      (slot1 6).len < target inPayload.cfg decPayload ∧ target inPayload.cfg decPayload ≤ (slot1 6).cap) ∧
    (BlockOk inLong ∧ inLong.abort = false ∧ DrivesDec inLong 0 decLong ∧
      (slot1 6).len < target inLong.cfg decLong ∧ (slot1 6).cap < target inLong.cfg decLong) :=
  ⟨⟨inFaulted_ok, rfl, by decide, rfl⟩, ⟨small_ok, rfl, by decide, rfl⟩, ⟨inThree_ok, rfl, by decide, by decide⟩,
    ⟨inPayload_ok, rfl, by decide, by decide, by decide⟩, inLong_ok, rfl, by decide, by decide, by decide⟩

/-- V-D4: the new buffer is heap-backed, so `POOLMEM` stays; slot 2's bit is neither buffer's. -/
theorem witness_WritableChangesOnlyItsDecoderAndBuffer :
    BlockOk inLong ∧ DrivesDec inLong 0 decLong ∧
    ∃ t, exec (.decWritable 0) inLong = .next t ∧ decide (t.resp = ok (.window 6 100) ∧
      t.decs.map (fun D => D.buf.map Slice.idx) = [some inLong.cfg.untracked, none] ∧ 2 ≠ (slot1 6).idx) = true :=
  ⟨inLong_ok, by decide, exists_next (by decide)⟩

/-- Faulted; no buffer; a buffer not of `T` bytes; too many bytes; and the whole window. -/
theorem witness_FillStoresTheNextBytes :
    (BlockOk inFaulted ∧ inFaulted.abort = false ∧ DrivesDec inFaulted 0 decFaulted ∧ decFaulted.fault = true) ∧
    (BlockOk small ∧ small.abort = false ∧ DrivesDec small 0 .reset ∧ DecState.reset.buf = none) ∧
    (BlockOk inPayload ∧ inPayload.abort = false ∧ DrivesDec inPayload 0 decPayload ∧
      decPayload.buf = some (slot1 6) ∧ (slot1 6).len ≠ target inPayload.cfg decPayload) ∧
    (BlockOk inThree ∧ inThree.abort = false ∧ DrivesDec inThree 0 decThree ∧
      decThree.missing < [0#8, 0#8, 0#8, 0#8].length ∧ decThree.fault = false ∧ decThree.buf = some (slot1 6) ∧
      (slot1 6).len = target inThree.cfg decThree ∧ [0#8, 0#8, 0#8].length ≤ decThree.missing) :=
  ⟨⟨inFaulted_ok, rfl, by decide, rfl⟩, ⟨small_ok, rfl, by decide, rfl⟩, ⟨inPayload_ok, rfl, by decide, rfl, by decide⟩,
    inThree_ok, rfl, by decide, by decide, rfl, rfl, by decide, by decide⟩

theorem witness_FillChangesOnlyTheWindow :
    BlockOk inThree ∧ DrivesDec inThree 0 decThree ∧ decThree.buf = some (slot1 6) ∧
    ∃ t, exec (.decFill 0 [8, 0, 0]) inThree = .next t ∧ decide (t.resp = ok .nothing) = true :=
  ⟨inThree_ok, by decide, rfl, exists_next (by decide)⟩

/-- Faulted; bytes missing; a header to parse, too long and not; a standard frame; a handshake frame. -/
theorem witness_NextFrameFollowsThePhase :
    (BlockOk inFaulted ∧ inFaulted.abort = false ∧ DrivesDec inFaulted 0 decFaulted ∧ decFaulted.fault = true) ∧
    (BlockOk inThree ∧ inThree.abort = false ∧ DrivesDec inThree 0 decThree ∧ decThree.fault = false ∧
      0 < decThree.missing) ∧
    (BlockOk inHeader ∧ inHeader.abort = false ∧ DrivesDec inHeader 0 decHeader ∧ decHeader.fault = false ∧
      decHeader.missing = 0 ∧ decHeader.phase = .ah ∧ hdr8.msgLength.toNat ≤ inHeader.cfg.maxMsg ∧
      ∀ i < 6, storedByte inHeader (slot1 6) i = (headerBytes hdr8)[i]?) ∧
    (BlockOk inTooLong ∧ inTooLong.abort = false ∧ DrivesDec inTooLong 0 decHeader ∧
      inTooLong.cfg.maxMsg < { hdr8 with msgLength := 1025 }.msgLength.toNat ∧
      ∀ i < 6, storedByte inTooLong (slot1 6) i = (headerBytes { hdr8 with msgLength := 1025 })[i]?) ∧
    (BlockOk inDone ∧ inDone.abort = false ∧ DrivesDec inDone 0 decDone ∧ decDone.fault = false ∧ decDone.missing = 0 ∧
      decDone.phase = .ap) ∧
    (BlockOk inHs ∧ inHs.abort = false ∧ DrivesDec inHs 0 decHs ∧ decHs.fault = false ∧ decHs.missing = 0 ∧
      decHs.phase = .ahs) :=
  ⟨⟨inFaulted_ok, rfl, by decide, rfl⟩, ⟨inThree_ok, rfl, by decide, rfl, by decide⟩,
    ⟨inHeader_ok, rfl, by decide, rfl, rfl, rfl, by decide, by decide⟩, ⟨inTooLong_ok, rfl, by decide, by decide, by decide⟩,
    ⟨inDone_ok, rfl, by decide, rfl, rfl, rfl⟩, inHs_ok, rfl, by decide, rfl, rfl, rfl⟩

/-- From `AH` to `AP`, back to `AH`, to `AHS` by `DEC.SET_MODE`, and to `AH` by `DEC.RESET`. -/
theorem witness_PhaseMovesOnlyAsTheTableSays :
    (inHeader.decs[0]? = some decHeader ∧ ∃ t, exec (.decNextFrame 0) inHeader = .next t ∧
      decide (t.decs.map DecState.phase = [.ap, .ah]) = true) ∧
    (inDone.decs[0]? = some decDone ∧ ∃ t, exec (.decNextFrame 0) inDone = .next t ∧
      decide (t.decs.map DecState.phase = [.ah, .ah]) = true) ∧
    (small.decs[0]? = some .reset ∧ ∃ t, exec (.decSetMode 0 .hs) small = .next t ∧
      decide (t.decs.map DecState.phase = [.ahs, .ah]) = true) ∧
    (inDone.decs[0]? = some decDone ∧ ∃ t, exec (.decReset 0) inDone = .next t ∧
      decide (t.decs.map DecState.phase = [.ah, .ah]) = true) :=
  ⟨⟨by decide, exists_next (by decide)⟩, ⟨by decide, exists_next (by decide)⟩, ⟨by decide, exists_next (by decide)⟩,
    by decide, exists_next (by decide)⟩

theorem witness_DecoderFaultIsSticky :
    (BlockOk inTooLong ∧ inTooLong.decs[0]? = some decHeader ∧ decHeader.fault = false ∧ ∃ t, exec (.decNextFrame 0) inTooLong = .next t ∧
      decide (t.decs.map DecState.fault = [true, false]) = true) ∧
    (inFaulted.decs[0]? = some decFaulted ∧ decFaulted.fault = true ∧ ∃ t, exec (.decReset 0) inFaulted = .next t ∧
      decide (t.decs.map DecState.fault = [false, false]) = true) :=
  ⟨⟨inTooLong_ok, by decide, rfl, exists_next (by decide)⟩, by decide, rfl, exists_next (by decide)⟩

theorem witness_SetModeOnlyAtAUnitBoundary :
    (BlockOk inFaulted ∧ inFaulted.abort = false ∧ DrivesDec inFaulted 0 decFaulted ∧ decFaulted.fault = true) ∧
    (BlockOk inThree ∧ inThree.abort = false ∧ DrivesDec inThree 0 decThree ∧ 0 < decThree.received) ∧
    (BlockOk inOpen ∧ inOpen.abort = false ∧ DrivesDec inOpen 0 decOpen ∧ decOpen.fault = false ∧ decOpen.received = 0) :=
  ⟨⟨inFaulted_ok, rfl, by decide, rfl⟩, ⟨inThree_ok, rfl, by decide, by decide⟩, inOpen_ok, rfl, by decide, rfl, rfl⟩

theorem witness_DecResetRestoresResetValues :
    BlockOk inFaulted ∧ inFaulted.abort = false ∧ DrivesDec inFaulted 0 decFaulted :=
  ⟨inFaulted_ok, rfl, by decide⟩

theorem witness_StatusOperationsAnswerTheirRecord :
    (small.abort = false ∧ BlockOk (State.resetWith .tc2) ∧ (State.resetWith .tc2).cfg.nSlots < 4 ∧ 4 ≤ 8) ∧
    (inDone.abort = false ∧ DrivesDec inDone 0 decDone) ∧
    ((withScratch framed).abort = false ∧ DrivesEnc (withScratch framed) 0 encScratch) :=
  ⟨⟨rfl, blockCheck_ok (by decide), by decide, by decide⟩, by decide, by decide⟩

/-- No scratch buffer, one large enough, and one too small; and a payload all written. -/
theorem witness_EncodeWritesHeaderAndPayload :
    (BlockOk framed ∧ framed.abort = false ∧ DrivesEnc framed 0 .reset ∧ OwnsFrame framed frame8 ∧
      ∀ i < frame8.payLen, (storedByte framed frame8.buf (frame8.payOff + i)).isSome) ∧
    (BlockOk (withScratch framed) ∧ (withScratch framed).abort = false ∧
      DrivesEnc (withScratch framed) 0 encScratch ∧ OwnsFrame (withScratch framed) frame8 ∧
      wireLength framed.cfg frame8 ≤ scratch2.cap) ∧
    (BlockOk inScratchShort ∧ inScratchShort.abort = false ∧ DrivesEnc inScratchShort 0 encScratch ∧
      OwnsFrame inScratchShort frame100 ∧ scratch2.cap < wireLength inScratchShort.cfg frame100) ∧
    (BlockOk framedHs ∧ framedHs.abort = false ∧ DrivesEnc framedHs 0 .reset ∧ OwnsFrame framedHs frameHs) :=
  ⟨⟨framed_ok, rfl, by decide, by decide, by decide⟩, ⟨scratch_ok, rfl, by decide, by decide, by decide⟩,
    ⟨inScratchShort_ok, rfl, by decide, by decide, by decide⟩, framedHs_ok, rfl, by decide, by decide⟩

/-- The scratch buffer reused; and one replaced by a heap-backed one (V-E3). -/
theorem witness_EncodeChangesOnlyItsEncoderAndFrame :
    (BlockOk (withScratch framed) ∧ (withScratch framed).abort = false ∧ DrivesEnc (withScratch framed) 0 encScratch ∧
      OwnsFrame (withScratch framed) frame8 ∧
      ∃ t, exec (.encEncode 0 frame8) (withScratch framed) = .next t ∧ decide (t.mask = 0x40) = true) ∧
    (BlockOk inScratchShort ∧ inScratchShort.abort = false ∧ DrivesEnc inScratchShort 0 encScratch ∧
      OwnsFrame inScratchShort frame100 ∧
      ∃ t, exec (.encEncode 0 frame100) inScratchShort = .next t ∧
        decide (t.encs.map (fun E => E.buf.map Slice.idx) = [some inScratchShort.cfg.untracked, none]) = true) :=
  ⟨⟨scratch_ok, rfl, by decide, by decide, exists_next (by decide)⟩,
    inScratchShort_ok, rfl, by decide, by decide, exists_next (by decide)⟩

/-- The same frame in two states, on two connections. -/
theorem witness_EncodeIsDeterministic :
    BlockOk framed ∧ BlockOk (withScratch framed) ∧ framed.abort = false ∧ (withScratch framed).abort = false ∧
    framed.cfg.handshakeLen = (withScratch framed).cfg.handshakeLen ∧ DrivesEnc framed 1 .reset ∧
    DrivesEnc (withScratch framed) 0 encScratch ∧ OwnsFrame framed frame8 ∧ OwnsFrame (withScratch framed) frame8 ∧
    SameFrame framed frame8 (withScratch framed) frame8 ∧
    (∀ i < frame8.payLen, (storedByte framed frame8.buf (frame8.payOff + i)).isSome) ∧
    (∃ t, exec (.encEncode 1 frame8) framed = .next t ∧ decide (t.mask = 0x40) = true) ∧
    (∃ t, exec (.encEncode 0 frame8) (withScratch framed) = .next t ∧ decide (t.mask = 0x40) = true) :=
  ⟨framed_ok, scratch_ok, rfl, rfl, rfl, by decide, by decide, by decide, by decide, ⟨rfl, by decide⟩, by decide,
    exists_next (by decide), exists_next (by decide)⟩

theorem witness_EncResetGivesTheScratchBack :
    BlockOk (withScratch framed) ∧ (withScratch framed).abort = false ∧ DrivesEnc (withScratch framed) 0 encScratch ∧
    encScratch.buf = some scratch2 :=
  ⟨scratch_ok, rfl, by decide, rfl⟩

theorem witness_DeadHandlesFault :
    (small.abort = false ∧ findLive small.live (slot1 8).id = none ∧ View.slice ⟨slot1 8, 0, 1, 0⟩ = slot1 8) ∧
    (findLive small.live frame8.buf.id = none ∧ DrivesEnc small 0 .reset) ∧
    (Owns holding (slot1 8) ∧ placeOf holding.cfg (slot1 8).idx ≠ .corrupt ∧
      ∃ t, exec (.poolRelease (slot1 8)) holding = .next t ∧ decide (t.mask = 0) = true) :=
  ⟨by decide, by decide, by decide, by decide, exists_next (by decide)⟩

/-- A handle that outlives a reset by a step; and one acquired and dead before it. -/
theorem witness_HandlesFromBeforeAResetStayDead :
    { holding with inbox := [.reset] }.inbox = [.reset] ∧ 0 < holding.cfg.nConn ∧
    BlockOk { resetEvent [] holding with inbox := [.command 0 (record [0x01, 8, 0, 0, 0])] } ∧
    (slot1 8).id < freshId (resetEvent [] holding) ∧ findLive (resetEvent [] holding).live (slot1 8).id = none ∧
    ∃ t, step { resetEvent [] holding with inbox := [.command 0 (record [0x01, 8, 0, 0, 0])] } = .next t ∧
      decide (t.resp = ok (.slice { slot1 8 with id := 1 })) = true :=
  ⟨rfl, by decide, blockCheck_ok (by decide), by decide, rfl, exists_next (by decide)⟩

/-- Held by another agent, by a frame, a decoder and an encoder; a frame that another agent holds, and a slice for a frame;
handles, frames and views that differ from those issued. -/
theorem witness_ForeignAndForgedHandlesFault :
    (findLive holding.live (slot1 8).id = some ⟨slot1 8, .caller 0⟩ ∧
      (⟨slot1 8, .caller 0⟩ : LiveEntry).holder ≠ .caller { holding with agent := 1 }.agent) ∧
    (findLive framed.live (slot1 8).id = some ⟨slot1 8, .frame 0 (.std hdr8) 0 8⟩ ∧
      findLive inDone.live (slot1 14).id = some ⟨slot1 14, .dec 0⟩ ∧
      findLive (withScratch framed).live scratch2.id = some ⟨scratch2, .enc 0⟩) ∧
    (DrivesEnc { framed with agent := 1 } 0 .reset ∧ ¬ HoldsFrame { framed with agent := 1 } (slot1 8).id ∧
      ¬ HoldsFrame holding (slot1 8).id) ∧
    (Owns holding (slot1 8) ∧ slot1 7 ≠ slot1 8 ∧ placeOf holding.cfg (slot1 7).idx ≠ .corrupt) ∧
    (DrivesEnc framed 0 .reset ∧ HoldsFrame framed (slot1 8).id ∧ ¬ OwnsFrame framed { frame8 with payLen := 7 }) ∧
    (¬ (slot1 7 = slot1 8 ∧ isLastView framed (.frame 0 (.std hdr8) 0 8) ⟨slot1 7, 0, 7, 0⟩ = true) ∧
      isLastView holding (.caller 0) ⟨slot1 8, 0, 8, 0⟩ = false ∧
      { scratch2 with cap := 1, len := scratch2.len } ≠ scratch2) := by
  refine ⟨by decide, by decide, ⟨by decide, ?_, ?_⟩, by decide, ⟨by decide, ⟨_, rfl, .inl ⟨_, _, _, rfl⟩⟩, by decide⟩,
    by decide⟩
  · rintro ⟨e, h, ⟨k, o, l, hw⟩ | hw⟩ <;> cases h <;> simp at hw
  · rintro ⟨e, h, ⟨k, o, l, hw⟩ | hw⟩ <;> cases h <;> simp at hw

theorem witness_SliceGivenToAFrameIsNotTheCallers :
    (Owns holding (slot1 8) ∧ ∃ t, exec (.frmFromMessage (slot1 8) 0x18 0 false) holding = .next t ∧
      decide (t.resp = ok (.frame frame8)) = true) ∧
    (Owns holding2 (slot1 2) ∧ ∃ t, exec (.frmFromHandshake (slot1 2)) holding2 = .next t ∧
      decide (t.resp = ok (.frame frameHs)) = true) :=
  ⟨⟨by decide, exists_next (by decide)⟩, by decide, exists_next (by decide)⟩

/-- Another agent's decoder and encoder; hand-overs by the driver, of one nobody drives, by another agent, and of no
connection. -/
theorem witness_SecondDriverIsARace :
    ({ small with decs := [{ DecState.reset with driver := some 1 }, .reset] }.decs[0]?
        = some { DecState.reset with driver := some 1 } ∧ 1 ≠ small.agent) ∧
    ({ small with encs := [{ EncState.reset with driver := some 1 }, .reset] }.encs[0]?
        = some { EncState.reset with driver := some 1 } ∧ 1 ≠ small.agent) ∧
    ({ small with inbox := [.handOver 1 (.decoder 0) 0] }.inbox = [.handOver 1 (.decoder 0) 0] ∧ small.abort = false) ∧
    ({ small with inbox := [.handOver 1 (.encoder 0) 0] }.inbox = [.handOver 1 (.encoder 0) 0]) ∧
    (small.decs[1]? = some .reset ∧ DecState.reset.driver = none ∧ small.encs[1]? = some .reset ∧
      EncState.reset.driver = none) ∧
    ({ DecState.reset with driver := some 1 }.driver = some 1 ∧ { EncState.reset with driver := some 1 }.driver = some 1 ∧
      1 ≠ 2) ∧
    (small.decs[2]? = none ∧ small.encs[2]? = none) := by
  decide

/-- A slice, a frame, a frame built on a damaged handle; a dead handle; and a slice that another agent holds. -/
theorem witness_HandOverMovesOwnership :
    ({ holding with inbox := [.handOver 0 (.handle (slot1 8).id) 1] }.inbox = [.handOver 0 (.handle (slot1 8).id) 1] ∧
      holding.abort = false ∧ findLive holding.live (slot1 8).id = some { slice := slot1 8, holder := .caller 0 }) ∧
    ({ framed with inbox := [.handOver 0 (.handle (slot1 8).id) 1] }.inbox = [.handOver 0 (.handle (slot1 8).id) 1] ∧
      framed.abort = false ∧ frame8.buf.id = (slot1 8).id ∧
      findLive framed.live (slot1 8).id
        = some { slice := frame8.buf, holder := .frame 0 frame8.kind frame8.payOff frame8.payLen }) ∧
    findLive [⟨slot1 8, .damagedFrame 0⟩] (slot1 8).id = some ⟨slot1 8, .damagedFrame 0⟩ ∧
    findLive small.live (slot1 8).id = none ∧
    ((⟨slot1 8, .caller 0⟩ : LiveEntry).holder ≠ .caller 1 ∧ ¬ HoldsFrame { holding with agent := 1 } (slot1 8).id) := by
  refine ⟨by decide, by decide, by decide, by decide, by decide, ?_⟩
  rintro ⟨e, h, ⟨k, o, l, hw⟩ | hw⟩ <;> cases h <;> simp at hw

theorem witness_InvariantHoldsAtReset : Config.tc2.WF := configCheck_ok (by decide)

/-- A step that stores, one that reallocates, one that encodes. -/
theorem witness_EveryStepKeepsTheInvariant :
    (BlockOk { inThree with inbox := [.command 0 (record [0x31, 0, 0, 0, 0, 1, 0, 0, 0, 8])] } ∧
      ∃ t, step { inThree with inbox := [.command 0 (record [0x31, 0, 0, 0, 0, 1, 0, 0, 0, 8])] } = .next t ∧
        decide (t.resp = ok .nothing) = true) ∧
    (BlockOk { inLong with inbox := [.command 0 (record [0x30, 0, 0, 0, 0])] } ∧
      ∃ t, step { inLong with inbox := [.command 0 (record [0x30, 0, 0, 0, 0])] } = .next t ∧
        decide (t.resp = ok (.window 6 100)) = true) :=
  ⟨⟨blockCheck_ok (by decide), exists_next (by decide)⟩, blockCheck_ok (by decide), exists_next (by decide)⟩

theorem witness_EveryStepKeepsMemoryCanonical :
    MemoryOk { inThree with inbox := [.command 0 (record [0x31, 0, 0, 0, 0, 1, 0, 0, 0, 8])] } ∧
    ∃ t, step { inThree with inbox := [.command 0 (record [0x31, 0, 0, 0, 0, 1, 0, 0, 0, 8])] } = .next t ∧
      decide (t.poolmem = cells 0 [0, 0, 0x18, 8]) = true :=
  ⟨memoryCheck_ok (by decide), exists_next (by decide)⟩

theorem witness_LiveSlicesAreApartAndFitTheSlots :
    BlockOk exhausted ∧ slotsInUse exhausted = 8 ∧ ⟨⟨0, 1, 0, 1, 64⟩, .caller 0⟩ ∈ exhausted.live ∧
    ⟨⟨7, 8, 448, 1, 64⟩, .caller 0⟩ ∈ exhausted.live ∧
    (⟨⟨0, 1, 0, 1, 64⟩, .caller 0⟩ : LiveEntry) ≠ ⟨⟨7, 8, 448, 1, 64⟩, .caller 0⟩ ∧ 1 ≠ exhausted.cfg.untracked ∧
    8 ≠ exhausted.cfg.untracked :=
  ⟨exhausted_ok, by decide, by decide, by decide, by decide, by decide, by decide⟩

theorem witness_ConfigurationNeverChanges :
    ∃ t, step { inLong with inbox := [.command 0 (record [0x30, 0, 0, 0, 0])] } = .next t ∧
      decide (t.resp = ok (.window 6 100)) = true :=
  exists_next (by decide)

/-- A state of the invariant, and a handle with a corrupt index that does stop for want of a place. -/
theorem witness_BlockNeverMisusesItsOwnMemory :
    BlockOk holding ∧ exec (.poolWr { slot1 8 with idx := 9 } 0 [1]) holding = .fault .noPlace :=
  ⟨holding_ok, rfl⟩

theorem witness_AbortComesOnlyFromADamagedHandle :
    (BlockOk holding ∧ ∃ t, exec (.poolRelease { slot1 8 with idx := 9 }) holding = .next t ∧ t.abort = true) ∧
    (BlockOk framed ∧
      ∃ t, exec (.frmDrop { frame8 with buf := { slot1 8 with idx := 255 } }) framed = .next t ∧ t.abort = true) ∧
    (BlockOk framed ∧
      ∃ t, exec (.encEncode 0 { frame8 with buf := { slot1 8 with idx := 9 } }) framed = .next t ∧ t.abort = true) :=
  ⟨⟨holding_ok, exists_next (by decide)⟩, ⟨framed_ok, exists_next (by decide)⟩, framed_ok, exists_next (by decide)⟩

/-- A `DEC` and an `ENC` operation of connection 0 beside connection 1. -/
theorem witness_ConnectionsDoNotTouchEachOther :
    (∃ t, exec (.decNextFrame 0) inDone = .next t ∧ decide (t.decs[1]? = inDone.decs[1]?) = true) ∧
    (∃ t, exec (.encEncode 0 frame8) framed = .next t ∧ decide (t.encs[1]? = framed.encs[1]?) = true) ∧
    (∀ bs m, Instr.decNextFrame 0 ≠ .decWritable 1 ∧ Instr.decNextFrame 0 ≠ .decFill 1 bs ∧
      Instr.decNextFrame 0 ≠ .decNextFrame 1 ∧ Instr.decNextFrame 0 ≠ .decSetMode 1 m ∧
      Instr.decNextFrame 0 ≠ .decReset 1 ∧ Instr.decNextFrame 0 ≠ .decStatus 1) ∧
    (∀ f, Instr.encEncode 0 frame8 ≠ .encEncode 1 f ∧ Instr.encEncode 0 frame8 ≠ .encReset 1 ∧
      Instr.encEncode 0 frame8 ≠ .encStatus 1) :=
  ⟨exists_next (by decide), exists_next (by decide), by simp, by simp⟩

theorem witness_CleanBlockHoldsNoSlot :
    BlockOk small ∧ Clean small ∧ (∀ D ∈ small.decs, D.buf = none) ∧ (∀ E ∈ small.encs, E.buf = none) :=
  ⟨small_ok, ⟨rfl, by decide, by simp [small, State.resetWith]⟩, by decide, by decide⟩

/-- B14: a round of one byte in two fills, one of no byte, one of five; the payload in a round of three and one of five; and
an empty payload, with no round and with one. -/
theorem witness_DecoderReassemblesAnyChunking :
    (BlockOk small ∧ small.abort = false ∧ DrivesDec small 0 .reset ∧ DecState.reset.phase = .ah ∧
      DecState.reset.received = 0 ∧ DecState.reset.fault = false ∧ hdr8.msgLength.toNat ≤ small.cfg.maxMsg ∧
      oneToEight.length = hdr8.msgLength.toNat ∧
      Brings [[[], [0#8]], [], [[0#8, 0x18#8, 8#8, 0#8, 0#8]]] (headerBytes hdr8) ∧
      Brings [[[1#8, 2#8], [3#8]], [[4#8, 5#8, 6#8, 7#8, 8#8]]] oneToEight) ∧
    (([] : List Byte).length = { hdr8 with msgLength := 0 }.msgLength.toNat ∧
      Brings [[[0#8, 0#8, 0x18#8, 0#8, 0#8, 0#8]]] (headerBytes { hdr8 with msgLength := 0 }) ∧
      Brings [] [] ∧ Brings [[[]]] []) ∧
    (0 < 4 ∧ 4 < 3 + max 1 2) :=
  ⟨⟨small_ok, rfl, by decide, rfl, rfl, rfl, by decide, by decide, ⟨by decide, by decide⟩, ⟨by decide, by decide⟩⟩,
    ⟨by decide, ⟨by decide, by decide⟩, ⟨by decide, by decide⟩, ⟨by decide, by decide⟩⟩, by decide⟩

/-- The frame of V-F1, encoded on connection 0 and decoded on connection 1; and a handshake frame. -/
theorem witness_RoundTripGivesTheFrameBack :
    (BlockOk framed ∧ framed.abort = false ∧ DrivesEnc framed 0 .reset ∧ DrivesDec framed 1 .reset ∧
      DecState.reset.received = 0 ∧ DecState.reset.fault = false ∧ OwnsFrame framed frame8 ∧
      (∀ i < frame8.payLen, (storedByte framed frame8.buf (frame8.payOff + i)).isSome) ∧
      frame8.kind = .std hdr8 ∧ hdr8.msgLength.toNat ≤ framed.cfg.maxMsg ∧ DecState.reset.phase = .ah ∧
      Brings [[headerBytes hdr8]] ((headerBytes hdr8 ++ oneToEight).take 6) ∧
      Brings [[oneToEight]] ((headerBytes hdr8 ++ oneToEight).drop 6)) ∧
    (BlockOk { framedHs with decs := [.reset, decHsOpen] } ∧
      DrivesDec { framedHs with decs := [.reset, decHsOpen] } 1 decHsOpen ∧ decHsOpen.phase = .ahs ∧
      OwnsFrame { framedHs with decs := [.reset, decHsOpen] } frameHs ∧ frameHs.kind = .hs ∧
      Brings [[[0xAA#8]], [[0xBB#8]]] [0xAA, 0xBB]) :=
  ⟨⟨framed_ok, rfl, by decide, by decide, rfl, rfl, by decide, by decide, rfl, by decide, rfl, ⟨by decide, by decide⟩,
      ⟨by decide, by decide⟩⟩,
    blockCheck_ok (by decide), by decide, rfl, by decide, rfl, ⟨by decide, by decide⟩⟩

end Sys2Proof.Tests
end

section
/-! The equations of a step, of an idle block and of a command that decodes (spec/00_scope.md R3; spec/30_encoding.md
R99; R261). -/

namespace Sys2Proof.Machine

/-- R261: an idle block keeps its state. -/
theorem step_of_inbox_nil {s : State} (h : s.inbox = []) : step s = .next s := by
  simp only [step, fetch, h]

/-- R3, R99: a command that decodes is run, with the input taken, by the agent that issued it. -/
theorem step_of_decode_ok {s : State} {a : Nat} {p : Packet} {rest : List Input} {i : Instr} {after : List Byte}
    (h : s.inbox = .command a p :: rest) (hd : decode s.cfg p = .ok (i, after)) :
    step s = exec i { s with inbox := rest, agent := a } := by
  simp only [step, fetch, h, hd]

/-- Settles O6, by the equations of a step for a command that decodes and for no input. -/
theorem stepRunsTheDecodedInstruction : Obligations.StepRunsTheDecodedInstruction :=
  ⟨fun _ _ _ _ _ _ => step_of_decode_ok, fun _ => step_of_inbox_nil⟩

end Sys2Proof.Machine
end

section
/-! The invariant of a block in which nothing is in use: no live handle, no heap buffer, no slot taken, and every
decoder and encoder at its reset value (spec/00_scope.md R12; spec/10_state.md R28, R39, R41). -/

namespace Sys2Proof.Machine

/-- R22: a zero `MASK` has no slot checked out. -/
@[simp] theorem slotTaken_zero (k : Nat) : slotTaken 0#8 k = false := by simp [slotTaken]

/-- R39: with no slot taken, no live slice and no heap buffer, `MASK` records that nobody holds a slot. -/
theorem poolOk_of_unused {s : State} (hm : s.mask = 0) (hl : s.live = []) (hh : s.heap = []) : PoolOk s := by
  constructor <;> simp [hm, hl, hh]

/-- R28(d): with nothing live, it is enough that no decoder and no encoder has a buffer. -/
theorem holdersOk_of_no_buffer {s : State} (hl : s.live = []) (hd : ∀ D ∈ s.decs, D.buf = none)
    (he : ∀ E ∈ s.encs, E.buf = none) : HoldersOk s := by
  refine holdersOk_iff.2 ⟨fun c D b hD hb => ?_, fun c E b hE hb => ?_, by simp [hl]⟩
  · simp [hd D (List.mem_of_getElem? hD)] at hb
  · simp [he E (List.mem_of_getElem? hE)] at hb

/-- R28: a decoder at reset waits for the whole header and holds nothing. -/
theorem decoderOk_reset (s : State) : DecoderOk s .reset := by
  constructor <;> simp [DecState.reset, target]

/-- R30: an encoder at reset has no output. -/
theorem encoderOk_reset : EncoderOk .reset := by
  constructor <;> simp [EncState.reset]

/-- R41: the reset state of a well-formed configuration meets the invariant of the block. -/
theorem resetWith_blockOk {c : Config} (hc : c.WF) : BlockOk (State.resetWith c) where
  cfg := hc
  decs := List.length_replicate
  encs := List.length_replicate
  memory := resetWith_memoryOk c
  pool := poolOk_of_unused rfl rfl rfl
  holders := holdersOk_of_no_buffer rfl (fun _ hD => List.eq_of_mem_replicate hD ▸ rfl)
    fun _ hE => List.eq_of_mem_replicate hE ▸ rfl
  decoders _ hD := List.eq_of_mem_replicate hD ▸ decoderOk_reset _
  encoders _ hE := List.eq_of_mem_replicate hE ▸ encoderOk_reset

/-- The test configuration TC meets the constraints of R12. -/
theorem tc_wf : Config.tc.WF := configCheck_ok (by decide)

/-- Settles O49: `State.reset` is the reset state of TC, so both follow from the reset state of any well-formed
configuration. -/
theorem invariantHoldsAtReset : Obligations.InvariantHoldsAtReset :=
  ⟨tc_wf, resetWith_blockOk tc_wf, fun _ => resetWith_blockOk⟩

end Sys2Proof.Machine
end

section
/-! A property of states that every shared operation keeps is kept by every operation and every step: `Stable` names the
shared operations once, and `Stable.exec` and `Stable.step` go through the instructions and inputs once. -/

namespace Sys2Proof.Machine

/-- A property that every shared operation keeps, but for the replacement of a decoder: of that, the operation in hand
says which ones it makes (`FlagMove`). -/
structure Stable (P : State → Prop) : Prop where
  ends : ∀ s a r, P s → P { s with abort := a, resp := r }
  free : ∀ s n, P s → P { s with free := n }
  enc : ∀ s c E, P s → P (setEnc c E s)
  holder : ∀ s id who, P s → P (setHolder id who s)
  length : ∀ s id n, P s → P (setSliceLen id n s)
  store : ∀ s h off bs, P s → P (storeBytes h off bs s)
  acquire : ∀ s len who, P s → P (acquire len who s).2
  release : ∀ s t h, P s → release h s = .ok () t → P t

/-- R32, R191: what an operation may make of the fault flag of a decoder it replaces: it stays, but that
`DEC.NEXT_FRAME` may set it and `DEC.RESET` clears it. -/
def FlagMove (i : Instr) (c : Nat) (D D' : DecState) : Prop :=
  D'.fault = D.fault ∨ (i = .decNextFrame c ∧ D'.fault = true) ∨ (i = .decReset c ∧ D'.fault = false)

/-- The operation `i`, in state `s`, replaces decoders within `P`. -/
def KeepsDecs (P : State → Prop) (i : Instr) (s : State) : Prop :=
  ∀ c D D' u, s.decs[c]? = some D → FlagMove i c D D' → P u → P (setDec c D' u)

/-- The state after a hand-over has a property that the hand-over keeps and that the response does not touch. -/
theorem Keeps.event {P : State → Prop} {t : State} {r : Res Unit} (hr : ∀ u x, P u → P { u with resp := x })
    (ha : ∀ u, P u → P (takeAbort u)) (h : Keeps P r) (hx : concludeEvent r = .next t) : P t := by
  cases r with
  | ok a u => cases hx; exact hr _ _ (h.1 a u rfl)
  | abort u => cases hx; exact ha _ (h.2 u rfl)
  | fault f => cases hx

/-- `POOL.RD` keeps a property that the response and the count of free values do not touch (R132, U1). -/
theorem Keeps.execPoolRd {P : State → Prop} {s t : State} {r : Readable} {off n : Nat}
    (hr : ∀ u x, P u → P { u with resp := x }) (ha : ∀ u, P u → P (takeAbort u))
    (hfree : ∀ u m, P u → P { u with free := m }) (h : P s) (hx : Machine.execPoolRd r off n s = .next t) : P t := by
  refine Keeps.next hr ha ?_ hx
  have hread : ∀ x o u, P u → Keeps P ((Machine.memRead x o n u).bind fun bs s => answer .ok (.bytes bs) s) :=
    fun x o u hu => (Keeps.memRead (fun m => hfree u m hu) x o n).bind fun _ _ h => Keeps.ok h
  cases r with
  | slice x =>
    refine (Keeps.useSlice h x).bind fun _ u hu => ?_
    split
    · exact hread _ _ _ hu
    · exact Keeps.ok hu
  | view v =>
    refine (Keeps.useView h v).bind fun kind u hu => ?_
    split
    · cases kind with
      | fresh => exact hread _ _ _ hu
      | stale => exact Keeps.ok (hfree _ _ hu)
    · exact Keeps.ok hu

namespace Stable

variable {P : State → Prop} {s : State}

theorem answered (hP : Stable P) (u : State) (r : Option Response) (h : P u) : P { u with resp := r } :=
  hP.ends u u.abort r h

theorem aborted (hP : Stable P) (u : State) (h : P u) : P (takeAbort u) := hP.ends u true none h

/-- An operation keeps a stable property where its own part does. -/
theorem next (hP : Stable P) {t : State} {k : State → Res Response} (hx : unlessAborted s k = .next t)
    (hk : Keeps P (k s)) : P t := Keeps.next hP.answered hP.aborted hk hx

theorem giveToFrame (hP : Stable P) (h : P s) (kind : FrameKind) (b : Slice) (off len : Nat) :
    Keeps P (Machine.giveToFrame kind b off len s) := Keeps.ok (hP.holder _ _ _ h)

theorem memRead (hP : Stable P) (h : P s) (x : Slice) (off n : Nat) : Keeps P (Machine.memRead x off n s) :=
  Keeps.memRead (fun _ => hP.free _ _ h) x off n

theorem readPayload (hP : Stable P) (h : P s) (f : Frame) (off n : Nat) : Keeps P (Machine.readPayload f off n s) :=
  Keeps.readPayload (fun _ => hP.free _ _ h) f off n

theorem memWrite (hP : Stable P) (h : P s) (x : Slice) (off : Nat) (bs : List Byte) :
    Keeps P (Machine.memWrite x off bs s) := Keeps.memWrite x off bs (hP.store _ _ _ _ h)

theorem releaseSlice (hP : Stable P) (h : P s) (x : Slice) : Keeps P (Machine.release x s) :=
  Keeps.release x h fun _ => hP.release _ _ _ h

theorem releaseHeld (hP : Stable P) (h : P s) (b : Option Slice) : Keeps P (Machine.releaseHeld b s) :=
  Keeps.releaseHeld b h fun _ _ => hP.release _ _ _ h

/-- A new scratch buffer of an encoder (R210). -/
theorem newScratch (hP : Stable P) (h : P s) (c need : Nat) (E : EncState) :
    Keeps P (Res.ok (Machine.acquire need (.enc c) s).1 (setEnc c E (Machine.acquire need (.enc c) s).2)) :=
  Keeps.ok (hP.enc _ _ _ (hP.acquire _ _ _ h))

theorem scratch (hP : Stable P) (h : P s) (c need : Nat) (E : EncState) : Keeps P (Machine.scratch c need E s) := by
  unfold Machine.scratch
  split
  · exact hP.newScratch h _ _ _
  · split
    · exact Keeps.ok (hP.enc _ _ _ (hP.length _ _ _ h))
    · exact (hP.releaseSlice h _).bind fun _ _ h => hP.newScratch h _ _ _

theorem writeFrame (hP : Stable P) (h : P s) (b : Slice) (f : Frame) : Keeps P (Machine.writeFrame b f s) := by
  unfold Machine.writeFrame
  split
  · exact (hP.memWrite h _ _ _).bind fun _ _ h => (hP.readPayload h _ _ _).bind fun _ _ h => hP.memWrite h _ _ _
  · exact (hP.readPayload h _ _ _).bind fun _ _ h => hP.memWrite h _ _ _

/-- The reallocation of `DEC.WRITABLE`, in a state of which the decoder is replaced within `P`. -/
theorem reallocate (hP : Stable P) (h : P s) {c : Nat} {D : DecState}
    (hset : ∀ b u, P u → P (setDec c { D with buf := b } u)) (b : Slice) : Keeps P (Machine.reallocate c D b s) :=
  (hP.memRead (hP.acquire _ _ _ h) _ _ _).bind fun _ _ h => (hP.memWrite h _ _ _).bind fun _ _ h =>
    (hP.releaseSlice h _).bind fun _ _ h => Keeps.ok (hset _ _ h)

/-- The operation's connection is claimed, and it goes on with the decoder claimed, which it may replace by any decoder
within `FlagMove`. -/
theorem withDec {i : Instr} (hi : KeepsDecs P i s) (h : P s) {c : Nat}
    {k : DecState → State → Res Response}
    (hk : ∀ D t, (∀ D' u, FlagMove i c D D' → P u → P (setDec c D' u)) → P t → Keeps P (k D t)) :
    Keeps P (Machine.withDec c s k) :=
  Keeps.withDec h fun D hD => hk _ _ (fun D' u hf hu => hi c D D' u hD.1 hf hu) (hi c D _ s hD.1 (.inl rfl) h)

/-- R190's header parse, which may raise the flag (R191). -/
theorem parsePhase (h : P s) {c : Nat} {D : DecState}
    (hset : ∀ D' u, FlagMove (.decNextFrame c) c D D' → P u → P (setDec c D' u)) (bs : List Byte) :
    Keeps P (Machine.parsePhase c D bs s) := by
  unfold Machine.parsePhase
  split
  · exact Keeps.ok h
  · split
    · exact Keeps.ok (hset _ _ (.inr (.inl ⟨rfl, rfl⟩)) h)
    · exact Keeps.ok (hset _ _ (.inl rfl) h)

/-- Every operation keeps a stable property, where it replaces decoders within it. -/
theorem exec (hP : Stable P) {i : Instr} {t : State} (hi : KeepsDecs P i s) (h : P s)
    (hx : Machine.exec i s = .next t) : P t := by
  cases i <;> dsimp only [Machine.exec] at hx
  case poolAcquire len => exact hP.next hx (Keeps.ok (hP.acquire _ _ _ h))
  case poolRelease x =>
    exact hP.next hx ((Keeps.useSlice h x).bind fun _ _ h => (hP.releaseSlice h x).bind fun _ _ h => Keeps.ok h)
  case poolWr x off bs =>
    refine hP.next hx ((Keeps.useSlice h x).bind fun _ _ h => ?_)
    split
    · exact (hP.memWrite h _ _ _).bind fun _ _ h => Keeps.ok h
    · exact Keeps.ok h
  case poolRd r off n => exact Keeps.execPoolRd hP.answered hP.aborted hP.free h hx
  case poolStatus | hdrSerialize | hdrChid | hdrMsgtype | hdrMsglen | wireHeader => exact hP.next hx (Keeps.ok h)
  case hdrParse bs => exact hP.next hx (by split <;> exact Keeps.ok h)
  case hdrBuild e ty len => exact hP.next hx (by split <;> exact Keeps.ok h)
  case frmFromMessage p ty e flag =>
    refine hP.next hx ((Keeps.useSlice h p).bind fun _ _ h => ?_)
    split
    · exact Keeps.ok h
    · exact hP.giveToFrame h _ _ _ _
  case frmHeader f => exact hP.next hx ((Keeps.useFrame h f).bind fun _ _ h => by split <;> exact Keeps.ok h)
  case frmPayload f => exact hP.next hx ((Keeps.useFrame h f).bind fun _ _ h => Keeps.ok h)
  case frmEncodedLength f => exact hP.next hx ((Keeps.useFrame h f).bind fun _ _ h => Keeps.ok h)
  case frmFromHandshake p =>
    refine hP.next hx ((Keeps.useSlice h p).bind fun _ _ h => ?_)
    split
    · exact hP.giveToFrame h _ _ _ _
    · exact Keeps.ok h
  case frmDrop f =>
    exact hP.next hx ((Keeps.useFrame h f).bind fun _ _ h => (hP.releaseSlice h _).bind fun _ _ h => Keeps.ok h)
  case decWritable c =>
    refine hP.next hx (withDec hi h fun D u hset h => Keeps.unlessFaulted h fun _ => ?_)
    have hbuf : ∀ b u, P u → P (setDec c { D with buf := b } u) := fun b u => hset _ u (.inl rfl)
    split
    · exact Keeps.ok (hbuf _ _ (hP.acquire _ _ _ h))
    · split
      · split
        · exact Keeps.ok (hbuf _ _ (hP.length _ _ _ h))
        · exact hP.reallocate h hbuf _
      · exact Keeps.ok h
  case decFill c bs =>
    refine hP.next hx (withDec hi h fun D u hset h => Keeps.unlessFaulted h fun _ => ?_)
    split
    · exact Keeps.ok h
    · split
      · exact (hP.memWrite h _ _ _).bind fun _ u h => Keeps.ok (hset _ _ (.inl rfl) h)
      · exact Keeps.ok h
  case decNextFrame c =>
    refine hP.next hx (withDec hi h fun D u hset h => ?_)
    split
    · exact Keeps.ok h
    · split
      · exact Keeps.ok h
      · split
        · exact Keeps.fault
        · split
          · exact (hP.memRead h _ _ _).bind fun bs u h => parsePhase h hset bs
          · exact hP.giveToFrame (hset _ _ (.inl (by rfl)) (hP.free _ _ h)) _ _ _ _
          · exact hP.giveToFrame (hset _ _ (.inl (by rfl)) h) _ _ _ _
  case decSetMode c m =>
    refine hP.next hx (withDec hi h fun D u hset h => Keeps.unlessFaulted h fun _ => ?_)
    split
    · exact Keeps.ok h
    · exact (hP.releaseHeld h _).bind fun _ _ h => Keeps.ok (hset _ _ (.inl rfl) h)
  case decReset c =>
    exact hP.next hx (withDec hi h fun D u hset h => (hP.releaseHeld h _).bind fun _ _ h =>
      Keeps.ok (hset _ _ (.inr (.inr ⟨rfl, rfl⟩)) (hP.free _ _ h)))
  case decStatus c => exact hP.next hx (withDec hi h fun D u hset h => Keeps.ok h)
  case encEncode c f =>
    exact hP.next hx (Keeps.withEnc h fun E _ => (Keeps.useFrame (hP.enc _ _ _ h) f).bind fun _ _ h =>
      (hP.scratch h _ _ _).bind fun _ _ h => (hP.writeFrame h _ _).bind fun _ _ h =>
      (hP.releaseSlice h _).bind fun _ _ h => Keeps.ok (hP.enc _ _ _ h))
  case encReset c =>
    exact hP.next hx (Keeps.withEnc h fun E _ => (hP.releaseHeld (hP.enc _ _ _ h) _).bind fun _ _ h =>
      Keeps.ok (hP.enc _ _ _ h))
  case encStatus c => exact hP.next hx (Keeps.withEnc h fun E _ => Keeps.ok (hP.enc _ _ _ h))

/-- A hand-over keeps a stable property that every replacement of a decoder keeps. -/
theorem handOver (hP : Stable P) (hset : ∀ u c D, P u → P (setDec c D u)) (h : P s) (a : Nat) (item : Item) (r : Nat) :
    Keeps P (Machine.handOver a item r s) := by
  rcases handOver_cases a item r s with ⟨f, e⟩ | ⟨id, x, -, -, -, e⟩ | ⟨id, x, k, off, len, -, -, -, e⟩ |
    ⟨id, x, -, -, -, e⟩ | ⟨c, D, -, -, -, e⟩ | ⟨c, E, -, -, -, e⟩ <;> rw [e]
  · exact Keeps.fault
  · exact Keeps.ok (hP.holder _ _ _ h)
  · exact Keeps.ok (hP.holder _ _ _ h)
  · exact Keeps.ok (hP.holder _ _ _ h)
  · exact Keeps.ok (hset _ _ _ h)
  · exact Keeps.ok (hP.enc _ _ _ h)

/-- Every step keeps a stable property that every replacement of a decoder, the taking of an input, and a reset keep. -/
theorem step (hP : Stable P) (hset : ∀ u c D, P u → P (setDec c D u))
    (htake : ∀ u a rest, P u → P { u with inbox := rest, agent := a })
    (hreset : ∀ u rest, P u → P (resetEvent rest u)) {t : State} (h : P s) (hx : Machine.step s = .next t) : P t := by
  rcases step_cases s with ⟨-, e⟩ | ⟨rest, -, e⟩ | ⟨a, item, r, rest, -, e⟩ | ⟨a, p, rest, i, after, -, -, e⟩ |
    ⟨a, p, rest, x, -, -, e⟩ <;> rw [e] at hx
  · cases hx; exact h
  · cases hx; exact hreset _ _ h
  · split at hx
    · cases hx
    · exact Keeps.event hP.answered hP.aborted (hP.handOver hset (htake s s.agent rest h) a item r) hx
  · exact hP.exec (fun c _ D' u _ _ hu => hset u c D' hu) (htake _ _ _ h) hx
  · exact hP.next (k := refuse) hx (Keeps.ok (htake _ _ _ h))

end Stable

end Sys2Proof.Machine
end

section
/-! What every step keeps in memory and in the configuration. -/

namespace Sys2Proof.Machine

/-- R23, R24: every shared operation keeps memory in canonical form. -/
theorem memoryOk_stable : Stable MemoryOk where
  ends _ _ _ h := h.congr rfl rfl rfl rfl
  free _ _ h := h.congr rfl rfl rfl rfl
  enc _ _ _ h := h.congr rfl rfl rfl rfl
  holder _ _ _ h := h.congr rfl rfl rfl rfl
  length _ _ _ h := h.congr rfl rfl rfl rfl
  store _ x off bs h := storeBytes_memoryOk h x off bs
  acquire _ len who h := acquire_memoryOk h len who
  release _ _ _ h hr := release_memoryOk h hr

/-- After a reset memory lists nothing, so the ids drawn before do not matter. -/
theorem resetEvent_memoryOk (rest : List Input) (s : State) : MemoryOk (resetEvent rest s) := by
  constructor <;> simp [resetEvent, State.resetWith, Memory.wf]

/-- Settles O51: canonical memory is a stable property, and reset memory is canonical. -/
theorem everyStepKeepsMemoryCanonical : Obligations.EveryStepKeepsMemoryCanonical :=
  fun _ _ => memoryOk_stable.step (fun _ _ _ h => h.congr rfl rfl rfl rfl) (fun _ _ _ h => h.congr rfl rfl rfl rfl)
    fun u rest _ => resetEvent_memoryOk rest u

/-- R21: no shared operation writes the configuration. -/
theorem cfg_stable (c : Config) : Stable fun s => s.cfg = c where
  ends _ _ _ h := h
  free _ _ h := h
  enc _ _ _ h := h
  holder _ _ _ h := h
  length _ _ _ h := h
  store _ _ _ _ h := (storeBytes_cfg ..).trans h
  acquire _ _ _ h := (acquire_cfg ..).trans h
  release _ _ _ h hr := by
    obtain ⟨-, -, -, -, -, -, -, hc, -⟩ := release_frame hr
    exact hc.trans h

/-- Settles O53: having the configuration `s.cfg` is a stable property, and a reset keeps the configuration. -/
theorem configurationNeverChanges : Obligations.ConfigurationNeverChanges :=
  fun s _ => (cfg_stable s.cfg).step (fun _ _ _ h => h) (fun _ _ _ h => h) (fun _ _ h => h) rfl

end Sys2Proof.Machine
end

section
/-! Every operation keeps the invariant of the block (spec/10_state.md R28, R30, R39): each operand check hands on what
it has checked, and each part of an operation keeps the invariant on such operands. -/

namespace Sys2Proof.Machine

/-! ### What the checks on operands hand on -/

/-- A slice that an operation may write through and release: one that an agent or a frame holds, as issued, or one whose
index is corrupt, which names no memory (R129). -/
def Releasable (s : State) (x : Slice) : Prop :=
  (∃ who, (⟨x, who⟩ : LiveEntry) ∈ s.live ∧ (∀ c, who ≠ .dec c) ∧ ∀ c, who ≠ .enc c) ∨ placeOf s.cfg x.idx = .corrupt

theorem Releasable.of_owns {s : State} {x : Slice} (h : Owns s x) : Releasable s x :=
  .inl ⟨_, (findLive_some h).1, by simp, by simp⟩

theorem Releasable.of_operand {s : State} {x g : Slice} (ho : Owns s g)
    (hx : x = g ∨ placeOf s.cfg x.idx = .corrupt) : Releasable s x :=
  hx.elim (fun h => .of_owns (h ▸ ho)) .inr

theorem Releasable.of_ownsFrame {s : State} {f : Frame} (h : OwnsFrame s f) : Releasable s f.buf :=
  .inl ⟨_, (findLive_some h).1, by simp, by simp⟩

/-- A Slice operand that passes is the agent's own, as issued or with a corrupt index. -/
theorem Keeps.useSlice_bind {P : State → Prop} {s : State} {x : Slice} {k : Unit → State → Res Response}
    (hk : ∀ g, Owns s g → x.id = g.id → (x = g ∨ placeOf s.cfg x.idx = .corrupt) → Keeps P (k () s)) :
    Keeps P ((Machine.useSlice x s).bind k) := by
  rcases useSlice_cases x s with ⟨f, e, -⟩ | ⟨e, ho⟩ | ⟨e, hp, g, ho, hid⟩ <;> rw [e]
  · exact Keeps.fault
  · exact hk x ho rfl (.inl rfl)
  · exact hk g ho hid.symm (.inr hp)

/-- A Frame operand that passes is the agent's own, as issued or over a buffer with a corrupt index. -/
theorem Keeps.useFrame_bind {P : State → Prop} {s : State} {f : Frame} {k : Unit → State → Res Response}
    (hk : OwnsFrame s f ∨ placeOf s.cfg f.buf.idx = .corrupt → Keeps P (k () s)) :
    Keeps P ((Machine.useFrame f s).bind k) := by
  rcases useFrame_cases f s with ⟨x, e, -⟩ | ⟨e, ho⟩ | ⟨e, hp, -⟩ <;> rw [e]
  · exact Keeps.fault
  · exact hk (.inl ho)
  · exact hk (.inr hp)

/-- The decoder an operation goes on with is the one of the state it goes on in. -/
theorem BlockOk.keeps_withDec {s : State} (hs : BlockOk s) {c : Nat} {k : DecState → State → Res Response}
    (hk : ∀ D t, BlockOk t → t.decs[c]? = some D → Keeps BlockOk (k D t)) : Keeps BlockOk (Machine.withDec c s k) :=
  Keeps.withDec hs fun _ hD => hk _ _ (hs.claimDec hD.1) (getElem?_set_same hD.1)

/-- The encoder an operation goes on with is the one of the state it goes on in. -/
theorem BlockOk.keeps_withEnc {s : State} (hs : BlockOk s) {c : Nat} {k : EncState → State → Res Response}
    (hk : ∀ E t, BlockOk t → t.encs[c]? = some E → Keeps BlockOk (k E t)) : Keeps BlockOk (Machine.withEnc c s k) :=
  Keeps.withEnc hs fun _ hE => hk _ _ (hs.claimEnc hE.1) (getElem?_set_same hE.1)

/-! ### Parts of operations -/

theorem BlockOk.counted {s : State} (hs : BlockOk s) (n : Nat) : BlockOk { s with free := n } :=
  hs.congr rfl rfl rfl rfl rfl rfl rfl rfl rfl

theorem BlockOk.answered {s : State} (hs : BlockOk s) (r : Option Response) : BlockOk { s with resp := r } :=
  hs.congr rfl rfl rfl rfl rfl rfl rfl rfl rfl

theorem BlockOk.aborted {s : State} (hs : BlockOk s) : BlockOk (takeAbort s) :=
  hs.congr rfl rfl rfl rfl rfl rfl rfl rfl rfl

/-- An operation keeps the invariant where its own part does. -/
theorem BlockOk.next {s t : State} {k : State → Res Response} (hx : unlessAborted s k = .next t)
    (hk : Keeps BlockOk (k s)) : BlockOk t :=
  Keeps.next (fun _ r hu => BlockOk.answered hu r) (fun _ hu => BlockOk.aborted hu) hk hx

/-- A write inside a slice that no decoder or encoder holds. -/
theorem BlockOk.keeps_memWrite {s : State} (hs : BlockOk s) {x : Slice} (hx : Releasable s x) {off : Nat}
    {bs : List Byte} (hn : off + bs.length ≤ x.len) : Keeps BlockOk (Machine.memWrite x off bs s) := by
  refine Keeps.memWrite x off bs ?_
  rcases hx with ⟨who, he, hd, -⟩ | hp
  · exact hs.store he hd hn
  · simpa only [storeBytes, hp] using hs

/-- A release of a slice that no decoder or encoder holds; of a corrupt index, it is the abort. -/
theorem BlockOk.keeps_release {s : State} (hs : BlockOk s) {x : Slice} (hx : Releasable s x)
    {k : Unit → State → Res Response}
    (hk : ∀ t, Machine.release x s = .ok () t → BlockOk t → Keeps BlockOk (k () t)) :
    Keeps BlockOk ((Machine.release x s).bind k) := by
  rcases hx with ⟨who, he, hd, hn⟩ | hp
  · obtain ⟨t, ht⟩ := release_of_live hs.pool he
    rw [ht]
    exact hk t ht (hs.release he hd hn ht)
  · rcases release_cases x s with ⟨-, e⟩ | ⟨-, ⟨h, -⟩ | ⟨h, -⟩ | ⟨-, e⟩⟩
    · rw [e]; exact Keeps.fault
    · simp [hp] at h
    · simp [hp] at h
    · rw [e]; exact Keeps.abort hs

/-- A frame built on a Slice operand that passed (R161, R168). -/
theorem BlockOk.keeps_giveToFrame {s : State} (hs : BlockOk s) {x g : Slice} (ho : Owns s g) (hid : x.id = g.id)
    {kind : FrameKind} {len : Nat} (hf : FrameShapeOk s.cfg x kind 0 len) :
    Keeps BlockOk (giveToFrame kind x 0 len s) :=
  Keeps.ok (hs.giveCaller (findLive_some ho).1 rfl hid fun _ => hf)

/-- A decoder without a buffer, between units and so in no payload, meets its invariants. -/
theorem decoderOk_of_no_buffer {s : State} {D : DecState} (hb : D.buf = none) (hr : D.received = 0)
    (hm : D.missing = target s.cfg D) (hp : D.phase ≠ .ap) (hmode : D.mode = .hs ↔ D.phase = .ahs) : DecoderOk s D where
  mode := hmode
  count := by rw [hr, hm, Nat.zero_add]
  empty _ := hr
  within b h := by simp [hb] at h
  ap h := absurd h hp
  given b h := by simp [hb] at h
  kept h := absurd h hp

/-- What a decoder holds is given back, and the decoder has no buffer any more (R224, R226). -/
theorem BlockOk.releaseHeld_dec {s : State} (hs : BlockOk s) {c : Nat} {D : DecState} (hD : s.decs[c]? = some D) :
    ∃ u, releaseHeld D.buf s = .ok () u ∧ u.cfg = s.cfg ∧
      ∀ D', D'.buf = none → DecoderOk s D' → BlockOk (Machine.setDec c D' u) := by
  cases hb : D.buf with
  | none => exact ⟨s, rfl, rfl, fun D' hn hok => hs.setDec hD (hn.trans hb.symm) hok⟩
  | some b =>
    obtain ⟨u, hu⟩ := release_of_live hs.pool (hs.decBuf hD hb)
    obtain ⟨-, -, -, -, -, -, -, hc, -⟩ := release_frame hu
    exact ⟨u, hu, hc, fun D' hn hok => hs.releaseDec hD hb hu hn hok⟩

/-- What an encoder holds is given back, and the encoder has no buffer any more (R230). -/
theorem BlockOk.releaseHeld_enc {s : State} (hs : BlockOk s) {c : Nat} {E : EncState} (hE : s.encs[c]? = some E) :
    ∃ u, releaseHeld E.buf s = .ok () u ∧
      ∀ E', E'.buf = none → EncoderOk E' → BlockOk (Machine.setEnc c E' u) := by
  cases hb : E.buf with
  | none => exact ⟨s, rfl, fun E' hn hok => hs.setEnc hE (hn.trans hb.symm) hok⟩
  | some b =>
    obtain ⟨u, hu⟩ := release_of_live hs.pool (hs.encBuf hE hb)
    exact ⟨u, hu, fun E' hn hok => hs.releaseEnc hE hb hu hn hok⟩

/-! ### The decoder's own data -/

/-- R28 says nothing of the fault flag and the driver. -/
theorem DecoderOk.flagged {s : State} {D : DecState} (h : DecoderOk s D) (b : Bool) (who : Option Nat) :
    DecoderOk s { D with fault := b, driver := who } := by
  obtain ⟨hmode, hcount, hempty, hwithin, hap, hgiven, hkept⟩ := h
  exact ⟨hmode, hcount, hempty, hwithin, hap, hgiven, hkept⟩

/-- R92: the six bytes that a header was read from are the bytes of that header. -/
theorem headerBytes_of_headerOfBytes {bs : List Byte} {h : Header} (hh : headerOfBytes bs = some h) :
    headerBytes h = bs.take headerSize := by
  match bs, hh with
  | b0 :: b1 :: b2 :: b3 :: b4 :: b5 :: rest, hh =>
    cases hh
    simp only [headerBytes, headerSize, List.take_succ_cons, List.take_zero, List.cons.injEq, and_true]
    refine ⟨?_, ?_, trivial, ?_, ?_, ?_⟩ <;> apply BitVec.eq_of_toNat_eq <;> simp [Nat.shiftRight_eq_div_pow] <;> omega

/-- R186: the next bytes of a unit, stored after those received, are received. -/
theorem BlockOk.decoderOk_fill {s : State} (hs : BlockOk s) {c : Nat} {D : DecState} {b : Slice}
    (hD : s.decs[c]? = some D) (hb : D.buf = some b) {bs : List Byte} (hl : b.len = target s.cfg D)
    (hn : bs.length ≤ D.missing) :
    DecoderOk (storeBytes b D.received bs s)
      { D with received := D.received + bs.length, missing := D.missing - bs.length } := by
  have hst := storedByte_storeBytes_self hs.memory hs.pool (hs.decBuf hD hb) D.received bs
  simp only at hst
  obtain ⟨hmode, hcount, -, -, hap, hgiven, hkept⟩ := hs.decOk hD
  have ht : ∀ m r x, target s.cfg { D with missing := m, received := r, buf := x } = target s.cfg D :=
    fun _ _ _ => rfl
  refine ⟨hmode, ?_, ?_, ?_, fun hp => ?_, ?_, fun hp => ?_⟩ <;> simp only [hb, storeBytes_cfg, ht, Option.some.injEq,
    forall_eq', reduceCtorEq, false_implies]
  · omega
  · omega
  · obtain ⟨h6, -, hmax⟩ := hap hp
    exact ⟨by omega, rfl, hmax⟩
  · intro i hi
    rw [hst]
    split
    · simp; omega
    · exact hgiven b hb i (by omega)
  · intro i hi
    rw [hst, if_neg (by have := (hap hp).1; omega)]
    exact hkept hp b hb i hi

/-- R29: a decoder that awaits a header and misses nothing has received the six bytes. -/
theorem DecoderOk.received_header {s : State} {D : DecState} (h : DecoderOk s D) (hp : D.phase = .ah)
    (hm : D.missing = 0) : D.received = headerSize := by simpa [target, hp, hm] using h.count

/-- R190: the six bytes received are those of the header that they are read as. -/
theorem BlockOk.stored_header {s : State} (hs : BlockOk s) {c : Nat} {D : DecState} {b : Slice} {h : Header}
    (hD : s.decs[c]? = some D) (hb : D.buf = some b) (hp : D.phase = .ah) (hm : D.missing = 0)
    (hh : headerOfBytes (bytesAt s b 0 headerSize) = some h) :
    ∀ k < headerSize, storedByte s b k = (headerBytes h)[k]? := by
  intro k hk
  have hok := hs.decOk hD
  have hgiven := hok.received_header hp hm ▸ hok.given b hb
  rw [headerBytes_of_headerOfBytes hh, List.take_of_length_le (by simp),
    bytesAt_stored (fun j hj => by simpa using hgiven j hj) hk, Nat.zero_add]

/-- R190: a header that fits the maximum, its payload awaited. -/
theorem BlockOk.decoderOk_parsed {s : State} (hs : BlockOk s) {c : Nat} {D : DecState} {b : Slice} {h : Header}
    (hD : s.decs[c]? = some D) (hb : D.buf = some b) (hp : D.phase = .ah) (hm : D.missing = 0)
    (hh : headerOfBytes (bytesAt s b 0 headerSize) = some h) (hmax : h.msgLength.toNat ≤ s.cfg.maxMsg) :
    DecoderOk s { D with hdr := h, phase := .ap, missing := h.msgLength.toNat } := by
  have hok := hs.decOk hD
  have hr := hok.received_header hp hm
  refine ⟨by simp [hok.mode, hp], ?_, ?_, ?_, fun _ => ?_, hok.given, fun _ => ?_⟩ <;>
    simp only [hb, hr, target, Option.some.injEq, forall_eq', reduceCtorEq, false_implies]
  · have := hok.within b hb
    simp only [target, hp, hr] at this
    omega
  · exact ⟨le_rfl, rfl, hmax⟩
  · exact hs.stored_header hD hb hp hm hh

/-! ### The operations -/

theorem BlockOk.keeps_execPoolWr {s t : State} (hs : BlockOk s) {x : Slice} {off : Nat} {bs : List Byte}
    (hx : execPoolWr x off bs s = .next t) : BlockOk t := by
  refine BlockOk.next hx (Keeps.useSlice_bind fun g ho _ hg => ?_)
  split
  · exact (hs.keeps_memWrite (.of_operand ho hg) ‹_›).bind fun _ _ hs => Keeps.ok hs
  · exact Keeps.ok hs

/-- R161: the length of a slice that is not above the maximum fits the header's length field. -/
theorem BlockOk.keeps_execFrmFromMessage {s t : State} (hs : BlockOk s) {p : Slice} {ty : BitVec 8} {e : BitVec 16}
    {flag : Bool} (hx : execFrmFromMessage p ty e flag s = .next t) : BlockOk t := by
  refine BlockOk.next hx (Keeps.useSlice_bind fun g ho hid _ => ?_)
  split
  · exact Keeps.ok hs
  · rename_i hlen
    have hmax := hs.cfg.maxMsg
    refine hs.keeps_giveToFrame ho hid ⟨by omega, ?_, .inl rfl⟩
    simp only [lengthFieldMax] at hmax
    rw [BitVec.toNat_ofNat, Nat.mod_eq_of_lt (by omega)]

theorem BlockOk.keeps_execFrmFromHandshake {s t : State} (hs : BlockOk s) {p : Slice}
    (hx : execFrmFromHandshake p s = .next t) : BlockOk t := by
  refine BlockOk.next hx (Keeps.useSlice_bind fun g ho hid _ => ?_)
  split
  · rename_i hlen
    exact hs.keeps_giveToFrame ho hid ⟨by omega, rfl, rfl⟩
  · exact Keeps.ok hs

/-- R184: a buffer acquired, lengthened in place, or reallocated. -/
theorem BlockOk.keeps_execDecWritable {s t : State} (hs : BlockOk s) {c : Nat} (hx : execDecWritable c s = .next t) :
    BlockOk t := by
  refine BlockOk.next hx (hs.keeps_withDec fun D u hs hD => Keeps.unlessFaulted hs fun _ => ?_)
  split
  · exact Keeps.ok (hs.acquireDec hD ‹_› le_rfl)
  · rename_i b hb
    split
    · rename_i hlt
      split
      · exact Keeps.ok (hs.lengthenDec hD hb (le_of_lt hlt) le_rfl ‹_›)
      · obtain ⟨v, e, hv, -⟩ := reallocate_ok hs hD hb hlt rfl
        rw [e]
        exact Keeps.ok hv
    · exact Keeps.ok hs

theorem BlockOk.keeps_execDecFill {s t : State} (hs : BlockOk s) {c : Nat} {bs : List Byte}
    (hx : execDecFill c bs s = .next t) : BlockOk t := by
  refine BlockOk.next hx (hs.keeps_withDec fun D u hs hD => Keeps.unlessFaulted hs fun _ => ?_)
  split
  · exact Keeps.ok hs
  · rename_i b hb
    split
    · rename_i h
      have hcount := (hs.decOk hD).count
      have hin : D.received + bs.length ≤ b.len := by omega
      have hw := memWrite_of_live hs.pool (hs.decBuf hD hb) hin
      simp only at hw
      rw [hw]
      refine Keeps.ok (hs.storeDec hD hb ?_ hin (hs.decoderOk_fill hD hb h.1 h.2))
      exact hb
    · exact Keeps.ok hs

/-- R190: the header parse, the six bytes being there. -/
theorem BlockOk.keeps_parsePhase {s : State} (hs : BlockOk s) {c : Nat} {D : DecState} {b : Slice}
    (hD : s.decs[c]? = some D) (hb : D.buf = some b) (hp : D.phase = .ah) (hm : D.missing = 0) (n : Nat) :
    Keeps BlockOk (parsePhase c D (bytesAt s b 0 headerSize) { s with free := n }) := by
  unfold parsePhase
  split
  · exact Keeps.ok (hs.counted n)
  · rename_i h hh
    split
    · exact Keeps.ok ((hs.setDec hD (by rfl) ((hs.decOk hD).flagged true D.driver)).counted n)
    · rename_i hmax
      exact Keeps.ok ((hs.setDec (D' := { D with hdr := h, phase := .ap, missing := h.msgLength.toNat }) hD rfl
        (hs.decoderOk_parsed hD hb hp hm hh (Nat.le_of_not_lt hmax))).counted n)

/-- R190, R195: a complete unit's buffer goes to its frame, and the decoder starts the next unit. -/
theorem BlockOk.keeps_giveUnit {s : State} (hs : BlockOk s) {c : Nat} {D D' : DecState} {b : Slice}
    (hD : s.decs[c]? = some D) (hb : D.buf = some b) (hn : D'.buf = none) (hok : DecoderOk s D') {kind : FrameKind}
    {off len : Nat} (hf : FrameShapeOk s.cfg b kind off len) (n : Nat) :
    Keeps BlockOk (giveToFrame kind b off len (Machine.setDec c D' { s with free := n })) := by
  unfold giveToFrame
  rw [frameHolder_issued (s := Machine.setDec c D' { s with free := n }) (hs.holders.decHas c D b hD hb)]
  exact Keeps.ok ((hs.giveDec hD hb hn hok hf).counted n)

theorem BlockOk.keeps_execDecNextFrame {s t : State} (hs : BlockOk s) {c : Nat}
    (hx : execDecNextFrame c s = .next t) : BlockOk t := by
  refine BlockOk.next hx (hs.keeps_withDec fun D u hs hD => ?_)
  split
  · exact Keeps.ok hs
  · split
    · exact Keeps.ok hs
    · rename_i hm
      split
      · exact Keeps.fault
      · rename_i b hb
        have hok := hs.decOk hD
        have hcount := hok.count
        have hwithin := (hok.within b hb).1
        split
        · rename_i hp
          simp only [target, hp] at hcount
          have hr := memRead_of_live hs.pool (hs.decBuf hD hb) (off := 0) (n := headerSize) (by simp only; omega)
          simp only at hr
          rw [hr, Res.bind_ok]
          exact hs.keeps_parsePhase hD hb hp (by omega) _
        · rename_i hp
          simp only [target, hp] at hcount
          have hf : FrameShapeOk u.cfg b (.std D.hdr) headerSize D.hdr.msgLength.toNat := ⟨by omega, rfl, .inr rfl⟩
          refine hs.keeps_giveUnit hD hb ?_ (decoderOk_of_no_buffer ?_ ?_ ?_ ?_ ?_) hf _ <;> simp [hok.mode, hp, target]
        · rename_i hp
          simp only [target, hp] at hcount
          have hf : FrameShapeOk u.cfg b .hs 0 u.cfg.handshakeLen := ⟨by omega, rfl, rfl⟩
          refine hs.keeps_giveUnit hD hb ?_ (decoderOk_of_no_buffer ?_ ?_ ?_ ?_ ?_) hf u.free <;>
            simp [hok.mode, hp, target]

theorem BlockOk.keeps_execDecSetMode {s t : State} (hs : BlockOk s) {c : Nat} {m : Mode}
    (hx : execDecSetMode c m s = .next t) : BlockOk t := by
  refine BlockOk.next hx (hs.keeps_withDec fun D u hs hD => Keeps.unlessFaulted hs fun _ => ?_)
  split
  · exact Keeps.ok hs
  · obtain ⟨v, e, hc, hv⟩ := hs.releaseHeld_dec hD
    rw [e, Res.bind_ok, hc]
    refine Keeps.ok (hv _ rfl (decoderOk_of_no_buffer rfl (by simp only; omega) ?_ ?_ ?_)) <;>
      cases m <;> simp [startPhase, startMissing, target]

theorem BlockOk.keeps_execDecReset {s t : State} (hs : BlockOk s) {c : Nat} (hx : execDecReset c s = .next t) :
    BlockOk t := by
  refine BlockOk.next hx (hs.keeps_withDec fun D u hs hD => ?_)
  obtain ⟨v, e, -, hv⟩ := hs.releaseHeld_dec hD
  rw [e, Res.bind_ok]
  exact Keeps.ok ((hv { DecState.reset with driver := D.driver, hdr := headerOfWord (Config.freeHeader v.free) } rfl
    (decoderOk_of_no_buffer rfl rfl rfl (by simp [DecState.reset]) (by simp [DecState.reset]))).counted (v.free + 1))

/-- R210, R214: `ENC.ENCODE`, from the encoder and the frame it goes on with, to its end or to the abort of R129. -/
theorem BlockOk.keeps_encodeFrame {s : State} (hs : BlockOk s) {c : Nat} {E : EncState} (hE : s.encs[c]? = some E)
    {f : Frame} (hf : OwnsFrame s f ∨ placeOf s.cfg f.buf.idx = .corrupt) (r : Slice → State → Result)
    (E' : Slice → State → EncState) (hE' : ∀ b u, (E' b u).buf = some b ∧ (E' b u).outLen = wireLength u.cfg f) :
    Keeps BlockOk ((scratch c (wireLength s.cfg f) E s).bind fun b s => (writeFrame b f s).bind fun _ s =>
      (Machine.release f.buf s).bind fun _ s => answer .ok (r b s) (Machine.setEnc c (E' b s) s)) := by
  obtain ⟨t, b, ht, hst, htE, hlen, -, htc, -, -, -, -, hkeep, -⟩ := scratch_ok hs hE (wireLength s.cfg f)
  rw [ht, Res.bind_ok]
  have hEt : t.encs[c]? = some { E with buf := some b } := by rw [htE]; exact getElem?_set_same hE
  have hb := hst.encBuf hEt rfl
  have hframe : OwnsFrame s f →
      (⟨f.buf, .frame s.agent f.kind f.payOff f.payLen⟩ : LiveEntry) ∈ t.live ∧ f.buf.id ≠ b.id := fun ho => by
    have hm := (findLive_some ho).1
    have hl := (hkeep _ hm fun h => by
      obtain ⟨g, hg, hid⟩ := Option.map_eq_some_iff.1 h
      have := hs.sameId (hs.encBuf hE hg) hm hid
      simp at this).1
    exact ⟨hl, fun h => by have := hst.sameId hl hb h; simp at this⟩
  have henc : Encodable t b f := hf.imp (fun ho => ⟨_, (hframe ho).1, (hframe ho).2, by
    rw [htc]; exact hs.holders.frames _ (findLive_some ho).1 _ _ _ _ rfl⟩) (htc ▸ id)
  obtain ⟨u, hu, hsu, hul, -, huE, huc, -⟩ := writeFrame_ok hst hb (by rw [hlen, htc]) henc
  rw [hu, Res.bind_ok]
  refine hsu.keeps_release (hf.imp (fun ho => ⟨_, hul ▸ (hframe ho).1, by simp, by simp⟩) (by rw [huc, htc]; exact id))
    fun v hv hsv => ?_
  obtain ⟨-, -, -, -, -, -, hvE, hvc, -⟩ := release_frame hv
  refine Keeps.ok (hsv.setEnc (E := { E with buf := some b }) (by rw [hvE, huE, hEt]) (hE' b v).1 ⟨?_, ?_⟩)
  · simp [(hE' b v).1]
  · intro g hg
    obtain rfl := Option.some.inj ((hE' b v).1.symm.trans hg)
    rw [(hE' b v).2, hvc, huc, htc, ← hlen]
    exact hst.lenCap hb

theorem BlockOk.keeps_execEncEncode {s t : State} (hs : BlockOk s) {c : Nat} {f : Frame}
    (hx : execEncEncode c f s = .next t) : BlockOk t :=
  BlockOk.next hx (hs.keeps_withEnc fun E _ hs hE => Keeps.useFrame_bind fun hf =>
    hs.keeps_encodeFrame hE hf _
      (fun b v => { E with buf := some b, outLen := wireLength v.cfg f, outputs := E.outputs + 1 })
      fun _ _ => ⟨rfl, rfl⟩)

theorem BlockOk.keeps_execEncReset {s t : State} (hs : BlockOk s) {c : Nat} (hx : execEncReset c s = .next t) :
    BlockOk t := by
  refine BlockOk.next hx (hs.keeps_withEnc fun E u hs hE => ?_)
  obtain ⟨v, e, hv⟩ := hs.releaseHeld_enc hE
  rw [e, Res.bind_ok]
  exact Keeps.ok (hv _ rfl ⟨fun _ => rfl, by simp⟩)

/-- R28, R30, R39: every operation keeps the invariant. -/
theorem BlockOk.exec {s t : State} (hs : BlockOk s) {i : Instr} (hx : Machine.exec i s = .next t) : BlockOk t := by
  cases i <;> dsimp only [Machine.exec] at hx
  case poolAcquire len => exact BlockOk.next hx (Keeps.ok (hs.acquireCaller len _))
  case poolRelease x =>
    exact BlockOk.next hx (Keeps.useSlice_bind fun g ho _ hg => hs.keeps_release (.of_operand ho hg)
      fun _ _ hs => Keeps.ok hs)
  case poolWr => exact hs.keeps_execPoolWr hx
  case poolRd =>
    exact Keeps.execPoolRd (fun _ r hu => BlockOk.answered hu r) (fun _ hu => BlockOk.aborted hu)
      (fun _ m hu => BlockOk.counted hu m) hs hx
  case poolStatus | hdrSerialize | hdrChid | hdrMsgtype | hdrMsglen | wireHeader => exact BlockOk.next hx (Keeps.ok hs)
  case hdrParse bs => exact BlockOk.next hx (by split <;> exact Keeps.ok hs)
  case hdrBuild e ty len => exact BlockOk.next hx (by split <;> exact Keeps.ok hs)
  case frmFromMessage => exact hs.keeps_execFrmFromMessage hx
  case frmHeader f => exact BlockOk.next hx (Keeps.useFrame_bind fun _ => by split <;> exact Keeps.ok hs)
  case frmPayload f => exact BlockOk.next hx (Keeps.useFrame_bind fun _ => Keeps.ok hs)
  case frmEncodedLength f => exact BlockOk.next hx (Keeps.useFrame_bind fun _ => Keeps.ok hs)
  case frmFromHandshake => exact hs.keeps_execFrmFromHandshake hx
  case frmDrop f =>
    exact BlockOk.next hx (Keeps.useFrame_bind fun hf => hs.keeps_release (hf.elim .of_ownsFrame .inr)
      fun _ _ hs => Keeps.ok hs)
  case decWritable => exact hs.keeps_execDecWritable hx
  case decFill => exact hs.keeps_execDecFill hx
  case decNextFrame => exact hs.keeps_execDecNextFrame hx
  case decSetMode => exact hs.keeps_execDecSetMode hx
  case decReset => exact hs.keeps_execDecReset hx
  case decStatus => exact BlockOk.next hx (hs.keeps_withDec fun _ _ hs _ => Keeps.ok hs)
  case encEncode => exact hs.keeps_execEncEncode hx
  case encReset => exact hs.keeps_execEncReset hx
  case encStatus => exact BlockOk.next hx (hs.keeps_withEnc fun _ _ hs _ => Keeps.ok hs)

/-! ### Steps that are no operation -/

/-- A handle, decoder or encoder handed over (R75): the receiver holds or drives what the giver held or drove. -/
theorem BlockOk.keeps_handOver {s : State} (hs : BlockOk s) (a : Nat) (item : Item) (r : Nat) :
    Keeps BlockOk (handOver a item r s) := by
  rcases handOver_cases a item r s with ⟨f, e⟩ | ⟨id, x, -, hl, hw, e⟩ | ⟨id, x, k, off, len, -, hl, hw, e⟩ |
    ⟨id, x, -, hl, hw, e⟩ | ⟨c, D, -, hD, -, e⟩ | ⟨c, E, -, hE, -, e⟩ <;> rw [e]
  · exact Keeps.fault
  · obtain ⟨hm, rfl⟩ := findLive_some hl
    exact Keeps.ok (hs.setHolder hm (by simp [hw]) (by simp [hw]) (by simp) (by simp) (by simp))
  · obtain ⟨hm, rfl⟩ := findLive_some hl
    refine Keeps.ok (hs.setHolder hm (by simp [hw]) (by simp [hw]) (by simp) (by simp) ?_)
    intro _ _ _ _ h
    cases h
    exact hs.holders.frames x hm a k off len hw
  · obtain ⟨hm, rfl⟩ := findLive_some hl
    exact Keeps.ok (hs.setHolder hm (by simp [hw]) (by simp [hw]) (by simp) (by simp) (by simp))
  · exact Keeps.ok (hs.setDec hD rfl ((hs.decOk hD).flagged D.fault (some r)))
  · obtain ⟨hempty, hwithin⟩ := hs.encOk hE
    exact Keeps.ok (hs.setEnc hE rfl ⟨hempty, hwithin⟩)

/-- R270: what a reset keeps of the ids drawn changes nothing in a block where nothing is live. -/
theorem BlockOk.resetEvent {s : State} (hs : BlockOk s) (rest : List Input) : BlockOk (Machine.resetEvent rest s) := by
  have hr := resetWith_blockOk hs.cfg
  obtain ⟨hdec, henc, hdecHeld, hencHeld, hframes⟩ := hr.holders
  exact ⟨hr.cfg, hr.decs, hr.encs, resetEvent_memoryOk rest s, poolOk_of_unused rfl rfl rfl,
    ⟨hdec, henc, hdecHeld, hencHeld, hframes⟩, fun D hD => (hr.decoders D hD).transfer rfl fun _ _ _ _ => rfl,
    hr.encoders⟩

/-- Taking an input changes nothing that the invariant speaks of. -/
theorem BlockOk.taken {s : State} (hs : BlockOk s) (rest : List Input) (a : Nat) :
    BlockOk { s with inbox := rest, agent := a } := hs.congr rfl rfl rfl rfl rfl rfl rfl rfl rfl

/-- Settles O50: an idle step and a reset keep the invariant, and so do hand-overs, operations and refusals from the
state with the input taken. -/
theorem everyStepKeepsTheInvariant : Obligations.EveryStepKeepsTheInvariant := by
  intro s t hs hx
  rcases step_cases s with ⟨-, e⟩ | ⟨rest, -, e⟩ | ⟨a, item, r, rest, -, e⟩ | ⟨a, p, rest, i, after, -, -, e⟩ |
    ⟨a, p, rest, x, -, -, e⟩ <;> rw [e] at hx
  · cases hx; exact hs
  · cases hx; exact hs.resetEvent rest
  · split at hx
    · cases hx
    · exact Keeps.event (fun _ r hu => BlockOk.answered hu r) (fun _ hu => BlockOk.aborted hu)
        ((hs.taken rest s.agent).keeps_handOver a item r) hx
  · exact (hs.taken rest a).exec hx
  · exact BlockOk.next (k := refuse) hx (Keeps.ok (hs.taken rest a))

end Sys2Proof.Machine
end

section
/-! R40(c), R266: instrumentation is not observable. Two runs of an operation, from states that differ only in the
instrumentation switch, log and counter, answer the same in every part, with states that again differ only there. -/

namespace Sys2Proof.Machine

/-! ### Parts that do not see the instrumentation -/

/-- Two ends of a part of an operation that differ only in instrumentation. -/
inductive SameApart {α : Type} : Res α → Res α → Prop where
  | ok (a : α) (s : State) (on : Bool) (log : List Toggle) (n : Nat) :
    SameApart (.ok a s) (.ok a (withInstrumentation on log n s))
  | abort (s : State) (on : Bool) (log : List Toggle) (n : Nat) :
    SameApart (.abort s) (.abort (withInstrumentation on log n s))
  | fault (f : Fault) : SameApart (.fault f) (.fault f)

/-- A part of an operation that does not see the instrumentation. -/
def Blind {α : Type} (k : State → Res α) : Prop :=
  ∀ s on log n, SameApart (k s) (k (withInstrumentation on log n s))

theorem SameApart.bind {α β : Type} {r r' : Res α} {k k' : α → State → Res β} (h : SameApart r r')
    (hk : ∀ a s on log n, SameApart (k a s) (k' a (withInstrumentation on log n s))) :
    SameApart (r.bind k) (r'.bind k') := by
  cases h with
  | ok a s on log n => exact hk a s on log n
  | abort s on log n => exact .abort s on log n
  | fault f => exact .fault f

theorem SameApart.ite {α : Type} {c : Prop} [Decidable c] {a a' b b' : Res α} (ha : SameApart a a')
    (hb : SameApart b b') : SameApart (if c then a else b) (if c then a' else b') := by
  split
  · exact ha
  · exact hb

theorem Blind.bind {α β : Type} {r : State → Res α} {k : α → State → Res β} (h : Blind r) (hk : ∀ a, Blind (k a)) :
    Blind fun s => (r s).bind k :=
  fun s on log n => (h s on log n).bind hk

theorem blind_answer (st : Status) (r : Result) : Blind (answer st r) := fun s on log n => .ok _ s on log n

/-! ### What a part reads -/

@[simp] theorem withInstrumentation_live (on : Bool) (log : List Toggle) (n : Nat) (s : State) :
    (withInstrumentation on log n s).live = s.live := rfl
@[simp] theorem withInstrumentation_decs (on : Bool) (log : List Toggle) (n : Nat) (s : State) :
    (withInstrumentation on log n s).decs = s.decs := rfl
@[simp] theorem withInstrumentation_encs (on : Bool) (log : List Toggle) (n : Nat) (s : State) :
    (withInstrumentation on log n s).encs = s.encs := rfl
@[simp] theorem withInstrumentation_abort (on : Bool) (log : List Toggle) (n : Nat) (s : State) :
    (withInstrumentation on log n s).abort = s.abort := rfl
@[simp] theorem withInstrumentation_inbox (on : Bool) (log : List Toggle) (n : Nat) (s : State) :
    (withInstrumentation on log n s).inbox = s.inbox := rfl
@[simp] theorem withInstrumentation_agent (on : Bool) (log : List Toggle) (n : Nat) (s : State) :
    (withInstrumentation on log n s).agent = s.agent := rfl
@[simp] theorem withInstrumentation_placeOf (on : Bool) (log : List Toggle) (n : Nat) (s : State) (i : Nat) :
    placeOf (withInstrumentation on log n s).cfg i = placeOf s.cfg i := rfl
@[simp] theorem withInstrumentation_mask (on : Bool) (log : List Toggle) (n : Nat) (s : State) :
    (withInstrumentation on log n s).mask = s.mask := rfl
@[simp] theorem withInstrumentation_target (on : Bool) (log : List Toggle) (n : Nat) (s : State) (D : DecState) :
    target (withInstrumentation on log n s).cfg D = target s.cfg D := rfl
@[simp] theorem withInstrumentation_fit (on : Bool) (log : List Toggle) (n : Nat) (s : State) (m : BitVec 8)
    (len : Nat) : fit (withInstrumentation on log n s).cfg m len = fit s.cfg m len := rfl

/-- An operation shows no instrumentation when its own part does not see it. -/
theorem Blind.unlogged {k : State → Res Response} (h : Blind k) (s : State) (on : Bool) (log : List Toggle) (n : Nat) :
    unlogged (unlessAborted (withInstrumentation on log n s) k) = unlogged (unlessAborted s k) := by
  have hk := h s on log n
  cases ha : s.abort with
  | true => simp [unlessAborted, ha, withInstrumentation_abort]
  | false =>
    rw [unlessAborted_of ha, unlessAborted_of (s := withInstrumentation on log n s) ha]
    generalize k s = r, k (withInstrumentation on log n s) = r' at hk
    cases hk <;> rfl

/-! ### The shared operations -/

/-- `Acquire` takes the same slice, whatever the instrumentation; it logs and counts on its own account. -/
theorem acquire_withInstrumentation (len : Nat) (who : Holder) (on : Bool) (log : List Toggle) (n : Nat) (s : State) :
    ∃ log' n', acquire len who (withInstrumentation on log n s)
      = ((acquire len who s).1, withInstrumentation on log' n' (acquire len who s).2) := by
  simp only [acquire, withInstrumentation_fit, withInstrumentation_mask]
  cases fit s.cfg s.mask len with
  | nil => exact ⟨_, _, rfl⟩
  | cons k ks => exact ⟨_, _, rfl⟩

theorem blind_release (h : Slice) : Blind (release h) := by
  intro s on log n
  simp only [release, withInstrumentation_live, withInstrumentation_placeOf]
  cases findLive s.live h.id with
  | none => exact .fault _
  | some e =>
    cases placeOf s.cfg h.idx with
    | heap => exact .ok _ _ on log n
    | pool => exact .ok _ _ on _ n
    | corrupt => exact .abort _ on log n

theorem blind_releaseHeld (b : Option Slice) : Blind (releaseHeld b) := by
  cases b with
  | none => exact fun s on log n => .ok _ s on log n
  | some h => exact blind_release h

theorem blind_useSlice (h : Slice) : Blind (useSlice h) := by
  intro s on log n
  simp only [useSlice, withInstrumentation_live]
  cases findLive s.live h.id with
  | none => exact .fault _
  | some e => exact .ite (.ite (.ok _ _ _ _ _) (.fault _)) (.fault _)

theorem blind_useFrame (f : Frame) : Blind (useFrame f) := by
  intro s on log n
  simp only [useFrame, withInstrumentation_live]
  cases findLive s.live f.buf.id with
  | none => exact .fault _
  | some e =>
    obtain ⟨g, who⟩ := e
    cases who with
    | frame a kind off len => exact .ite (.ite (.ok _ _ _ _ _) (.fault _)) (.fault _)
    | damagedFrame a => exact .ite (.ite (.ok _ _ _ _ _) (.fault _)) (.fault _)
    | caller | dec | enc => exact .fault _

theorem blind_useView (v : View) : Blind (useView v) := by
  intro s on log n
  simp only [useView, withInstrumentation_live]
  cases findLive s.live v.slice.id with
  | none => exact .fault _
  | some e =>
    obtain ⟨g, who⟩ := e
    refine SameApart.ite (.ok _ _ _ _ _) ?_
    cases who with
    | enc c => exact .ite (.ok _ _ _ _ _) (.fault _)
    | caller | frame | damagedFrame | dec => exact .fault _

theorem blind_memRead (h : Slice) (off m : Nat) : Blind (memRead h off m) :=
  fun _ on log n => .ite (.ok _ _ on log n) (.fault _)

theorem blind_freeBytes (m : Nat) : Blind (freeBytes m) := fun _ on log n => .ok _ _ on log n

theorem blind_memWrite (h : Slice) (off : Nat) (bs : List Byte) : Blind (memWrite h off bs) := by
  intro s on log n
  have hst : storeBytes h off bs (withInstrumentation on log n s)
      = withInstrumentation on log n (storeBytes h off bs s) := by
    simp only [storeBytes, withInstrumentation_placeOf]
    cases placeOf s.cfg h.idx <;> rfl
  simp only [memWrite, hst]
  exact .ite (.ite (.ok _ _ on log n) (.fault _)) (.ite (.ok _ _ on log n) (.fault _))

theorem blind_giveToFrame (kind : FrameKind) (b : Slice) (off len : Nat) : Blind (giveToFrame kind b off len) :=
  fun _ on log n => .ok _ _ on log n

theorem blind_withDec (c : Nat) {k : DecState → State → Res Response} (hk : ∀ D, Blind (k D)) :
    Blind fun s => withDec c s k := by
  intro s on log n
  simp only [withDec, withInstrumentation_decs]
  cases s.decs[c]? with
  | none => exact .ok _ _ _ _ _
  | some D => exact .ite (hk _ _ on log n) (.fault _)

theorem blind_withEnc (c : Nat) {k : EncState → State → Res Response} (hk : ∀ E, Blind (k E)) :
    Blind fun s => withEnc c s k := by
  intro s on log n
  simp only [withEnc, withInstrumentation_encs]
  cases s.encs[c]? with
  | none => exact .ok _ _ _ _ _
  | some E => exact .ite (hk _ _ on log n) (.fault _)

theorem blind_unlessFaulted (D : DecState) {k : State → Res Response} (hk : Blind k) :
    Blind fun s => unlessFaulted D s (k s) :=
  fun s on log n => .ite (.ok _ _ on log n) (hk s on log n)

theorem blind_handOver (a : Nat) (item : Item) (r : Nat) : Blind (handOver a item r) := by
  intro s on log n
  cases item with
  | handle id =>
    simp only [handOver, withInstrumentation_live]
    cases findLive s.live id with
    | none => exact .fault _
    | some e =>
      obtain ⟨g, who⟩ := e
      cases who with
      | caller | frame | damagedFrame => exact .ite (.ok _ _ on log n) (.fault _)
      | dec | enc => exact .fault _
  | decoder c =>
    simp only [handOver, withInstrumentation_decs]
    cases s.decs[c]? with
    | none => exact .fault _
    | some D => exact .ite (.ok _ _ on log n) (.fault _)
  | encoder c =>
    simp only [handOver, withInstrumentation_encs]
    cases s.encs[c]? with
    | none => exact .fault _
    | some E => exact .ite (.ok _ _ on log n) (.fault _)

/-! ### Decoders and encoders -/

theorem blind_reallocate (c : Nat) (D : DecState) (b : Slice) : Blind (reallocate c D b) := by
  intro s on log n
  obtain ⟨log', n', e⟩ := acquire_withInstrumentation (target s.cfg D) (.dec c) on log n s
  simp only [reallocate, withInstrumentation_target, e]
  exact (blind_memRead _ _ _ _ _ _ _).bind fun bs u on log n => (blind_memWrite _ _ _ _ _ _ _).bind fun _ u on log n =>
    (blind_release b u on log n).bind fun _ u on log n => .ok _ _ on log n

theorem blind_parsePhase (c : Nat) (D : DecState) (bs : List Byte) : Blind (parsePhase c D bs) := by
  intro s on log n
  unfold parsePhase
  cases headerOfBytes bs with
  | none => exact .ok _ _ on log n
  | some h => exact .ite (.ok _ _ on log n) (.ok _ _ on log n)

theorem blind_scratch (c need : Nat) (E : EncState) : Blind (scratch c need E) := by
  have hnew : Blind fun s => Res.ok (acquire need (.enc c) s).1
      (setEnc c { E with buf := some (acquire need (.enc c) s).1 } (acquire need (.enc c) s).2) := by
    intro s on log n
    obtain ⟨log', n', e⟩ := acquire_withInstrumentation need (.enc c) on log n s
    simp only [e]
    exact .ok _ _ on log' n'
  unfold scratch
  cases E.buf with
  | none => exact hnew
  | some b =>
    exact fun s on log n => .ite (.ok _ _ on log n) ((blind_release b s on log n).bind fun _ => hnew)

theorem blind_readPayload (f : Frame) (off m : Nat) : Blind (readPayload f off m) :=
  fun s on log n => .ite (blind_freeBytes _ s on log n) (blind_memRead f.buf off m s on log n)

theorem blind_writeFrame (b : Slice) (f : Frame) : Blind (writeFrame b f) := by
  unfold writeFrame
  cases f.kind with
  | std h =>
    exact (blind_memWrite b 0 (headerBytes h)).bind fun _ => (blind_readPayload f f.payOff f.payLen).bind fun bs =>
      blind_memWrite b headerSize bs
  | hs => exact fun s on log n => (blind_readPayload f 0 _ s on log n).bind fun bs => blind_memWrite b 0 bs

/-! ### Operations and steps -/

theorem execPoolRd_withInstrumentation (r : Readable) (off m : Nat) (s : State) (on : Bool) (log : List Toggle)
    (n : Nat) :
    unlogged (execPoolRd r off m (withInstrumentation on log n s)) = unlogged (execPoolRd r off m s) := by
  refine Blind.unlogged ?_ s on log n
  cases r with
  | slice h =>
    exact (blind_useSlice h).bind fun _ s on log n =>
      .ite ((blind_memRead h off m s on log n).bind fun bs => blind_answer _ _) (.ok _ _ on log n)
  | view v =>
    refine (blind_useView v).bind fun kind s on log n => .ite ?_ (.ok _ _ on log n)
    cases kind with
    | fresh => exact (blind_memRead _ _ _ s on log n).bind fun bs => blind_answer _ _
    | stale => exact (blind_freeBytes m s on log n).bind fun bs => blind_answer _ _

theorem execDecWritable_withInstrumentation (c : Nat) (s : State) (on : Bool) (log : List Toggle) (n : Nat) :
    unlogged (execDecWritable c (withInstrumentation on log n s)) = unlogged (execDecWritable c s) := by
  refine Blind.unlogged (blind_withDec c fun D s on log n => ?_) s on log n
  refine SameApart.ite (.ok _ _ on log n) ?_
  cases D.buf with
  | none =>
    obtain ⟨log', n', e⟩ := acquire_withInstrumentation (target s.cfg D) (.dec c) on log n s
    simp only [withInstrumentation_target, e]
    exact .ok _ _ on log' n'
  | some b => exact .ite (.ite (.ok _ _ on log n) (blind_reallocate c D b s on log n)) (.ok _ _ on log n)

theorem execDecFill_withInstrumentation (c : Nat) (bs : List Byte) (s : State) (on : Bool) (log : List Toggle)
    (n : Nat) :
    unlogged (execDecFill c bs (withInstrumentation on log n s)) = unlogged (execDecFill c bs s) := by
  refine Blind.unlogged (blind_withDec c fun D s on log n => ?_) s on log n
  refine SameApart.ite (.ok _ _ on log n) ?_
  cases D.buf with
  | none => exact .ok _ _ on log n
  | some b =>
    exact .ite ((blind_memWrite b _ bs s on log n).bind fun _ s on log n => .ok _ _ on log n) (.ok _ _ on log n)

theorem execDecNextFrame_withInstrumentation (c : Nat) (s : State) (on : Bool) (log : List Toggle) (n : Nat) :
    unlogged (execDecNextFrame c (withInstrumentation on log n s)) = unlogged (execDecNextFrame c s) := by
  refine Blind.unlogged (blind_withDec c fun D s on log n => ?_) s on log n
  refine SameApart.ite (.ok _ _ on log n) (SameApart.ite (.ok _ _ on log n) ?_)
  cases D.buf with
  | none => exact .fault _
  | some b =>
    cases D.phase with
    | ah => exact (blind_memRead b 0 headerSize s on log n).bind fun bs => blind_parsePhase c D bs
    | ap => exact .ok _ _ on log n
    | ahs => exact .ok _ _ on log n

/-- Every operation shows the same, whatever the instrumentation. -/
theorem exec_withInstrumentation (i : Instr) (s : State) (on : Bool) (log : List Toggle) (n : Nat) :
    unlogged (exec i (withInstrumentation on log n s)) = unlogged (exec i s) := by
  cases i <;> dsimp only [exec]
  case poolAcquire len =>
    refine Blind.unlogged (fun s on log n => ?_) s on log n
    obtain ⟨log', n', e⟩ := acquire_withInstrumentation len (.caller s.agent) on log n s
    simp only [withInstrumentation_agent, e]
    exact .ok _ _ on log' n'
  case poolRelease h =>
    refine Blind.unlogged ?_ s on log n
    exact (blind_useSlice h).bind fun _ => (blind_release h).bind fun _ => blind_answer _ _
  case poolWr h off bs =>
    refine Blind.unlogged ?_ s on log n
    exact (blind_useSlice h).bind fun _ s on log n =>
      .ite ((blind_memWrite h off bs s on log n).bind fun _ => blind_answer _ _) (.ok _ _ on log n)
  case poolRd r off m => exact execPoolRd_withInstrumentation r off m s on log n
  case poolStatus | hdrSerialize | hdrChid | hdrMsgtype | hdrMsglen | wireHeader =>
    exact Blind.unlogged (fun s on log n => .ok _ _ on log n) s on log n
  case hdrParse bs =>
    refine Blind.unlogged (fun s on log n => ?_) s on log n
    cases headerOfBytes bs <;> exact .ok _ _ on log n
  case hdrBuild e ty len =>
    exact Blind.unlogged (fun s on log n => .ite (.ok _ _ on log n) (.ok _ _ on log n)) s on log n
  case frmFromMessage p ty e flag =>
    refine Blind.unlogged ?_ s on log n
    exact (blind_useSlice p).bind fun _ s on log n => .ite (.ok _ _ on log n) (blind_giveToFrame _ p 0 _ s on log n)
  case frmHeader f =>
    refine Blind.unlogged ((blind_useFrame f).bind fun _ s on log n => ?_) s on log n
    cases f.kind <;> exact .ok _ _ on log n
  case frmPayload f => exact Blind.unlogged ((blind_useFrame f).bind fun _ => blind_answer _ _) s on log n
  case frmEncodedLength f =>
    exact Blind.unlogged ((blind_useFrame f).bind fun _ s on log n => .ok _ _ on log n) s on log n
  case frmFromHandshake p =>
    refine Blind.unlogged ?_ s on log n
    exact (blind_useSlice p).bind fun _ s on log n => .ite (blind_giveToFrame _ p 0 _ s on log n) (.ok _ _ on log n)
  case frmDrop f =>
    exact Blind.unlogged ((blind_useFrame f).bind fun _ => (blind_release f.buf).bind fun _ => blind_answer _ _)
      s on log n
  case decWritable c => exact execDecWritable_withInstrumentation c s on log n
  case decFill c bs => exact execDecFill_withInstrumentation c bs s on log n
  case decNextFrame c => exact execDecNextFrame_withInstrumentation c s on log n
  case decSetMode c m =>
    refine Blind.unlogged (blind_withDec c fun D s on log n => ?_) s on log n
    refine SameApart.ite (.ok _ _ on log n) ?_
    exact .ite (.ok _ _ on log n) ((blind_releaseHeld D.buf s on log n).bind fun _ s on log n => .ok _ _ on log n)
  case decReset c =>
    exact Blind.unlogged (blind_withDec c fun D => (blind_releaseHeld D.buf).bind fun _ s on log n => .ok _ _ on log n)
      s on log n
  case decStatus c => exact Blind.unlogged (blind_withDec c fun D => blind_answer _ _) s on log n
  case encEncode c f =>
    refine Blind.unlogged ?_ s on log n
    exact blind_withEnc c fun E => (blind_useFrame f).bind fun _ s on log n => (blind_scratch c _ E s on log n).bind
      fun b => (blind_writeFrame b f).bind fun _ => (blind_release f.buf).bind fun _ s on log n => .ok _ _ on log n
  case encReset c =>
    exact Blind.unlogged (blind_withEnc c fun E => (blind_releaseHeld E.buf).bind fun _ s on log n => .ok _ _ on log n)
      s on log n
  case encStatus c => exact Blind.unlogged (blind_withEnc c fun E => blind_answer _ _) s on log n

/-- R100, R102: the decoder reads the widths of the configuration alone. -/
theorem decode_withInstrumentation (on : Bool) (log : List Toggle) (n : Nat) (s : State) (p : Packet) :
    decode (withInstrumentation on log n s).cfg p = decode s.cfg p := rfl

/-- A hand-over shows the same, whatever the instrumentation. -/
theorem handOver_withInstrumentation (a : Nat) (item : Item) (r : Nat) (s : State) (on : Bool) (log : List Toggle)
    (n : Nat) :
    unlogged (concludeEvent (handOver a item r (withInstrumentation on log n s)))
      = unlogged (concludeEvent (handOver a item r s)) := by
  have h := blind_handOver a item r s on log n
  generalize handOver a item r s = x, handOver a item r (withInstrumentation on log n s) = x' at h
  cases h <;> rfl

/-- Settles O57: the same input is fetched, and operations, hand-overs and resets do not see the instrumentation. -/
theorem instrumentationIsNotObservable : Obligations.InstrumentationIsNotObservable := by
  intro s on log n
  cases hi : s.inbox with
  | nil => simp only [step, fetch, withInstrumentation_inbox, hi]; rfl
  | cons x rest =>
    cases x with
    | reset => simp only [step, fetch, withInstrumentation_inbox, hi]; rfl
    | handOver a item r =>
      by_cases ha : s.abort = true
      · simp [step, fetch, hi, ha]
      · simp only [step, fetch, withInstrumentation_inbox, hi, withInstrumentation_abort, ha, Bool.false_eq_true,
          if_false]
        exact handOver_withInstrumentation a item r { s with abort := false, inbox := rest } on log n
    | command a p =>
      simp only [step, fetch, withInstrumentation_inbox, hi, decode_withInstrumentation]
      cases decode s.cfg p with
      | ok q => exact exec_withInstrumentation q.1 { s with inbox := rest, agent := a } on log n
      | error x => exact (blind_answer .refused .nothing).unlogged { s with inbox := rest, agent := a } on log n

end Sys2Proof.Machine
end

section
/-! The pool's slots: what an acquire takes (spec/40_pool.md R122, R123), and that live slices are apart (R39, R65,
R126). -/

namespace Sys2Proof.Machine

/-- What `POOL.ACQUIRE` answers: the slice acquired, in the state after the acquire. -/
theorem exec_poolAcquire_next {len : Nat} {s t : State} (hx : exec (.poolAcquire len) s = .next t) :
    t = { (acquire len (.caller s.agent) s).2 with
          resp := some { status := .ok, result := .slice (acquire len (.caller s.agent) s).1 } } := by
  dsimp only [exec] at hx
  obtain ⟨-, ⟨a, u, h, rfl⟩ | ⟨u, h, -⟩⟩ := unlessAborted_eq_next.1 hx
  · cases h; rfl
  · cases h

/-- Settles O12: `acquire_cases` on the acquire of the step; `MASK` is the record of the live slices (R39), so a free
bit is a slot that no live slice has. -/
theorem acquireSetsOneClearBit : Obligations.AcquireSetsOneClearBit := by
  intro s t len h hs hx hr
  obtain rfl := exec_poolAcquire_next hx
  simp only [Option.some.injEq, Response.mk.injEq, Result.slice.injEq, true_and] at hr
  subst hr
  have hn := hs.cfg.slots.2
  rcases acquire_cases len (.caller s.agent) s with ⟨k, hk, e⟩ | ⟨-, e⟩ <;> rw [e]
  · obtain ⟨⟨k1, kn⟩, hfree, -⟩ := mem_fit.1 hk
    refine ⟨fun _ => ⟨hfree, ?_, fun j j1 j8 hj => ?_, fun d hd hdk => ?_⟩, fun h => absurd ⟨k1, kn⟩ h⟩
    · simp [acquireSlot, slotTaken_set _ k1 (kn.trans hn) k1 (kn.trans hn)]
    · simp only [acquireSlot] at hj ⊢
      rw [slotTaken_set _ j1 j8 k1 (by omega)]
      simp [hj]
    · have := (hs.pool.taken k k1 kn).2 ⟨d, hd, hdk⟩
      simp [hfree] at this
  · exact ⟨fun h => absurd ⟨h.1, h.2.trans hn⟩ hs.cfg.untracked.1, fun _ => ⟨rfl, rfl⟩⟩

/-- R39(d), R126: a set bit of `MASK` is that of one of the `N_SLOTS` slots, the last of which has bit `8 - N_SLOTS`. -/
theorem BlockOk.slot_of_bit {s : State} (hs : BlockOk s) {i : Nat} (hi : i < 8) (hb : s.mask.getLsbD i = true) :
    8 - s.cfg.nSlots ≤ i := by
  by_contra hlt
  have := hs.pool.unused (8 - i) (by omega) (by omega)
  rw [slotTaken, show 8 - (8 - i) = i by omega, hb] at this
  cases this

/-- R126: no more slots are in use than there are. -/
theorem BlockOk.slotsInUse_le {s : State} (hs : BlockOk s) : slotsInUse s ≤ s.cfg.nSlots := by
  have hsub : (List.range 8).filter (fun i => s.mask.getLsbD i) ⊆ List.range' (8 - s.cfg.nSlots) s.cfg.nSlots := by
    intro i hi
    obtain ⟨hi, hb⟩ := List.mem_filter.1 hi
    have h8 := List.mem_range.1 hi
    have := hs.slot_of_bit h8 hb
    have := hs.cfg.slots.2
    exact List.mem_range'_1.2 (by omega)
  simpa [slotsInUse] using (List.subperm_of_subset (List.nodup_range.filter _) hsub).length_le

/-- R39(a), R65: two pool-backed live slices that are not one are in different slots, and share no byte. -/
theorem BlockOk.slots_apart {s : State} (hs : BlockOk s) {d e : LiveEntry} (hd : d ∈ s.live) (he : e ∈ s.live)
    (hne : d.slice.id ≠ e.slice.id) (hdu : d.slice.idx ≠ s.cfg.untracked) (heu : e.slice.idx ≠ s.cfg.untracked) :
    d.slice.idx ≠ e.slice.idx ∧
      (d.slice.off + d.slice.len ≤ e.slice.off ∨ e.slice.off + e.slice.len ≤ d.slice.off) := by
  obtain ⟨hdl, ⟨hdp, hdo, hdc⟩ | ⟨h, -⟩⟩ := hs.pool.shape d hd
  · obtain ⟨hel, ⟨hep, heo, hec⟩ | ⟨h, -⟩⟩ := hs.pool.shape e he
    · have hidx := live_apart hs.pool hd he hne hdp
      obtain ⟨-, d1, dn⟩ := placeOf_pool.1 hdp
      obtain ⟨-, e1, en⟩ := placeOf_pool.1 hep
      have := slots_disjoint hs.cfg d1 dn e1 en hidx
      exact ⟨hidx, by omega⟩
    · exact absurd h heu
  · exact absurd h hdu

/-- Settles O52: ids are distinct, slots of distinct live slices are distinct, and slots share no byte. -/
theorem liveSlicesAreApartAndFitTheSlots : Obligations.LiveSlicesAreApartAndFitTheSlots := by
  refine fun s hs => ⟨hs.slotsInUse_le, fun d e hd he hne => ?_⟩
  have hid : d.slice.id ≠ e.slice.id := fun h => hne (hs.sameId hd he h)
  exact ⟨hid, hs.slots_apart hd he hid⟩

end Sys2Proof.Machine
end

section
/-! Misuse of handles (U3; spec/60_exceptions.md R251): an operand check that faults is the fault of every operation
with such an operand. -/

namespace Sys2Proof.Machine

/-! ### While `ABORT` is set -/

/-- R251(1): the check of `ABORT` comes first in every operation. -/
theorem exec_of_abort {s : State} (h : s.abort = true) (i : Instr) : exec i s = .fault .aborted := by
  cases i <;> exact if_pos h

/-- Settles O8: operations by their first check, hand-overs and records that are no command by that of the fetch. -/
theorem abortedBlockHasNoOperation : Obligations.AbortedBlockHasNoOperation := by
  refine ⟨fun i s h => exec_of_abort h i, fun s x rest h hi hx => ?_⟩
  rcases step_cases s with ⟨hi', -⟩ | ⟨rest', hi', -⟩ | ⟨a, item, r, rest', -, e⟩ | ⟨a, p, rest', i, after, -, -, e⟩ |
    ⟨a, p, rest', y, -, -, e⟩
  · simp [hi] at hi'
  · simp only [hi, List.cons.injEq] at hi'
    exact absurd hi'.1 hx
  · rw [e, if_pos h]
  · rw [e]; exact exec_of_abort (s := { s with inbox := rest', agent := a }) h i
  · rw [e]; exact if_pos h

/-! ### Operands that fault -/

/-- Every operation with a Slice operand ends in the fault of its check. -/
theorem exec_slice_fault {s : State} {h : Slice} {x : Fault} (ha : s.abort = false) (hu : useSlice h s = .fault x)
    (off n : Nat) (bs : List Byte) (ty : BitVec 8) (e : BitVec 16) (flag : Bool) :
    ∀ i ∈ [Instr.poolRelease h, .poolWr h off bs, .poolRd (.slice h) off n, .frmFromMessage h ty e flag,
      .frmFromHandshake h], exec i s = .fault x := by
  simp [exec, execPoolRelease, execPoolWr, execPoolRd, execFrmFromMessage, execFrmFromHandshake, unlessAborted_of ha,
    hu]

/-- `POOL.RD` through a view ends in the fault of the view's check. -/
theorem exec_view_fault {s : State} {v : View} {x : Fault} (ha : s.abort = false) (hu : useView v s = .fault x)
    (off n : Nat) : exec (.poolRd (.view v) off n) s = .fault x := by
  simp [exec, execPoolRd, unlessAborted_of ha, hu]

/-- Every operation with a Frame operand ends in the fault of its check, `ENC.ENCODE` after the claim of its encoder. -/
theorem exec_frame_fault {s : State} {f : Frame} {x : Fault} (ha : s.abort = false) (hu : useFrame f s = .fault x)
    (hc : ∀ c E, useFrame f (claimEnc c E s) = .fault x) :
    (∀ i ∈ [Instr.frmHeader f, .frmPayload f, .frmEncodedLength f, .frmDrop f], exec i s = .fault x) ∧
      ∀ c E, DrivesEnc s c E → exec (.encEncode c f) s = .fault x := by
  constructor
  · simp [exec, execFrmHeader, execFrmPayload, execFrmEncodedLength, execFrmDrop, unlessAborted_of ha, hu]
  · intro c E hE
    simp [exec, execEncEncode, unlessAborted_of ha, withEnc_of hE, hc]

/-! ### What the checks find -/

theorem useSlice_notLive {s : State} {h : Slice} (hl : findLive s.live h.id = none) :
    useSlice h s = .fault .notLive := by
  simp [useSlice, hl]

theorem useSlice_notOwner {s : State} {h : Slice} {e : LiveEntry} (hl : findLive s.live h.id = some e)
    (hw : e.holder ≠ .caller s.agent) : useSlice h s = .fault .notOwner := by
  simp [useSlice, hl, hw]

/-- U3: a handle with a valid index that is not the one issued. -/
theorem useSlice_forged {s : State} {g h : Slice} (ho : Owns s g) (hid : h.id = g.id) (hne : h ≠ g)
    (hp : placeOf s.cfg h.idx ≠ .corrupt) : useSlice h s = .fault .forged := by
  have hsame : ¬ sameHandle s.cfg g h = true := fun hs => (sameHandle_iff.1 hs).elim hne hp
  have hl : findLive s.live h.id = some ⟨g, .caller s.agent⟩ := hid ▸ ho
  simp [useSlice, hl, hsame]

theorem useView_notLive {s : State} {v : View} (hl : findLive s.live v.slice.id = none) :
    useView v s = .fault .notLive := by
  simp [useView, hl]

/-- U3, U12: a view that the block has not issued, of a slice that no encoder has reused for it. -/
theorem useView_forged {s : State} {v : View} {e : LiveEntry} (hl : findLive s.live v.slice.id = some e)
    (hp : placeOf s.cfg v.slice.idx ≠ .corrupt) (hn : ¬ (v.slice = e.slice ∧ isLastView s e.holder v = true))
    (he : ∀ c, e.holder = .enc c → { v.slice with len := e.slice.len } ≠ e.slice) : useView v s = .fault .forged := by
  obtain ⟨g, who⟩ := e
  simp only [useView, hl, if_neg (not_or.2 ⟨hp, hn⟩)]
  cases who with
  | enc c => exact if_neg (he c rfl)
  | caller | frame | damagedFrame | dec => rfl

theorem useFrame_notLive {s : State} {f : Frame} (hl : findLive s.live f.buf.id = none) :
    useFrame f s = .fault .notLive := by
  simp [useFrame, hl]

/-- R281: the agent holds no frame on the slice. -/
theorem useFrame_notOwner {s : State} {f : Frame} {e : LiveEntry} (hl : findLive s.live f.buf.id = some e)
    (hn : ¬ HoldsFrame s f.buf.id) : useFrame f s = .fault .notOwner := by
  obtain ⟨g, who⟩ := e
  simp only [useFrame, hl]
  cases who with
  | frame a kind off len => exact if_neg fun h => hn ⟨_, hl, .inl ⟨kind, off, len, by rw [h]⟩⟩
  | damagedFrame a => exact if_neg fun h => hn ⟨_, hl, .inr (by rw [h])⟩
  | caller | dec | enc => rfl

/-- U3: a frame on a slice that the agent holds a frame on, with a valid index, which is not the one built. -/
theorem useFrame_forged {s : State} {f : Frame} (hh : HoldsFrame s f.buf.id) (hn : ¬ OwnsFrame s f)
    (hp : placeOf s.cfg f.buf.idx ≠ .corrupt) : useFrame f s = .fault .forged := by
  obtain ⟨⟨g, who⟩, hl, ⟨kind, off, len, hw⟩ | hw⟩ := hh <;> obtain rfl := hw
  · have hne : ¬ (f.buf = g ∧ kind = f.kind ∧ off = f.payOff ∧ len = f.payLen) := by
      rintro ⟨rfl, rfl, rfl, rfl⟩
      exact hn hl
    simp [useFrame, hl, hp, hne]
  · simp [useFrame, hl, hp]

/-- R127: after a release that answers, the handle is dead. -/
theorem exec_poolRelease_dead {s t : State} {h : Slice} (ho : Owns s h) (hp : placeOf s.cfg h.idx ≠ .corrupt)
    (hx : exec (.poolRelease h) s = .next t) : t.abort = false ∧ findLive t.live h.id = none := by
  dsimp only [exec] at hx
  obtain ⟨ha, hk⟩ := unlessAborted_eq_next.1 hx
  simp only [useSlice_owned ho, Res.bind_ok] at hk
  have hdead : findLive (dropLive s.live h.id) h.id = none := by simp [findLive_dropLive]
  rcases release_cases h s with ⟨hl, -⟩ | ⟨-, ⟨-, e⟩ | ⟨-, e⟩ | ⟨hc, -⟩⟩
  · exact absurd (hl.symm.trans ho) (by simp)
  · obtain rfl := by simpa [e, answer] using hk
    exact ⟨ha, hdead⟩
  · obtain rfl := by simpa [e, answer] using hk
    exact ⟨ha, hdead⟩
  · exact absurd hc hp

/-- Settles O43: the check of every operand asks first whether the id is live, and a release leaves it dead. -/
theorem deadHandlesFault : Obligations.DeadHandlesFault := by
  refine ⟨?_, fun s f ha hl => ?_, fun s t h ho hp hx => ?_⟩
  · rintro s h off n bs ty e flag v ha hl rfl
    have hslice := exec_slice_fault ha (useSlice_notLive hl) off n bs ty e flag
    have hview := exec_view_fault ha (useView_notLive hl) off n
    simp only [List.forall_mem_cons, List.not_mem_nil, false_implies, implies_true, and_true] at hslice ⊢
    obtain ⟨h1, h2, h3, h4, h5⟩ := hslice
    exact ⟨h1, h2, h3, hview, h4, h5⟩
  · exact exec_frame_fault ha (useFrame_notLive hl) fun c E => useFrame_notLive (s := claimEnc c E s) hl
  · obtain ⟨ha, hl⟩ := exec_poolRelease_dead ho hp hx
    exact exec_slice_fault ha (useSlice_notLive hl) 0 0 [] 0 0 false _ (.head _)

/-- Settles O45: a clause per check and reason, lifted to the operations with such an operand. -/
theorem foreignAndForgedHandlesFault : Obligations.ForeignAndForgedHandlesFault := by
  refine ⟨fun s h e off n bs ty x flag ha hl hw => ?_, fun s f e ha hl hn => ?_,
    fun s g h off n bs ty x flag ha ho hid hne hp => ?_, fun s f ha hh hn hp => ?_,
    fun s v e off n ha hl hp hn he => ?_⟩
  · exact exec_slice_fault ha (useSlice_notOwner hl hw) off n bs ty x flag
  · exact exec_frame_fault ha (useFrame_notOwner hl hn) fun c E => useFrame_notOwner (s := claimEnc c E s) hl hn
  · exact exec_slice_fault ha (useSlice_forged ho hid hne hp) off n bs ty x flag
  · exact exec_frame_fault ha (useFrame_forged hh hn hp) fun c E => useFrame_forged (s := claimEnc c E s) hh hn hp
  · exact exec_view_fault ha (useView_forged hl hp hn he) off n

end Sys2Proof.Machine
end

section
/-! The fault flag of a decoder (spec/10_state.md R32; spec/43_decoder.md R191; spec/45_system.md R226). -/

namespace Sys2Proof.Machine

/-- The decoder of connection `c`, if there is one, has this fault flag. -/
def FaultIs (c : Nat) (b : Bool) (s : State) : Prop := ∀ D, s.decs[c]? = some D → D.fault = b

theorem FaultIs.congr {c : Nat} {b : Bool} {s t : State} (h : FaultIs c b s) (hd : t.decs = s.decs) : FaultIs c b t :=
  fun D hD => h D (hd ▸ hD)

/-- No shared operation but the replacement of a decoder touches a flag. -/
theorem faultIs_stable (c : Nat) (b : Bool) : Stable (FaultIs c b) where
  ends _ _ _ h := h
  free _ _ h := h
  enc _ _ _ h := h
  holder _ _ _ h := h
  length _ _ _ h := h
  store _ _ _ _ h := h.congr (storeBytes_decs ..)
  acquire _ _ _ h := h.congr (acquire_decs ..)
  release _ _ _ h hr := by
    obtain ⟨-, -, -, -, -, hd, -⟩ := release_frame hr
    exact h.congr hd

theorem FaultIs.setDec {c j : Nat} {b : Bool} {D : DecState} {s : State} (h : FaultIs c b s)
    (hD : j = c → D.fault = b) : FaultIs c b (setDec j D s) := by
  intro E hE
  rcases getElem?_set_cases hE with ⟨hj, rfl⟩ | ⟨-, hE⟩
  · exact hD hj.symm
  · exact h E hE

/-- R32: the flag stays, but where `DEC.NEXT_FRAME` finds it clear or `DEC.RESET` finds it set. -/
theorem exec_keeps_fault {i : Instr} {s t : State} {c : Nat} {D D' : DecState} (hx : exec i s = .next t)
    (hD : s.decs[c]? = some D) (hD' : t.decs[c]? = some D') (hnext : i = .decNextFrame c → D.fault = true)
    (hreset : i = .decReset c → D.fault = false) : D'.fault = D.fault := by
  refine (faultIs_stable c D.fault).exec (s := s) (fun j E E' u hE hmove hu => hu.setDec ?_) ?_ hx D' hD'
  · rintro rfl
    obtain rfl := Option.some.inj (hD.symm.trans hE)
    rcases hmove with h | ⟨hi, h⟩ | ⟨hi, h⟩
    · exact h
    · exact h.trans (hnext hi).symm
    · exact h.trans (hreset hi).symm
  · exact fun E hE => congrArg _ (Option.some.inj (hE.symm.trans hD))

/-- A `DEC` operation that answers has gone on with the decoder of its connection. -/
theorem withDec_next {s t : State} {c : Nat} {D : DecState} {k : DecState → State → Res Response}
    (hx : unlessAborted s (fun s => withDec c s k) = .next t) (hD : s.decs[c]? = some D) :
    conclude (k { D with driver := some s.agent } (claimDec c D s)) = .next t := by
  have ha := (unlessAborted_eq_next.1 hx).1
  rw [unlessAborted_of ha] at hx
  rcases withDec_cases c s k with ⟨hn, -⟩ | ⟨E, -, -, -, e⟩ | ⟨E, ⟨hE, -⟩, e⟩
  · simp [hD] at hn
  · simp [e] at hx
  · obtain rfl := Option.some.inj (hD.symm.trans hE)
    rwa [e] at hx

/-- R191: `DEC.NEXT_FRAME` sets the flag where six bytes are there and are read as a header too long, and answers
`MALFORMED_HEADER`. -/
theorem execDecNextFrame_raises {s t : State} {c : Nat} {D D' : DecState} (hx : execDecNextFrame c s = .next t)
    (hD : s.decs[c]? = some D) (hD' : t.decs[c]? = some D') (hf : D.fault = false) (hf' : D'.fault = true) :
    D.phase = .ah ∧ D.missing = 0 ∧ t.resp = some { status := .malformedHeader, result := .nothing } ∧
      ∃ b h, D.buf = some b ∧ headerOfBytes (bytesAt s b 0 headerSize) = some h ∧
        s.cfg.maxMsg < h.msgLength.toNat := by
  have hk := withDec_next hx hD
  have hset : ∀ E : DecState, E.fault = false → t.decs ≠ (claimDec c D s).decs.set c E := fun E hE he => by
    rw [he, claimDec_decs, List.set_set, getElem?_set_same hD] at hD'
    rw [Option.some.inj hD', hf'] at hE
    cases hE
  have hclaim : t.decs ≠ (claimDec c D s).decs := fun he => hset { D with driver := some s.agent } hf (by simp [he])
  simp only [hf, Bool.false_eq_true, if_false] at hk
  split at hk
  · cases hk; exact absurd rfl hclaim
  · rename_i hm
    split at hk
    · cases hk
    · rename_i b hb
      split at hk
      · rename_i hp
        rcases memRead_cases b 0 headerSize (claimDec c D s) with ⟨e, -⟩ | e <;> rw [e] at hk
        · cases hk
        · simp only [Res.bind_ok, parsePhase] at hk
          split at hk
          · cases hk; exact absurd rfl hclaim
          · rename_i h hh
            split at hk
            · cases hk
              exact ⟨hp, Nat.eq_zero_of_not_pos hm, rfl, b, h, hb, hh, ‹_›⟩
            · cases hk; exact absurd rfl (hset _ rfl)
      · cases hk; exact absurd rfl (hset _ rfl)
      · cases hk; exact absurd rfl (hset _ rfl)

/-- Settles O35: the flag stays but where `DEC.NEXT_FRAME` raises it or `DEC.RESET` clears it; where it is raised, the
six bytes received are those of the header found too long. -/
theorem decoderFaultIsSticky : Obligations.DecoderFaultIsSticky := by
  refine fun i s t c D D' hx hD hD' => ⟨fun hf hf' => ?_, fun hf hf' => ?_⟩
  · obtain rfl : i = .decNextFrame c := by
      by_contra hi
      have := exec_keeps_fault hx hD hD' (fun h => absurd h hi) fun _ => hf
      simp [hf, hf'] at this
    obtain ⟨hp, hm, hr, b, h, hb, hh, hmax⟩ := execDecNextFrame_raises hx hD hD' hf hf'
    have hlt := h.msgLength.isLt
    exact ⟨rfl, hp, hm, hr, by omega, fun hs => ⟨b, h, hb, hs.stored_header hD hb hp hm hh, hmax⟩⟩
  · by_contra hi
    have := exec_keeps_fault hx hD hD' (fun _ => hf) fun h => absurd h hi
    simp [hf, hf'] at this

end Sys2Proof.Machine
end

section
/-! What a store leaves in memory (spec/20_memory.md R64, R65): of `POOL.WR` (spec/40_pool.md R131) and `DEC.FILL`
(spec/43_decoder.md R186). -/

namespace Sys2Proof.Machine

/-- R251(1): an operation that has a next state began with `ABORT` clear. -/
theorem abort_of_exec_next {i : Instr} {s t : State} (hx : exec i s = .next t) : s.abort = false := by
  by_contra ha
  simp [exec_of_abort (by simpa using ha) i] at hx

/-! ### Outside the bytes stored -/

/-- R64: a store changes no address of `POOLMEM` outside those it addresses. -/
theorem storeBytes_poolmem_read {s : State} (hm : MemoryOk s) (h : Slice) (off : Nat) (bs : List Byte) {a : Nat}
    (ha : ¬ (h.off + off ≤ a ∧ a < h.off + off + bs.length)) :
    (storeBytes h off bs s).poolmem.read a = s.poolmem.read a := by
  unfold storeBytes
  split
  · simp only [Memory.read_writeAll _ _ hm.pool, if_neg ha]
  · rfl
  · rfl

/-- R64: a store through a heap-backed slice is a write of its buffer, and of nothing in `POOLMEM`. -/
theorem storeBytes_of_untracked {s : State} {h : Slice} (hi : h.idx = s.cfg.untracked) (off : Nat) (bs : List Byte) :
    storeBytes h off bs s = { s with heap := writeHeap s.heap h.id off bs } := by
  simp only [storeBytes, placeOf_heap.2 hi]

/-- R64: a store through any other slice changes no heap buffer. -/
theorem storeBytes_heap_of_tracked {s : State} {h : Slice} (hi : h.idx ≠ s.cfg.untracked) (off : Nat)
    (bs : List Byte) : (storeBytes h off bs s).heap = s.heap := by
  unfold storeBytes
  split
  · rfl
  · rename_i hp; exact absurd (placeOf_heap.1 hp) hi
  · rfl

/-- R65: a store changes no heap buffer but that of its slice. -/
theorem findHeap_storeBytes_ne {s : State} {h : Slice} {j : Nat} (hj : j ≠ h.id) (off : Nat) (bs : List Byte) :
    findHeap (storeBytes h off bs s).heap j = findHeap s.heap j := by
  by_cases hi : h.idx = s.cfg.untracked
  · simp [storeBytes_of_untracked hi, findHeap_writeHeap, hj]
  · rw [storeBytes_heap_of_tracked hi]

/-! ### `POOL.WR` -/

/-- R131: a write in the bounds of the agent's own slice stores the bytes. -/
theorem exec_poolWr_next {s t : State} {h : Slice} {off : Nat} {bs : List Byte} (hs : BlockOk s) (ho : Owns s h)
    (hin : off + bs.length ≤ h.len) (hx : exec (.poolWr h off bs) s = .next t) :
    t = answered .ok .nothing (storeBytes h off bs s) := by
  have hw := memWrite_of_live hs.pool (findLive_some ho).1 hin
  have ha := abort_of_exec_next hx
  simp only [exec, execPoolWr, unlessAborted_of ha, useSlice_owned ho, Res.bind_ok, if_pos hin, hw] at hx
  cases hx
  rfl

/-- Settles O17: the write is one store through a live slice, and each clause is what a store leaves there. -/
theorem writeChangesOnlyTheAddressedBytes : Obligations.WriteChangesOnlyTheAddressedBytes := by
  intro s t h off bs hs ho hin hx
  obtain rfl := exec_poolWr_next hs ho hin hx
  have hl := (findLive_some ho).1
  refine ⟨storedByte_storeBytes_self hs.memory hs.pool hl off bs, fun e he hne o hlt => ?_,
    fun a ha => storeBytes_poolmem_read hs.memory h off bs ha, fun hi => ?_,
    fun j hj => findHeap_storeBytes_ne hj off bs, fun hi => storeBytes_heap_of_tracked hi off bs, ?_⟩
  · exact storedByte_storeBytes_other hs.cfg hs.memory hs.pool hl he (Ne.symm hne) hin hlt
  · simp [answered, storeBytes_of_untracked hi]
  · simp [answered]

/-! ### `DEC.FILL` -/

/-- R186: a fill that answers is refused, and then changes nothing but the driver, or stores the bytes in the window,
inside the decoder's buffer, and moves the counters. -/
theorem exec_decFill_next {s t : State} {c : Nat} {D : DecState} {b : Slice} {bs : List Byte} (hs : BlockOk s)
    (hD : s.decs[c]? = some D) (hb : D.buf = some b) (hx : exec (.decFill c bs) s = .next t) :
    t = answered .refused .nothing (claimDec c D s) ∨
    (D.received + bs.length ≤ b.len ∧ t = answered .ok .nothing
      (setDec c { D with received := D.received + bs.length, missing := D.missing - bs.length, driver := some s.agent }
        (storeBytes b D.received bs (claimDec c D s)))) := by
  have hk := withDec_next hx hD
  have hcount := (hs.decOk hD).count
  simp only [unlessFaulted] at hk
  split at hk
  · cases hk; exact .inl rfl
  · split at hk
    · rename_i hn; exact absurd (hb.symm.trans hn) (by simp)
    · rename_i g hg
      obtain rfl := Option.some.inj (hb.symm.trans hg)
      split at hk
      · rename_i hwin
        obtain ⟨hlen : b.len = target s.cfg D, hle⟩ := hwin
        have hin : D.received + bs.length ≤ b.len := by omega
        rw [memWrite_of_live (hs.claimDec hD).pool (hs.decBuf hD hb) hin] at hk
        cases hk
        exact .inr ⟨hin, rfl⟩
      · cases hk; exact .inl rfl

/-- Settles O32: a refused fill touches no byte, and any other is one store through the decoder's buffer. -/
theorem fillChangesOnlyTheWindow : Obligations.FillChangesOnlyTheWindow := by
  intro s t c D b bs hs ⟨hD, _⟩ hb hx
  have hdec : ∀ E j, j ≠ c → (s.decs.set c E)[j]? = s.decs[j]? := fun E j hj => List.getElem?_set_ne (Ne.symm hj)
  rcases exec_decFill_next hs hD hb hx with rfl | ⟨hin, rfl⟩
  · exact ⟨fun o => by simp [answered]; rfl, fun _ _ _ _ _ => rfl, fun _ _ => rfl, fun _ => rfl, fun _ _ => rfl,
      hdec _, rfl, rfl, rfl, rfl, rfl, rfl, rfl⟩
  · have hu := hs.claimDec hD
    have hl := hs.decBuf hD hb
    refine ⟨fun o => ?_, fun e he hne o hlt => ?_, fun a ha => storeBytes_poolmem_read hu.memory b _ bs ha,
      fun hi => ?_, fun j hj => findHeap_storeBytes_ne hj _ bs, fun j hj => ?_, ?_⟩
    · exact (storedByte_storeBytes_self hu.memory hu.pool hl D.received bs o).trans
        (if_congr (by simp [answered]) rfl rfl)
    · exact storedByte_storeBytes_other hu.cfg hu.memory hu.pool hl he (Ne.symm hne) hin hlt
    · simp [answered, storeBytes_of_untracked (s := claimDec c D s) hi]
    · simp [answered, List.set_set, hdec _ j hj]
    · simp [answered]

end Sys2Proof.Machine
end

section
/-! What `DEC.WRITABLE` leaves (spec/43_decoder.md R184, R185; spec/20_memory.md R64, R65): each of its forms gives the
decoder a buffer and touches nothing else. -/

namespace Sys2Proof.Machine

/-- R184: `t` is `s` with the buffer of decoder `c`, which is `D`, replaced by `n`: what no form of `DEC.WRITABLE` that
gives the decoder a buffer touches. -/
structure Rebuffered (s t : State) (c : Nat) (D : DecState) (n : Slice) : Prop where
  decs : t.decs = s.decs.set c { D with buf := some n }
  encs : t.encs = s.encs
  cfg : t.cfg = s.cfg
  abort : t.abort = s.abort
  live : ∀ e ∈ s.live, D.buf.map Slice.id ≠ some e.slice.id → findLive t.live e.slice.id = some e
  bytes : ∀ e ∈ s.live, D.buf.map Slice.id ≠ some e.slice.id → ∀ o < e.slice.cap,
    storedByte t e.slice o = storedByte s e.slice o
  poolmem : ∀ a, ¬ (n.off ≤ a ∧ a < n.off + D.received) → t.poolmem.read a = s.poolmem.read a
  heapBacked : n.idx = s.cfg.untracked → t.poolmem = s.poolmem
  mask : ∀ j, 1 ≤ j → j ≤ 8 → j ≠ n.idx → (∀ b, D.buf = some b → b.idx ≠ j) →
    slotTaken t.mask j = slotTaken s.mask j

/-- R184: a first buffer is acquired. -/
theorem BlockOk.rebuffered_acquire {s : State} (hs : BlockOk s) (c : Nat) (D : DecState) :
    Rebuffered s (Machine.setDec c { D with buf := some (acquire (target s.cfg D) (.dec c) s).1 }
      (acquire (target s.cfg D) (.dec c) s).2) c D (acquire (target s.cfg D) (.dec c) s).1 where
  decs := by simp
  encs := by simp
  cfg := by simp
  abort := by simp
  live e he _ := by rw [setDec_live, hs.find_acquire, if_neg (hs.old he), hs.find he]
  bytes _ he _ _ ho := storedByte_acquire hs.cfg hs.memory hs.pool _ _ he ho
  poolmem _ _ := by simp
  heapBacked _ := by simp
  mask _ j1 j8 hn _ := acquire_slotTaken hs.cfg _ _ j1 j8 hn

/-- R38, R184: the buffer is lengthened in place. -/
theorem BlockOk.rebuffered_lengthen {s : State} (hs : BlockOk s) (c : Nat) {D : DecState} {b : Slice}
    (hb : D.buf = some b) (len : Nat) :
    Rebuffered s (Machine.setDec c { D with buf := some { b with len := len } } (Machine.setSliceLen b.id len s)) c D
      { b with len := len } where
  decs := rfl
  encs := rfl
  cfg := rfl
  abort := rfl
  live e he hne := by
    have hid : e.slice.id ≠ b.id := fun h => hne (by simp [hb, h])
    rw [setDec_live, find_setSliceLen, hs.find he]
    simp [hid]
  bytes _ _ _ _ _ := rfl
  poolmem _ _ := rfl
  heapBacked _ := rfl
  mask _ _ _ _ _ := rfl

/-- R184, R185: the buffer is replaced, the bytes received copied, and the old one released. -/
theorem BlockOk.rebuffered_reallocate {s : State} (hs : BlockOk s) {c : Nat} {D : DecState} {b : Slice}
    (hD : s.decs[c]? = some D) (hb : D.buf = some b) (hlt : b.len < target s.cfg D) :
    ∃ t n, reallocate c D b s = window D t ∧ Rebuffered s t c D n := by
  obtain ⟨t, e, ht, hl, hds, hes, hc, ha, -, -, hbytes, hpool, hheap, hmask⟩ := reallocate_ok hs hD hb hlt rfl
  have hid : ∀ e : LiveEntry, D.buf.map Slice.id ≠ some e.slice.id → e.slice.id ≠ b.id :=
    fun e hne h => hne (by simp [hb, h])
  refine ⟨t, _, e, hds, hes, hc, ha, fun e he hne => ht.find ?_, fun e he hne => hbytes e he (hid e hne), hpool, hheap,
    fun j j1 j8 hn ho => hmask j j1 j8 hn (ho b hb).symm⟩
  rw [hl]
  exact mem_dropLive.2 ⟨List.mem_append_left _ he, hid e hne⟩

/-- R184: `DEC.WRITABLE` changes nothing but the driver, or gives the decoder a buffer. -/
theorem exec_decWritable_next {s t : State} {c : Nat} {D : DecState} (hs : BlockOk s) (hD : s.decs[c]? = some D)
    (hx : exec (.decWritable c) s = .next t) :
    ∃ u r, t = { u with resp := r } ∧
      (u = claimDec c D s ∨ ∃ n, Rebuffered (claimDec c D s) u c { D with driver := some s.agent } n) := by
  have hk := withDec_next hx hD
  have hu := hs.claimDec hD
  simp only [unlessFaulted] at hk
  split at hk
  · cases hk; exact ⟨_, _, rfl, .inl rfl⟩
  · split at hk
    · cases hk; exact ⟨_, _, rfl, .inr ⟨_, hu.rebuffered_acquire c _⟩⟩
    · rename_i b hb
      split at hk
      · rename_i hlt
        split at hk
        · cases hk; exact ⟨_, _, rfl, .inr ⟨_, hu.rebuffered_lengthen c (D := { D with driver := some s.agent }) hb _⟩⟩
        · obtain ⟨v, n, e, hv⟩ := hu.rebuffered_reallocate (getElem?_set_same hD) hb hlt
          rw [e] at hk
          cases hk; exact ⟨_, _, rfl, .inr ⟨n, hv⟩⟩
      · cases hk; exact ⟨_, _, rfl, .inl rfl⟩

/-- Settles O30: the step leaves the claimed state as it is, or gives the decoder a buffer, which is then the one that
the statement names. -/
theorem writableChangesOnlyItsDecoderAndBuffer : Obligations.WritableChangesOnlyItsDecoderAndBuffer := by
  intro s t c D hs ⟨hD, _⟩ hx
  have ha : s.abort = false := abort_of_exec_next hx
  have hother : ∀ E j, j ≠ c → (s.decs.set c E)[j]? = s.decs[j]? := fun E j hj => List.getElem?_set_ne (Ne.symm hj)
  obtain ⟨u, r, rfl, rfl | ⟨n, hn⟩⟩ := exec_decWritable_next hs hD hx
  · exact ⟨fun e he _ => ⟨hs.find he, fun _ _ => rfl⟩, fun _ _ => rfl, fun _ _ _ _ _ => rfl, hother _, rfl, rfl, ha,
      fun _ _ _ _ _ => rfl⟩
  · obtain ⟨hds, hes, hc, hab, hlive, hbytes, hpool, hheap, hmask⟩ := hn
    replace hds : u.decs = s.decs.set c { D with buf := some n, driver := some s.agent } := by
      rw [hds, claimDec_decs, List.set_set]
    have hnew : u.decs[c]? = some { D with buf := some n, driver := some s.agent } := by
      rw [hds, getElem?_set_same hD]
    refine ⟨fun e he hne => ⟨hlive e he hne, hbytes e he hne⟩, fun a hout => hpool a (hout _ n hnew rfl),
      fun D' m hD' hm hi => ?_, fun j hj => ?_, hes, hc, hab.trans ha,
      fun j j1 j8 hold hout => hmask j j1 j8 (hout _ n hnew rfl).symm hold⟩
    · obtain rfl := Option.some.inj (hnew.symm.trans hD')
      obtain rfl := Option.some.inj hm
      exact hheap hi
    · simpa only [hds] using hother _ j hj

end Sys2Proof.Machine
end

section
/-! What `ENC.ENCODE` leaves (spec/44_encoder.md R210, R214; spec/20_memory.md R64, R65): choosing the scratch buffer
and writing the output touch the encoder, its old and new buffer, and no other slice; the release, the frame's alone. -/

namespace Sys2Proof.Machine

/-- R210: `u` is `s` with the frame `f` written into the scratch buffer `b` of encoder `c`, which is `E`: what the
choice of the buffer and the writing leave. -/
structure WroteFrame (s u : State) (c : Nat) (E : EncState) (f : Frame) (b : Slice) : Prop where
  ok : BlockOk u
  encs : u.encs = s.encs.set c { E with buf := some b }
  decs : u.decs = s.decs
  cfg : u.cfg = s.cfg
  abort : u.abort = s.abort
  live : ∀ e ∈ s.live, E.buf.map Slice.id ≠ some e.slice.id → e ∈ u.live
  bytes : ∀ e ∈ s.live, E.buf.map Slice.id ≠ some e.slice.id → ∀ o < e.slice.cap,
    storedByte u e.slice o = storedByte s e.slice o
  poolmem : ∀ a, ¬ (b.off ≤ a ∧ a < b.off + wireLength s.cfg f) → u.poolmem.read a = s.poolmem.read a
  heapBacked : b.idx = s.cfg.untracked → u.poolmem = s.poolmem
  mask : ∀ j, 1 ≤ j → j ≤ 8 → (∀ o, E.buf = some o → j ≠ o.idx) → j ≠ b.idx → slotTaken u.mask j = slotTaken s.mask j

/-- R281: a slice that encoder `c` does not hold as its buffer is not its buffer. -/
theorem BlockOk.encBuf_ne {s : State} (hs : BlockOk s) {c : Nat} {E : EncState} (hE : s.encs[c]? = some E)
    {e : LiveEntry} (he : e ∈ s.live) (hw : e.holder ≠ .enc c) : E.buf.map Slice.id ≠ some e.slice.id := by
  intro h
  obtain ⟨g, hg, hid⟩ := Option.map_eq_some_iff.1 h
  exact hw (hs.sameId (hs.encBuf hE hg) he hid ▸ rfl)

/-- R281: a live slice that is not the buffer of encoder `c` is not held by it. -/
theorem BlockOk.holder_ne_enc {s : State} (hs : BlockOk s) {c : Nat} {E : EncState} (hE : s.encs[c]? = some E)
    {e : LiveEntry} (he : e ∈ s.live) (hne : E.buf.map Slice.id ≠ some e.slice.id) : e.holder ≠ .enc c := by
  intro hw
  obtain ⟨E', hE', hb⟩ := hs.holders.encHeld e he c hw
  obtain rfl := Option.some.inj (hE.symm.trans hE')
  exact hne (by rw [hb]; rfl)

/-- R210: on a Frame operand that passed, the scratch buffer is chosen and the output written, without a fault. -/
theorem BlockOk.wroteFrame {s : State} (hs : BlockOk s) {c : Nat} {E : EncState} (hE : s.encs[c]? = some E) {f : Frame}
    (hf : OwnsFrame s f ∨ placeOf s.cfg f.buf.idx = .corrupt) :
    ∃ b t u, scratch c (wireLength s.cfg f) E s = .ok b t ∧ writeFrame b f t = .ok () u ∧ WroteFrame s u c E f b := by
  obtain ⟨t, b, ht, hst, htE, hlen, htD, htc, hta, -, htp, htm, hkeep, -⟩ := scratch_ok hs hE (wireLength s.cfg f)
  have hb : (⟨b, .enc c⟩ : LiveEntry) ∈ t.live := hst.encBuf (htE ▸ getElem?_set_same hE) rfl
  have hid : ∀ e ∈ s.live, E.buf.map Slice.id ≠ some e.slice.id → e.slice.id ≠ b.id := fun e he hne h =>
    hs.holder_ne_enc hE he hne (hst.sameId (hkeep e he hne).1 hb h ▸ rfl)
  have henc : Encodable t b f := by
    refine hf.imp (fun ho => ?_) (htc ▸ id)
    have hm := (findLive_some ho).1
    have hne := hs.encBuf_ne hE hm (by simp)
    exact ⟨_, (hkeep _ hm hne).1, hid _ hm hne, htc ▸ hs.holders.frames _ hm _ _ _ _ rfl⟩
  obtain ⟨u, hu, hsu, hul, huD, huE, huc, hua, -, -, hum, hbytes, hpool, hheap, -⟩ :=
    writeFrame_ok hst hb (by rw [hlen, htc]) henc
  refine ⟨b, t, u, ht, hu, hsu, huE.trans htE, huD.trans htD, huc.trans htc, hua.trans hta,
    fun e he hne => hul ▸ (hkeep e he hne).1, fun e he hne o ho => ?_, fun a ha => ?_, fun hi => ?_,
    fun j j1 j8 ho hj => ?_⟩
  · rw [hbytes e (hkeep e he hne).1 (hid e he hne) o ho, (hkeep e he hne).2 o ho]
  · rw [hpool a (by rwa [htc]), htp]
  · rw [hheap (by rwa [htc]), htp]
  · rw [hum, htm j j1 j8 hj ho]

/-- R210, R214: `ENC.ENCODE` of the agent's own frame writes it, releases the frame's buffer, and counts the output. -/
theorem exec_encEncode_next {s t : State} {c : Nat} {E : EncState} {f : Frame} (hs : BlockOk s) (hE : DrivesEnc s c E)
    (ho : OwnsFrame s f) (hx : exec (.encEncode c f) s = .next t) :
    ∃ b u v E' r, WroteFrame (claimEnc c E s) u c { E with driver := some s.agent } f b ∧ release f.buf u = .ok () v ∧
      E'.buf = some b ∧ t = { setEnc c E' v with resp := r } := by
  have hE' : (claimEnc c E s).encs[c]? = some { E with driver := some s.agent } := getElem?_set_same hE.1
  have hu := hs.claimEnc hE.1
  have ho' : OwnsFrame (claimEnc c E s) f := ho
  obtain ⟨b, v, u, h1, h2, hw⟩ := hu.wroteFrame hE' (.inl ho')
  have hm := (findLive_some ho').1
  obtain ⟨w, h3⟩ := release_of_live hw.ok.pool (hw.live _ hm (hu.encBuf_ne hE' hm (by simp)))
  simp only at h3
  simp only [exec, execEncEncode, unlessAborted_of (abort_of_exec_next hx), withEnc_of hE, useFrame_owned ho',
    Res.bind_ok, h1, h2, h3] at hx
  cases hx
  exact ⟨b, u, w, _, _, hw, h3, rfl, rfl⟩

/-- Settles O40: the frame is written (`WroteFrame`), and then only its own buffer is released. -/
theorem encodeChangesOnlyItsEncoderAndFrame : Obligations.EncodeChangesOnlyItsEncoderAndFrame := by
  intro s t c E f hs ha hE ho hx
  obtain ⟨b, u, v, E', r, hw, hr, hb, rfl⟩ := exec_encEncode_next hs hE ho hx
  obtain ⟨hl, -, hpm, -, hab, hds, hes, hc, -⟩ := release_frame hr
  have hvE : v.encs = s.encs.set c { E with buf := some b, driver := some s.agent } := by
    rw [hes, hw.encs, claimEnc_encs, List.set_set]
  have hnew : (setEnc c E' v).encs[c]? = some E' := by
    rw [setEnc_encs, hvE, List.set_set, getElem?_set_same hE.1]
  refine ⟨fun e he hnf hne => ⟨?_, fun o hlt => ?_⟩, fun a hout => ?_, fun F g hF hg hi => ?_,
    fun j j1 j8 hjf hold hout => ?_, fun j hj => ?_, hds.trans hw.decs, hc.trans hw.cfg,
    hab.trans (hw.abort.trans ha)⟩
  · simp only [setEnc_live, hl, findLive_dropLive, if_neg hnf]
    exact hw.ok.find (hw.live e he hne)
  · exact (storedByte_release hr hnf o).trans (hw.bytes e he hne o hlt)
  · exact (congrArg (Memory.read · a) hpm).trans (hw.poolmem a (hout E' b hnew hb))
  · obtain rfl := Option.some.inj (hnew.symm.trans hF)
    obtain rfl := Option.some.inj (hb.symm.trans hg)
    exact hpm.trans (hw.heapBacked hi)
  · exact (release_slotTaken hw.ok.cfg hr j1 j8 hjf).trans (hw.mask j j1 j8 hold (hout E' b hnew hb))
  · show (v.encs.set c E')[j]? = s.encs[j]?
    rw [hvE, List.set_set, List.getElem?_set_ne (Ne.symm hj)]

end Sys2Proof.Machine
end

section
/-! The hand-over of a slice or a frame (spec/20_memory.md R75; spec/70_reset_and_hazards.md R281). -/

namespace Sys2Proof.Machine

/-- R75: a hand-over at the head of the queue is the next step of a block that is not aborted. -/
theorem step_of_handOver {s : State} {a b : Nat} {item : Item} {rest : List Input} (ha : s.abort = false)
    (hi : s.inbox = .handOver a item b :: rest) :
    step s = concludeEvent (handOver a item b { s with inbox := rest }) := by
  simp [step, fetch, hi, ha]

/-- R281: a hand-over that gives a live slice another holder changes that slice's entry alone. -/
theorem step_of_handOver_ok {s : State} {a b id : Nat} {rest : List Input} {e : LiveEntry} {who : Holder}
    (ha : s.abort = false) (hi : s.inbox = .handOver a (.handle id) b :: rest) (hl : findLive s.live id = some e)
    (hg : handOver a (.handle id) b { s with inbox := rest } = .ok () (setHolder id who { s with inbox := rest })) :
    ∃ t, step s = .next t ∧ findLive t.live id = some { e with holder := who } ∧
      (∀ g o, storedByte t g o = storedByte s g o) ∧ t.mask = s.mask ∧ t.decs = s.decs ∧ t.encs = s.encs ∧
      ∀ j, j ≠ id → findLive t.live j = findLive s.live j := by
  refine ⟨{ setHolder id who { s with inbox := rest } with resp := none }, ?_, ?_, fun _ _ => rfl, rfl, rfl, rfl,
    fun j hj => ?_⟩
  · rw [step_of_handOver ha hi, hg]; rfl
  · exact (find_setHolder ..).trans (by simp [hl])
  · exact (find_setHolder ..).trans (by simp [hj])

/-- U3, R281: a slice that the agent holds neither itself nor in a frame of its own is not its to hand over. -/
theorem handOver_notOwner {s : State} {a id : Nat} (b : Nat) {e : LiveEntry} (hl : findLive s.live id = some e)
    (hw : e.holder ≠ .caller a) (hn : ¬ HoldsFrame { s with agent := a } id) :
    handOver a (.handle id) b s = .fault .notOwner := by
  obtain ⟨g, who⟩ := e
  simp only [handOver, hl]
  cases who with
  | caller d => exact if_neg fun h => hw (by rw [h])
  | frame d kind off len => exact if_neg fun h => hn ⟨_, hl, .inl ⟨kind, off, len, by rw [h]⟩⟩
  | damagedFrame d => exact if_neg fun h => hn ⟨_, hl, .inr (by rw [h])⟩
  | dec c => rfl
  | enc c => rfl

/-- Settles O48: the three holders that an agent's hand-over changes, and the two faults of the others. -/
theorem handOverMovesOwnership : Obligations.HandOverMovesOwnership := by
  refine fun s a b id rest ha hi => ⟨fun h hid hl => ?_, fun f hid hl => ?_, fun hl => ?_, fun e hl =>
    ⟨fun hw => ?_, fun hw hn => ?_⟩⟩
  · obtain ⟨t, hx, ht, hrest⟩ := step_of_handOver_ok (who := .caller b) ha hi hl (by simp [handOver, hl])
    exact ⟨t, hx, by rw [Owns, hid]; exact ht, hrest⟩
  · obtain ⟨t, hx, ht, hrest⟩ :=
      step_of_handOver_ok (who := .frame b f.kind f.payOff f.payLen) ha hi hl (by simp [handOver, hl])
    exact ⟨t, hx, by rw [OwnsFrame, hid]; exact ht, hrest⟩
  · rw [step_of_handOver ha hi]
    simp [handOver, hl, concludeEvent]
  · exact step_of_handOver_ok (who := .damagedFrame b) ha hi hl (by simp [handOver, hl, hw])
  · rw [step_of_handOver ha hi, handOver_notOwner (s := { s with inbox := rest }) b hl hw hn]
    rfl

end Sys2Proof.Machine
end

section
/-! Connections are apart (spec/20_memory.md R71; spec/70_reset_and_hazards.md R260): every part of an operation leaves
the decoders and encoders, but for the replacement of those of the connection that the operation names. -/

namespace Sys2Proof.Machine

/-- R100: the connection whose decoder an operation names. -/
def decOf : Instr → Option Nat
  | .decWritable c | .decFill c _ | .decNextFrame c | .decSetMode c _ | .decReset c | .decStatus c => some c
  | _ => none

/-- R100: the connection whose encoder an operation names. -/
def encOf : Instr → Option Nat
  | .encEncode c _ | .encReset c | .encStatus c => some c
  | _ => none

/-- The decoders and encoders of `u` are those of `s`, but for the connection that `i` names. -/
structure Apart (i : Instr) (s u : State) : Prop where
  decs : ∀ c, decOf i ≠ some c → u.decs[c]? = s.decs[c]?
  encs : ∀ c, encOf i ≠ some c → u.encs[c]? = s.encs[c]?

namespace Apart

variable {i : Instr} {s u : State}

theorem refl (i : Instr) (s : State) : Apart i s s := ⟨fun _ _ => rfl, fun _ _ => rfl⟩

theorem congr {v : State} (h : Apart i s u) (hd : v.decs = u.decs) (he : v.encs = u.encs) : Apart i s v :=
  ⟨fun c hc => hd ▸ h.decs c hc, fun c hc => he ▸ h.encs c hc⟩

theorem setDec (h : Apart i s u) {c : Nat} (hi : decOf i = some c) (D : DecState) : Apart i s (setDec c D u) where
  decs j hj := (List.getElem?_set_ne fun e => hj (hi.trans (congrArg some e))).trans (h.decs j hj)
  encs := h.encs

theorem setEnc (h : Apart i s u) {c : Nat} (hi : encOf i = some c) (E : EncState) : Apart i s (setEnc c E u) where
  decs := h.decs
  encs j hj := (List.getElem?_set_ne fun e => hj (hi.trans (congrArg some e))).trans (h.encs j hj)

theorem acquire (h : Apart i s u) (len : Nat) (who : Holder) : Apart i s (acquire len who u).2 :=
  h.congr (acquire_decs ..) (acquire_encs ..)

theorem releaseTo {v : State} (h : Apart i s u) {x : Slice} (hr : release x u = .ok () v) : Apart i s v := by
  obtain ⟨-, -, -, -, -, hd, he, -⟩ := release_frame hr
  exact h.congr hd he

theorem counted (h : Apart i s u) (n : Nat) : Apart i s { u with free := n } := h.congr rfl rfl

theorem answered (h : Apart i s u) (r : Option Response) : Apart i s { u with resp := r } := h.congr rfl rfl

theorem aborted (h : Apart i s u) : Apart i s (takeAbort u) := h.congr rfl rfl

theorem lengthened (h : Apart i s u) (id n : Nat) : Apart i s (setSliceLen id n u) := h.congr rfl rfl

/-- An operation leaves the connections where its own part does. -/
theorem next {t : State} {k : State → Res Response} (hx : unlessAborted s k = .next t) (hk : Keeps (Apart i s) (k s)) :
    Apart i s t := Keeps.next (fun _ r h => h.answered r) (fun _ h => h.aborted) hk hx

/-! ### The shared parts -/

theorem memRead (h : Apart i s u) (x : Slice) (off n : Nat) : Keeps (Apart i s) (memRead x off n u) :=
  Keeps.memRead h.counted x off n

theorem memWrite (h : Apart i s u) (x : Slice) (off : Nat) (bs : List Byte) :
    Keeps (Apart i s) (memWrite x off bs u) :=
  Keeps.memWrite x off bs (h.congr (storeBytes_decs ..) (storeBytes_encs ..))

theorem release (h : Apart i s u) (x : Slice) : Keeps (Apart i s) (release x u) :=
  Keeps.release x h fun _ hr => h.releaseTo hr

theorem releaseHeld (h : Apart i s u) (b : Option Slice) : Keeps (Apart i s) (releaseHeld b u) :=
  Keeps.releaseHeld b h fun _ _ hr => h.releaseTo hr

theorem giveToFrame (h : Apart i s u) (kind : FrameKind) (b : Slice) (off len : Nat) :
    Keeps (Apart i s) (giveToFrame kind b off len u) := Keeps.ok (h.congr rfl rfl)

theorem readPayload (h : Apart i s u) (f : Frame) (off n : Nat) : Keeps (Apart i s) (readPayload f off n u) :=
  Keeps.readPayload h.counted f off n

/-- R210: a new scratch buffer replaces the encoder of its own connection. -/
theorem newScratch (h : Apart i s u) {c : Nat} (hi : encOf i = some c) (need : Nat) (E : EncState) :
    Keeps (Apart i s) (Res.ok (Machine.acquire need (.enc c) u).1
      (Machine.setEnc c E (Machine.acquire need (.enc c) u).2)) :=
  Keeps.ok ((h.acquire _ _).setEnc hi _)

theorem scratch (h : Apart i s u) {c : Nat} (hi : encOf i = some c) (need : Nat) (E : EncState) :
    Keeps (Apart i s) (scratch c need E u) := by
  unfold Machine.scratch
  split
  · exact h.newScratch hi _ _
  · split
    · exact Keeps.ok ((h.lengthened _ _).setEnc hi _)
    · exact (h.release _).bind fun _ _ h => h.newScratch hi _ _

theorem writeFrame (h : Apart i s u) (b : Slice) (f : Frame) : Keeps (Apart i s) (writeFrame b f u) := by
  unfold Machine.writeFrame
  split
  · exact (h.memWrite _ _ _).bind fun _ _ h => (h.readPayload _ _ _).bind fun _ _ h => h.memWrite _ _ _
  · exact (h.readPayload _ _ _).bind fun _ _ h => h.memWrite _ _ _

theorem reallocate (h : Apart i s u) {c : Nat} (hi : decOf i = some c) (D : DecState) (b : Slice) :
    Keeps (Apart i s) (reallocate c D b u) :=
  ((h.acquire _ _).memRead _ _ _).bind fun _ _ h => (h.memWrite _ _ _).bind fun _ _ h =>
    (h.release _).bind fun _ _ h => Keeps.ok (h.setDec hi _)

theorem parsePhase (h : Apart i s u) {c : Nat} (hi : decOf i = some c) (D : DecState) (bs : List Byte) :
    Keeps (Apart i s) (parsePhase c D bs u) := by
  unfold Machine.parsePhase
  split
  · exact Keeps.ok h
  · split
    · exact Keeps.ok (h.setDec hi _)
    · exact Keeps.ok (h.setDec hi _)

/-! ### The operations -/

/-- R280: a `DEC` operation goes on with the decoder of its connection claimed. -/
theorem withDec {c : Nat} {k : DecState → State → Res Response} (hi : decOf i = some c)
    (hk : ∀ D u, Apart i s u → Keeps (Apart i s) (k D u)) : Keeps (Apart i s) (withDec c s k) :=
  Keeps.withDec (refl i s) fun _ _ => hk _ _ ((refl i s).setDec hi _)

/-- R280: an `ENC` operation goes on with the encoder of its connection claimed. -/
theorem withEnc {c : Nat} {k : EncState → State → Res Response} (hi : encOf i = some c)
    (hk : ∀ E u, Apart i s u → Keeps (Apart i s) (k E u)) : Keeps (Apart i s) (withEnc c s k) :=
  Keeps.withEnc (refl i s) fun _ _ => hk _ _ ((refl i s).setEnc hi _)

/-- R71, R260: every operation. -/
theorem exec {t : State} (hx : exec i s = .next t) : Apart i s t := by
  have h := refl i s
  cases i <;> dsimp only [Machine.exec] at hx
  case poolAcquire len => exact next hx (Keeps.ok (h.acquire _ _))
  case poolRelease x =>
    exact next hx ((Keeps.useSlice h x).bind fun _ _ h => (h.release x).bind fun _ _ h => Keeps.ok h)
  case poolWr x off bs =>
    refine next hx ((Keeps.useSlice h x).bind fun _ _ h => ?_)
    split
    · exact (h.memWrite _ _ _).bind fun _ _ h => Keeps.ok h
    · exact Keeps.ok h
  case poolRd r off n =>
    exact Keeps.execPoolRd (fun _ r h => h.answered r) (fun _ h => h.aborted) (fun _ n h => h.counted n) h hx
  case poolStatus | hdrSerialize | hdrChid | hdrMsgtype | hdrMsglen | wireHeader => exact next hx (Keeps.ok h)
  case hdrParse bs => exact next hx (by split <;> exact Keeps.ok h)
  case hdrBuild e ty len => exact next hx (by split <;> exact Keeps.ok h)
  case frmFromMessage p ty e flag =>
    refine next hx ((Keeps.useSlice h p).bind fun _ _ h => ?_)
    split
    · exact Keeps.ok h
    · exact h.giveToFrame _ _ _ _
  case frmHeader f => exact next hx ((Keeps.useFrame h f).bind fun _ _ h => by split <;> exact Keeps.ok h)
  case frmPayload f => exact next hx ((Keeps.useFrame h f).bind fun _ _ h => Keeps.ok h)
  case frmEncodedLength f => exact next hx ((Keeps.useFrame h f).bind fun _ _ h => Keeps.ok h)
  case frmFromHandshake p =>
    refine next hx ((Keeps.useSlice h p).bind fun _ _ h => ?_)
    split
    · exact h.giveToFrame _ _ _ _
    · exact Keeps.ok h
  case frmDrop f =>
    exact next hx ((Keeps.useFrame h f).bind fun _ _ h => (h.release _).bind fun _ _ h => Keeps.ok h)
  case decWritable c =>
    refine next hx (withDec rfl fun D u h => Keeps.unlessFaulted h fun _ => ?_)
    split
    · exact Keeps.ok ((h.acquire _ _).setDec rfl _)
    · split
      · split
        · exact Keeps.ok ((h.lengthened _ _).setDec rfl _)
        · exact h.reallocate rfl _ _
      · exact Keeps.ok h
  case decFill c bs =>
    refine next hx (withDec rfl fun D u h => Keeps.unlessFaulted h fun _ => ?_)
    split
    · exact Keeps.ok h
    · split
      · exact (h.memWrite _ _ _).bind fun _ _ h => Keeps.ok (h.setDec rfl _)
      · exact Keeps.ok h
  case decNextFrame c =>
    refine next hx (withDec rfl fun D u h => ?_)
    split
    · exact Keeps.ok h
    · split
      · exact Keeps.ok h
      · split
        · exact Keeps.fault
        · split
          · exact (h.memRead _ _ _).bind fun _ _ h => h.parsePhase rfl _ _
          · exact ((h.counted _).setDec rfl _).giveToFrame _ _ _ _
          · exact (h.setDec rfl _).giveToFrame _ _ _ _
  case decSetMode c m =>
    refine next hx (withDec rfl fun D u h => Keeps.unlessFaulted h fun _ => ?_)
    split
    · exact Keeps.ok h
    · exact (h.releaseHeld _).bind fun _ _ h => Keeps.ok (h.setDec rfl _)
  case decReset c =>
    exact next hx (withDec rfl fun D u h => (h.releaseHeld _).bind fun _ v h =>
      Keeps.ok ((h.counted _).setDec rfl _))
  case decStatus c => exact next hx (withDec rfl fun D u h => Keeps.ok h)
  case encEncode c f =>
    exact next hx (withEnc rfl fun E u h => (Keeps.useFrame h f).bind fun _ _ h => (h.scratch rfl _ _).bind fun _ _ h =>
      (h.writeFrame _ _).bind fun _ _ h => (h.release _).bind fun _ _ h => Keeps.ok (h.setEnc rfl _))
  case encReset c =>
    exact next hx (withEnc rfl fun E u h => (h.releaseHeld _).bind fun _ _ h => Keeps.ok (h.setEnc rfl _))
  case encStatus c => exact next hx (withEnc rfl fun E u h => Keeps.ok h)

end Apart

/-- An operation that is none of those on a decoder of connection `c` does not name it. -/
theorem decOf_ne {i : Instr} {c : Nat} (h : ∀ bs m, i ≠ .decWritable c ∧ i ≠ .decFill c bs ∧ i ≠ .decNextFrame c ∧
    i ≠ .decSetMode c m ∧ i ≠ .decReset c ∧ i ≠ .decStatus c) : decOf i ≠ some c := by
  intro hi
  cases i with
  | decWritable d | decNextFrame d | decReset d | decStatus d =>
    obtain rfl : d = c := Option.some.inj hi
    simpa using h [] .std
  | decFill d bs =>
    obtain rfl : d = c := Option.some.inj hi
    simpa using h bs .std
  | decSetMode d m =>
    obtain rfl : d = c := Option.some.inj hi
    simpa using h [] m
  | _ => cases hi

/-- An operation that is none of those on an encoder of connection `c` does not name it. -/
theorem encOf_ne {i : Instr} {c : Nat} (h : ∀ f, i ≠ .encEncode c f ∧ i ≠ .encReset c ∧ i ≠ .encStatus c) :
    encOf i ≠ some c := by
  intro hi
  cases i with
  | encEncode d f =>
    obtain rfl : d = c := Option.some.inj hi
    simpa using h f
  | encReset d | encStatus d =>
    obtain rfl : d = c := Option.some.inj hi
    simpa using h ⟨.hs, ⟨0, 0, 0, 0, 0⟩, 0, 0⟩
  | _ => cases hi

/-- Settles O56: every operation keeps the connections it does not name. -/
theorem connectionsDoNotTouchEachOther : Obligations.ConnectionsDoNotTouchEachOther :=
  fun _ _ _ hx => ⟨fun _ hc => (Apart.exec hx).decs _ (decOf_ne hc), fun _ hc => (Apart.exec hx).encs _ (encOf_ne hc)⟩

end Sys2Proof.Machine
end

section
/-! The block's own accesses (spec/20_memory.md R63; spec/10_state.md R28): from a state of the invariant a fault is the
caller's misuse, found by a check on an operand, and never an access outside a slice or a missing buffer. -/

namespace Sys2Proof.Machine

/-- U3, U4, U8: a fault that is none of R63's, R28's and R64's. -/
def CallersFault (f : Fault) : Prop := f ≠ .badAccess ∧ f ≠ .noBuffer ∧ f ≠ .noPlace

/-- A part of an operation that stops only on misuse by the caller. -/
def Safe {α : Type} (r : Res α) : Prop := ∀ f, r = .fault f → CallersFault f

theorem callersFault_of_misuse {f : Fault} (h : f = .notLive ∨ f = .notOwner ∨ f = .forged) : CallersFault f := by
  rcases h with rfl | rfl | rfl <;> simp [CallersFault]

namespace Safe

theorem ok {α : Type} {a : α} {s : State} : Safe (.ok a s) := fun _ h => nomatch h

theorem fault {α : Type} {f : Fault} (h : CallersFault f) : Safe (.fault f : Res α) := fun _ e => by cases e; exact h

theorem bind {α β : Type} {r : Res α} {k : α → State → Res β} (h : Safe r) (hk : ∀ a t, Safe (k a t)) :
    Safe (r.bind k) := by
  intro f hf
  rcases Res.bind_eq_fault.1 hf with e | ⟨a, t, -, e⟩
  · exact h f e
  · exact hk a t f e

/-- R251(1): an operation stops on `ABORT` or where its own part does. -/
theorem of_exec {s : State} {k : State → Res Response} {f : Fault} (hx : unlessAborted s k = .fault f)
    (hk : Safe (k s)) : CallersFault f := by
  unfold unlessAborted at hx
  split at hx
  · cases hx; simp [CallersFault]
  · exact hk f (conclude_eq_fault.1 hx)

/-- U3: a Slice operand that does not pass is misused; one that passes is the agent's own, or of a corrupt index. -/
theorem useSlice_bind {s : State} {x : Slice} {k : Unit → State → Res Response}
    (hk : Owns s x ∨ placeOf s.cfg x.idx = .corrupt → Safe (k () s)) : Safe ((useSlice x s).bind k) := by
  rcases useSlice_cases x s with ⟨f, e, hf⟩ | ⟨e, ho⟩ | ⟨e, hp, -⟩ <;> rw [e]
  · exact fault (callersFault_of_misuse hf)
  · exact hk (.inl ho)
  · exact hk (.inr hp)

/-- U3: the same of a Frame operand. -/
theorem useFrame_bind {s : State} {x : Frame} {k : Unit → State → Res Response}
    (hk : OwnsFrame s x ∨ placeOf s.cfg x.buf.idx = .corrupt → Safe (k () s)) : Safe ((useFrame x s).bind k) := by
  rcases useFrame_cases x s with ⟨f, e, hf⟩ | ⟨e, ho⟩ | ⟨e, hp, -⟩ <;> rw [e]
  · exact fault (callersFault_of_misuse hf)
  · exact hk (.inl ho)
  · exact hk (.inr hp)

/-- R127: a release stops only on a handle that is not live. -/
theorem release (x : Slice) (s : State) : Safe (release x s) := by
  rcases release_cases x s with ⟨-, e⟩ | ⟨-, ⟨-, e⟩ | ⟨-, e⟩ | ⟨-, e⟩⟩ <;> rw [e]
  · exact fault (by simp [CallersFault])
  · exact ok
  · exact ok
  · exact fun _ h => nomatch h

theorem releaseHeld (b : Option Slice) (s : State) : Safe (releaseHeld b s) := by
  cases b with
  | none => exact ok
  | some x => exact release x s

theorem unlessFaulted {D : DecState} {s : State} {k : Res Response} (hk : Safe k) : Safe (unlessFaulted D s k) := by
  unfold Machine.unlessFaulted
  split
  · exact ok
  · exact hk

end Safe

/-! ### Parts that rest on the invariant -/

/-- U8: a `DEC` operation stops on a race, or where it goes on from the claimed decoder. -/
theorem BlockOk.safe_withDec {s : State} (hs : BlockOk s) {c : Nat} {k : DecState → State → Res Response}
    (hk : ∀ D t, BlockOk t → t.decs[c]? = some D → Safe (k D t)) : Safe (withDec c s k) := by
  rcases withDec_cases c s k with ⟨-, e⟩ | ⟨D, -, -, -, e⟩ | ⟨D, hD, e⟩ <;> rw [e]
  · exact Safe.ok
  · exact Safe.fault (by simp [CallersFault])
  · exact hk _ _ (hs.claimDec hD.1) (getElem?_set_same hD.1)

theorem BlockOk.safe_withEnc {s : State} (hs : BlockOk s) {c : Nat} {k : EncState → State → Res Response}
    (hk : ∀ E t, BlockOk t → t.encs[c]? = some E → Safe (k E t)) : Safe (withEnc c s k) := by
  rcases withEnc_cases c s k with ⟨-, e⟩ | ⟨E, -, -, -, e⟩ | ⟨E, hE, e⟩ <;> rw [e]
  · exact Safe.ok
  · exact Safe.fault (by simp [CallersFault])
  · exact hk _ _ (hs.claimEnc hE.1) (getElem?_set_same hE.1)

/-- R63: a read inside a live slice, or through a corrupt index, answers. -/
theorem BlockOk.safe_memRead {s : State} (hs : BlockOk s) {x : Slice}
    (hx : (∃ who, (⟨x, who⟩ : LiveEntry) ∈ s.live) ∨ placeOf s.cfg x.idx = .corrupt) {off n : Nat}
    (hn : off + n ≤ x.len) : Safe (memRead x off n s) := by
  rcases hx with ⟨who, he⟩ | hp
  · rw [memRead_of_live hs.pool he hn]; exact Safe.ok
  · rw [memRead_corrupt hp]; exact Safe.ok

/-- R132: `POOL.RD` reads inside the slice, also where it reads through a view. -/
theorem BlockOk.safe_execPoolRd {s : State} (hs : BlockOk s) {r : Readable} {off n : Nat} {f : Fault}
    (hx : execPoolRd r off n s = .fault f) : CallersFault f := by
  refine Safe.of_exec hx ?_
  cases r with
  | slice x =>
    refine Safe.useSlice_bind fun ho => ?_
    split
    · exact (hs.safe_memRead (ho.imp (fun h => ⟨_, (findLive_some h).1⟩) id) ‹_›).bind fun _ _ => Safe.ok
    · exact Safe.ok
  | view v =>
    have hread : (∃ who, (⟨v.slice, who⟩ : LiveEntry) ∈ s.live) ∨ placeOf s.cfg v.slice.idx = .corrupt →
        v.off + off + n ≤ v.slice.len →
        Safe ((memRead v.slice (v.off + off) n s).bind fun bs s => answer .ok (.bytes bs) s) :=
      fun hv hn => (hs.safe_memRead hv hn).bind fun _ _ => Safe.ok
    rcases useView_cases v s with ⟨x, e, hf⟩ | ⟨e, who, hl, -⟩ | ⟨e, hp⟩ | e <;>
      simp only [e, Res.bind_ok, Res.bind_fault]
    · exact Safe.fault (callersFault_of_misuse (hf.imp_right .inr))
    · split
      · rename_i h; exact hread (.inl ⟨who, (findLive_some hl).1⟩) h.2
      · exact Safe.ok
    · split
      · rename_i h; exact hread (.inr hp) h.2
      · exact Safe.ok
    · split
      · exact Safe.ok
      · exact Safe.ok

/-- R64, R131: `POOL.WR` stops for want of a place only on bytes to write through a corrupt index. -/
theorem BlockOk.execPoolWr_fault {s : State} (hs : BlockOk s) {x : Slice} {off : Nat} {bs : List Byte} {f : Fault}
    (hx : execPoolWr x off bs s = .fault f) :
    CallersFault f ∨ (f = .noPlace ∧ placeOf s.cfg x.idx = .corrupt ∧ bs ≠ []) := by
  unfold execPoolWr unlessAborted at hx
  split at hx
  · cases hx; exact .inl (by simp [CallersFault])
  · replace hx := conclude_eq_fault.1 hx
    rcases useSlice_cases x s with ⟨y, e, hy⟩ | ⟨e, ho⟩ | ⟨e, hp, -⟩ <;>
      simp only [e, Res.bind_ok, Res.bind_fault] at hx
    · cases hx; exact .inl (callersFault_of_misuse hy)
    · split at hx
      · rename_i hin
        rw [memWrite_of_live hs.pool (findLive_some ho).1 hin] at hx
        cases hx
      · cases hx
    · by_cases hb : bs = []
      · simp only [memWrite, if_pos hp, if_pos hb, Res.bind_ok] at hx
        split at hx <;> cases hx
      · simp only [memWrite, if_pos hp, if_neg hb, Res.bind_fault] at hx
        split at hx <;> cases hx
        exact .inr ⟨rfl, hp, hb⟩

/-- R28, R29: a decoder that misses nothing has a buffer. -/
theorem BlockOk.buf_of_complete {s : State} (hs : BlockOk s) {c : Nat} {D : DecState} (hD : s.decs[c]? = some D)
    (hm : D.missing = 0) : D.buf ≠ none := by
  intro hb
  have hok := hs.decOk hD
  have hcount := hok.count
  have hlen := hs.cfg.handshake.1
  rw [hok.empty hb, hm] at hcount
  cases hp : D.phase with
  | ah => simp [target, hp, headerSize] at hcount
  | ap => simpa [hb] using (hok.ap hp).2.1
  | ahs => simp only [target, hp] at hcount; omega

theorem BlockOk.safe_execDecWritable {s : State} (hs : BlockOk s) {c : Nat} {f : Fault}
    (hx : execDecWritable c s = .fault f) : CallersFault f := by
  refine Safe.of_exec hx (hs.safe_withDec fun D u hs hD => Safe.unlessFaulted ?_)
  split
  · exact Safe.ok
  · split
    · split
      · exact Safe.ok
      · obtain ⟨v, n, e, -⟩ := hs.rebuffered_reallocate hD ‹_› ‹_›
        rw [e]; exact Safe.ok
    · exact Safe.ok

theorem BlockOk.safe_execDecFill {s : State} (hs : BlockOk s) {c : Nat} {bs : List Byte} {f : Fault}
    (hx : execDecFill c bs s = .fault f) : CallersFault f := by
  refine Safe.of_exec hx (hs.safe_withDec fun D u hs hD => Safe.unlessFaulted ?_)
  split
  · exact Safe.ok
  · rename_i b hb
    split
    · rename_i hwin
      have hcount := (hs.decOk hD).count
      have hin : D.received + bs.length ≤ b.len := by omega
      rw [memWrite_of_live hs.pool (hs.decBuf hD hb) hin]
      exact Safe.ok
    · exact Safe.ok

theorem BlockOk.safe_execDecNextFrame {s : State} (hs : BlockOk s) {c : Nat} {f : Fault}
    (hx : execDecNextFrame c s = .fault f) : CallersFault f := by
  refine Safe.of_exec hx (hs.safe_withDec fun D u hs hD => ?_)
  split
  · exact Safe.ok
  · split
    · exact Safe.ok
    · have hm : D.missing = 0 := by omega
      split
      · exact absurd ‹_› (hs.buf_of_complete hD hm)
      · rename_i b hb
        split
        · rename_i hp
          have hin := ((hs.decOk hD).within b hb).1
          rw [(hs.decOk hD).received_header hp hm] at hin
          refine (hs.safe_memRead (.inl ⟨_, hs.decBuf hD hb⟩) (by omega)).bind fun bs v => ?_
          unfold parsePhase
          split
          · exact Safe.ok
          · split <;> exact Safe.ok
        · exact Safe.ok
        · exact Safe.ok

/-- R63, R28: every operation stops only on misuse by the caller, but for `POOL.WR` through a corrupt index. -/
theorem BlockOk.exec_fault {s : State} (hs : BlockOk s) {i : Instr} {f : Fault} (hx : Machine.exec i s = .fault f) :
    CallersFault f ∨
      (f = .noPlace ∧ ∃ h off bs, i = .poolWr h off bs ∧ placeOf s.cfg h.idx = .corrupt ∧ bs ≠ []) := by
  cases i <;> dsimp only [Machine.exec] at hx
  case poolWr x off bs =>
    exact (hs.execPoolWr_fault hx).imp id fun ⟨hf, hp, hb⟩ => ⟨hf, x, off, bs, rfl, hp, hb⟩
  all_goals left
  case poolAcquire | poolStatus | hdrSerialize | hdrChid | hdrMsgtype | hdrMsglen | wireHeader =>
    exact Safe.of_exec hx Safe.ok
  case poolRelease x =>
    exact Safe.of_exec hx (Safe.useSlice_bind fun _ => (Safe.release x s).bind fun _ _ => Safe.ok)
  case poolRd r off n => exact hs.safe_execPoolRd hx
  case hdrParse bs => exact Safe.of_exec hx (by split <;> exact Safe.ok)
  case hdrBuild e ty len => exact Safe.of_exec hx (by split <;> exact Safe.ok)
  case frmFromMessage p ty e flag => exact Safe.of_exec hx (Safe.useSlice_bind fun _ => by split <;> exact Safe.ok)
  case frmFromHandshake p => exact Safe.of_exec hx (Safe.useSlice_bind fun _ => by split <;> exact Safe.ok)
  case frmHeader x => exact Safe.of_exec hx (Safe.useFrame_bind fun _ => by split <;> exact Safe.ok)
  case frmPayload x => exact Safe.of_exec hx (Safe.useFrame_bind fun _ => Safe.ok)
  case frmEncodedLength x => exact Safe.of_exec hx (Safe.useFrame_bind fun _ => Safe.ok)
  case frmDrop x =>
    exact Safe.of_exec hx (Safe.useFrame_bind fun _ => (Safe.release _ _).bind fun _ _ => Safe.ok)
  case decWritable c => exact hs.safe_execDecWritable hx
  case decFill c bs => exact hs.safe_execDecFill hx
  case decNextFrame c => exact hs.safe_execDecNextFrame hx
  case decSetMode c m =>
    refine Safe.of_exec hx (hs.safe_withDec fun D u _ _ => Safe.unlessFaulted ?_)
    split
    · exact Safe.ok
    · exact (Safe.releaseHeld _ _).bind fun _ _ => Safe.ok
  case decReset c =>
    exact Safe.of_exec hx (hs.safe_withDec fun D u _ _ => (Safe.releaseHeld _ _).bind fun _ _ => Safe.ok)
  case decStatus c => exact Safe.of_exec hx (hs.safe_withDec fun _ _ _ _ => Safe.ok)
  case encEncode c x =>
    refine Safe.of_exec hx (hs.safe_withEnc fun E u hs hE => Safe.useFrame_bind fun hf => ?_)
    obtain ⟨b, t, v, h1, h2, -⟩ := hs.wroteFrame hE hf
    rw [h1, Res.bind_ok, h2, Res.bind_ok]
    exact (Safe.release _ _).bind fun _ _ => Safe.ok
  case encReset c =>
    exact Safe.of_exec hx (hs.safe_withEnc fun E u _ _ => (Safe.releaseHeld _ _).bind fun _ _ => Safe.ok)
  case encStatus c => exact Safe.of_exec hx (hs.safe_withEnc fun _ _ _ _ => Safe.ok)

/-- Settles O54: a fault from a state of the invariant is the caller's misuse, or the want of a place of `POOL.WR`. -/
theorem blockNeverMisusesItsOwnMemory : Obligations.BlockNeverMisusesItsOwnMemory := by
  refine fun s i hs => ⟨fun hx => ?_, fun hx => ?_, fun hx => ?_⟩ <;>
    rcases hs.exec_fault hx with ⟨h1, h2, h3⟩ | ⟨hf, h⟩
  · exact h1 rfl
  · cases hf
  · exact h2 rfl
  · cases hf
  · exact absurd rfl h3
  · exact h

end Sys2Proof.Machine
end

section
/-! The wire header and its 48-bit value (spec/30_encoding.md R91, R92): the bits of the value, the sums that the
wire bytes make of the fields, and the header read back from its six bytes. -/

namespace Sys2Proof

/-- R92: a 16-bit field is the unsigned sum of its two bytes. -/
theorem toNat_eq_sum_two_bytes (x : BitVec 16) :
    x.toNat = (x.extractLsb' 0 8).toNat + 256 * (x.extractLsb' 8 8).toNat := by
  simp only [BitVec.extractLsb'_toNat, Nat.shiftRight_eq_div_pow]
  omega

/-- R92: a 24-bit field is the unsigned sum of its three bytes. -/
theorem toNat_eq_sum_three_bytes (x : BitVec 24) :
    x.toNat = (x.extractLsb' 0 8).toNat + 256 * (x.extractLsb' 8 8).toNat
      + 65536 * (x.extractLsb' 16 8).toNat := by
  simp only [BitVec.extractLsb'_toNat, Nat.shiftRight_eq_div_pow]
  omega

/-- R92, R144: what the fields are of a header whose serialised bytes are `b0` to `b5`. -/
theorem fields_of_headerBytes_eq {h : Header} {b0 b1 b2 b3 b4 b5 : Byte}
    (hb : headerBytes h = [b0, b1, b2, b3, b4, b5]) :
    h.extType.toNat = b0.toNat + 256 * b1.toNat ∧ h.msgType = b2 ∧
      h.msgLength.toNat = b3.toNat + 256 * b4.toNat + 65536 * b5.toNat := by
  simp only [headerBytes, List.cons.injEq, and_true] at hb
  obtain ⟨rfl, rfl, rfl, rfl, rfl, rfl⟩ := hb
  exact ⟨toNat_eq_sum_two_bytes _, rfl, toNat_eq_sum_three_bytes _⟩

/-- R145: no two headers have the same six bytes. -/
theorem headerBytes_injective : Function.Injective headerBytes := by
  intro g h hgh
  obtain ⟨he, ht, hl⟩ := fields_of_headerBytes_eq (h := g) (hgh.trans rfl)
  obtain ⟨he', ht', hl'⟩ := fields_of_headerBytes_eq (h := h) rfl
  cases g; cases h
  rw [Header.mk.injEq]
  exact ⟨BitVec.eq_of_toNat_eq (he.trans he'.symm), ht.trans ht'.symm, BitVec.eq_of_toNat_eq (hl.trans hl'.symm)⟩

/-- R145: the header read from a header's six bytes is that header. -/
@[simp] theorem headerOfBytes_headerBytes (h : Header) : headerOfBytes (headerBytes h) = some h := by
  obtain ⟨g, hg⟩ : ∃ g, headerOfBytes (headerBytes h) = some g := ⟨_, rfl⟩
  have hb : headerBytes g = headerBytes h := Machine.headerBytes_of_headerOfBytes hg
  rw [hg, headerBytes_injective hb]

/-- R91, R102: a header operand is read back from its six bytes. -/
@[simp] theorem readHeader_headerBytes (h : Header) (rest : List Byte) :
    readHeader (headerBytes h ++ rest) = .ok (h, rest) := by
  simp [readHeader, readRaw_append_of (headerBytes_length h)]

/-- R91: bits 15:0 of the 48-bit value are `extension_type`. -/
theorem headerWord_slice_extType (h : Header) {s n : Nat} (hn : s + n ≤ 16) :
    (headerWord h).extractLsb' s n = h.extType.extractLsb' s n :=
  BitVec.extractLsb'_append_eq_of_add_le hn

/-- R91: bits 23:16 of the 48-bit value are `msg_type`. -/
theorem headerWord_slice_msgType (h : Header) {s n : Nat} (hs : 16 ≤ s) (hn : s - 16 + n ≤ 8) :
    (headerWord h).extractLsb' s n = h.msgType.extractLsb' (s - 16) n :=
  (BitVec.extractLsb'_append_eq_of_le hs).trans (BitVec.extractLsb'_append_eq_of_add_le hn)

/-- R91: bits 47:24 of the 48-bit value are `msg_length`. -/
theorem headerWord_slice_msgLength (h : Header) {s n : Nat} (hs : 24 ≤ s) :
    (headerWord h).extractLsb' s n = h.msgLength.extractLsb' (s - 24) n :=
  (BitVec.extractLsb'_append_eq_of_le (Nat.le_of_add_left_le hs)).trans
    ((BitVec.extractLsb'_append_eq_of_le (Nat.le_sub_of_add_le hs)).trans (by rw [Nat.sub_sub]))

/-- R91, R92: byte `i` of the 48-bit value is wire byte `i`. -/
theorem headerBytes_getElem? (h : Header) {i : Nat} (hi : i < headerSize) :
    (headerBytes h)[i]? = some ((headerWord h).extractLsb' (8 * i) 8) := by
  match i, hi with
  | 0, _ | 1, _ => rw [headerWord_slice_extType h (by decide)]; rfl
  | 2, _ => simp [headerBytes, headerWord_slice_msgType h (s := 16) (n := 8)]
  | 3, _ | 4, _ | 5, _ => rw [headerWord_slice_msgLength h (by decide)]; rfl

/-- R91: the header whose value is the 48-bit value of `h` is `h`. -/
@[simp] theorem headerOfWord_headerWord (h : Header) : headerOfWord (headerWord h) = h := by
  simp [headerOfWord, headerWord_slice_extType, headerWord_slice_msgType, headerWord_slice_msgLength]

/-- R91, R92: bit 15 of the 48-bit value is the channel-message flag. -/
theorem headerWord_getLsbD_channelFlag (h : Header) : (headerWord h).getLsbD 15 = Machine.channelFlag h :=
  BitVec.getLsbD_append.trans (if_pos (by decide))

/-- R92: the channel-message flag is bit 7 of wire byte 1. -/
theorem channelFlag_of_headerBytes_eq {h : Header} {b0 b1 : Byte} {bs : List Byte}
    (hb : headerBytes h = b0 :: b1 :: bs) : Machine.channelFlag h = b1.getLsbD 7 := by
  simp only [headerBytes, List.cons.injEq] at hb
  simp [Machine.channelFlag, ← hb.2.1]

end Sys2Proof

namespace Sys2Proof.Machine

/-- Settles O5, by the slices of the 48-bit value, and by the fields of a header with given wire bytes. -/
theorem headerWordAndFieldsAgreeWithTheBytes : Obligations.HeaderWordAndFieldsAgreeWithTheBytes := by
  refine ⟨fun h => ⟨headerWord_slice_extType h (by decide), headerWord_getLsbD_channelFlag h, ?_, ?_, ?_,
    fun _ => headerBytes_getElem? h, headerOfWord_headerWord h⟩, fun b0 b1 b2 b3 b4 b5 => ?_, fun _ => rfl⟩
  · simp [headerWord_slice_msgType]
  · simp [headerWord_slice_msgLength]
  · simp [headerWord_slice_extType]
  · obtain ⟨h, hh⟩ : ∃ h, headerOfBytes [b0, b1, b2, b3, b4, b5] = some h := ⟨_, rfl⟩
    have hb : headerBytes h = [b0, b1, b2, b3, b4, b5] := headerBytes_of_headerOfBytes hh
    obtain ⟨he, ht, hl⟩ := fields_of_headerBytes_eq hb
    exact ⟨h, hh, he, ht, hl, channelFlag_of_headerBytes_eq hb⟩

end Sys2Proof.Machine
end

section
/-! Readers on what the writers wrote, for the operands the laws of Sys2Proof/Laws/Decode.lean leave out, and the
decoder on the record of an instruction (spec/30_encoding.md R91, R99 to R102; log 3, log 4). -/

namespace Sys2Proof

/-- R102: the zero bytes of a handshake frame's unused header are the header of zeros. -/
@[simp] theorem readHeader_zeros (rest : List Byte) :
    readHeader (List.replicate headerSize 0#8 ++ rest) = .ok (⟨0, 0, 0⟩, rest) :=
  readHeader_headerBytes ⟨0, 0, 0⟩ rest

/-- R37, R102: the frame kind that the `kind` bit and the header after it stand for is the one written. -/
theorem readFrame_putFrame {c : Config} {f : Frame} (hf : f.fits c = true) (rest : List Byte) :
    readFrame c f.buf.id (putFrame c f ++ rest) = .ok (f, rest) := by
  simp only [Frame.fits, lenFits, Bool.and_eq_true, decide_eq_true_eq] at hf
  obtain ⟨⟨hbuf, hoff⟩, hlen⟩ := hf
  obtain ⟨kind, buf, payOff, payLen⟩ := f
  cases kind with
  | std h => simp [readFrame, putFrame, putKind, readSlice_putSlice hbuf, readLen_putLen hoff, readLen_putLen hlen]
  | hs => simp [readFrame, putFrame, putKind, readSlice_putSlice hbuf, readLen_putLen hoff, readLen_putLen hlen]

/-- R132 (log 3, log 4): the operand of `POOL.RD` is read back, with the ghost fields that go beside it. -/
theorem readReadable_putReadable {c : Config} {r : Readable} (hr : r.fits c = true) (off n : Nat) (rest : List Byte) :
    readReadable c (ghostOf (.poolRd r off n)) (outputOf (.poolRd r off n)) (putReadable c r ++ rest)
      = .ok (r, rest) := by
  cases r with
  | slice h => simp [readReadable, putReadable, ghostOf, readSlice_putSlice hr]
  | view v => simp [readReadable, putReadable, ghostOf, outputOf, readView_putView hr]

/-- R102: the mode operand is one bit, 0 = `STD`, 1 = `HS`. -/
@[simp] theorem readBit_putMode (m : Mode) (rest : List Byte) :
    readBit (putMode m ++ rest) = .ok (decide (m = .hs), rest) := by
  cases m <;> exact readBit_putBit _ rest

/-- R100, R102: on the operand bytes of a command, with any bytes after them, the operands of its opcode are read
back. -/
theorem decodeOperands_operandBytes {c : Config} {i : Instr} {op : Byte} (hop : opcodeOf i = some op)
    (hi : i.wellFormed c = true) (rest : List Byte) :
    decodeOperands c (ghostOf i) (outputOf i) op (operandBytes c i ++ rest) = .ok (i, rest) := by
  cases i <;> cases hop <;>
    simp only [Instr.wellFormed, lenFits, bytesFit, Bool.and_eq_true, decide_eq_true_eq] at hi
  case poolStatus => rfl
  case hdrSerialize | hdrChid | hdrMsgtype | hdrMsglen => simp [decodeOperands, operandBytes]
  case poolAcquire | decWritable | decNextFrame | decReset | decStatus | encReset | encStatus =>
    simp [decodeOperands, operandBytes, readLen_putLen hi]
  case poolRelease | frmFromHandshake => simp [decodeOperands, operandBytes, ghostOf, readSlice_putSlice hi]
  case frmHeader | frmPayload | frmEncodedLength | frmDrop =>
    simp [decodeOperands, operandBytes, ghostOf, readFrame_putFrame hi]
  case hdrParse => simp [decodeOperands, operandBytes, readBytes_putBytes hi]
  case poolWr =>
    obtain ⟨⟨hh, hoff⟩, hbs⟩ := hi
    simp [decodeOperands, operandBytes, ghostOf, readSlice_putSlice hh, readLen_putLen hoff, readBytes_putBytes hbs]
  case poolRd =>
    obtain ⟨⟨hr, hoff⟩, hn⟩ := hi
    simp [decodeOperands, operandBytes, readReadable_putReadable hr, readLen_putLen hoff, readLen_putLen hn]
  case hdrBuild e t len =>
    simp [decodeOperands, operandBytes, readField_putField e.isLt, readField_putField t.isLt, readLen_putLen hi]
  case frmFromMessage p t e flag =>
    simp [decodeOperands, operandBytes, ghostOf, readSlice_putSlice hi, readField_putField t.isLt,
      readField_putField e.isLt]
  case decFill => simp [decodeOperands, operandBytes, readLen_putLen hi.1, readBytes_putBytes hi.2]
  case decSetMode n m => cases m <;> simp [decodeOperands, operandBytes, readLen_putLen hi]
  case encEncode => simp [decodeOperands, operandBytes, ghostOf, readLen_putLen hi.1, readFrame_putFrame hi.2]

/-- R91: the six bytes of a header, handed over as the data format, are that header. -/
theorem decode_wire (c : Config) (h : Header) (ghost output : Nat) (rest : List Byte) :
    decode c { form := .wire, bytes := headerBytes h ++ rest, ghost := ghost, output := output }
      = .ok (.wireHeader h, rest) := by
  simp [decode]

/-- Only the data format row has no opcode (R100). -/
theorem opcodeOf_eq_none {i : Instr} : opcodeOf i = none ↔ ∃ h, i = .wireHeader h := by
  cases i <;> simp [opcodeOf]

end Sys2Proof

namespace Sys2Proof.Machine

/-- Settles O1: a command has an opcode, which fixes the operands read back; the data format row has none. -/
theorem decodingAnEncodedInstructionGivesItBack : Obligations.DecodingAnEncodedInstructionGivesItBack := by
  intro c i rest hi
  cases hop : opcodeOf i with
  | some op => simpa [encode, hop, decode] using decodeOperands_operandBytes hop hi rest
  | none =>
    obtain ⟨h, rfl⟩ := opcodeOf_eq_none.1 hop
    exact decode_wire c h _ _ rest

end Sys2Proof.Machine
end

section
/-! The step on a record that decodes to no instruction (spec/30_encoding.md R101), the operations on a connection
that does not exist, and the data format row (R91; log 5). -/

namespace Sys2Proof

/-- R101: an opcode that R100 assigns to no operation is refused by name. -/
theorem decodeOperands_of_unassigned {op : Byte} (h : ¬ Laws.OpcodeFirst.Assigned op) (c : Config)
    (ghost output : Nat) (bs : List Byte) :
    decodeOperands c ghost output op bs = .error (.unassignedOpcode op) := by
  unfold Laws.OpcodeFirst.Assigned at h
  unfold decodeOperands
  split
  case h_27 => rfl
  all_goals omega

end Sys2Proof

namespace Sys2Proof.Machine

/-- R101: a record that decodes to no instruction is answered `REFUSED`, with the input taken. -/
theorem step_of_decode_error {s : State} {a : Nat} {p : Packet} {rest : List Input} {e : DecodeError}
    (ha : s.abort = false) (h : s.inbox = .command a p :: rest) (hd : decode s.cfg p = .error e) :
    step s = .next (answered .refused .nothing { s with inbox := rest, agent := a }) := by
  simp only [step, fetch, h, hd]
  exact unlessAborted_of (s := { s with inbox := rest, agent := a }) ha refuse

/-- R101: a `DEC` operation on a connection that does not exist is answered `REFUSED`. -/
theorem unlessAborted_withDec_none {s : State} {c : Nat} (ha : s.abort = false) (hc : s.decs[c]? = none)
    (k : DecState → State → Res Response) :
    unlessAborted s (fun s => withDec c s k) = .next (answered .refused .nothing s) := by
  simp only [unlessAborted_of ha, withDec, hc]
  rfl

/-- R101: an `ENC` operation on a connection that does not exist is answered `REFUSED`. -/
theorem unlessAborted_withEnc_none {s : State} {c : Nat} (ha : s.abort = false) (hc : s.encs[c]? = none)
    (k : EncState → State → Res Response) :
    unlessAborted s (fun s => withEnc c s k) = .next (answered .refused .nothing s) := by
  simp only [unlessAborted_of ha, withEnc, hc]
  rfl

/-- Settles O3, by the three ways to no operation: no opcode, no operand of its type, no such connection. -/
theorem recordsThatAreNoCommandAreRefused : Obligations.RecordsThatAreNoCommandAreRefused := by
  refine ⟨fun c p op rest hf hb hop => ?_, fun s a p rest e => step_of_decode_error, ?_⟩
  · have hun : ¬ Laws.OpcodeFirst.Assigned op := by
      unfold Laws.OpcodeFirst.Assigned
      omega
    simpa only [decode, hf, hb] using decodeOperands_of_unassigned hun c p.ghost p.output rest
  · intro s c bs m f ha hdecs hencs hc
    have dec := fun k => unlessAborted_withDec_none ha (List.getElem?_eq_none (hdecs ▸ hc)) k
    have enc := fun k => unlessAborted_withEnc_none ha (List.getElem?_eq_none (hencs ▸ hc)) k
    simp only [List.forall_mem_cons]
    exact ⟨dec _, dec _, dec _, dec _, dec _, dec _, enc _, enc _, enc _, List.forall_mem_nil _⟩

/-- R91 (log 5): a wire header is answered with the header itself. -/
theorem exec_wireHeader {s : State} (ha : s.abort = false) (h : Header) :
    exec (.wireHeader h) s = .next (answered .ok (.header h) s) :=
  unlessAborted_of ha _

/-- Settles O24: the six bytes decode to the wire header, and a step runs what its record decodes to. -/
theorem wireHeaderAnswersTheHeader : Obligations.WireHeaderAnswersTheHeader := by
  refine fun s h a g o rest ha => ⟨exec_wireHeader ha h, ?_⟩
  rw [step_of_decode_ok rfl (List.append_nil (headerBytes h) ▸ decode_wire s.cfg h g o [])]
  exact exec_wireHeader (s := { s with inbox := rest, agent := a }) ha h

/-- Settles O2, by running the decoder on the four words. -/
theorem specWordsDecodeAsTheTableSays : Obligations.SpecWordsDecodeAsTheTableSays :=
  ⟨by decide, by decide, by decide, by decide⟩

end Sys2Proof.Machine
end

section
/-! Who sets `ABORT` (spec/40_pool.md R129; spec/60_exceptions.md R246): the parts of an operation abort only in a
release, and in a state of the invariant only in the release of the operation's own operand, with a corrupt index. -/

namespace Sys2Proof.Machine

/-- R129, R246: a part of an operation that aborts only where `Q` holds, and leaves `ABORT` clear where it answers. -/
structure AbortsOnly {α : Type} (Q : Prop) (r : Res α) : Prop where
  clear : ∀ a t, r = .ok a t → t.abort = false
  cause : ∀ t, r = .abort t → Q

namespace AbortsOnly

variable {α β : Type} {Q : Prop} {s : State}

theorem ok {a : α} (h : s.abort = false) : AbortsOnly Q (.ok a s) :=
  ⟨fun _ _ e => by cases e; exact h, fun _ e => nomatch e⟩

theorem fault {f : Fault} : AbortsOnly Q (.fault f : Res α) := ⟨fun _ _ e => (nomatch e), fun _ e => nomatch e⟩

theorem bind {r : Res α} {k : α → State → Res β} (h : AbortsOnly Q r)
    (hk : ∀ a t, t.abort = false → AbortsOnly Q (k a t)) : AbortsOnly Q (r.bind k) := by
  cases r with
  | ok a t => exact hk a t (h.clear a t rfl)
  | abort t => exact ⟨fun _ _ e => (nomatch e), fun _ _ => h.cause t rfl⟩
  | fault f => exact fault

/-- R246: an operation sets `ABORT` only where its own part aborts. -/
theorem of_exec {t : State} {k : State → Res Response} (hx : unlessAborted s k = .next t) (ht : t.abort = true)
    (hk : s.abort = false → AbortsOnly Q (k s)) : Q := by
  obtain ⟨ha, ⟨a, u, e, rfl⟩ | ⟨u, e, -⟩⟩ := unlessAborted_eq_next.1 hx
  · have := (hk ha).clear a u e
    simp [this] at ht
  · exact (hk ha).cause u e

/-! ### The checks on operands -/

theorem useSlice_bind {x : Slice} {k : Unit → State → Res Response} (hk : AbortsOnly Q (k () s)) :
    AbortsOnly Q ((useSlice x s).bind k) := by
  rcases useSlice_cases x s with ⟨f, e, -⟩ | ⟨e, -⟩ | ⟨e, -⟩ <;> rw [e]
  · exact fault
  · exact hk
  · exact hk

theorem useFrame_bind {f : Frame} {k : Unit → State → Res Response}
    (hk : OwnsFrame s f ∨ placeOf s.cfg f.buf.idx = .corrupt → AbortsOnly Q (k () s)) :
    AbortsOnly Q ((useFrame f s).bind k) := by
  rcases useFrame_cases f s with ⟨x, e, -⟩ | ⟨e, ho⟩ | ⟨e, hp, -⟩ <;> rw [e]
  · exact fault
  · exact hk (.inl ho)
  · exact hk (.inr hp)

theorem unlessFaulted {D : DecState} {k : Res Response} (h : s.abort = false) (hk : AbortsOnly Q k) :
    AbortsOnly Q (unlessFaulted D s k) := by
  unfold Machine.unlessFaulted
  split
  · exact ok h
  · exact hk

/-! ### The shared operations -/

theorem memRead (h : s.abort = false) (x : Slice) (off n : Nat) : AbortsOnly Q (memRead x off n s) := by
  rcases memRead_cases x off n s with ⟨e, -⟩ | e <;> rw [e]
  · exact fault
  · exact ok h

theorem memWrite (h : s.abort = false) (x : Slice) (off : Nat) (bs : List Byte) :
    AbortsOnly Q (memWrite x off bs s) := by
  rcases memWrite_cases x off bs s with ⟨e, -⟩ | ⟨e, -⟩ | e <;> rw [e]
  · exact fault
  · exact fault
  · exact ok ((storeBytes_abort ..).trans h)

/-- R129: `Release` is where the abort comes from, on a corrupt index. -/
theorem release (h : s.abort = false) {x : Slice} (hQ : placeOf s.cfg x.idx = .corrupt → Q) :
    AbortsOnly Q (release x s) := by
  rcases release_cases x s with ⟨-, e⟩ | ⟨-, ⟨-, e⟩ | ⟨-, e⟩ | ⟨hp, e⟩⟩ <;> rw [e]
  · exact fault
  · exact ok h
  · exact ok h
  · exact ⟨fun _ _ e => (nomatch e), fun _ _ => hQ hp⟩

/-- R129: what a decoder or encoder holds is released without an abort, where its index is not corrupt. -/
theorem releaseHeld (h : s.abort = false) {b : Option Slice}
    (hb : ∀ x, b = some x → placeOf s.cfg x.idx ≠ .corrupt) : AbortsOnly Q (releaseHeld b s) := by
  cases b with
  | none => exact ok h
  | some x => exact release h fun hp => absurd hp (hb x rfl)

/-- R132: `POOL.RD` never aborts. -/
theorem execPoolRd {r : Readable} {off n : Nat} {t : State} (hx : execPoolRd r off n s = .next t)
    (ht : t.abort = true) : Q := by
  refine of_exec hx ht fun ha => ?_
  have hread : ∀ x o, AbortsOnly Q ((Machine.memRead x o n s).bind fun bs s => answer .ok (.bytes bs) s) :=
    fun x o => (memRead ha x o n).bind fun _ _ h => ok h
  cases r with
  | slice x =>
    refine useSlice_bind ?_
    split
    · exact hread _ _
    · exact ok ha
  | view v =>
    rcases useView_cases v s with ⟨f, e, -⟩ | ⟨e, -⟩ | ⟨e, -⟩ | e <;> simp only [e, Res.bind_ok, Res.bind_fault]
    · exact fault
    · split
      · exact hread _ _
      · exact ok ha
    · split
      · exact hread _ _
      · exact ok ha
    · split
      · exact ok ha
      · exact ok ha

end AbortsOnly

/-! ### Parts that rest on the invariant -/

/-- R129: the buffer of a decoder has no corrupt index. -/
theorem BlockOk.decBuf_not_corrupt {s : State} (hs : BlockOk s) {c : Nat} {D : DecState} (hD : s.decs[c]? = some D)
    (b : Slice) (hb : D.buf = some b) : placeOf s.cfg b.idx ≠ .corrupt :=
  live_not_corrupt hs.pool (hs.decBuf hD hb)

/-- R129: the buffer of an encoder has no corrupt index. -/
theorem BlockOk.encBuf_not_corrupt {s : State} (hs : BlockOk s) {c : Nat} {E : EncState} (hE : s.encs[c]? = some E)
    (b : Slice) (hb : E.buf = some b) : placeOf s.cfg b.idx ≠ .corrupt :=
  live_not_corrupt hs.pool (hs.encBuf hE hb)

theorem BlockOk.aborts_withDec {s : State} (hs : BlockOk s) (ha : s.abort = false) {Q : Prop} {c : Nat}
    {k : DecState → State → Res Response}
    (hk : ∀ D t, BlockOk t → t.abort = false → t.decs[c]? = some D → AbortsOnly Q (k D t)) :
    AbortsOnly Q (withDec c s k) := by
  rcases withDec_cases c s k with ⟨-, e⟩ | ⟨D, -, -, -, e⟩ | ⟨D, hD, e⟩ <;> rw [e]
  · exact AbortsOnly.ok ha
  · exact AbortsOnly.fault
  · exact hk _ _ (hs.claimDec hD.1) ha (getElem?_set_same hD.1)

theorem BlockOk.aborts_withEnc {s : State} (hs : BlockOk s) (ha : s.abort = false) {Q : Prop} {c : Nat}
    {k : EncState → State → Res Response}
    (hk : ∀ E t, BlockOk t → t.abort = false → t.cfg = s.cfg → t.encs[c]? = some E → AbortsOnly Q (k E t)) :
    AbortsOnly Q (withEnc c s k) := by
  rcases withEnc_cases c s k with ⟨-, e⟩ | ⟨E, -, -, -, e⟩ | ⟨E, hE, e⟩ <;> rw [e]
  · exact AbortsOnly.ok ha
  · exact AbortsOnly.fault
  · exact hk _ _ (hs.claimEnc hE.1) ha rfl (getElem?_set_same hE.1)

theorem BlockOk.aborts_execDecWritable {s t : State} (hs : BlockOk s) {Q : Prop} {c : Nat}
    (hx : execDecWritable c s = .next t) (ht : t.abort = true) : Q := by
  refine AbortsOnly.of_exec hx ht fun ha => hs.aborts_withDec ha fun D u hs ha hD => AbortsOnly.unlessFaulted ha ?_
  split
  · exact AbortsOnly.ok ((acquire_abort ..).trans ha)
  · rename_i b hb
    split
    · rename_i hlt
      split
      · exact AbortsOnly.ok ha
      · obtain ⟨v, e, -, -, -, -, -, hva, -⟩ := reallocate_ok hs hD hb hlt rfl
        rw [e]
        exact AbortsOnly.ok (hva.trans ha)
    · exact AbortsOnly.ok ha

theorem BlockOk.aborts_execDecNextFrame {s t : State} (hs : BlockOk s) {Q : Prop} {c : Nat}
    (hx : execDecNextFrame c s = .next t) (ht : t.abort = true) : Q := by
  refine AbortsOnly.of_exec hx ht fun ha => hs.aborts_withDec ha fun D u _ ha _ => ?_
  split
  · exact AbortsOnly.ok ha
  · split
    · exact AbortsOnly.ok ha
    · split
      · exact AbortsOnly.fault
      · split
        · refine (AbortsOnly.memRead ha _ _ _).bind fun bs v ha => ?_
          unfold parsePhase
          split
          · exact AbortsOnly.ok ha
          · split <;> exact AbortsOnly.ok ha
        · exact AbortsOnly.ok ha
        · exact AbortsOnly.ok ha

/-- R129, R246: `ENC.ENCODE` writes its frame without an abort, and then releases the frame's buffer. -/
theorem BlockOk.aborts_execEncEncode {s t : State} (hs : BlockOk s) {c : Nat} {f : Frame}
    (hx : execEncEncode c f s = .next t) (ht : t.abort = true) : placeOf s.cfg f.buf.idx = .corrupt := by
  refine AbortsOnly.of_exec hx ht fun ha => hs.aborts_withEnc ha fun E u hs ha hc hE =>
    AbortsOnly.useFrame_bind fun hf => ?_
  obtain ⟨b, v, w, h1, h2, hw⟩ := hs.wroteFrame hE hf
  rw [h1, Res.bind_ok, h2, Res.bind_ok]
  refine (AbortsOnly.release (hw.abort.trans ha) fun hp => ?_).bind fun _ _ h => AbortsOnly.ok h
  rwa [hw.cfg, hc] at hp

/-- Settles O55: only `Release` aborts, and the buffers that the block itself releases are live, so not corrupt. -/
theorem abortComesOnlyFromADamagedHandle : Obligations.AbortComesOnlyFromADamagedHandle := by
  intro s t i hs hx ht
  cases i <;> dsimp only [exec] at hx
  case poolRelease x =>
    exact .inl ⟨x, rfl, AbortsOnly.of_exec hx ht fun ha => AbortsOnly.useSlice_bind
      ((AbortsOnly.release ha id).bind fun _ _ h => AbortsOnly.ok h)⟩
  case frmDrop f =>
    exact .inr (.inl ⟨f, rfl, AbortsOnly.of_exec hx ht fun ha => AbortsOnly.useFrame_bind fun _ =>
      (AbortsOnly.release ha id).bind fun _ _ h => AbortsOnly.ok h⟩)
  case encEncode c f => exact .inr (.inr ⟨c, f, rfl, hs.aborts_execEncEncode hx ht⟩)
  all_goals exfalso
  case poolAcquire => exact AbortsOnly.of_exec hx ht fun ha => AbortsOnly.ok ((acquire_abort ..).trans ha)
  case poolWr =>
    refine AbortsOnly.of_exec hx ht fun ha => AbortsOnly.useSlice_bind ?_
    split
    · exact (AbortsOnly.memWrite ha _ _ _).bind fun _ _ h => AbortsOnly.ok h
    · exact AbortsOnly.ok ha
  case poolRd => exact AbortsOnly.execPoolRd hx ht
  case poolStatus | hdrSerialize | hdrChid | hdrMsgtype | hdrMsglen | wireHeader =>
    exact AbortsOnly.of_exec hx ht AbortsOnly.ok
  case hdrParse | hdrBuild => exact AbortsOnly.of_exec hx ht fun ha => by split <;> exact AbortsOnly.ok ha
  case frmFromMessage | frmFromHandshake =>
    exact AbortsOnly.of_exec hx ht fun ha => AbortsOnly.useSlice_bind (by split <;> exact AbortsOnly.ok ha)
  case frmHeader =>
    exact AbortsOnly.of_exec hx ht fun ha => AbortsOnly.useFrame_bind fun _ => by split <;> exact AbortsOnly.ok ha
  case frmPayload | frmEncodedLength =>
    exact AbortsOnly.of_exec hx ht fun ha => AbortsOnly.useFrame_bind fun _ => AbortsOnly.ok ha
  case decWritable => exact hs.aborts_execDecWritable hx ht
  case decFill =>
    refine AbortsOnly.of_exec hx ht fun ha => hs.aborts_withDec ha fun D u _ ha _ => AbortsOnly.unlessFaulted ha ?_
    split
    · exact AbortsOnly.ok ha
    · split
      · exact (AbortsOnly.memWrite ha _ _ _).bind fun _ _ h => AbortsOnly.ok h
      · exact AbortsOnly.ok ha
  case decNextFrame => exact hs.aborts_execDecNextFrame hx ht
  case decSetMode =>
    refine AbortsOnly.of_exec hx ht fun ha => hs.aborts_withDec ha fun D u hs ha hD => AbortsOnly.unlessFaulted ha ?_
    split
    · exact AbortsOnly.ok ha
    · exact (AbortsOnly.releaseHeld ha (hs.decBuf_not_corrupt hD)).bind fun _ _ h => AbortsOnly.ok h
  case decReset =>
    exact AbortsOnly.of_exec hx ht fun ha => hs.aborts_withDec ha fun D u hs ha hD =>
      (AbortsOnly.releaseHeld ha (hs.decBuf_not_corrupt hD)).bind fun _ _ h => AbortsOnly.ok h
  case decStatus => exact AbortsOnly.of_exec hx ht fun ha => hs.aborts_withDec ha fun _ _ _ ha _ => AbortsOnly.ok ha
  case encReset =>
    exact AbortsOnly.of_exec hx ht fun ha => hs.aborts_withEnc ha fun E u hs ha _ hE =>
      (AbortsOnly.releaseHeld ha (hs.encBuf_not_corrupt hE)).bind fun _ _ h => AbortsOnly.ok h
  case encStatus => exact AbortsOnly.of_exec hx ht fun ha => hs.aborts_withEnc ha fun _ _ _ ha _ _ => AbortsOnly.ok ha

end Sys2Proof.Machine
end

section
/-! The fitting set and `POOL.ACQUIRE` (spec/40_pool.md R120 to R124): which slot is taken, and the slice answered. -/

namespace Sys2Proof.Machine

/-- Settles O9: `mem_fit`, and a set is empty exactly when nothing is in it. -/
theorem fittingSetIsFreeAndLargeEnough : Obligations.FittingSetIsFreeAndLargeEnough := by
  refine fun c m len => ⟨fun k => mem_fit, List.eq_nil_iff_forall_not_mem.trans (forall_congr' fun k => ?_)⟩
  simp only [mem_fit, slotTaken]
  constructor
  · intro h k1 kn
    by_contra hn
    obtain ⟨hfree, hcap⟩ := not_or.1 hn
    exact h ⟨⟨k1, kn⟩, by simpa using hfree, by omega⟩
  · rintro h ⟨⟨k1, kn⟩, hfree, hcap⟩
    rcases h k1 kn with ht | hlt
    · simp [ht] at hfree
    · omega

/-- R121: the fitting slots in ascending order. -/
theorem fit_rising (c : Config) (m : BitVec 8) (len : Nat) : (fit c m len).Pairwise (· < ·) :=
  List.Pairwise.filter _ List.pairwise_lt_range'

/-- R122: under `lowest_index` the slot picked is the least. -/
theorem pick_lowestIndex_le {F : List Nat} (hF : F.Pairwise (· < ·)) (n : Nat) {j : Nat} (hj : j ∈ F) :
    pick .lowestIndex n F ≤ j := by
  cases F with
  | nil => cases hj
  | cons k ks =>
    rcases List.mem_cons.1 hj with rfl | hj
    · exact le_rfl
    · exact le_of_lt (List.rel_of_pairwise_cons hF hj)

/-- R122: where a slot fits, `Acquire` takes the one picked. -/
theorem acquire_of_fit {s : State} {len : Nat} (hF : fit s.cfg s.mask len ≠ []) (who : Holder) :
    acquire len who s = acquireSlot (pick s.cfg.scan s.free (fit s.cfg s.mask len)) len who s := by
  unfold acquire
  split
  · exact absurd ‹_› hF
  · rename_i h; rw [h]

/-- R122: where none fits, `Acquire` makes a heap buffer. -/
theorem acquire_of_no_fit {s : State} {len : Nat} (hF : fit s.cfg s.mask len = []) (who : Holder) :
    acquire len who s = acquireHeap len who s := by
  simp only [acquire, hF]

/-- R120: `POOL.ACQUIRE` answers the slice acquired. -/
theorem exec_poolAcquire {s : State} (ha : s.abort = false) (len : Nat) :
    exec (.poolAcquire len) s = .next (answered .ok (.slice (acquire len (.caller s.agent) s).1)
      (acquire len (.caller s.agent) s).2) := by
  simp only [exec, execPoolAcquire, unlessAborted_of ha]
  rfl

/-- Settles O10: the acquire of the operation is that of the slot picked, or, where none fits, of the heap. -/
theorem acquireTakesAFittingSlotElseTheHeap : Obligations.AcquireTakesAFittingSlotElseTheHeap := by
  refine fun s len ha => ⟨rfl, fun hF => ?_, fun hF => ?_⟩
  · have hx := exec_poolAcquire ha len
    rw [acquire_of_fit hF] at hx
    refine ⟨_, _, _, pick_mem _ _ hF, fun hp j hj => ?_, rfl, hx, rfl, rfl, rfl, rfl, rfl,
      ⟨rfl, rfl, rfl, rfl, rfl, rfl⟩⟩
    rw [hp]
    exact pick_lowestIndex_le (fit_rising ..) _ hj
  · have hx := exec_poolAcquire ha len
    rw [acquire_of_no_fit hF] at hx
    exact ⟨_, _, rfl, hx, rfl, rfl, rfl, rfl, rfl,
      ⟨rfl, rfl, rfl, rfl, rfl, rfl⟩⟩

/-- Settles O11: the slice acquired has the fresh id, is a live entry of the state after, and none of its bytes is
stored. -/
theorem acquiredSliceIsFreshAndUnwritten : Obligations.AcquiredSliceIsFreshAndUnwritten := by
  intro s len hs ha
  obtain ⟨hid, hlen⟩ := acquire_slice len (.caller s.agent) s
  refine ⟨_, _, exec_poolAcquire ha len, rfl, hlen, ?_, ?_, ?_,
    fun o ho => storedByte_acquired hs.cfg hs.memory len _ ho,
    fun e he o ho => storedByte_acquire hs.cfg hs.memory hs.pool len _ he ho⟩
  · have hcap := (hs.acquireCaller len s.agent).lenCap
      (e := ⟨(acquire len (.caller s.agent) s).1, .caller s.agent⟩) (by simp)
    rwa [hlen] at hcap
  · rw [hid]
    exact findLive_none.2 fun e he => hs.old he
  · show findLive (acquire len (.caller s.agent) s).2.live _
      = some ⟨_, .caller (acquire len (.caller s.agent) s).2.agent⟩
    rw [hs.find_acquire, if_pos hid, acquire_agent]

end Sys2Proof.Machine
end

section
/-! `POOL.RELEASE` (spec/40_pool.md R127 to R129): `Release` by the place that the index names, and the bit it clears. -/

namespace Sys2Proof.Machine

/-! ### `Release` of a live handle -/

theorem release_heap {s : State} {h : Slice} {e : LiveEntry} (hl : findLive s.live h.id = some e)
    (hp : placeOf s.cfg h.idx = .heap) :
    release h s = .ok () { s with heap := dropHeap s.heap h.id, live := dropLive s.live h.id } := by
  simp only [release, hl, hp]

theorem release_pool {s : State} {h : Slice} {e : LiveEntry} (hl : findLive s.live h.id = some e)
    (hp : placeOf s.cfg h.idx = .pool) :
    release h s = .ok () { s with mask := s.mask &&& ~~~ slotBit h.idx
                                  live := dropLive s.live h.id
                                  log := logToggle h.idx false s } := by
  simp only [release, hl, hp]

theorem release_corrupt {s : State} {h : Slice} {e : LiveEntry} (hl : findLive s.live h.id = some e)
    (hp : placeOf s.cfg h.idx = .corrupt) : release h s = .abort s := by
  simp only [release, hl, hp]

/-! ### The operation -/

/-- R127: `POOL.RELEASE` of an operand that passes ends where `Release` does. -/
theorem exec_poolRelease {s : State} {h : Slice} (ha : s.abort = false) (hu : useSlice h s = .ok () s) :
    exec (.poolRelease h) s = conclude ((release h s).bind fun _ t => answer .ok .nothing t) := by
  simp only [exec, execPoolRelease, unlessAborted_of ha, hu, Res.bind_ok]

/-- R127: where `Release` answers, so does `POOL.RELEASE`. -/
theorem exec_poolRelease_ok {s t : State} {h : Slice} (ha : s.abort = false) (hu : useSlice h s = .ok () s)
    (hr : release h s = .ok () t) : exec (.poolRelease h) s = .next (answered .ok .nothing t) := by
  rw [exec_poolRelease ha hu, hr]
  rfl

/-- R129: a live handle with a corrupt index aborts. -/
theorem exec_poolRelease_corrupt {s : State} {h : Slice} {e : LiveEntry} (ha : s.abort = false)
    (hu : useSlice h s = .ok () s) (hl : findLive s.live h.id = some e) (hp : placeOf s.cfg h.idx = .corrupt) :
    exec (.poolRelease h) s = .next (takeAbort s) := by
  rw [exec_poolRelease ha hu, release_corrupt hl hp]
  rfl

/-- Settles O13: the check of a dead handle, and `Release` by the place that the index names. -/
theorem releaseGivesBackTheSlotOrTheBuffer : Obligations.ReleaseGivesBackTheSlotOrTheBuffer := by
  refine fun s h ha => ⟨rfl, fun hl => ?_, fun ho hi => ?_, fun ho hi h1 hn => ?_, fun ho hi hn => ?_⟩
  · exact exec_slice_fault ha (useSlice_notLive hl) 0 0 [] 0 0 false _ (.head _)
  · exact ⟨_, exec_poolRelease_ok ha (useSlice_owned ho) (release_heap ho (placeOf_heap.2 hi)),
      rfl, rfl, rfl, rfl, rfl, rfl, ⟨rfl, rfl, rfl, rfl, rfl, rfl⟩⟩
  · exact ⟨_, exec_poolRelease_ok ha (useSlice_owned ho) (release_pool ho (placeOf_pool.2 ⟨hi, h1, hn⟩)),
      rfl, rfl, rfl, rfl, rfl, rfl, ⟨rfl, rfl, rfl, rfl, rfl, rfl⟩⟩
  · exact exec_poolRelease_corrupt ha (useSlice_owned ho) ho (placeOf_corrupt.2 ⟨hi, hn⟩)

/-- R128: of a bit that is set, a clear is a flip. -/
theorem mask_clear_eq_flip {m : BitVec 8} {k : Nat} (h1 : 1 ≤ k) (h8 : k ≤ 8) (ht : slotTaken m k = true) :
    m &&& ~~~ slotBit k = m ^^^ slotBit k := by
  refine BitVec.eq_of_getLsbD_eq fun i hi => ?_
  have hbit : (slotBit k).getLsbD i = decide (8 - i = k) := by
    rw [← slotTaken_slotBit (by omega) (by omega) h1 h8, slotTaken, show 8 - (8 - i) = i by omega]
  by_cases hk : 8 - i = k
  · obtain rfl : i = 8 - k := by omega
    have hm : m.getLsbD (8 - k) = true := ht
    simp only [BitVec.getLsbD_and, BitVec.getLsbD_not, BitVec.getLsbD_xor, hbit, hk, hm]
    simp
  · simp only [BitVec.getLsbD_and, BitVec.getLsbD_not, BitVec.getLsbD_xor, hbit, hk, hi]
    simp

/-- Settles O14: `MASK` records the live slice (R39(a)), so its bit is set, and is the one bit that the release
clears. -/
theorem releaseClearsItsBitAlone : Obligations.ReleaseClearsItsBitAlone := by
  intro s h hs ha ho h1 hn
  have h8 := hn.trans hs.cfg.slots.2
  have ht := (hs.pool.taken _ h1 hn).2 ⟨_, (findLive_some ho).1, rfl⟩
  refine ⟨_, exec_poolRelease_ok ha (useSlice_owned ho) (release_pool ho (placeOf_slot hs.cfg h1 hn)),
    mask_clear_eq_flip h1 h8 ht, ht, ?_, fun j j1 j8 hj => ?_, rfl, rfl, rfl⟩
  · exact (slotTaken_clear _ h1 h8 h1 h8).trans (by simp)
  · exact (slotTaken_clear _ j1 j8 h1 h8).trans (by simp [hj])

end Sys2Proof.Machine
end

section
/-! `POOL.WR` and `POOL.RD` (spec/40_pool.md R131, R132): the equation of each on an operand that passes, inside and
outside its bounds. -/

namespace Sys2Proof.Machine

/-! ### `POOL.WR` -/

/-- R131: inside the slice, `POOL.WR` ends where `MemWrite` does. -/
theorem exec_poolWr_inside {s : State} {h : Slice} {off : Nat} {bs : List Byte} (ha : s.abort = false)
    (hu : useSlice h s = .ok () s) (hin : off + bs.length ≤ h.len) :
    exec (.poolWr h off bs) s = conclude ((memWrite h off bs s).bind fun _ t => answer .ok .nothing t) := by
  simp only [exec, execPoolWr, unlessAborted_of ha, hu, Res.bind_ok, if_pos hin]

/-- R131: beyond the slice, `POOL.WR` is refused. -/
theorem exec_poolWr_beyond {s : State} {h : Slice} {off : Nat} {bs : List Byte} (ha : s.abort = false)
    (hu : useSlice h s = .ok () s) (hout : h.len < off + bs.length) :
    exec (.poolWr h off bs) s = .next (answered .refused .nothing s) := by
  simp only [exec, execPoolWr, unlessAborted_of ha, hu, Res.bind_ok, if_neg (not_le.2 hout)]
  rfl

/-- R131: a write inside an owned slice stores its bytes. -/
theorem exec_poolWr_owned {s : State} {h : Slice} {off : Nat} {bs : List Byte} (hs : BlockOk s) (ha : s.abort = false)
    (ho : Owns s h) (hin : off + bs.length ≤ h.len) :
    exec (.poolWr h off bs) s = .next (answered .ok .nothing (storeBytes h off bs s)) := by
  have hw := memWrite_of_live hs.pool (findLive_some ho).1 hin
  rw [exec_poolWr_inside ha (useSlice_owned ho) hin, hw]
  rfl

/-- Settles O16, by the check of a dead handle and the two equations of `POOL.WR`. -/
theorem writeStoresInsideTheSlice : Obligations.WriteStoresInsideTheSlice :=
  fun _ _ off bs ha => ⟨rfl,
    fun hl => exec_slice_fault ha (useSlice_notLive hl) off 0 bs 0 0 false _ (.tail _ (.head _)),
    fun ho => exec_poolWr_beyond ha (useSlice_owned ho), fun hs => exec_poolWr_owned hs ha⟩

/-! ### `POOL.RD` -/

/-- R132: inside the slice, `POOL.RD` answers what `MemRead` does. -/
theorem exec_poolRd_inside {s t : State} {h : Slice} {off n : Nat} {bs : List Byte} (ha : s.abort = false)
    (hu : useSlice h s = .ok () s) (hin : off + n ≤ h.len) (hr : memRead h off n s = .ok bs t) :
    exec (.poolRd (.slice h) off n) s = .next (answered .ok (.bytes bs) t) := by
  simp only [exec, execPoolRd, unlessAborted_of ha, hu, Res.bind_ok, if_pos hin, hr]
  rfl

/-- R132: beyond the slice, `POOL.RD` is refused. -/
theorem exec_poolRd_beyond {s : State} {h : Slice} {off n : Nat} (ha : s.abort = false)
    (hu : useSlice h s = .ok () s) (hout : h.len < off + n) :
    exec (.poolRd (.slice h) off n) s = .next (answered .refused .nothing s) := by
  simp only [exec, execPoolRd, unlessAborted_of ha, hu, Res.bind_ok, if_neg (not_le.2 hout)]
  rfl

/-- R132: a read inside an owned slice answers its bytes. -/
theorem exec_poolRd_owned {s : State} {h : Slice} {off n : Nat} (hs : BlockOk s) (ha : s.abort = false)
    (ho : Owns s h) (hin : off + n ≤ h.len) :
    exec (.poolRd (.slice h) off n) s
      = .next (answered .ok (.bytes (bytesAt s h off n)) { s with free := s.free + n }) :=
  exec_poolRd_inside ha (useSlice_owned ho) hin (memRead_of_live hs.pool (findLive_some ho).1 hin)

/-- R63, R132: inside a view and its slice, `POOL.RD` answers the bytes of the slice. -/
theorem exec_poolRd_view {s : State} {v : View} {who : Holder} {off n : Nat} (hs : BlockOk s) (ha : s.abort = false)
    (hl : findLive s.live v.slice.id = some { slice := v.slice, holder := who }) (hv : isLastView s who v = true)
    (hin : off + n ≤ v.len) (hin' : v.off + off + n ≤ v.slice.len) :
    exec (.poolRd (.view v) off n) s
      = .next (answered .ok (.bytes (bytesAt s v.slice (v.off + off) n)) { s with free := s.free + n }) := by
  have hr := memRead_of_live hs.pool (findLive_some hl).1 hin'
  simp only at hr
  simp only [exec, execPoolRd, unlessAborted_of ha, useView_live hl hv, Res.bind_ok, if_pos (And.intro hin hin'), hr]
  rfl

/-- R63, R132: beyond a view or its slice, `POOL.RD` is refused. -/
theorem exec_poolRd_view_beyond {s : State} {v : View} {who : Holder} {off n : Nat} (ha : s.abort = false)
    (hl : findLive s.live v.slice.id = some { slice := v.slice, holder := who }) (hv : isLastView s who v = true)
    (hout : v.len < off + n ∨ v.slice.len < v.off + off + n) :
    exec (.poolRd (.view v) off n) s = .next (answered .refused .nothing s) := by
  have hn : ¬ (off + n ≤ v.len ∧ v.off + off + n ≤ v.slice.len) := by omega
  simp only [exec, execPoolRd, unlessAborted_of ha, useView_live hl hv, Res.bind_ok, if_neg hn]
  rfl

/-- Settles O18, by the equations of `POOL.RD` through a slice and through a view. -/
theorem readAnswersTheBytes : Obligations.ReadAnswersTheBytes :=
  ⟨fun _ _ _ => rfl,
    fun _ _ _ _ ha ho => ⟨exec_poolRd_beyond ha (useSlice_owned ho), fun hs => exec_poolRd_owned hs ha ho⟩,
    fun _ _ _ _ _ ha hl hv => ⟨exec_poolRd_view_beyond ha hl hv, fun hs => exec_poolRd_view hs ha hl hv⟩,
    fun _ _ _ _ _ _ => bytesAt_get, bytesAt_length⟩

/-- R64: what has been stored through a live slice is read there. -/
theorem bytesAt_storeBytes {s : State} (hs : BlockOk s) {e : LiveEntry} (he : e ∈ s.live) (off : Nat)
    (bs : List Byte) : bytesAt (storeBytes e.slice off bs s) e.slice off bs.length = bs := by
  refine List.ext_getElem (bytesAt_length ..) fun i _ hi => ?_
  have hstored := storedByte_storeBytes_self hs.memory hs.pool he off bs (off + i)
  rw [if_pos (by omega), Nat.add_sub_cancel_left, List.getElem?_eq_getElem hi] at hstored
  exact List.getElem_eq_iff _ |>.2 (bytesAt_get hi hstored)

/-- Settles O19: the write stores its bytes in a state of the invariant, where the slice is still owned. -/
theorem readAfterWriteGivesTheBytesWritten : Obligations.ReadAfterWriteGivesTheBytesWritten := by
  intro s h off bs hs ha ho hin
  have hw := exec_poolWr_owned hs ha ho hin
  have hown : Owns (answered .ok .nothing (storeBytes h off bs s)) h := by
    simpa only [Owns, answered, storeBytes_live, storeBytes_agent] using ho
  refine ⟨_, _, hw, exec_poolRd_owned (hs.exec hw) ((storeBytes_abort ..).trans ha) hown hin, ?_⟩
  have hread : bytesAt (answered .ok .nothing (storeBytes h off bs s)) h off bs.length = bs :=
    bytesAt_storeBytes hs (findLive_some ho).1 off bs
  simp only [answered] at hread ⊢
  rw [hread]

end Sys2Proof.Machine
end

section
/-! Handles with a corrupt index (spec/40_pool.md R129; spec/60_exceptions.md R246; log 10): what each operation does
with one before `Release`, and the abort there. -/

namespace Sys2Proof.Machine

/-! ### Pool and frame operations -/

/-- R129, R246: `FRM.DROP` of a frame over a buffer with a corrupt index aborts. -/
theorem exec_frmDrop_corrupt {s : State} {f : Frame} (ha : s.abort = false) (hh : HoldsFrame s f.buf.id)
    (hp : placeOf s.cfg f.buf.idx = .corrupt) : exec (.frmDrop f) s = .next (takeAbort s) := by
  obtain ⟨e, hl, hw⟩ := hh
  simp only [exec, execFrmDrop, unlessAborted_of ha, useFrame_corrupt hl hw hp, Res.bind_ok, release_corrupt hl hp]
  rfl

/-- R161: a message not above the maximum becomes a frame on the operand's slice. -/
theorem exec_frmFromMessage_fits {s : State} {h : Slice} (ha : s.abort = false) (hu : useSlice h s = .ok () s)
    (hlen : h.len ≤ s.cfg.maxMsg) (ty : BitVec 8) (e : BitVec 16) (flag : Bool) :
    ∃ kind f, f.buf = h ∧ exec (.frmFromMessage h ty e flag) s
      = .next (answered .ok (.frame f) (setHolder h.id (frameHolder kind h 0 h.len s) s)) := by
  simp only [exec, execFrmFromMessage, unlessAborted_of ha, hu, Res.bind_ok, if_neg (not_lt.2 hlen)]
  exact ⟨_, _, rfl, rfl⟩

/-- R161: the agent holds the frame built on its slice, damaged or not. -/
theorem holdsFrame_setHolder {s : State} {id : Nat} {e : LiveEntry} (hl : findLive s.live id = some e)
    (kind : FrameKind) (b : Slice) (off len : Nat) :
    HoldsFrame (setHolder id (frameHolder kind b off len s) s) id := by
  refine ⟨{ e with holder := frameHolder kind b off len s }, by rw [find_setHolder, hl]; simp, ?_⟩
  unfold frameHolder
  split
  · exact .inl ⟨_, _, _, rfl⟩
  · exact .inr rfl

/-- R64: through a corrupt index, bytes to write have no place, and none to write do nothing. -/
theorem memWrite_corrupt {s : State} {h : Slice} (hp : placeOf s.cfg h.idx = .corrupt) (off : Nat) (bs : List Byte) :
    memWrite h off bs s = if bs = [] then .ok () s else .fault .noPlace := by
  simp only [memWrite, if_pos hp]

/-- R129: `Acquire` names the heap or a slot. -/
theorem acquire_not_corrupt {s : State} (hc : s.cfg.WF) (len : Nat) (who : Holder) :
    placeOf s.cfg (acquire len who s).1.idx ≠ .corrupt := by
  rcases acquire_cases len who s with ⟨k, hk, e⟩ | ⟨-, e⟩ <;> rw [e]
  · obtain ⟨⟨k1, kn⟩, -, -⟩ := mem_fit.1 hk
    have hp : placeOf s.cfg (acquireSlot k len who s).1.idx = .pool := placeOf_slot hc k1 kn
    simp [hp]
  · have hp : placeOf s.cfg (acquireHeap len who s).1.idx = .heap := placeOf_heap.2 rfl
    simp [hp]

/-! ### `ENC.ENCODE` -/

/-- R210: where a frame with a corrupt index has been written, the scratch buffer has the wire length and begins with
the header. -/
theorem BlockOk.wroteHeader {s t u : State} (hs : BlockOk s) {c : Nat} {E : EncState} (hE : s.encs[c]? = some E)
    {f : Frame} {b : Slice} (hp : placeOf s.cfg f.buf.idx = .corrupt)
    (h1 : scratch c (wireLength s.cfg f) E s = .ok b t) (h2 : writeFrame b f t = .ok () u) :
    b.len = wireLength s.cfg f ∧ ∀ h, f.kind = .std h → ∀ i < headerSize, storedByte u b i = (headerBytes h)[i]? := by
  obtain ⟨t', b', h1', hst, htE, hlen, -, htc, -⟩ := scratch_ok hs hE (wireLength s.cfg f)
  obtain ⟨rfl, rfl⟩ : b = b' ∧ t = t' := by simpa [h1] using h1'
  have hb : (⟨b, .enc c⟩ : LiveEntry) ∈ t.live := hst.encBuf (htE ▸ getElem?_set_same hE) rfl
  obtain ⟨u', h2', -, -, -, -, -, -, -, -, -, -, -, -, hhdr, -⟩ :=
    writeFrame_ok hst hb (htc ▸ hlen) (.inr (htc ▸ hp))
  obtain rfl : u = u' := by simpa [h2] using h2'
  exact ⟨hlen, hhdr⟩

/-- R129, R210: `ENC.ENCODE` of a frame with a corrupt index writes its output, and aborts at the release. -/
theorem exec_encEncode_corrupt {s : State} {c : Nat} {E : EncState} {f : Frame} (hs : BlockOk s) (ha : s.abort = false)
    (hE : DrivesEnc s c E) (hh : HoldsFrame s f.buf.id) (hp : placeOf s.cfg f.buf.idx = .corrupt) :
    ∃ b u, exec (.encEncode c f) s = .next (takeAbort u) ∧
      WroteFrame (claimEnc c E s) u c { E with driver := some s.agent } f b ∧ b.len = wireLength s.cfg f ∧
      ∀ h, f.kind = .std h → ∀ i < headerSize, storedByte u b i = (headerBytes h)[i]? := by
  have hE' : (claimEnc c E s).encs[c]? = some { E with driver := some s.agent } := getElem?_set_same hE.1
  have hu := hs.claimEnc hE.1
  obtain ⟨e, hl, hw⟩ := hh
  have hm := (findLive_some hl).1
  obtain ⟨b, t, u, h1, h2, hwrote⟩ := hu.wroteFrame hE' (.inr hp)
  obtain ⟨hlen, hhdr⟩ := hu.wroteHeader hE' hp h1 h2
  have hne : e.holder ≠ .enc c := by
    rcases hw with ⟨_, _, _, hw⟩ | hw <;> simp [hw]
  have hlive := hwrote.ok.find (hwrote.live e hm (hu.encBuf_ne hE' hm hne))
  rw [(findLive_some hl).2] at hlive
  have hrel := release_corrupt hlive (hwrote.cfg ▸ hp)
  refine ⟨b, u, ?_, hwrote, hlen, hhdr⟩
  have hf : useFrame f (claimEnc c E s) = .ok () (claimEnc c E s) := useFrame_corrupt hl hw hp
  simp only [exec, execEncEncode, unlessAborted_of ha, withEnc_of hE, hf, Res.bind_ok, h1, h2, hrel]
  rfl

/-- Settles O15: clause by clause, the equation of the operation on a handle with a corrupt index. -/
theorem corruptIndexAborts : Obligations.CorruptIndexAborts := by
  refine ⟨fun s g h ha ho hid hp => ?_, fun s f => exec_frmDrop_corrupt, fun s g h ty e flag ha ho hid hp hlen => ?_,
    fun s g h off n bs ha ho hid hp => ?_, fun s c E f hs ha hE hh hp => ?_, fun s i ha => exec_of_abort ha i,
    fun s len who hc => acquire_not_corrupt hc len who⟩
  · have hl : findLive s.live h.id = some { slice := g, holder := .caller s.agent } := hid ▸ ho
    exact exec_poolRelease_corrupt ha (useSlice_corrupt ho hid hp) hl hp
  · obtain ⟨kind, f, hf, hx⟩ := exec_frmFromMessage_fits ha (useSlice_corrupt ho hid hp) hlen ty e flag
    have hl : findLive s.live h.id = some { slice := g, holder := .caller s.agent } := hid ▸ ho
    exact ⟨_, f, hx, rfl, hf, holdsFrame_setHolder hl kind h 0 h.len⟩
  · have hu := useSlice_corrupt ho hid hp
    refine ⟨fun hin => ⟨_, ?_, exec_poolRd_inside ha hu hin (memRead_corrupt hp off n)⟩, exec_poolRd_beyond ha hu,
      fun hin hb => ?_, fun hin => ?_, exec_poolWr_beyond ha hu⟩
    · simp
    · rw [exec_poolWr_inside ha hu hin, memWrite_corrupt hp, if_neg hb]
      rfl
    · rw [exec_poolWr_inside ha hu hin, memWrite_corrupt hp, if_pos rfl]
      rfl
  · obtain ⟨b, u, hx, hw, hlen, hhdr⟩ := exec_encEncode_corrupt hs ha hE hh hp
    have hE' : (claimEnc c E s).encs[c]? = some { E with driver := some s.agent } := getElem?_set_same hE.1
    refine ⟨takeAbort u, b, hx, rfl, rfl, ?_, hlen, ?_, hhdr, fun e he hne => ?_, hw.decs, hw.cfg⟩
    · rw [takeAbort_encs, hw.encs, claimEnc_encs, List.set_set]
    · exact hw.ok.holders.encHas c _ b (hw.encs ▸ getElem?_set_same hE') rfl
    · exact ⟨hw.ok.find (hw.live e he hne), hw.bytes e he hne⟩

end Sys2Proof.Machine
end

section
/-! The equations of the `HDR` operations, none of which changes the state but for the response, and what they say of
headers and their six bytes (spec/41_header.md R141 to R152). -/

namespace Sys2Proof

/-- R141, R143: six bytes or more stand for a header. -/
theorem exists_headerOfBytes {bs : List Byte} (hl : headerSize ≤ bs.length) : ∃ h, headerOfBytes bs = some h := by
  match bs, hl with
  | _ :: _ :: _ :: _ :: _ :: _ :: _, _ => exact ⟨_, rfl⟩

/-- R141: fewer than six bytes stand for no header. -/
theorem headerOfBytes_eq_none {bs : List Byte} (hl : bs.length < headerSize) : headerOfBytes bs = none := by
  match bs, hl with
  | [], _ | [_], _ | [_, _], _ | [_, _, _], _ | [_, _, _, _], _ | [_, _, _, _, _], _ => rfl

end Sys2Proof

namespace Sys2Proof.Machine

/-- R141, R143: a parse is answered with the header that the bytes stand for. -/
theorem exec_hdrParse {s : State} (ha : s.abort = false) {bs : List Byte} {h : Header}
    (hh : headerOfBytes bs = some h) :
    exec (.hdrParse bs) s = .next (answered .ok (.header h) s) := by
  simp only [exec, execHdrParse, unlessAborted_of ha, hh]
  rfl

/-- R141: a parse of too few bytes is answered `MALFORMED_HEADER`. -/
theorem exec_hdrParse_short {s : State} (ha : s.abort = false) {bs : List Byte} (hl : bs.length < headerSize) :
    exec (.hdrParse bs) s = .next (answered .malformedHeader .nothing s) := by
  simp only [exec, execHdrParse, unlessAborted_of ha, headerOfBytes_eq_none hl]
  rfl

/-- R144: a serialisation is answered with the six bytes. -/
theorem exec_hdrSerialize {s : State} (ha : s.abort = false) (h : Header) :
    exec (.hdrSerialize h) s = .next (answered .ok (.bytes (headerBytes h)) s) :=
  unlessAborted_of ha _

/-- R148: a length above `MAX_MSG_LENGTH` is answered `MALFORMED_HEADER`. -/
theorem exec_hdrBuild_tooLong {s : State} (ha : s.abort = false) {len : Nat} (hl : s.cfg.maxMsg < len) (e : BitVec 16)
    (t : BitVec 8) : exec (.hdrBuild e t len) s = .next (answered .malformedHeader .nothing s) := by
  simp only [exec, execHdrBuild, unlessAborted_of ha, if_pos hl]
  rfl

/-- R147: any other length is answered with the header of the three operands. -/
theorem exec_hdrBuild_fits {s : State} (ha : s.abort = false) {len : Nat} (hl : len ≤ s.cfg.maxMsg) (e : BitVec 16)
    (t : BitVec 8) :
    exec (.hdrBuild e t len) s = .next (answered .ok (.header ⟨e, t, BitVec.ofNat 24 len⟩) s) := by
  simp only [exec, execHdrBuild, unlessAborted_of ha, if_neg (not_lt.2 hl)]
  rfl

/-- R12, R147: the length field holds any length up to `MAX_MSG_LENGTH` unchanged. -/
theorem toNat_lengthField {c : Config} (hc : c.WF) {len : Nat} (hl : len ≤ c.maxMsg) :
    (BitVec.ofNat 24 len).toNat = len := by
  have hfit : len < 2 ^ 24 := Nat.lt_succ_of_le (hl.trans hc.maxMsg)
  rw [BitVec.toNat_ofNat, Nat.mod_eq_of_lt hfit]

/-- Settles O4: reading undoes writing, writing undoes reading, and no two headers have the same bytes. -/
theorem parseAndSerializeAreInverse : Obligations.ParseAndSerializeAreInverse := by
  refine ⟨fun h s ha => ⟨exec_hdrSerialize ha h, exec_hdrParse ha (headerOfBytes_headerBytes h)⟩,
    fun bs s ha hl => ?_, fun bs hl => ?_⟩
  · obtain ⟨h, hh⟩ := exists_headerOfBytes hl
    exact ⟨h, exec_hdrParse ha hh, headerBytes_of_headerOfBytes hh ▸ exec_hdrSerialize ha h⟩
  · obtain ⟨h, hh⟩ := exists_headerOfBytes hl.ge
    have hb : headerBytes h = bs := (headerBytes_of_headerOfBytes hh).trans (List.take_of_length_le hl.le)
    exact ⟨h, hb, fun g hg => headerBytes_injective (hg.trans hb.symm)⟩

/-- Settles O21: the fields of the header parsed are those of the header whose bytes are the first six. -/
theorem parseReadsAndSerializeWritesSixBytes : Obligations.ParseReadsAndSerializeWritesSixBytes := by
  refine fun s ha => ⟨fun bs => ⟨rfl, exec_hdrParse_short ha⟩, fun b0 b1 b2 b3 b4 b5 rest => ?_,
    fun h => ⟨rfl, exec_hdrSerialize ha h⟩⟩
  obtain ⟨h, hh⟩ : ∃ h, headerOfBytes (b0 :: b1 :: b2 :: b3 :: b4 :: b5 :: rest) = some h := ⟨_, rfl⟩
  have hb : headerBytes h = [b0, b1, b2, b3, b4, b5] := headerBytes_of_headerOfBytes hh
  exact ⟨h, exec_hdrParse ha hh, fields_of_headerBytes_eq hb⟩

/-- Settles O22, by the two equations of `HDR.BUILD`; a well-formed maximum fits the length field. -/
theorem buildChecksTheLength : Obligations.BuildChecksTheLength :=
  fun _ e t _ ha => ⟨rfl, fun hl => exec_hdrBuild_tooLong ha hl e t, fun hl => exec_hdrBuild_fits ha hl e t,
    fun hc hl => toNat_lengthField hc hl⟩

/-- Settles O23: no accessor does more than its first check and its answer, and the flag is bit 15. -/
theorem accessorsAnswerTheirField : Obligations.AccessorsAnswerTheirField :=
  fun _ _ ha => ⟨rfl, rfl, rfl, unlessAborted_of ha _, unlessAborted_of ha _, unlessAborted_of ha _⟩

end Sys2Proof.Machine
end

section
/-! The `FRM` operations on an operand that passes (spec/42_frame.md R161 to R169): the two constructors, the three
readers, and `FRM.DROP`; and whose a slice is that a frame has taken over. -/

namespace Sys2Proof.Machine

/-! ### A frame takes over its slice -/

/-- R161, R168, R281: the state with the slice of `f` held by the frame `f` of the agent. -/
def givenToFrame (f : Frame) (s : State) : State :=
  setHolder f.buf.id (.frame s.agent f.kind f.payOff f.payLen) s

/-- R281: a frame built on the agent's own slice takes the slice over. -/
theorem giveToFrame_owned {s : State} {p : Slice} (ho : Owns s p) (kind : FrameKind) (off len : Nat) :
    giveToFrame kind p off len s = answer .ok (.frame ⟨kind, p, off, len⟩) (givenToFrame ⟨kind, p, off, len⟩ s) := by
  simp only [giveToFrame, givenToFrame, frameHolder_issued ho]

/-- R281: the agent whose slice is taken over owns the frame. -/
theorem ownsFrame_givenToFrame {s : State} {f : Frame} (ho : Owns s f.buf) : OwnsFrame (givenToFrame f s) f := by
  show findLive (givenToFrame f s).live f.buf.id = some ⟨f.buf, .frame s.agent f.kind f.payOff f.payLen⟩
  rw [givenToFrame, find_setHolder, ho, Option.map_some, if_pos rfl]

/-- R281: the slice of a frame is not the agent's own, though the frame is. -/
theorem useSlice_of_ownsFrame {s : State} {f : Frame} (ho : OwnsFrame s f) : useSlice f.buf s = .fault .notOwner :=
  useSlice_notOwner ho (by simp)

/-- R281: the owner of a frame holds a frame on its buffer. -/
theorem holdsFrame_of_ownsFrame {s : State} {f : Frame} (ho : OwnsFrame s f) : HoldsFrame s f.buf.id :=
  ⟨_, ho, .inl ⟨_, _, _, rfl⟩⟩

/-! ### `FRM.FROM_MESSAGE` -/

/-- R162: bit 15 of the `extension_type` stored is the flag operand. -/
theorem withChannelFlag_flagBit (e : BitVec 16) (flag : Bool) : (withChannelFlag e flag).getLsbD 15 = flag := by
  cases flag <;> simp [withChannelFlag, channelFlagBit]

/-- R162: bits 14:0 of the `extension_type` stored are those of the operand. -/
theorem withChannelFlag_below (e : BitVec 16) (flag : Bool) {i : Nat} (hi : i < 15) :
    (withChannelFlag e flag).getLsbD i = e.getLsbD i := by
  have hbit : channelFlagBit.getLsbD i = false := (by decide : ∀ i < 15, channelFlagBit.getLsbD i = false) i hi
  cases flag with
  | false =>
    have h16 : i < 16 := by omega
    simp only [withChannelFlag, Bool.false_eq_true, if_false, BitVec.getLsbD_and, BitVec.getLsbD_not, hbit, h16]
    simp
  | true => simp [withChannelFlag, hbit]

/-- R161: the frame of a message on the slice `p`. -/
def messageFrame (p : Slice) (t : BitVec 8) (e : BitVec 16) (flag : Bool) : Frame where
  kind := .std { extType := withChannelFlag e flag, msgType := t, msgLength := BitVec.ofNat 24 p.len }
  buf := p
  payOff := 0
  payLen := p.len

/-- R161: a payload above `MAX_MSG_LENGTH` is answered `NONE`. -/
theorem exec_frmFromMessage_tooLong {s : State} {p : Slice} (ha : s.abort = false) (ho : Owns s p)
    (hlen : s.cfg.maxMsg < p.len) (t : BitVec 8) (e : BitVec 16) (flag : Bool) :
    exec (.frmFromMessage p t e flag) s = .next (answered .none .nothing s) := by
  simp only [exec, execFrmFromMessage, unlessAborted_of ha, useSlice_owned ho, Res.bind_ok, if_pos hlen]
  rfl

/-- R161: any other payload of the agent becomes a frame. -/
theorem exec_frmFromMessage_owned {s : State} {p : Slice} (ha : s.abort = false) (ho : Owns s p)
    (hlen : p.len ≤ s.cfg.maxMsg) (t : BitVec 8) (e : BitVec 16) (flag : Bool) :
    exec (.frmFromMessage p t e flag) s
      = .next (answered .ok (.frame (messageFrame p t e flag)) (givenToFrame (messageFrame p t e flag) s)) := by
  simp only [exec, execFrmFromMessage, unlessAborted_of ha, useSlice_owned ho, Res.bind_ok, if_neg (not_lt.2 hlen),
    giveToFrame_owned ho]
  rfl

/-- Settles O25, by the two equations of `FRM.FROM_MESSAGE`, and the bits of the `extension_type` stored. -/
theorem fromMessageBuildsAStandardFrame : Obligations.FromMessageBuildsAStandardFrame :=
  fun _ _ t e flag ha ho => ⟨rfl, fun hl => exec_frmFromMessage_tooLong ha ho hl t e flag,
    fun hl => ⟨withChannelFlag e flag, withChannelFlag_flagBit e flag, fun _ => withChannelFlag_below e flag,
      exec_frmFromMessage_owned ha ho hl t e flag⟩⟩

/-! ### `FRM.FROM_HANDSHAKE` -/

/-- R168: a blob of another length is answered `NONE`. -/
theorem exec_frmFromHandshake_wrongLength {s : State} {p : Slice} (ha : s.abort = false) (ho : Owns s p)
    (hlen : p.len ≠ s.cfg.handshakeLen) :
    exec (.frmFromHandshake p) s = .next (answered .none .nothing s) := by
  simp only [exec, execFrmFromHandshake, unlessAborted_of ha, useSlice_owned ho, Res.bind_ok, if_neg hlen]
  rfl

/-- R168: a blob of the agent of the handshake's length becomes a frame. -/
theorem exec_frmFromHandshake_owned {s : State} {p : Slice} (ha : s.abort = false) (ho : Owns s p)
    (hlen : p.len = s.cfg.handshakeLen) :
    exec (.frmFromHandshake p) s = .next (answered .ok (.frame ⟨.hs, p, 0, s.cfg.handshakeLen⟩)
      (givenToFrame ⟨.hs, p, 0, s.cfg.handshakeLen⟩ s)) := by
  simp only [exec, execFrmFromHandshake, unlessAborted_of ha, useSlice_owned ho, Res.bind_ok, if_pos hlen,
    giveToFrame_owned ho]
  rfl

/-- Settles O27, by the two equations of `FRM.FROM_HANDSHAKE`. -/
theorem fromHandshakeBuildsAHandshakeFrame : Obligations.FromHandshakeBuildsAHandshakeFrame :=
  fun _ _ ha ho => ⟨rfl, exec_frmFromHandshake_wrongLength ha ho, exec_frmFromHandshake_owned ha ho⟩

/-! ### The slice of a new frame -/

/-- R161, R168: a constructor that answers a frame has built it on its operand, and the agent owns it. -/
theorem exec_frameConstructor_frame {s t : State} {p : Slice} {f : Frame} {ty : BitVec 8} {e : BitVec 16} {flag : Bool}
    {i : Instr} (hi : i ∈ [Instr.frmFromMessage p ty e flag, .frmFromHandshake p]) (ho : Owns s p)
    (hx : exec i s = .next t) (hr : t.resp = some { status := .ok, result := .frame f }) :
    t.abort = false ∧ f.buf = p ∧ OwnsFrame t f := by
  have ha := abort_of_exec_next hx
  simp only [List.mem_cons, List.not_mem_nil, or_false] at hi
  rcases hi with rfl | rfl
  · rcases lt_or_ge s.cfg.maxMsg p.len with hlen | hlen
    · obtain rfl := by simpa [exec_frmFromMessage_tooLong ha ho hlen] using hx
      simp [answered] at hr
    · obtain rfl := by simpa [exec_frmFromMessage_owned ha ho hlen] using hx
      obtain rfl : messageFrame p ty e flag = f := by simpa [answered] using hr
      exact ⟨ha, rfl, ownsFrame_givenToFrame ho⟩
  · by_cases hlen : p.len = s.cfg.handshakeLen
    · obtain rfl := by simpa [exec_frmFromHandshake_owned ha ho hlen] using hx
      obtain rfl : ⟨.hs, p, 0, s.cfg.handshakeLen⟩ = f := by simpa [answered] using hr
      exact ⟨ha, rfl, ownsFrame_givenToFrame ho⟩
    · obtain rfl := by simpa [exec_frmFromHandshake_wrongLength ha ho hlen] using hx
      simp [answered] at hr

/-- Settles O46: the frame answered holds the slice, so the check of every Slice operand finds it foreign. -/
theorem sliceGivenToAFrameIsNotTheCallers : Obligations.SliceGivenToAFrameIsNotTheCallers := by
  intro s t p f ty e flag off n bs i hi ho hx hr
  obtain ⟨ha, rfl, hf⟩ := exec_frameConstructor_frame hi ho hx hr
  refine ⟨hf, fun j hj => exec_slice_fault ha (useSlice_of_ownsFrame hf) off n bs ty e flag j ?_⟩
  simp only [List.mem_cons] at hj ⊢
  tauto

/-! ### The readers -/

theorem exec_frmHeader_std {s : State} {f : Frame} (ha : s.abort = false) (hu : useFrame f s = .ok () s) {h : Header}
    (hk : f.kind = .std h) : exec (.frmHeader f) s = .next (answered .ok (.header h) s) := by
  simp only [exec, execFrmHeader, unlessAborted_of ha, hu, Res.bind_ok, hk]
  rfl

/-- R164: a handshake frame has no header. -/
theorem exec_frmHeader_hs {s : State} {f : Frame} (ha : s.abort = false) (hu : useFrame f s = .ok () s)
    (hk : f.kind = .hs) : exec (.frmHeader f) s = .next (answered .none .nothing s) := by
  simp only [exec, execFrmHeader, unlessAborted_of ha, hu, Res.bind_ok, hk]
  rfl

theorem exec_frmPayload {s : State} {f : Frame} (ha : s.abort = false) (hu : useFrame f s = .ok () s) :
    exec (.frmPayload f) s = .next (answered .ok (.view { slice := f.buf, off := f.payOff, len := f.payLen }) s) := by
  simp only [exec, execFrmPayload, unlessAborted_of ha, hu, Res.bind_ok]
  rfl

/-- R166: `FRM.ENCODED_LENGTH` answers the wire length. -/
theorem exec_frmEncodedLength {s : State} {f : Frame} (ha : s.abort = false) (hu : useFrame f s = .ok () s) :
    exec (.frmEncodedLength f) s = .next (answered .ok (.count (wireLength s.cfg f)) s) := by
  simp only [exec, execFrmEncodedLength, unlessAborted_of ha, hu, Res.bind_ok]
  rfl

theorem wireLength_std (c : Config) {f : Frame} {h : Header} (hk : f.kind = .std h) :
    wireLength c f = 6 + h.msgLength.toNat := by
  simp only [wireLength, hk, headerSize]

theorem wireLength_hs (c : Config) {f : Frame} (hk : f.kind = .hs) : wireLength c f = c.handshakeLen := by
  simp only [wireLength, hk]

/-- R37: a frame of the invariant has the shape its kind asks for. -/
theorem BlockOk.frameShape {s : State} (hs : BlockOk s) {f : Frame} (ho : OwnsFrame s f) :
    FrameShapeOk s.cfg f.buf f.kind f.payOff f.payLen :=
  hs.holders.frames _ (findLive_some ho).1 _ _ _ _ rfl

/-- Settles O26, by the equation of each reader, and the shape of frames for what the payload spans. -/
theorem frameReadersAnswerAndChangeNothing : Obligations.FrameReadersAnswerAndChangeNothing := by
  intro s f ha ho
  have hu := useFrame_owned ho
  refine ⟨rfl, rfl, rfl, fun h hk => exec_frmHeader_std ha hu hk, exec_frmHeader_hs ha hu, exec_frmPayload ha hu,
    fun h hk => ?_, fun hk => ?_, fun hs => ?_⟩
  · rw [exec_frmEncodedLength ha hu, wireLength_std s.cfg hk]
  · rw [exec_frmEncodedLength ha hu, wireLength_hs s.cfg hk]
  · have hshape := hs.frameShape ho
    refine ⟨fun h hk => ?_, fun hk => ?_⟩ <;> rw [hk] at hshape
    · exact hshape.2.1
    · exact hshape.2

/-! ### `FRM.DROP` -/

/-- R169: where `Release` of the buffer answers, so does `FRM.DROP`. -/
theorem exec_frmDrop_ok {s t : State} {f : Frame} (ha : s.abort = false) (hu : useFrame f s = .ok () s)
    (hr : release f.buf s = .ok () t) : exec (.frmDrop f) s = .next (answered .ok .nothing t) := by
  simp only [exec, execFrmDrop, unlessAborted_of ha, hu, hr, Res.bind_ok]
  rfl

/-- Settles O28: the check of a dead frame, and `Release` of the buffer by the place that its index names. -/
theorem dropReleasesTheFramesBuffer : Obligations.DropReleasesTheFramesBuffer := by
  refine fun s f ha => ⟨rfl, fun hl => ?_, fun ho hi => ?_, fun ho hi h1 hn => ?_, fun ho hi hn => ?_⟩
  · have hfault := exec_frame_fault ha (useFrame_notLive hl) fun c E => useFrame_notLive (s := claimEnc c E s) hl
    exact hfault.1 _ (by simp)
  · exact ⟨_, exec_frmDrop_ok ha (useFrame_owned ho) (release_heap ho (placeOf_heap.2 hi)),
      rfl, rfl, rfl, rfl, rfl, rfl, ⟨rfl, rfl, rfl, rfl, rfl, rfl⟩⟩
  · exact ⟨_, exec_frmDrop_ok ha (useFrame_owned ho) (release_pool ho (placeOf_pool.2 ⟨hi, h1, hn⟩)),
      rfl, rfl, rfl, rfl, rfl, rfl, ⟨rfl, rfl, rfl, rfl, rfl, rfl⟩⟩
  · exact exec_frmDrop_corrupt ha (holdsFrame_of_ownsFrame ho) (placeOf_corrupt.2 ⟨hi, hn⟩)

end Sys2Proof.Machine
end

section
/-! `DEC.WRITABLE`, `DEC.FILL` and `DEC.NEXT_FRAME` (spec/43_decoder.md R182 to R195): the equation of each on the
decoder that the agent drives, form by form and arm by arm. -/

namespace Sys2Proof.Machine

/-- R280: a `DEC` operation goes on with the decoder that its agent drives. -/
theorem unlessAborted_withDec {s : State} {c : Nat} {D : DecState} (ha : s.abort = false) (hD : DrivesDec s c D)
    (k : DecState → State → Res Response) :
    unlessAborted s (fun s => withDec c s k) = conclude (k { D with driver := some s.agent } (claimDec c D s)) := by
  rw [unlessAborted_of ha, withDec_of hD]

/-- R29: the target rests on the phase and the header alone. -/
theorem target_mk (k : Config) (D : DecState) (m : Mode) (n r : Nat) (b : Option Slice) (f : Bool) (d : Option Nat) :
    target k ⟨m, D.phase, D.hdr, n, r, b, f, d⟩ = target k D := rfl

/-! ### `DEC.WRITABLE` -/

/-- R191: faulted, `DEC.WRITABLE` is refused. -/
theorem exec_decWritable_faulted {s : State} {c : Nat} {D : DecState} (ha : s.abort = false) (hD : DrivesDec s c D)
    (hf : D.fault = true) : exec (.decWritable c) s = .next (answered .refused .nothing (claimDec c D s)) := by
  refine (unlessAborted_withDec ha hD _).trans ?_
  simp only [unlessFaulted, hf, if_true]
  rfl

/-- R184: with no buffer, one of `T` bytes is acquired. -/
theorem exec_decWritable_acquires {s : State} {c : Nat} {D : DecState} (ha : s.abort = false) (hD : DrivesDec s c D)
    (hf : D.fault = false) (hb : D.buf = none) :
    exec (.decWritable c) s = .next (answered .ok (.window D.received D.missing)
      (setDec c { D with buf := some (acquire (target s.cfg D) (.dec c) (claimDec c D s)).1, driver := some s.agent }
        (acquire (target s.cfg D) (.dec c) (claimDec c D s)).2)) := by
  refine (unlessAborted_withDec ha hD _).trans ?_
  simp only [unlessFaulted, hf, hb, Bool.false_eq_true, if_false]
  rfl

/-- R182: a buffer of `T` bytes stays. -/
theorem exec_decWritable_keeps {s : State} {c : Nat} {D : DecState} {b : Slice} (ha : s.abort = false)
    (hD : DrivesDec s c D) (hf : D.fault = false) (hb : D.buf = some b) (hl : target s.cfg D ≤ b.len) :
    exec (.decWritable c) s = .next (answered .ok (.window D.received D.missing) (claimDec c D s)) := by
  refine (unlessAborted_withDec ha hD _).trans ?_
  simp only [unlessFaulted, hf, hb, Bool.false_eq_true, if_false, claimDec_cfg, target_mk, if_neg (Nat.not_lt.2 hl)]
  rfl

/-- R38, R184: a shorter buffer that has room is lengthened in place. -/
theorem exec_decWritable_lengthens {s : State} {c : Nat} {D : DecState} {b : Slice} (ha : s.abort = false)
    (hD : DrivesDec s c D) (hf : D.fault = false) (hb : D.buf = some b) (hl : b.len < target s.cfg D)
    (hcap : target s.cfg D ≤ b.cap) :
    exec (.decWritable c) s = .next (answered .ok (.window D.received D.missing)
      (setDec c { D with buf := some { b with len := target s.cfg D }, driver := some s.agent }
        (setSliceLen b.id (target s.cfg D) (claimDec c D s)))) := by
  refine (unlessAborted_withDec ha hD _).trans ?_
  simp only [unlessFaulted, hf, hb, Bool.false_eq_true, if_false, claimDec_cfg, target_mk, if_pos hl, if_pos hcap]
  rfl

/-- R184, R185: a shorter buffer without room is replaced by a new one, which holds the bytes received so far, and
released. -/
theorem exec_decWritable_reallocates {s : State} {c : Nat} {D : DecState} {b : Slice} (hs : BlockOk s)
    (ha : s.abort = false) (hD : DrivesDec s c D) (hf : D.fault = false) (hb : D.buf = some b)
    (hl : b.len < target s.cfg D) (hcap : b.cap < target s.cfg D) :
    ∃ t n, exec (.decWritable c) s = .next t ∧
      t.resp = some { status := .ok, result := .window D.received D.missing } ∧
      n = (acquire (target s.cfg D) (.dec c) (claimDec c D s)).1 ∧
      t.decs[c]? = some { D with buf := some n, driver := some s.agent } ∧
      t.live = dropLive (s.live ++ [{ slice := n, holder := .dec c }]) b.id ∧
      t.cfg = s.cfg ∧ t.abort = false ∧ t.agent = s.agent ∧
      ∀ i < D.received, storedByte t n i = storedByte s b i := by
  have hD' : (claimDec c D s).decs[c]? = some { D with driver := some s.agent } := getElem?_set_same hD.1
  obtain ⟨t, hre, -, hlive, hdecs, -, hcfg, hab, hag, hstored, -⟩ := reallocate_ok (hs.claimDec hD.1) hD' hb hl rfl
  refine ⟨answered .ok (.window D.received D.missing) t, _, ?_, rfl, rfl, ?_, hlive, hcfg, hab.trans ha, hag, hstored⟩
  · refine (unlessAborted_withDec ha hD _).trans ?_
    simp only [hf, hb] at hre
    simp only [unlessFaulted, hf, hb, Bool.false_eq_true, if_false, claimDec_cfg, target_mk, if_pos hl,
      if_neg (Nat.not_le.2 hcap), hre]
    rfl
  · exact hdecs ▸ getElem?_set_same hD'

/-- Settles O29, by the equation of each form; after a reallocation the new slice has a fresh id, and the old is
dropped. -/
theorem writableOpensTheWindow : Obligations.WritableOpensTheWindow := by
  refine fun s c D hs ha hD => ⟨exec_decWritable_faulted ha hD, fun hf => ⟨exec_decWritable_acquires ha hD hf,
    fun b => exec_decWritable_keeps ha hD hf, fun b => exec_decWritable_lengthens ha hD hf, fun b hb hl hcap => ?_⟩⟩
  obtain ⟨t, n, hx, hr, hn, hdec, hlive, -, -, -, hstored⟩ := exec_decWritable_reallocates hs ha hD hf hb hl hcap
  have hne : n.id ≠ b.id := by
    rw [hn, (acquire_slice ..).1]
    exact (hs.old (hs.decBuf hD.1 hb)).symm
  refine ⟨t, n, hx, hr, hn, hdec, (hs.exec hx).holders.decHas c _ n hdec rfl, ?_, hstored⟩
  rw [hlive, findLive_dropLive, if_pos rfl]

/-- R182, R187: in every form but the refusal, the decoder then has a buffer of `T` bytes with the bytes received so
far. -/
theorem exec_decWritable_window {s : State} {c : Nat} {D : DecState} (hs : BlockOk s) (ha : s.abort = false)
    (hD : DrivesDec s c D) (hf : D.fault = false) :
    ∃ t b, exec (.decWritable c) s = .next t ∧ t.cfg = s.cfg ∧ t.abort = false ∧ t.agent = s.agent ∧
      t.decs[c]? = some { D with buf := some b, driver := some s.agent } ∧ b.len = target s.cfg D ∧
      ∀ b₀, D.buf = some b₀ → ∀ i < D.received, storedByte t b i = storedByte s b₀ i := by
  cases hb : D.buf with
  | none =>
    refine ⟨_, (acquire (target s.cfg D) (.dec c) (claimDec c D s)).1, exec_decWritable_acquires ha hD hf hb,
      acquire_cfg .., (acquire_abort ..).trans ha, acquire_agent .., ?_, (acquire_slice ..).2, by simp⟩
    exact getElem?_set_same ((congrArg (·[c]?) (acquire_decs ..)).trans (getElem?_set_same hD.1))
  | some b₀ =>
    rcases Nat.lt_or_ge b₀.len (target s.cfg D) with hl | hl
    · rcases Nat.lt_or_ge b₀.cap (target s.cfg D) with hcap | hcap
      · obtain ⟨t, n, hx, -, hn, hdec, -, hcfg, hab, hag, hstored⟩ :=
          exec_decWritable_reallocates hs ha hD hf hb hl hcap
        refine ⟨t, n, hx, hcfg, hab, hag, hdec, hn ▸ (acquire_slice ..).2, ?_⟩
        rintro _ ⟨⟩
        exact hstored
      · refine ⟨_, _, exec_decWritable_lengthens ha hD hf hb hl hcap, rfl, ha, rfl,
          getElem?_set_same (getElem?_set_same hD.1), rfl, ?_⟩
        rintro _ ⟨⟩ i -
        rfl
    · refine ⟨_, b₀, exec_decWritable_keeps ha hD hf hb hl, rfl, ha, rfl, ?_, ?_, ?_⟩
      · exact hb ▸ getElem?_set_same hD.1
      · exact le_antisymm ((hs.decOk hD.1).within b₀ hb).2 hl
      · rintro _ ⟨⟩ i -
        rfl

/-! ### `DEC.FILL` -/

/-- R186: faulted, with no buffer of `T` bytes, or with more bytes than the window, `DEC.FILL` is refused. -/
theorem exec_decFill_refused {s : State} {c : Nat} {D : DecState} {bs : List Byte} (ha : s.abort = false)
    (hD : DrivesDec s c D)
    (hn : D.fault = true ∨ D.buf = none ∨ (∃ b, D.buf = some b ∧ b.len ≠ target s.cfg D) ∨ D.missing < bs.length) :
    exec (.decFill c bs) s = .next (answered .refused .nothing (claimDec c D s)) := by
  refine (unlessAborted_withDec ha hD _).trans ?_
  simp only [unlessFaulted]
  split
  · rfl
  · rename_i hf
    split
    · rfl
    · rename_i b hb
      split
      · rename_i hwin
        rcases hn with h | h | ⟨g, hg, hlen⟩ | h
        · exact absurd h hf
        · exact absurd (hb.symm.trans h) (by simp)
        · obtain rfl := Option.some.inj (hb.symm.trans hg)
          exact absurd hwin.1 hlen
        · exact absurd hwin.2 (Nat.not_le.2 h)
      · rfl

/-- R186: otherwise the bytes are stored in the window, and the counters move. -/
theorem exec_decFill_stores {s : State} {c : Nat} {D : DecState} {b : Slice} {bs : List Byte} (hs : BlockOk s)
    (ha : s.abort = false) (hD : DrivesDec s c D) (hf : D.fault = false) (hb : D.buf = some b)
    (hl : b.len = target s.cfg D) (hn : bs.length ≤ D.missing) :
    exec (.decFill c bs) s = .next (answered .ok .nothing
      (setDec c { D with received := D.received + bs.length
                         missing := D.missing - bs.length
                         driver := some s.agent }
        (storeBytes b D.received bs (claimDec c D s)))) := by
  have hcount := (hs.decOk hD.1).count
  have hw := memWrite_of_live (hs.claimDec hD.1).pool (hs.decBuf hD.1 hb) (off := D.received) (bs := bs)
    (by simp only; omega)
  refine (unlessAborted_withDec ha hD _).trans ?_
  simp only at hw
  simp only [unlessFaulted, hf, hb, Bool.false_eq_true, if_false, claimDec_cfg, target_mk, if_pos (And.intro hl hn), hw,
    Res.bind_ok]
  rfl

/-- Settles O31, by the two equations of `DEC.FILL`. -/
theorem fillStoresTheNextBytes : Obligations.FillStoresTheNextBytes :=
  fun _ _ _ _ hs ha hD => ⟨exec_decFill_refused ha hD, fun _ => exec_decFill_stores hs ha hD⟩

/-! ### `DEC.NEXT_FRAME` -/

/-- R191: faulted, `DEC.NEXT_FRAME` answers `MALFORMED_HEADER`. -/
theorem exec_decNextFrame_faulted {s : State} {c : Nat} {D : DecState} (ha : s.abort = false) (hD : DrivesDec s c D)
    (hf : D.fault = true) :
    exec (.decNextFrame c) s = .next (answered .malformedHeader .nothing (claimDec c D s)) := by
  refine (unlessAborted_withDec ha hD _).trans ?_
  simp only [hf, if_true]
  rfl

/-- R190: while bytes are missing, `DEC.NEXT_FRAME` answers how many. -/
theorem exec_decNextFrame_incomplete {s : State} {c : Nat} {D : DecState} (ha : s.abort = false) (hD : DrivesDec s c D)
    (hf : D.fault = false) (hm : 0 < D.missing) :
    exec (.decNextFrame c) s = .next (answered .needBytes (.count D.missing) (claimDec c D s)) := by
  refine (unlessAborted_withDec ha hD _).trans ?_
  simp only [hf, Bool.false_eq_true, if_false, if_pos hm]
  rfl

/-- R190: six bytes received are read as a header. -/
theorem exec_decNextFrame_parses {s : State} {c : Nat} {D : DecState} {b : Slice} (hs : BlockOk s)
    (ha : s.abort = false) (hD : DrivesDec s c D) (hf : D.fault = false) (hm : D.missing = 0) (hb : D.buf = some b)
    (hp : D.phase = .ah) :
    exec (.decNextFrame c) s = conclude (parsePhase c { D with driver := some s.agent } (bytesAt s b 0 headerSize)
      { claimDec c D s with free := s.free + headerSize }) := by
  have hin := ((hs.decOk hD.1).within b hb).1
  rw [(hs.decOk hD.1).received_header hp hm] at hin
  have hr := memRead_of_live (hs.claimDec hD.1).pool (hs.decBuf hD.1 hb) (off := 0) (n := headerSize)
    (by simp only; omega)
  refine (unlessAborted_withDec ha hD _).trans ?_
  simp only at hr
  simp only [hf, hm, hb, hp, Bool.false_eq_true, if_false, lt_irrefl, hr, Res.bind_ok]
  rfl

/-- R281: a frame built on the buffer of a decoder, which is as issued, holds it as what it is. -/
theorem frameHolder_decBuf {s t : State} (hs : BlockOk s) {c : Nat} {D : DecState} {b : Slice}
    (hD : s.decs[c]? = some D) (hb : D.buf = some b) (hl : t.live = s.live) (kind : FrameKind) (off len : Nat) :
    frameHolder kind b off len t = .frame t.agent kind off len :=
  frameHolder_issued (hl ▸ hs.holders.decHas c D b hD hb) kind off len

/-- R193: a complete payload is a standard frame. -/
theorem exec_decNextFrame_std {s : State} {c : Nat} {D : DecState} {b : Slice} (hs : BlockOk s)
    (ha : s.abort = false) (hD : DrivesDec s c D) (hf : D.fault = false) (hm : D.missing = 0) (hb : D.buf = some b)
    (hp : D.phase = .ap) :
    ∃ g : Header, exec (.decNextFrame c) s = .next (answered .ok
      (.frame { kind := .std D.hdr, buf := b, payOff := 6, payLen := D.hdr.msgLength.toNat })
      (setHolder b.id (.frame s.agent (.std D.hdr) 6 D.hdr.msgLength.toNat)
        (setDec c { D with hdr := g, buf := none, received := 0, phase := .ah, missing := 6, driver := some s.agent }
          { claimDec c D s with free := s.free + 1 }))) := by
  refine ⟨headerOfWord (Config.freeHeader s.free), (unlessAborted_withDec ha hD _).trans ?_⟩
  simp only [hf, hm, hb, hp, Bool.false_eq_true, if_false, lt_irrefl, giveToFrame]
  rw [frameHolder_decBuf hs hD.1 hb (by rfl)]
  rfl

/-- R195: a complete handshake blob is a handshake frame. -/
theorem exec_decNextFrame_hs {s : State} {c : Nat} {D : DecState} {b : Slice} (hs : BlockOk s)
    (ha : s.abort = false) (hD : DrivesDec s c D) (hf : D.fault = false) (hm : D.missing = 0) (hb : D.buf = some b)
    (hp : D.phase = .ahs) :
    exec (.decNextFrame c) s = .next (answered .ok
      (.frame { kind := .hs, buf := b, payOff := 0, payLen := s.cfg.handshakeLen })
      (setHolder b.id (.frame s.agent .hs 0 s.cfg.handshakeLen)
        (setDec c { D with buf := none, received := 0, missing := s.cfg.handshakeLen, driver := some s.agent }
          (claimDec c D s)))) := by
  refine (unlessAborted_withDec ha hD _).trans ?_
  simp only [hf, hm, hb, hp, Bool.false_eq_true, if_false, lt_irrefl, giveToFrame]
  rw [frameHolder_decBuf hs hD.1 hb (by rfl)]
  rfl

/-- Settles O33, by the equation of each arm; the six bytes of the `AH` arm are those of the header that they are read
as. -/
theorem nextFrameFollowsThePhase : Obligations.NextFrameFollowsThePhase := by
  refine fun s c D hs ha hD => ⟨exec_decNextFrame_faulted ha hD, exec_decNextFrame_incomplete ha hD, fun hf hm => ?_⟩
  obtain ⟨b, hb⟩ := Option.ne_none_iff_exists'.1 (hs.buf_of_complete hD.1 hm)
  refine ⟨b, hb, fun hp => ?_, exec_decNextFrame_std hs ha hD hf hm hb, exec_decNextFrame_hs hs ha hD hf hm hb⟩
  obtain ⟨h, hh⟩ := exists_headerOfBytes (bs := bytesAt s b 0 headerSize) (by simp)
  have hx := exec_decNextFrame_parses hs ha hD hf hm hb hp
  simp only [parsePhase, hh] at hx
  refine ⟨h, hs.stored_header hD.1 hb hp hm hh, fun hlong => hx.trans ?_, fun hfits => hx.trans ?_⟩
  · rw [if_pos (by exact hlong)]; rfl
  · rw [if_neg (by exact Nat.not_lt.2 hfits)]; rfl

end Sys2Proof.Machine
end

section
/-! The phase of a decoder (spec/43_decoder.md R181; spec/10_state.md R31): which operations move it, and from where to
where. -/

namespace Sys2Proof.Machine

/-- R181: where `i` may move the phase of decoder `c`, which is `D` before and `E` after. -/
def PhaseMove (i : Instr) (c : Nat) (D E : DecState) : Prop :=
  E.phase = D.phase ∨
  (i = .decNextFrame c ∧ D.fault = false ∧ D.missing = 0 ∧
    ((D.phase = .ah ∧ E.phase = .ap ∧ E.missing = E.hdr.msgLength.toNat) ∨
     (D.phase = .ap ∧ E.phase = .ah ∧ E.missing = 6))) ∨
  (∃ m, i = .decSetMode c m ∧ D.fault = false ∧ D.received = 0 ∧ E.phase = startPhase m) ∨
  (i = .decReset c ∧ E.phase = .ah)

/-- The decoder of connection `c`, if there is one, is one to which `i` may move the phase from `D`. -/
def MovedFrom (i : Instr) (c : Nat) (D : DecState) (s : State) : Prop := ∀ E, s.decs[c]? = some E → PhaseMove i c D E

theorem MovedFrom.setDec {i : Instr} {c : Nat} {D E : DecState} (h : PhaseMove i c D E) (s : State) :
    MovedFrom i c D (Machine.setDec c E s) := by
  intro F hF
  obtain ⟨-, rfl⟩ := (getElem?_set_cases hF).resolve_right fun h => h.1 rfl
  exact h

theorem MovedFrom.setDec_samePhase {i : Instr} {c : Nat} {D E : DecState} (h : E.phase = D.phase) (s : State) :
    MovedFrom i c D (Machine.setDec c E s) := MovedFrom.setDec (.inl h) s

/-- Only the replacement of a decoder touches the decoders. -/
theorem decs_stable (Q : List DecState → Prop) : Stable fun s => Q s.decs where
  ends _ _ _ h := h
  free _ _ h := h
  enc _ _ _ h := h
  holder _ _ _ h := h
  length _ _ _ h := h
  store _ x off bs h := (storeBytes_decs x off bs _).symm ▸ h
  acquire _ len who h := (acquire_decs len who _).symm ▸ h
  release _ _ _ h hr := by
    obtain ⟨-, -, -, -, -, hd, -⟩ := release_frame hr
    exact hd.symm ▸ h

theorem movedFrom_stable (i : Instr) (c : Nat) (D : DecState) : Stable (MovedFrom i c D) :=
  decs_stable fun l => ∀ E, l[c]? = some E → PhaseMove i c D E

/-- A `DEC` operation moves the phase where its own part does, after the claim of the decoder. -/
theorem phaseMove_of_withDec {i : Instr} {s t : State} {c : Nat} {D E : DecState} {k : DecState → State → Res Response}
    (hx : unlessAborted s (fun s => withDec c s k) = .next t) (hD : s.decs[c]? = some D) (hE : t.decs[c]? = some E)
    (hk : MovedFrom i c D (claimDec c D s) →
      Keeps (MovedFrom i c D) (k { D with driver := some s.agent } (claimDec c D s))) : PhaseMove i c D E := by
  have hkeep := hk (MovedFrom.setDec_samePhase (by rfl) s)
  rcases conclude_eq_next.1 (withDec_next hx hD) with ⟨a, u, e, rfl⟩ | ⟨u, e, rfl⟩
  · exact hkeep.1 a u e E hE
  · exact hkeep.2 u e E hE

/-- R184: `DEC.WRITABLE` replaces the buffer alone. -/
theorem execDecWritable_phaseMove {s t : State} {c : Nat} {D E : DecState} (hx : execDecWritable c s = .next t)
    (hD : s.decs[c]? = some D) (hE : t.decs[c]? = some E) : PhaseMove (.decWritable c) c D E := by
  refine phaseMove_of_withDec hx hD hE fun h => Keeps.unlessFaulted h fun _ => ?_
  split
  · exact Keeps.ok (MovedFrom.setDec_samePhase (by rfl) _)
  · split
    · split
      · exact Keeps.ok (MovedFrom.setDec_samePhase (by rfl) _)
      · exact (movedFrom_stable _ c D).reallocate (D := { D with driver := some s.agent }) h
          (fun _ u _ => MovedFrom.setDec_samePhase (by rfl) u) _
    · exact Keeps.ok h

/-- R186: `DEC.FILL` moves the counters alone. -/
theorem execDecFill_phaseMove {s t : State} {c : Nat} {D E : DecState} {bs : List Byte}
    (hx : execDecFill c bs s = .next t) (hD : s.decs[c]? = some D) (hE : t.decs[c]? = some E) :
    PhaseMove (.decFill c bs) c D E := by
  refine phaseMove_of_withDec hx hD hE fun h => Keeps.unlessFaulted h fun _ => ?_
  split
  · exact Keeps.ok h
  · split
    · exact ((movedFrom_stable _ c D).memWrite h _ _ _).bind fun _ u _ =>
        Keeps.ok (MovedFrom.setDec_samePhase (by rfl) u)
    · exact Keeps.ok h

/-- R190: `DEC.NEXT_FRAME` with nothing missing goes from `AH` to `AP`, if the header fits, and from `AP` to `AH`. -/
theorem execDecNextFrame_phaseMove {s t : State} {c : Nat} {D E : DecState} (hx : execDecNextFrame c s = .next t)
    (hD : s.decs[c]? = some D) (hE : t.decs[c]? = some E) : PhaseMove (.decNextFrame c) c D E := by
  have hP := movedFrom_stable (.decNextFrame c) c D
  refine phaseMove_of_withDec hx hD hE fun h => ?_
  split
  · exact Keeps.ok h
  · rename_i hf
    split
    · exact Keeps.ok h
    · rename_i hm
      have hmoves : ∀ F, (D.phase = .ah ∧ F.phase = .ap ∧ F.missing = F.hdr.msgLength.toNat) ∨
          (D.phase = .ap ∧ F.phase = .ah ∧ F.missing = 6) → ∀ u, MovedFrom (.decNextFrame c) c D (setDec c F u) :=
        fun F hF => MovedFrom.setDec (.inr (.inl ⟨rfl, by simpa using hf, Nat.eq_zero_of_not_pos hm, hF⟩))
      split
      · exact Keeps.fault
      · split
        · rename_i hp
          refine (hP.memRead h _ _ _).bind fun bs u h => ?_
          unfold parsePhase
          split
          · exact Keeps.ok h
          · split
            · exact Keeps.ok (MovedFrom.setDec_samePhase (by rfl) _)
            · exact Keeps.ok (hmoves _ (.inl ⟨hp, rfl, rfl⟩) _)
        · rename_i hp
          exact hP.giveToFrame (hmoves _ (.inr ⟨hp, rfl, rfl⟩) _) _ _ _ _
        · exact hP.giveToFrame (MovedFrom.setDec_samePhase (by rfl) _) _ _ _ _

/-- R224: `DEC.SET_MODE` between units, if not faulted, goes to the phase of the mode. -/
theorem execDecSetMode_phaseMove {s t : State} {c : Nat} {m : Mode} {D E : DecState}
    (hx : execDecSetMode c m s = .next t) (hD : s.decs[c]? = some D) (hE : t.decs[c]? = some E) :
    PhaseMove (.decSetMode c m) c D E := by
  refine phaseMove_of_withDec hx hD hE fun h => Keeps.unlessFaulted h fun hf => ?_
  split
  · exact Keeps.ok h
  · rename_i hr
    exact ((movedFrom_stable _ c D).releaseHeld h _).bind fun _ u _ =>
      Keeps.ok (MovedFrom.setDec (.inr (.inr (.inl ⟨m, rfl, hf, Nat.eq_zero_of_not_pos hr, rfl⟩))) u)

/-- R226: `DEC.RESET` goes to `AH`. -/
theorem execDecReset_phaseMove {s t : State} {c : Nat} {D E : DecState} (hx : execDecReset c s = .next t)
    (hD : s.decs[c]? = some D) (hE : t.decs[c]? = some E) : PhaseMove (.decReset c) c D E :=
  phaseMove_of_withDec hx hD hE fun h => ((movedFrom_stable _ c D).releaseHeld h _).bind fun _ _ _ =>
    Keeps.ok (MovedFrom.setDec (.inr (.inr (.inr ⟨rfl, rfl⟩))) _)

/-- R181: every operation moves the phase of a decoder as the table says, if at all; one that does not name the decoder
leaves it. -/
theorem exec_phaseMove {i : Instr} {s t : State} {c : Nat} {D E : DecState} (hx : exec i s = .next t)
    (hD : s.decs[c]? = some D) (hE : t.decs[c]? = some E) : PhaseMove i c D E := by
  by_cases hi : decOf i = some c
  · cases i <;> simp only [decOf, reduceCtorEq, Option.some.injEq] at hi <;> subst hi
    case decWritable => exact execDecWritable_phaseMove hx hD hE
    case decFill => exact execDecFill_phaseMove hx hD hE
    case decNextFrame => exact execDecNextFrame_phaseMove hx hD hE
    case decSetMode => exact execDecSetMode_phaseMove hx hD hE
    case decReset => exact execDecReset_phaseMove hx hD hE
    case decStatus => exact phaseMove_of_withDec hx hD hE fun h => Keeps.ok h
  · rw [(Apart.exec hx).decs c hi, hD] at hE
    cases hE
    exact .inl rfl

/-- Settles O34, by `exec_phaseMove`. -/
theorem phaseMovesOnlyAsTheTableSays : Obligations.PhaseMovesOnlyAsTheTableSays :=
  fun _ _ _ _ _ _ hx hD hE hne => (exec_phaseMove hx hD hE).resolve_left hne

end Sys2Proof.Machine
end

section
/-! The caller's decode loop (spec/43_decoder.md R187, R196): what a decoder in the middle of a unit has received, and
how each operation of the loop takes it on to the frame. -/

namespace Sys2Proof.Machine

/-! ### Sequences of operations -/

theorem execAll_cons {i : Instr} {s t : State} (h : exec i s = .next t) (is : List Instr) :
    execAll (i :: is) s = execAll is t := by
  simp only [execAll, h]

theorem execAll_singleton (i : Instr) (s : State) : execAll [i] s = exec i s := by
  simp only [execAll]
  cases exec i s <;> rfl

/-- A run of operations that ends in a state goes on from that state. -/
theorem execAll_append {is : List Instr} {s t : State} (h : execAll is s = .next t) (js : List Instr) :
    execAll (is ++ js) s = execAll js t := by
  induction is generalizing s with
  | nil => cases h; rfl
  | cons i is ih =>
    cases hi : exec i s with
    | next u =>
      rw [execAll_cons hi] at h
      rw [List.cons_append, execAll_cons hi, ih h]
    | fault f => simp [execAll, hi] at h
    | refused r => simp [execAll, hi] at h

theorem decodeLoop_append (c : Nat) (rs rs' : List (List (List Byte))) :
    decodeLoop c (rs ++ rs') = decodeLoop c rs ++ decodeLoop c rs' := by simp [decodeLoop]

theorem delivered_cons (r : List (List Byte)) (rs : List (List (List Byte))) :
    delivered (r :: rs) = r.flatten ++ delivered rs := by simp [delivered]

theorem delivered_append (rs rs' : List (List (List Byte))) :
    delivered (rs ++ rs') = delivered rs ++ delivered rs' := by simp [delivered]

/-! ### In the middle of a unit -/

/-- R27, R187: decoder `c` is `D`, which the agent drives and which is not faulted, and it has received the bytes `got`
of a unit. -/
structure Receiving (k : Config) (c : Nat) (got : List Byte) (s : State) (D : DecState) : Prop where
  ok : BlockOk s
  cfg : s.cfg = k
  abort : s.abort = false
  drives : DrivesDec s c D
  fault : D.fault = false
  received : D.received = got.length
  stored : ∀ b, D.buf = some b → ∀ i < got.length, storedByte s b i = got[i]?

/-- `E` is the decoder `D` after `n` more bytes of the same phase of the same unit. -/
structure Advanced (n : Nat) (D E : DecState) : Prop where
  phase : E.phase = D.phase
  hdr : E.hdr = D.hdr
  missing : E.missing + n = D.missing

theorem Advanced.trans {m n : Nat} {D E F : DecState} (h : Advanced m D E) (h' : Advanced n E F) :
    Advanced (m + n) D F :=
  ⟨h'.phase.trans h.phase, h'.hdr.trans h.hdr, by have := h.missing; have := h'.missing; omega⟩

theorem Advanced.target_eq {n : Nat} {D E : DecState} (h : Advanced n D E) (k : Config) : target k E = target k D := by
  simp only [target, h.phase, h.hdr]

section Receiving

variable {k : Config} {c : Nat} {got : List Byte} {s : State} {D : DecState}

/-- R29: what is received and what is missing make the target. -/
theorem Receiving.count (h : Receiving k c got s D) : got.length + D.missing = target k D := by
  have := (h.ok.decOk h.drives.1).count
  rwa [h.received, h.cfg] at this

/-- R187: `DEC.WRITABLE` opens the window. -/
theorem Receiving.writable (h : Receiving k c got s D) :
    ∃ t E b, exec (.decWritable c) s = .next t ∧ Receiving k c got t E ∧ Advanced 0 D E ∧ E.buf = some b ∧
      b.len = target k D := by
  obtain ⟨t, b, hx, hcfg, hab, hag, hdec, hlen, hstored⟩ := exec_decWritable_window h.ok h.abort h.drives h.fault
  refine ⟨t, _, b, hx, ⟨h.ok.exec hx, hcfg.trans h.cfg, hab, ⟨hdec, .inr (by rw [hag])⟩, h.fault, h.received, ?_⟩,
    ⟨rfl, rfl, rfl⟩, rfl, h.cfg ▸ hlen⟩
  rintro _ ⟨⟩ i hi
  rw [← h.received] at hi
  cases hb : D.buf with
  | none =>
    have := (h.ok.decOk h.drives.1).empty hb
    omega
  | some b₀ => rw [hstored b₀ hb i hi, h.stored b₀ hb i (h.received ▸ hi)]

/-- R186: `DEC.FILL` inside the window. -/
theorem Receiving.fill (h : Receiving k c got s D) {b : Slice} (hb : D.buf = some b) (hl : b.len = target k D)
    {bs : List Byte} (hn : bs.length ≤ D.missing) :
    ∃ t E, exec (.decFill c bs) s = .next t ∧ Receiving k c (got ++ bs) t E ∧ Advanced bs.length D E ∧
      E.buf = some b := by
  have hx := exec_decFill_stores h.ok h.abort h.drives h.fault hb (h.cfg ▸ hl) hn
  have hst := storedByte_storeBytes_self (h.ok.claimDec h.drives.1).memory (h.ok.claimDec h.drives.1).pool
    (h.ok.decBuf h.drives.1 hb) D.received bs
  have hag := storeBytes_agent b D.received bs (claimDec c D s)
  refine ⟨_, { D with received := D.received + bs.length, missing := D.missing - bs.length, driver := some s.agent },
    hx, ⟨h.ok.exec hx, (storeBytes_cfg ..).trans h.cfg, (storeBytes_abort ..).trans h.abort,
      ⟨?_, .inr (congrArg some hag.symm)⟩, h.fault, ?_, ?_⟩, ⟨rfl, rfl, Nat.sub_add_cancel hn⟩, hb⟩
  · exact getElem?_set_same ((congrArg (·[c]?) (storeBytes_decs ..)).trans (getElem?_set_same h.drives.1))
  · simp only [h.received, List.length_append]
  · intro g hg i hi
    obtain rfl := Option.some.inj (hb.symm.trans hg)
    refine (hst i).trans ?_
    rw [List.length_append] at hi
    rw [h.received]
    split
    · rw [List.getElem?_append_right (by omega)]
    · rw [List.getElem?_append_left (by omega)]
      exact h.stored b hb i (by omega)

/-- R186, R187: any number of fills inside the window. -/
theorem Receiving.fills (h : Receiving k c got s D) {b : Slice} (hb : D.buf = some b) (hl : b.len = target k D)
    {fills : List (List Byte)} (hn : fills.flatten.length ≤ D.missing) :
    ∃ t E, execAll (fills.map (.decFill c)) s = .next t ∧ Receiving k c (got ++ fills.flatten) t E ∧
      Advanced fills.flatten.length D E := by
  induction fills generalizing s D got with
  | nil => exact ⟨s, D, rfl, by simpa using h, rfl, rfl, rfl⟩
  | cons bs fills ih =>
    rw [List.flatten_cons, List.length_append] at hn
    obtain ⟨t, E, hx, hE, hadv, hEb⟩ := h.fill hb hl (bs := bs) (by omega)
    have hm := hadv.missing
    obtain ⟨u, F, hy, hF, hadv'⟩ := ih hE hEb (by rw [hadv.target_eq, hl]) (by omega)
    refine ⟨u, F, (execAll_cons hx _).trans hy, ?_, ?_⟩
    · simpa using hF
    · simpa using hadv.trans hadv'

/-- R187: the part of a round before its `DEC.NEXT_FRAME`. -/
theorem Receiving.window (h : Receiving k c got s D) {fills : List (List Byte)}
    (hn : fills.flatten.length ≤ D.missing) :
    ∃ t E, (∀ is, execAll (decodeRound c fills ++ is) s = execAll (.decNextFrame c :: is) t) ∧
      Receiving k c (got ++ fills.flatten) t E ∧ Advanced fills.flatten.length D E := by
  obtain ⟨t, E, b, hx, hE, hadv, hb, hl⟩ := h.writable
  have hm := hadv.missing
  obtain ⟨u, F, hy, hF, hadv'⟩ := hE.fills hb (by rw [hadv.target_eq, hl]) (fills := fills) (by omega)
  refine ⟨u, F, fun is => ?_, hF, by simpa using hadv.trans hadv'⟩
  rw [decodeRound, List.cons_append, execAll_cons hx, List.append_assoc, execAll_append hy]
  rfl

/-- R190: while bytes are missing, `DEC.NEXT_FRAME` answers how many. -/
theorem Receiving.incomplete (h : Receiving k c got s D) (hm : 0 < D.missing) :
    ∃ t E, exec (.decNextFrame c) s = .next t ∧ Receiving k c got t E ∧ Advanced 0 D E ∧
      t.resp = some { status := .needBytes, result := .count E.missing } := by
  have hx := exec_decNextFrame_incomplete h.abort h.drives h.fault hm
  exact ⟨_, { D with driver := some s.agent }, hx, ⟨h.ok.exec hx, h.cfg, h.abort,
    ⟨getElem?_set_same h.drives.1, .inr rfl⟩, h.fault, h.received, h.stored⟩, ⟨rfl, rfl, rfl⟩, rfl⟩

/-- R187, R196: rounds that do not bring all that is missing, each answered with what is still missing. -/
theorem Receiving.rounds (h : Receiving k c got s D) {rs : List (List (List Byte))}
    (hn : rs ≠ [] → (delivered rs).length < D.missing) :
    ∃ t E, execAll (decodeLoop c rs) s = .next t ∧ Receiving k c (got ++ delivered rs) t E ∧
      Advanced (delivered rs).length D E ∧
      ((rs = [] → s.resp = some { status := .needBytes, result := .count D.missing }) →
        t.resp = some { status := .needBytes, result := .count E.missing }) := by
  induction rs generalizing s D got with
  | nil => exact ⟨s, D, rfl, by simpa [delivered] using h, ⟨rfl, rfl, rfl⟩, fun h => h rfl⟩
  | cons r rs ih =>
    replace hn := hn (List.cons_ne_nil r rs)
    rw [delivered_cons, List.length_append] at hn
    obtain ⟨t, E, hx, hE, hadv⟩ := h.window (fills := r) (by omega)
    have hm := hadv.missing
    obtain ⟨u, F, hy, hF, hadv', hr⟩ := hE.incomplete (by omega)
    have hm' := hadv'.missing
    obtain ⟨v, G, hz, hG, hadv'', hr'⟩ := ih hF fun _ => by omega
    refine ⟨v, G, (hx _).trans ((execAll_cons hy _).trans hz), by simpa [delivered_cons] using hG, ?_,
      fun _ => hr' fun _ => hr⟩
    simpa [delivered_cons] using (hadv.trans hadv').trans hadv''

/-- R196: rounds that bring some bytes are the last one and those before it, which do not bring them all. -/
theorem Brings.split_last {rounds : List (List (List Byte))} {bs : List Byte} (h : Brings rounds bs)
    (hne : rounds ≠ []) : ∃ init last, rounds = init ++ [last] ∧ bs = delivered init ++ last.flatten ∧
      (init ≠ [] → (delivered init).length < bs.length) := by
  have heq := (List.dropLast_append_getLast hne).symm
  refine ⟨rounds.dropLast, rounds.getLast hne, heq, ?_, fun hi => ?_⟩
  · rw [← h.bytes]
    conv_lhs => rw [heq]
    simp [delivered]
  · rw [List.dropLast_eq_take]
    have hlen := List.length_pos_iff.2 hi
    rw [List.length_dropLast] at hlen
    exact h.last _ (by omega) hlen

/-- R187, R196: rounds that bring all that is missing; their last `DEC.NEXT_FRAME` finds nothing missing. -/
theorem Receiving.allRounds (h : Receiving k c got s D) {rounds : List (List (List Byte))} {bs : List Byte}
    (hb : Brings rounds bs) (hne : rounds ≠ []) (hm : D.missing = bs.length) :
    ∃ t E, execAll (decodeLoop c rounds) s = exec (.decNextFrame c) t ∧ Receiving k c (got ++ bs) t E ∧
      Advanced bs.length D E := by
  obtain ⟨init, last, rfl, rfl, hinit⟩ := hb.split_last hne
  obtain ⟨t, E, hx, hE, hadv, -⟩ := h.rounds (rs := init) fun hi => hm ▸ hinit hi
  have hm' := hadv.missing
  rw [List.length_append] at hm
  obtain ⟨u, F, hy, hF, hadv'⟩ := hE.window (fills := last) (by omega)
  refine ⟨u, F, ?_, by simpa using hF, by simpa using hadv.trans hadv'⟩
  calc execAll (decodeLoop c (init ++ [last])) s
      = execAll (decodeRound c last ++ []) t := by rw [decodeLoop_append, execAll_append hx]; simp [decodeLoop]
    _ = exec (.decNextFrame c) u := by rw [hy, execAll_singleton]

/-! ### The arms of `DEC.NEXT_FRAME` with nothing missing -/

/-- R192: six bytes of a header that fits are answered with the payload's length. -/
theorem Receiving.header {h : Header} (hr : Receiving k c (headerBytes h) s D) (hp : D.phase = .ah) (hm : D.missing = 0)
    (hmax : h.msgLength.toNat ≤ k.maxMsg) :
    ∃ t E, exec (.decNextFrame c) s = .next t ∧ Receiving k c (headerBytes h) t E ∧ E.phase = .ap ∧ E.hdr = h ∧
      E.missing = h.msgLength.toNat ∧ t.resp = some { status := .needBytes, result := .count E.missing } := by
  obtain ⟨-, -, harms⟩ := nextFrameFollowsThePhase s c D hr.ok hr.abort hr.drives
  obtain ⟨b, hb, hah, -⟩ := harms hr.fault hm
  obtain ⟨g, hg, -, hx⟩ := hah hp
  obtain rfl : g = h := headerBytes_injective (List.ext_getElem? fun i => by
    rcases Nat.lt_or_ge i 6 with hi | hi
    · rw [← hg i hi, hr.stored b hb i hi]
    · rw [List.getElem?_eq_none hi, List.getElem?_eq_none hi])
  replace hx := hx (hr.cfg ▸ hmax)
  refine ⟨_, { D with hdr := g, phase := .ap, missing := g.msgLength.toNat, driver := some s.agent }, hx,
    ⟨hr.ok.exec hx, hr.cfg, hr.abort, ⟨?_, .inr rfl⟩, hr.fault, hr.received, hr.stored⟩, rfl, rfl, rfl, rfl⟩
  exact getElem?_set_same (getElem?_set_same hr.drives.1)

/-- R193, R195, R281: the decoder's buffer, handed on, is held by its frame. -/
theorem findLive_handedOn {l : List LiveEntry} {b : Slice} {who : Holder} (hl : findLive l b.id = some ⟨b, who⟩)
    (who' : Holder) : findLive (mapLive l b.id fun e => { e with holder := who' }) b.id = some ⟨b, who'⟩ := by
  rw [findLive_mapLive l b.id (fun e => { e with holder := who' }) fun _ => rfl, hl]
  simp

/-- R193: a complete payload is answered with its frame. -/
theorem Receiving.stdFrame (h : Receiving k c got s D) (hp : D.phase = .ap) (hm : D.missing = 0) :
    ∃ t b E, exec (.decNextFrame c) s = .next t ∧
      t.resp = some ⟨.ok, .frame { kind := .std D.hdr, buf := b, payOff := 6, payLen := D.hdr.msgLength.toNat }⟩ ∧
      (∀ i < got.length, storedByte t b i = got[i]?) ∧
      OwnsFrame t { kind := .std D.hdr, buf := b, payOff := 6, payLen := D.hdr.msgLength.toNat } ∧
      t.decs[c]? = some E ∧ E.phase = .ah ∧ E.received = 0 ∧ E.missing = 6 ∧ E.buf = none := by
  obtain ⟨b, hb⟩ := Option.ne_none_iff_exists'.1 (h.ok.buf_of_complete h.drives.1 hm)
  obtain ⟨g, hx⟩ := exec_decNextFrame_std h.ok h.abort h.drives h.fault hm hb hp
  exact ⟨_, b, _, hx, rfl, h.stored b hb, findLive_handedOn (h.ok.holders.decHas c D b h.drives.1 hb) _,
    getElem?_set_same (getElem?_set_same h.drives.1), rfl, rfl, rfl, rfl⟩

/-- R195: a complete handshake blob is answered with its frame. -/
theorem Receiving.hsFrame (h : Receiving k c got s D) (hp : D.phase = .ahs) (hm : D.missing = 0) :
    ∃ t b, exec (.decNextFrame c) s = .next t ∧
      t.resp = some ⟨.ok, .frame { kind := .hs, buf := b, payOff := 0, payLen := k.handshakeLen }⟩ ∧
      (∀ i < got.length, storedByte t b i = got[i]?) ∧
      OwnsFrame t { kind := .hs, buf := b, payOff := 0, payLen := k.handshakeLen } := by
  obtain ⟨b, hb⟩ := Option.ne_none_iff_exists'.1 (h.ok.buf_of_complete h.drives.1 hm)
  have hx := exec_decNextFrame_hs h.ok h.abort h.drives h.fault hm hb hp
  rw [h.cfg] at hx
  exact ⟨_, b, hx, rfl, h.stored b hb, findLive_handedOn (h.ok.holders.decHas c D b h.drives.1 hb) _⟩

/-! ### From one frame boundary to the next -/

/-- R27, R196: a decoder at a frame boundary has received nothing of a unit. -/
theorem receiving_nothing (hs : BlockOk s) (ha : s.abort = false) (hD : DrivesDec s c D) (hf : D.fault = false)
    (hr : D.received = 0) : Receiving s.cfg c [] s D :=
  ⟨hs, rfl, ha, hD, hf, hr, by simp⟩

/-- R192, R196: the rounds of a header are answered, at their end, with the payload's length. -/
theorem Receiving.headerRounds (hr : Receiving k c [] s D) (hp : D.phase = .ah) {h : Header}
    (hmax : h.msgLength.toNat ≤ k.maxMsg) {hs : List (List (List Byte))} (hb : Brings hs (headerBytes h)) :
    ∃ t E, execAll (decodeLoop c hs) s = .next t ∧ Receiving k c (headerBytes h) t E ∧ E.phase = .ap ∧ E.hdr = h ∧
      E.missing = h.msgLength.toNat ∧ t.resp = some { status := .needBytes, result := .count E.missing } := by
  have hm : D.missing = (headerBytes h).length := by simpa [target, hp] using hr.count
  have hne : hs ≠ [] := by
    rintro rfl
    cases hb.bytes
  obtain ⟨t, E, hx, hE, hadv⟩ := hr.allRounds hb hne hm
  have hm' := hadv.missing
  obtain ⟨u, F, hy, hF⟩ := hE.header (hadv.phase.trans hp) (by omega) hmax
  exact ⟨u, F, hx.trans hy, hF⟩

/-- R192, R196: the rounds of a payload, where an empty one may get none, end in a `DEC.NEXT_FRAME` that finds nothing
missing. -/
theorem Receiving.payloadRounds (hr : Receiving k c got s D) {ps : List (List (List Byte))} {pay : List Byte}
    (hb : Brings ps pay) (hm : D.missing = pay.length) :
    ∃ t E, execAll (decodeLoop c ps ++ if ps = [] then [.decNextFrame c] else []) s = exec (.decNextFrame c) t ∧
      Receiving k c (got ++ pay) t E ∧ Advanced pay.length D E := by
  by_cases hps : ps = []
  · subst hps
    obtain rfl : [] = pay := hb.bytes
    exact ⟨s, D, execAll_singleton _ s, by simpa using hr, rfl, rfl, rfl⟩
  · rw [if_neg hps, List.append_nil]
    exact hr.allRounds hb hps hm

/-- R187, R196: rounds of a phase without the last one do not bring all its bytes; of no bytes there are none such. -/
theorem Brings.take_lt {rounds : List (List (List Byte))} {bs : List Byte} (hb : Brings rounds bs) {j : Nat}
    (hj : j < max 1 rounds.length) (hne : rounds.take j ≠ []) : (delivered (rounds.take j)).length < bs.length := by
  have h0 : 0 < j := Nat.pos_of_ne_zero fun h => hne (by simp [h])
  exact hb.last j (by omega) h0

/-- R196: the loop cut short of the last round of a phase: each round was answered with what the phase still lacks. -/
theorem Receiving.cutRounds (hr : Receiving k c got s D) {rounds : List (List (List Byte))} {bs : List Byte}
    (hb : Brings rounds bs) (hm : D.missing = bs.length) {j : Nat} (hj : j < max 1 rounds.length)
    (h0 : rounds.take j = [] → s.resp = some { status := .needBytes, result := .count D.missing }) :
    ∃ u E, execAll (decodeLoop c (rounds.take j)) s = .next u ∧
      u.resp = some { status := .needBytes, result := .count E.missing } ∧ u.decs[c]? = some E ∧ E.phase = D.phase ∧
      E.missing + (delivered (rounds.take j)).length = bs.length := by
  obtain ⟨u, E, hx, hE, hadv, hresp⟩ := hr.rounds fun hne => hm ▸ hb.take_lt hj hne
  exact ⟨u, E, hx, hresp h0, hE.drives.1, hadv.phase, hadv.missing.trans hm⟩

end Receiving

/-- Settles O59: the header's rounds, then the payload's, then the frame; and the loop cut short in either phase. -/
theorem decoderReassemblesAnyChunking : Obligations.DecoderReassemblesAnyChunking := by
  intro s c D h pay hs ps hok ha hD hp hrec hf hmax hlen hbh hbp
  have h0 := receiving_nothing hok ha hD hf hrec
  have h6 : D.missing = (headerBytes h).length := by simpa [target, hp] using h0.count
  obtain ⟨t, E, hx, hE, hEp, hEh, hEm, hresp⟩ := h0.headerRounds hp hmax hbh
  rw [← hlen] at hEm
  refine ⟨?_, fun k hk hlt => ?_⟩
  · obtain ⟨u, F, hy, hF, hadv⟩ := hE.payloadRounds hbp hEm
    have hm := hadv.missing
    obtain ⟨v, b, G, hz, hv, hst, hown, hG⟩ := hF.stdFrame (hadv.phase.trans hEp) (by omega)
    rw [hadv.hdr, hEh, ← hlen] at hv hown
    refine ⟨v, b, G, ?_, hv, fun i hi => hst i (by simpa [headerSize] using hi), hown, hG⟩
    rw [frameLoop, decodeLoop_append, List.append_assoc, execAll_append hx, hy, hz]
  · rcases Nat.lt_or_ge k hs.length with hks | hks
    · have hne : hs.take k ≠ [] := by rw [Ne, List.take_eq_nil_iff, ← List.length_eq_zero_iff]; omega
      obtain ⟨u, F, hy, hr, hF, hFp, hm⟩ := h0.cutRounds hbh h6 (j := k) (by omega) fun h => absurd h hne
      rw [List.take_append_of_le_length hks.le]
      exact ⟨u, F, _, hy, hr, hF, fun _ => ⟨hFp.trans hp, hm⟩, fun h => by omega, fun h => by omega⟩
    · obtain ⟨j, rfl⟩ := Nat.exists_eq_add_of_le hks
      obtain ⟨u, F, hy, hr, hF, hFp, hm⟩ := hE.cutRounds hbp hEm (j := j) (by omega) fun _ => hresp
      rw [List.take_append, List.take_of_length_le (by omega), Nat.add_sub_cancel_left, decodeLoop_append,
        execAll_append hx, delivered_append, hbh.bytes, List.length_append, headerBytes_length, headerSize]
      refine ⟨u, F, _, hy, hr, hF, fun h => by omega, fun _ => ⟨hFp.trans hEp, by omega⟩, fun h => ?_⟩
      obtain rfl : j = 0 := by omega
      simpa [delivered] using hm

end Sys2Proof.Machine
end

section
/-! The round trip (spec/43_decoder.md R197; spec/42_frame.md R167): the output of `ENC.ENCODE` read through its view
and brought to a decoder. -/

namespace Sys2Proof.Machine

/-! ### Stored bytes as a list -/

/-- R64: where all bytes have been written, they are the ones read. -/
theorem map_some_bytesAt {s : State} {h : Slice} {off n : Nat} (hw : ∀ i < n, (storedByte s h (off + i)).isSome) :
    (bytesAt s h off n).map some = (List.range n).map fun i => storedByte s h (off + i) := by
  simp only [bytesAt, List.map_map]
  refine List.map_congr_left fun i hi => ?_
  obtain ⟨x, hx⟩ := Option.isSome_iff_exists.1 (hw i (List.mem_range.1 hi))
  simp [hx]

/-- R37: a frame whose payload bytes are `bs`. -/
theorem payloadStored_eq_map_some {s : State} {f : Frame} {bs : List Byte} (hlen : f.payLen = bs.length)
    (h : ∀ i < bs.length, storedByte s f.buf (f.payOff + i) = bs[i]?) : payloadStored s f = bs.map some := by
  refine List.ext_getElem? fun i => ?_
  rcases Nat.lt_or_ge i bs.length with hi | hi
  · simp [payloadStored, hlen, hi, h i hi]
  · simp [payloadStored, hlen, hi]

theorem length_payloadStored (s : State) (f : Frame) : (payloadStored s f).length = f.payLen := by simp [payloadStored]

theorem wireStored_std {f : Frame} {h : Header} (s : State) (hk : f.kind = .std h) :
    wireStored s f = (headerBytes h).map some ++ payloadStored s f := by
  simp only [wireStored, hk, payloadStored]

theorem wireStored_hs {f : Frame} (s : State) (hk : f.kind = .hs) : wireStored s f = payloadStored s f := by
  simp only [wireStored, hk, payloadStored, List.nil_append]

/-- R210: where the payload has been written, so have all bytes of the wire form. -/
theorem isSome_of_mem_wireStored {s : State} {f : Frame}
    (hw : ∀ i, i < f.payLen → (storedByte s f.buf (f.payOff + i)).isSome) {x : Option Byte} (hx : x ∈ wireStored s f) :
    x.isSome := by
  have hpay : x ∈ payloadStored s f → x.isSome := fun hx => by
    obtain ⟨i, hi, rfl⟩ := List.mem_map.1 hx
    exact hw i (List.mem_range.1 hi)
  cases hk : f.kind with
  | std h =>
    rw [wireStored_std s hk, List.mem_append] at hx
    refine hx.elim (fun hx => ?_) hpay
    obtain ⟨b, -, rfl⟩ := List.mem_map.1 hx
    rfl
  | hs => exact hpay (wireStored_hs s hk ▸ hx)

/-! ### `ENC.ENCODE` of a frame whose payload has been written -/

/-- R210: the scratch buffer, chosen and written, is another slice than the frame's and holds the frame's wire form. -/
theorem BlockOk.wroteOutput {s t u : State} (hs : BlockOk s) {c : Nat} {E : EncState} (hE : s.encs[c]? = some E)
    {f : Frame} {b : Slice} (ho : OwnsFrame s f)
    (hw : ∀ i, i < f.payLen → (storedByte s f.buf (f.payOff + i)).isSome)
    (h1 : scratch c (wireLength s.cfg f) E s = .ok b t) (h2 : writeFrame b f t = .ok () u) :
    b.len = wireLength s.cfg f ∧ b.id ≠ f.buf.id ∧
      (List.range (wireLength s.cfg f)).map (storedByte u b) = wireStored s f := by
  obtain ⟨t', b', h1', hst, htE, hlen, -, htc, -, -, -, -, hkeep, -⟩ := scratch_ok hs hE (wireLength s.cfg f)
  obtain ⟨rfl, rfl⟩ : b = b' ∧ t = t' := by simpa [h1] using h1'
  have hb : (⟨b, .enc c⟩ : LiveEntry) ∈ t.live := hst.encBuf (htE ▸ getElem?_set_same hE) rfl
  have hm := (findLive_some ho).1
  obtain ⟨hm', hbytes⟩ := hkeep _ hm (hs.encBuf_ne hE hm (by simp))
  have hne : f.buf.id ≠ b.id := fun h => by have := hst.sameId hm' hb h; simp at this
  have hshape := hs.frameShape ho
  have hsame : ∀ i < f.payLen, storedByte t f.buf (f.payOff + i) = storedByte s f.buf (f.payOff + i) := fun i hi =>
    hbytes _ (by have := hshape.1; have := hs.lenCap hm; simp only at this ⊢; omega)
  obtain ⟨u', h2', -, -, -, -, -, -, -, -, -, -, -, -, -, hout⟩ :=
    writeFrame_ok hst hb (htc ▸ hlen) (.inl ⟨_, hm', hne, htc ▸ hshape⟩)
  obtain rfl : u = u' := by simpa [h2] using h2'
  refine ⟨hlen, hne.symm, ?_⟩
  rw [← htc, hout (live_not_corrupt hst.pool hm') fun i hi => hsame i hi ▸ hw i hi]
  exact congrArg _ (List.map_congr_left fun i hi => hsame i (List.mem_range.1 hi))

/-- R210, R212: the answer is a view of the scratch buffer, which holds the frame's wire form. -/
theorem exec_encEncode_written {s : State} {c : Nat} {E : EncState} {f : Frame} (hs : BlockOk s) (ha : s.abort = false)
    (hE : DrivesEnc s c E) (ho : OwnsFrame s f)
    (hw : ∀ i, i < f.payLen → (storedByte s f.buf (f.payOff + i)).isSome) :
    ∃ t b, exec (.encEncode c f) s = .next t ∧
      t.resp = some ⟨.ok, .view ⟨b, 0, wireLength s.cfg f, E.outputs + 1⟩⟩ ∧
      t.encs[c]? = some ⟨some b, wireLength s.cfg f, E.outputs + 1, some s.agent⟩ ∧ b.len = wireLength s.cfg f ∧
      t.abort = false ∧ (List.range (wireLength s.cfg f)).map (storedByte t b) = wireStored s f := by
  have hE' : (claimEnc c E s).encs[c]? = some { E with driver := some s.agent } := getElem?_set_same hE.1
  have hu := hs.claimEnc hE.1
  have ho' : OwnsFrame (claimEnc c E s) f := ho
  obtain ⟨b, v, u, h1, h2, hwrote⟩ := hu.wroteFrame hE' (.inl ho')
  obtain ⟨hlen, hne, hout⟩ := hu.wroteOutput hE' ho' hw h1 h2
  have hm := (findLive_some ho').1
  obtain ⟨w, h3⟩ := release_of_live hwrote.ok.pool (hwrote.live _ hm (hu.encBuf_ne hE' hm (by simp)))
  obtain ⟨-, -, -, -, hab, -, hes, hcfg, -⟩ := release_frame h3
  have hx : exec (.encEncode c f) s = .next (answered .ok (.view ⟨b, 0, wireLength w.cfg f, E.outputs + 1⟩)
      (setEnc c ⟨some b, wireLength w.cfg f, E.outputs + 1, some s.agent⟩ w)) := by
    simp only at h3
    simp only [exec, execEncEncode, unlessAborted_of ha, withEnc_of hE, useFrame_owned ho', Res.bind_ok, h1, h2, h3]
    rfl
  rw [show w.cfg = s.cfg from hcfg.trans hwrote.cfg] at hx
  refine ⟨_, b, hx, rfl, ?_, hlen, hab.trans (hwrote.abort.trans ha), ?_⟩
  · exact getElem?_set_same ((congrArg (·[c]?) (hes.trans hwrote.encs)).trans (getElem?_set_same hE'))
  · exact (List.map_congr_left fun i _ => storedByte_release h3 hne i).trans hout

/-- R99: no operation changes the agent. -/
theorem agent_stable (a : Nat) : Stable fun s => s.agent = a where
  ends _ _ _ h := h
  free _ _ h := h
  enc _ _ _ h := h
  holder _ _ _ h := h
  length _ _ _ h := h
  store _ _ _ _ h := (storeBytes_agent ..).trans h
  acquire _ _ _ h := (acquire_agent ..).trans h
  release _ _ _ h hr := by
    obtain ⟨-, -, -, -, -, -, -, -, -, hag, -⟩ := release_frame hr
    exact hag.trans h

/-- R132, R210, R212: a frame encoded, and its output read through the view: the bytes are the frame's wire form, and
the agent still drives the decoders it drove. -/
theorem encode_then_read {s : State} {c : Nat} {E : EncState} {f : Frame} (hs : BlockOk s) (ha : s.abort = false)
    (hE : DrivesEnc s c E) (ho : OwnsFrame s f)
    (hw : ∀ i, i < f.payLen → (storedByte s f.buf (f.payOff + i)).isSome) :
    ∃ t v u out, exec (.encEncode c f) s = .next t ∧ t.resp = some ⟨.ok, .view v⟩ ∧
      exec (.poolRd (.view v) 0 v.len) t = .next u ∧ u.resp = some ⟨.ok, .bytes out⟩ ∧
      out.map some = wireStored s f ∧ BlockOk u ∧ u.abort = false ∧ u.cfg = s.cfg ∧
      ∀ d D, DrivesDec s d D → DrivesDec u d D := by
  obtain ⟨t, b, hx, hr, htE, hlen, hab, hout⟩ := exec_encEncode_written hs ha hE ho hw
  have ht := hs.exec hx
  have hcfg : t.cfg = s.cfg := (cfg_stable s.cfg).exec (fun _ _ _ _ _ _ h => h) rfl hx
  have hag : t.agent = s.agent := (agent_stable s.agent).exec (fun _ _ _ _ _ _ h => h) rfl hx
  have hy := exec_poolRd_view (v := ⟨b, 0, wireLength s.cfg f, E.outputs + 1⟩) ht hab
    (ht.holders.encHas c _ b htE rfl) (by simp [isLastView, htE]) (off := 0) (n := wireLength s.cfg f) (by simp)
    (by simp [hlen])
  refine ⟨t, _, _, _, hx, hr, hy, rfl, ?_, ht.exec hy, hab, hcfg, fun d D hD => ⟨?_, hag ▸ hD.2⟩⟩
  · rw [map_some_bytesAt, ← hout]
    · simp
    · intro i hi
      exact isSome_of_mem_wireStored hw (hout ▸ List.mem_map.2 ⟨i, List.mem_range.2 hi, by simp⟩)
  · exact ((Apart.exec hx).decs d (by simp [decOf])).trans hD.1

/-! ### The two kinds of frames -/

/-- R197: the wire form of a standard frame, brought to a decoder that awaits a header. -/
theorem decode_std {s u : State} {d : Nat} {D : DecState} {f : Frame} {h : Header} {out : List Byte}
    (hs : BlockOk s) (ho : OwnsFrame s f) (hout : out.map some = wireStored s f) (hk : f.kind = .std h)
    (hu : Receiving s.cfg d [] u D) (hp : D.phase = .ah) (hmax : h.msgLength.toNat ≤ s.cfg.maxMsg)
    {hs' ps : List (List (List Byte))} (hbh : Brings hs' (out.take 6)) (hbp : Brings ps (out.drop 6)) :
    ∃ w g, execAll (frameLoop d hs' ps) u = .next w ∧ w.resp = some ⟨.ok, .frame g⟩ ∧ OwnsFrame w g ∧
      SameFrame s f w g := by
  have hshape := hs.frameShape ho
  rw [hk] at hshape
  rw [wireStored_std s hk] at hout
  have hhdr : out.take 6 = headerBytes h := by
    refine List.map_injective_iff.2 (Option.some_injective _) ?_
    rw [List.map_take, hout, List.take_left' (by simp [headerSize])]
  have hpay : (out.drop 6).map some = payloadStored s f := by
    rw [List.map_drop, hout, List.drop_left' (by simp [headerSize])]
  have hlen : (out.drop 6).length = f.payLen := by
    rw [← length_payloadStored s f, ← hpay, List.length_map]
  obtain ⟨⟨w, b, -, hx, hr, hst, hown, -⟩, -⟩ := decoderReassemblesAnyChunking u d D h (out.drop 6) hs' ps hu.ok
    hu.abort hu.drives hp hu.received hu.fault (hu.cfg ▸ hmax) (hlen.trans hshape.2.1) (hhdr ▸ hbh) hbp
  refine ⟨w, _, hx, hr, hown, hk, ?_⟩
  rw [← hpay]
  refine (payloadStored_eq_map_some rfl fun i hi => ?_).symm
  refine (hst (6 + i) (by omega)).trans ?_
  rw [List.getElem?_append_right (by simp [headerSize])]
  simp [headerSize]

/-- R197: the wire form of a handshake frame, brought to a decoder in handshake mode. -/
theorem decode_hs {s u : State} {d : Nat} {D : DecState} {f : Frame} {out : List Byte} (hs : BlockOk s)
    (ho : OwnsFrame s f) (hout : out.map some = wireStored s f) (hk : f.kind = .hs) (hu : Receiving s.cfg d [] u D)
    (hp : D.phase = .ahs) {hs' : List (List (List Byte))} (hb : Brings hs' out) :
    ∃ w g, execAll (decodeLoop d hs') u = .next w ∧ w.resp = some ⟨.ok, .frame g⟩ ∧ OwnsFrame w g ∧
      SameFrame s f w g := by
  have hshape := hs.frameShape ho
  rw [hk] at hshape
  rw [wireStored_hs s hk] at hout
  have hlen : out.length = s.cfg.handshakeLen := by
    rw [← hshape.2.2, ← length_payloadStored s f, ← hout, List.length_map]
  have hm : D.missing = out.length := by simpa [target, hp, hlen] using hu.count
  have hne : hs' ≠ [] := by
    rintro rfl
    obtain rfl : [] = out := hb.bytes
    have := hs.cfg.handshake.1
    simp at hlen
    omega
  obtain ⟨t, F, hx, hF, hadv⟩ := hu.allRounds hb hne hm
  have hm' := hadv.missing
  obtain ⟨w, b, hy, hr, hst, hown⟩ := hF.hsFrame (hadv.phase.trans hp) (by omega)
  refine ⟨w, _, hx.trans hy, hr, hown, hk, ?_⟩
  rw [← hout]
  exact (payloadStored_eq_map_some hlen.symm fun i hi => by simpa using hst i hi).symm

/-- Settles O60: the bytes read from the output are the frame's wire form, and each kind of decoder gives it back. -/
theorem roundTripGivesTheFrameBack : Obligations.RoundTripGivesTheFrameBack := by
  intro s c d E D f hs ha hE hD hrec hfault ho hw
  obtain ⟨t, v, u, out, hx, hr, hy, hr', hout, hu, hab, hcfg, hdrives⟩ := encode_then_read hs ha hE ho hw
  have hrecv := hcfg ▸ receiving_nothing hu hab (hdrives d D hD) hfault hrec
  exact ⟨t, v, u, out, hx, hr, hy, hr', fun h hs' ps hk hmax hp => decode_std hs ho hout hk hrecv hp hmax,
    fun hs' hk hp => decode_hs hs ho hout hk hrecv hp⟩

end Sys2Proof.Machine
end

section
/-! `POOL.RD` through a view whose time is over (spec/70_reset_and_hazards.md R284, R285; U12; log 13): of an output that
its encoder has since replaced, and of a slice that is dead. -/

namespace Sys2Proof.Machine

/-- U12, R212: a view of an encoder's scratch buffer, as issued but for the length, that is not of the last output. -/
theorem useView_stale {s : State} {v : View} {c m : Nat}
    (hl : findLive s.live v.slice.id = some { slice := { v.slice with len := m }, holder := .enc c })
    (hp : placeOf s.cfg v.slice.idx ≠ .corrupt) (hv : m ≠ v.slice.len ∨ isLastView s (.enc c) v = false) :
    useView v s = .ok .stale s := by
  have hn : ¬ (v.slice = { v.slice with len := m } ∧ isLastView s (.enc c) v = true) := fun ⟨h1, h2⟩ =>
    hv.elim (fun hm => hm (congrArg Slice.len h1).symm) fun h => by simp [h] at h2
  simp only [useView, hl, if_neg (not_or.2 ⟨hp, hn⟩), if_true]

/-- U12: inside such a view and its slice, `POOL.RD` answers free values. -/
theorem exec_poolRd_stale {s : State} {v : View} {off n : Nat} (ha : s.abort = false)
    (hu : useView v s = .ok .stale s) (hin : off + n ≤ v.len) (hin' : v.off + off + n ≤ v.slice.len) :
    ∃ bs, bs.length = n ∧
      exec (.poolRd (.view v) off n) s = .next (answered .ok (.bytes bs) { s with free := s.free + n }) := by
  refine ⟨(List.range n).map fun i => Config.freeByte (s.free + i), by simp, ?_⟩
  simp only [exec, execPoolRd, unlessAborted_of ha, hu, Res.bind_ok, if_pos (And.intro hin hin'), freeBytes]
  rfl

/-- R63, R132: beyond such a view or its slice, `POOL.RD` is refused. -/
theorem exec_poolRd_stale_beyond {s : State} {v : View} {off n : Nat} (ha : s.abort = false)
    (hu : useView v s = .ok .stale s) (hout : v.len < off + n ∨ v.slice.len < v.off + off + n) :
    exec (.poolRd (.view v) off n) s = .next (answered .refused .nothing s) := by
  have hn : ¬ (off + n ≤ v.len ∧ v.off + off + n ≤ v.slice.len) := by omega
  simp only [exec, execPoolRd, unlessAborted_of ha, hu, Res.bind_ok, if_neg hn]
  rfl

/-- U3, R284: `POOL.RD` through a view of a dead slice is a fault. -/
theorem exec_poolRd_view_notLive {s : State} {v : View} (ha : s.abort = false) (hl : findLive s.live v.slice.id = none)
    (off n : Nat) : exec (.poolRd (.view v) off n) s = .fault .notLive := by
  simp only [exec, execPoolRd, unlessAborted_of ha, useView_notLive hl, Res.bind_fault, conclude_fault]

/-- Settles O20: the view is found stale, and `POOL.RD` reads free values through it or is refused; or its slice is found
dead. -/
theorem endedViewsReadAnyBytesOrFault : Obligations.EndedViewsReadAnyBytesOrFault :=
  ⟨fun _ _ _ _ _ _ ha hl hp hv =>
    ⟨exec_poolRd_stale_beyond ha (useView_stale hl hp hv), exec_poolRd_stale ha (useView_stale hl hp hv)⟩,
    fun _ _ off n ha hl => exec_poolRd_view_notLive ha hl off n⟩

end Sys2Proof.Machine
end

section
/-! What `ENC.ENCODE` answers and leaves (spec/44_encoder.md R210, R211, R214): the scratch buffer it chooses, and the
steps of the operation in one equation. -/

namespace Sys2Proof.Machine

/-- R127: what a decoder or encoder held, released without a fault or an abort, has been given back. -/
theorem gaveBack_of_releaseHeld {held : Option Slice} {s u : State} (hr : releaseHeld held s = .ok () u) :
    GaveBack held s u := by
  cases held with
  | none =>
    cases hr
    exact ⟨fun _ => rfl, nofun, nofun⟩
  | some h =>
    change release h s = .ok () u at hr
    rcases release_cases h s with ⟨-, e⟩ | ⟨-, ⟨hp, e⟩ | ⟨hp, e⟩ | ⟨-, e⟩⟩ <;> rw [e] at hr <;> cases hr
    · refine ⟨nofun, ?_, ?_⟩ <;> rintro _ ⟨⟩ hi
      · rfl
      · exact absurd (placeOf_heap.1 hp) hi
    · refine ⟨nofun, ?_, ?_⟩ <;> rintro _ ⟨⟩ hi
      · exact absurd hi (placeOf_pool.1 hp).1
      · rfl

/-- R210, R211, R214(f): the scratch buffer `b` that encoder `c`, which is `E`, uses for an output of `need` bytes, chosen
in the state `s`: the old one while that is large enough, else a new one, acquired once the old one is given back. -/
structure ScratchChosen (s : State) (c : Nat) (E : EncState) (need : Nat) (b : Slice) : Prop where
  len : b.len = need
  reused : ∀ o, E.buf = some o → need ≤ o.cap → b = { o with len := need }
  replaced : ∀ o, E.buf = some o → o.cap < need → b.id = freshId s
  first : E.buf = none → b.id = freshId s
  acquired : (∀ o, E.buf = some o → o.cap < need) →
    ∃ u, GaveBack E.buf s u ∧ b = (acquire need (.enc c) u).1

/-- R210, R211: what the scratch buffer is, and that one it replaces is dead. -/
theorem BlockOk.scratchChosen {s t : State} (hs : BlockOk s) {c need : Nat} {E : EncState} (hE : s.encs[c]? = some E)
    {b : Slice} (h : scratch c need E s = .ok b t) :
    ScratchChosen s c E need b ∧ ∀ o, E.buf = some o → o.cap < need → findLive t.live o.id = none := by
  obtain ⟨t', b', h', -, -, hlen, -, -, -, -, -, -, -, hfirst, hreused, hreplaced, hacq⟩ := scratch_ok hs hE need
  obtain ⟨rfl, rfl⟩ : b = b' ∧ t = t' := by simpa [h] using h'
  refine ⟨⟨hlen, hreused, fun o ho hlt => (hreplaced o ho hlt).1, hfirst, fun hsmall => ?_⟩,
    fun o ho hlt => (hreplaced o ho hlt).2.2⟩
  obtain ⟨u, hu, hb⟩ := hacq hsmall
  exact ⟨u, gaveBack_of_releaseHeld hu, hb⟩

/-- R210: writing the output makes no slice live or dead. -/
theorem writeFrame_live {s t : State} {b : Slice} {f : Frame} (h : writeFrame b f s = .ok () t) : t.live = s.live := by
  have hwrite : ∀ u off bs, u.live = s.live → Keeps (·.live = s.live) (memWrite b off bs u) := fun _ _ _ hu =>
    Keeps.memWrite _ _ _ ((storeBytes_live ..).trans hu)
  have hread : ∀ u off n, u.live = s.live → Keeps (·.live = s.live) (readPayload f off n u) := fun _ _ _ hu =>
    Keeps.readPayload (fun _ => hu) _ _ _
  have hkeeps : Keeps (·.live = s.live) (writeFrame b f s) := by
    unfold writeFrame
    split
    · exact (hwrite _ _ _ rfl).bind fun _ _ hu => (hread _ _ _ hu).bind fun _ _ hv => hwrite _ _ _ hv
    · exact (hread _ _ _ rfl).bind fun _ _ hu => hwrite _ _ _ hu
  exact hkeeps.1 () t h

/-- R210, R214: `ENC.ENCODE` of the agent's own frame: the scratch buffer is chosen, the output written, the frame's
buffer released, and the view of the output answered. -/
theorem exec_encEncode_owned {s : State} {c : Nat} {E : EncState} {f : Frame} (hs : BlockOk s) (ha : s.abort = false)
    (hE : DrivesEnc s c E) (ho : OwnsFrame s f) :
    ∃ b t u v, scratch c (wireLength s.cfg f) { E with driver := some s.agent } (claimEnc c E s) = .ok b t ∧
      writeFrame b f t = .ok () u ∧ release f.buf u = .ok () v ∧
      v.encs[c]? = some { E with buf := some b, driver := some s.agent } ∧
      exec (.encEncode c f) s = .next (answered .ok (.view ⟨b, 0, wireLength s.cfg f, E.outputs + 1⟩)
        (setEnc c ⟨some b, wireLength s.cfg f, E.outputs + 1, some s.agent⟩ v)) := by
  have hE' : (claimEnc c E s).encs[c]? = some { E with driver := some s.agent } := getElem?_set_same hE.1
  have hu := hs.claimEnc hE.1
  have ho' : OwnsFrame (claimEnc c E s) f := ho
  obtain ⟨b, t, u, h1, h2, hw⟩ := hu.wroteFrame hE' (.inl ho')
  have hm := (findLive_some ho').1
  obtain ⟨v, h3⟩ := release_of_live hw.ok.pool (hw.live _ hm (hu.encBuf_ne hE' hm (by simp)))
  obtain ⟨-, -, -, -, -, -, hes, hcfg, -⟩ := release_frame h3
  have hcfg' : v.cfg = s.cfg := hcfg.trans hw.cfg
  refine ⟨b, t, u, v, h1, h2, h3, by rw [hes, hw.encs, getElem?_set_same hE'], ?_⟩
  simp only at h3
  simp only [exec, execEncEncode, unlessAborted_of ha, withEnc_of hE, useFrame_owned ho', Res.bind_ok, h1, h2, h3,
    hcfg']
  rfl

/-- Settles O39: the equation of the operation, what the scratch buffer chosen is, and, where the payload has been
written, the bytes of the output. -/
theorem encodeWritesHeaderAndPayload : Obligations.EncodeWritesHeaderAndPayload := by
  intro s c E f hs ha hE ho
  have hE' : (claimEnc c E s).encs[c]? = some { E with driver := some s.agent } := getElem?_set_same hE.1
  obtain ⟨b, t, u, v, h1, h2, h3, hvE, hx⟩ := exec_encEncode_owned hs ha hE ho
  obtain ⟨hb, hdead⟩ := (hs.claimEnc hE.1).scratchChosen hE' h1
  obtain ⟨hlive, -⟩ := release_frame h3
  have hnew : (setEnc c ⟨some b, wireLength s.cfg f, E.outputs + 1, some s.agent⟩ v).encs[c]? = some _ :=
    getElem?_set_same hvE
  refine ⟨_, b, hx, rfl, hnew, hb.len, (hs.exec hx).holders.encHas c _ b hnew rfl, ?_, hb.reused,
    fun o hbuf hlt => ⟨?_, hb.replaced o hbuf hlt⟩, hb.first, hb.acquired, fun hw => ?_⟩
  · show findLive v.live f.buf.id = none
    rw [hlive, findLive_dropLive, if_pos rfl]
  · show findLive v.live o.id = none
    rw [hlive, findLive_dropLive, writeFrame_live h2, hdead o hbuf hlt, ite_self]
  · obtain ⟨t', b', hx', hr, -, -, -, hout⟩ := exec_encEncode_written hs ha hE ho hw
    cases hx.symm.trans hx'
    cases hr
    exact hout

/-! ### R213: what the output depends on -/

/-- R167, R210: frames that are the same have the same wire form. -/
theorem SameFrame.wireStored_eq {s t : State} {f g : Frame} (h : SameFrame s f t g) :
    wireStored s f = wireStored t g := by
  obtain ⟨hkind, hpay⟩ := h
  cases hk : f.kind with
  | std hdr => rw [wireStored_std s hk, wireStored_std t (hkind ▸ hk), hpay]
  | hs => rw [wireStored_hs s hk, wireStored_hs t (hkind ▸ hk), hpay]

/-- R93, R94: the wire length rests on the kind of the frame and the handshake length. -/
theorem wireLength_congr {c d : Config} {f g : Frame} (hkind : f.kind = g.kind)
    (hlen : c.handshakeLen = d.handshakeLen) : wireLength c f = wireLength d g := by
  simp only [wireLength, hkind, hlen]

/-- R37: that a payload has been written is said by its bytes as stored. -/
theorem payload_written_iff (s : State) (f : Frame) :
    (∀ i, i < f.payLen → (storedByte s f.buf (f.payOff + i)).isSome) ↔ ∀ x ∈ payloadStored s f, x.isSome := by
  simp [payloadStored]

/-- Settles O41: each output is the wire form of its frame, and frames that are the same have the same wire form. -/
theorem encodeIsDeterministic : Obligations.EncodeIsDeterministic := by
  intro s1 s2 t1 t2 c1 c2 E1 E2 f1 f2 hs1 hs2 ha1 ha2 hhs hE1 hE2 ho1 ho2 hsame hw1 hx1 hx2
  have hw2 := (payload_written_iff s2 f2).2 (hsame.2 ▸ (payload_written_iff s1 f1).1 hw1)
  obtain ⟨u1, b1, hy1, hr1, -, -, -, hout1⟩ := exec_encEncode_written hs1 ha1 hE1 ho1 hw1
  obtain ⟨u2, b2, hy2, hr2, -, -, -, hout2⟩ := exec_encEncode_written hs2 ha2 hE2 ho2 hw2
  cases hx1.symm.trans hy1
  cases hx2.symm.trans hy2
  rw [← wireLength_congr hsame.1 hhs] at hr2 hout2
  exact ⟨b1, b2, _, _, _, hr1, hr2, hout1.trans (hsame.wireStored_eq.trans hout2.symm)⟩

end Sys2Proof.Machine
end

section
/-! The control operations of a decoder and an encoder and the status operations (spec/45_system.md R221 to R231): the
equation of each on the connection that the agent drives, and what giving a buffer back leaves live. -/

namespace Sys2Proof.Machine

/-- R280: an `ENC` operation goes on with the encoder that its agent drives. -/
theorem unlessAborted_withEnc {s : State} {c : Nat} {E : EncState} (ha : s.abort = false) (hE : DrivesEnc s c E)
    (k : EncState → State → Res Response) :
    unlessAborted s (fun s => withEnc c s k) = conclude (k { E with driver := some s.agent } (claimEnc c E s)) := by
  rw [unlessAborted_of ha, withEnc_of hE]

/-! ### Giving a buffer back -/

/-- R28(d), R127: what the decoder that the agent drives holds can be released once the decoder is claimed. -/
theorem BlockOk.giveBack_dec {s : State} (hs : BlockOk s) {c : Nat} {D : DecState} (hD : DrivesDec s c D) :
    ∃ u, releaseHeld D.buf (Machine.claimDec c D s) = .ok () u ∧ GaveBack D.buf (Machine.claimDec c D s) u ∧
      u.cfg = s.cfg := by
  obtain ⟨u, hu, hcfg, -⟩ := (hs.claimDec hD.1).releaseHeld_dec (getElem?_set_same hD.1)
  exact ⟨u, hu, gaveBack_of_releaseHeld hu, hcfg⟩

/-- R30, R127: what the encoder that the agent drives holds can be released once the encoder is claimed. -/
theorem BlockOk.giveBack_enc {s : State} (hs : BlockOk s) {c : Nat} {E : EncState} (hE : DrivesEnc s c E) :
    ∃ u, releaseHeld E.buf (Machine.claimEnc c E s) = .ok () u ∧ GaveBack E.buf (Machine.claimEnc c E s) u := by
  obtain ⟨u, hu, -⟩ := (hs.claimEnc hE.1).releaseHeld_enc (getElem?_set_same hE.1)
  exact ⟨u, hu, gaveBack_of_releaseHeld hu⟩

/-- R127: giving a buffer back makes its handle dead, and no other. -/
theorem GaveBack.findLive_live {held : Option Slice} {s u : State} (h : GaveBack held s u) (id : Nat) :
    findLive u.live id = if held.map Slice.id = some id then none else findLive s.live id := by
  cases held with
  | none => rw [h.nothing rfl]; rfl
  | some b =>
    have hlive : u.live = dropLive s.live b.id := by
      by_cases hi : b.idx = s.cfg.untracked
      · rw [h.heap b rfl hi]
      · rw [h.slot b rfl hi]
    simp [hlive, findLive_dropLive, eq_comm]

/-! ### `DEC.SET_MODE` and `DEC.RESET` -/

/-- R191, R224: in mid-unit, or faulted, `DEC.SET_MODE` is refused. -/
theorem exec_decSetMode_refused {s : State} {c : Nat} {D : DecState} (m : Mode) (ha : s.abort = false)
    (hD : DrivesDec s c D) (h : D.fault = true ∨ 0 < D.received) :
    exec (.decSetMode c m) s = .next (answered .refused .nothing (claimDec c D s)) := by
  refine (unlessAborted_withDec ha hD _).trans ?_
  rw [unlessFaulted]
  split
  case isTrue => rfl
  case isFalse hf =>
    rw [if_pos (h.resolve_left hf)]
    rfl

/-- R224, R225: between units `DEC.SET_MODE` gives the buffer back and starts a unit of the new mode. -/
theorem exec_decSetMode_sets {s u : State} {c : Nat} {D : DecState} (m : Mode) (ha : s.abort = false)
    (hD : DrivesDec s c D) (hf : D.fault = false) (hr : D.received = 0)
    (hu : releaseHeld D.buf (claimDec c D s) = .ok () u) :
    exec (.decSetMode c m) s = .next (answered .ok .nothing (setDec c
      { D with buf := none, mode := m, phase := startPhase m, missing := startMissing u.cfg m,
               driver := some s.agent } u)) := by
  refine (unlessAborted_withDec ha hD _).trans ?_
  simp only [unlessFaulted, hf, hr, Bool.false_eq_true, Nat.lt_irrefl, if_false, hu, Res.bind_ok]
  rfl

/-- Settles O36: the refusal, and the equation of the other case, in which each mode has its phase and count. -/
theorem setModeOnlyAtAUnitBoundary : Obligations.SetModeOnlyAtAUnitBoundary := by
  refine fun s c D m hs ha hD => ⟨exec_decSetMode_refused m ha hD, fun hf hr => ?_⟩
  obtain ⟨u, hu, hback, hcfg⟩ := hs.giveBack_dec hD
  refine ⟨u, hback, (exec_decSetMode_sets m ha hD hf hr hu).trans ?_⟩
  rw [hcfg]
  cases m <;> rfl

/-- R226: `DEC.RESET` gives the buffer back and leaves a decoder at its reset values with a free header. -/
theorem exec_decReset {s u : State} {c : Nat} {D : DecState} (ha : s.abort = false) (hD : DrivesDec s c D)
    (hu : releaseHeld D.buf (claimDec c D s) = .ok () u) :
    exec (.decReset c) s = .next (answered .ok .nothing
      (setDecNoHeader c { DecState.reset with driver := some s.agent } u)) := by
  refine (unlessAborted_withDec ha hD _).trans ?_
  simp only [hu, Res.bind_ok]
  rfl

/-- Settles O37: the invariant has the buffer released in every state of the decoder, and the header is the free one. -/
theorem decResetRestoresResetValues : Obligations.DecResetRestoresResetValues := by
  intro s c D hs ha hD
  obtain ⟨u, hu, hback, -⟩ := hs.giveBack_dec hD
  exact ⟨u, _, hback, exec_decReset ha hD hu⟩

/-! ### `ENC.RESET` -/

/-- R230: `ENC.RESET` gives the scratch buffer back and zeroes the length of the output. -/
theorem exec_encReset {s u : State} {c : Nat} {E : EncState} (ha : s.abort = false) (hE : DrivesEnc s c E)
    (hu : releaseHeld E.buf (claimEnc c E s) = .ok () u) :
    exec (.encReset c) s = .next (answered .ok .nothing
      (setEnc c { buf := none, outLen := 0, outputs := E.outputs, driver := some s.agent } u)) := by
  refine (unlessAborted_withEnc ha hE _).trans ?_
  simp only [hu, Res.bind_ok]
  rfl

/-- Settles O42: the equation of the operation, and the one handle that giving the scratch buffer back makes dead. -/
theorem encResetGivesTheScratchBack : Obligations.EncResetGivesTheScratchBack := by
  intro s c E hs ha hE
  obtain ⟨u, hu, hback⟩ := hs.giveBack_enc hE
  refine ⟨u, hback, exec_encReset ha hE hu, fun b hb => ?_, fun e he hne => ?_⟩
  · rw [hback.findLive_live, if_pos (by rw [hb]; rfl)]
  · rw [hback.findLive_live, if_neg hne]
    exact hs.find he

/-! ### The status operations -/

/-- R221: `POOL.STATUS` answers `MASK`. -/
theorem exec_poolStatus {s : State} (ha : s.abort = false) :
    exec .poolStatus s = .next (answered .ok (.mask s.mask) s) := unlessAborted_of ha _

/-- R228: `DEC.STATUS` answers the record of the decoder that the agent drives. -/
theorem exec_decStatus {s : State} {c : Nat} {D : DecState} (ha : s.abort = false) (hD : DrivesDec s c D) :
    exec (.decStatus c) s = .next (answered .ok
      (.decStatus D.mode D.phase D.missing D.received D.buf.isSome D.fault) (claimDec c D s)) :=
  unlessAborted_withDec ha hD _

/-- R231: `ENC.STATUS` answers the record of the encoder that the agent drives. -/
theorem exec_encStatus {s : State} {c : Nat} {E : EncState} (ha : s.abort = false) (hE : DrivesEnc s c E) :
    exec (.encStatus c) s = .next (answered .ok (.encStatus E.buf.isSome E.outLen) (claimEnc c E s)) :=
  unlessAborted_withEnc ha hE _

/-- Settles O38: the equation of each status operation, and R39's bits of slots that do not exist. -/
theorem statusOperationsAnswerTheirRecord : Obligations.StatusOperationsAnswerTheirRecord :=
  ⟨rfl, fun _ => ⟨exec_poolStatus, fun hs => hs.pool.unused⟩, fun _ _ _ => exec_decStatus,
    fun _ _ _ => exec_encStatus⟩

end Sys2Proof.Machine
end

section
/-! Reset (spec/70_reset_and_hazards.md R270, R271): every element at its value of R41, no other way out of the abort,
and handle ids that stay dead (log 24). -/

namespace Sys2Proof.Machine

/-- R270: a reset at the head of the queue is the next step, of an aborted block too. -/
theorem step_of_reset {s : State} {rest : List Input} (hi : s.inbox = .reset :: rest) :
    step s = .next (resetEvent rest s) := by
  simp only [step, fetch, hi]

/-- Settles O7: a reset is the next step whatever the state, and an aborted block that is not idle has no other. -/
theorem resetPutsEveryElementAtItsValue : Obligations.ResetPutsEveryElementAtItsValue := by
  refine ⟨fun s rest hi => ⟨_, step_of_reset hi, rfl, rfl, rfl, rfl, rfl, rfl, List.length_replicate,
    List.length_replicate, fun D hD => ?_, fun E hE => ?_⟩, fun s t ha hx => ?_⟩
  · obtain rfl := List.eq_of_mem_replicate hD
    exact ⟨rfl, rfl, rfl, rfl, rfl, rfl⟩
  · obtain rfl := List.eq_of_mem_replicate hE
    exact ⟨rfl, rfl⟩
  · cases hi : s.inbox with
    | nil =>
      obtain rfl := Host.Outcome.next.inj ((step_of_inbox_nil hi).symm.trans hx)
      exact .inl ha
    | cons x rest =>
      by_cases hreset : x = .reset
      · exact .inr ⟨rest, hreset ▸ rfl⟩
      · have hstuck := abortedBlockHasNoOperation.2 s x rest ha hi hreset
        exact nomatch hstuck.symm.trans hx

/-! ### Dead handles -/

/-- R26, R271: the id has been drawn, and its handle is dead. -/
def Spent (id : Nat) (s : State) : Prop := id < freshId s ∧ findLive s.live id = none

/-- R26: an acquire draws an id of its own, and nothing else makes an id live. -/
theorem spent_stable (id : Nat) : Stable (Spent id) where
  ends _ _ _ h := h
  free _ _ h := h
  enc _ _ _ h := h
  holder s j who h := ⟨h.1, by rw [find_setHolder, h.2]; rfl⟩
  length s j n h := ⟨h.1, by rw [find_setSliceLen, h.2]; rfl⟩
  store s x off bs h := by rwa [Spent, storeBytes_freshId, storeBytes_live]
  acquire s len who h := by
    obtain ⟨hold, hdead⟩ := h
    obtain ⟨hid, -⟩ := acquire_slice len who s
    refine ⟨by rw [freshId_acquire]; omega, findLive_none.2 fun e he => ?_⟩
    rw [acquire_live, List.mem_append, List.mem_singleton] at he
    rcases he with he | rfl
    · exact findLive_none.1 hdead e he
    · exact hid ▸ hold.ne'
  release s t x h hr := by
    obtain ⟨hlive, hfresh, -⟩ := release_frame hr
    rw [Spent, hlive, hfresh, findLive_dropLive, h.2, ite_self]
    exact ⟨h.1, rfl⟩

/-- R271: a reset draws no id and leaves nothing live. -/
theorem spent_resetEvent {id : Nat} {s : State} (h : Spent id s) (rest : List Input) : Spent id (resetEvent rest s) :=
  ⟨h.1, rfl⟩

/-- R271: in a block where nothing is live every operation with a handle is the fault of a dead one. -/
theorem exec_notLive_of_live_nil {s : State} (ha : s.abort = false) (hl : s.live = []) (h : Slice) (v : View) (f : Frame)
    (off n : Nat) (bs : List Byte) (ty : BitVec 8) (e : BitVec 16) (flag : Bool) :
    (∀ i ∈ [Instr.poolRelease h, .poolWr h off bs, .poolRd (.slice h) off n, .poolRd (.view v) off n,
      .frmFromMessage h ty e flag, .frmFromHandshake h, .frmHeader f, .frmPayload f, .frmEncodedLength f, .frmDrop f],
      exec i s = .fault .notLive) ∧
    ∀ c E, DrivesEnc s c E → exec (.encEncode c f) s = .fault .notLive := by
  have hdead : ∀ id, findLive s.live id = none := fun _ => hl ▸ rfl
  have hslice := exec_slice_fault ha (useSlice_notLive (hdead h.id)) off n bs ty e flag
  have hview := exec_view_fault ha (useView_notLive (hdead v.slice.id)) off n
  obtain ⟨hframe, henc⟩ := exec_frame_fault ha (useFrame_notLive (hdead f.buf.id)) fun c E =>
    useFrame_notLive (s := claimEnc c E s) (hdead f.buf.id)
  refine ⟨?_, henc⟩
  simp only [List.forall_mem_cons] at hslice hframe ⊢
  obtain ⟨hrelease, hwr, hrd, hmessage, hhandshake, -⟩ := hslice
  exact ⟨hrelease, hwr, hrd, hview, hmessage, hhandshake, hframe⟩

/-- Settles O44: a reset leaves nothing live and every encoder without a driver, and a spent id stays one over every
step. -/
theorem handlesFromBeforeAResetStayDead : Obligations.HandlesFromBeforeAResetStayDead := by
  refine ⟨fun s rest hi => ⟨_, step_of_reset hi, rfl, fun h v f off n bs ty e flag i hmem => ?_⟩,
    fun s t id _ hx hold hdead => (spent_stable id).step (fun _ _ _ h => h) (fun _ _ _ h => h)
      (fun _ rest h => spent_resetEvent h rest) ⟨hold, hdead⟩ hx⟩
  obtain ⟨hop, henc⟩ := exec_notLive_of_live_nil (s := resetEvent rest s) rfl rfl h v f off n bs ty e flag
  exact ⟨hop i hmem, fun c hc => henc c .reset ⟨by simp [resetEvent, State.resetWith, hc], .inl rfl⟩⟩

end Sys2Proof.Machine
end

section
/-! The driver of a decoder or encoder (U8; spec/70_reset_and_hazards.md R280; log 12): a second one is a race, and a
hand-over makes the receiver the driver. -/

namespace Sys2Proof.Machine

/-- R280: a `DEC` operation on a decoder that another agent drives. -/
theorem unlessAborted_withDec_race {s : State} {c a : Nat} {D : DecState} (ha : s.abort = false)
    (hD : s.decs[c]? = some D) (hd : D.driver = some a) (hne : a ≠ s.agent) (k : DecState → State → Res Response) :
    unlessAborted s (fun s => withDec c s k) = .fault .race := by
  rw [unlessAborted_of ha]
  simp [withDec, hD, hd, hne, conclude]

/-- R280: an `ENC` operation on an encoder that another agent drives. -/
theorem unlessAborted_withEnc_race {s : State} {c a : Nat} {E : EncState} (ha : s.abort = false)
    (hE : s.encs[c]? = some E) (hd : E.driver = some a) (hne : a ≠ s.agent) (k : EncState → State → Res Response) :
    unlessAborted s (fun s => withEnc c s k) = .fault .race := by
  rw [unlessAborted_of ha]
  simp [withEnc, hE, hd, hne, conclude]

/-! ### Hand-overs -/

/-- U8: an agent hands over a decoder that it drives, or that nobody drives. -/
theorem handOver_decoder {s : State} {c a : Nat} {D : DecState} (hD : s.decs[c]? = some D)
    (hd : D.driver = none ∨ D.driver = some a) (b : Nat) :
    handOver a (.decoder c) b s = .ok () (setDec c { D with driver := some b } s) := by
  simp only [handOver, hD, if_pos hd]

theorem handOver_decoder_race {s : State} {c a d : Nat} {D : DecState} (hD : s.decs[c]? = some D)
    (hd : D.driver = some d) (hne : d ≠ a) (b : Nat) : handOver a (.decoder c) b s = .fault .race := by
  simp [handOver, hD, hd, hne]

theorem handOver_decoder_none {s : State} {c : Nat} (hD : s.decs[c]? = none) (a b : Nat) :
    handOver a (.decoder c) b s = .fault .noConnection := by
  simp only [handOver, hD]

/-- U8: an agent hands over an encoder that it drives, or that nobody drives. -/
theorem handOver_encoder {s : State} {c a : Nat} {E : EncState} (hE : s.encs[c]? = some E)
    (hd : E.driver = none ∨ E.driver = some a) (b : Nat) :
    handOver a (.encoder c) b s = .ok () (setEnc c { E with driver := some b } s) := by
  simp only [handOver, hE, if_pos hd]

theorem handOver_encoder_race {s : State} {c a d : Nat} {E : EncState} (hE : s.encs[c]? = some E)
    (hd : E.driver = some d) (hne : d ≠ a) (b : Nat) : handOver a (.encoder c) b s = .fault .race := by
  simp [handOver, hE, hd, hne]

theorem handOver_encoder_none {s : State} {c : Nat} (hE : s.encs[c]? = none) (a b : Nat) :
    handOver a (.encoder c) b s = .fault .noConnection := by
  simp only [handOver, hE]

/-- R75: a hand-over that is done is a step to the state it answers, with no response. -/
theorem step_of_handOver_done {s u : State} {a b : Nat} {item : Item} {rest : List Input} (ha : s.abort = false)
    (hi : s.inbox = .handOver a item b :: rest) (hg : handOver a item b { s with inbox := rest } = .ok () u) :
    step s = .next { u with resp := none } := by
  rw [step_of_handOver ha hi, hg, concludeEvent]

/-- R75: a hand-over that faults is a step that does. -/
theorem step_of_handOver_fault {s : State} {a b : Nat} {item : Item} {rest : List Input} {x : Fault}
    (ha : s.abort = false) (hi : s.inbox = .handOver a item b :: rest)
    (hg : handOver a item b { s with inbox := rest } = .fault x) : step s = .fault x := by
  rw [step_of_handOver ha hi, hg, concludeEvent]

/-- Settles O47: every operation on a connection asks for its driver first, and a hand-over does so too. -/
theorem secondDriverIsARace : Obligations.SecondDriverIsARace := by
  refine ⟨fun s c a D bs m ha hD hd hne => ?_, fun s c a E f ha hE hd hne => ?_,
    fun s c a b D rest ha hi hD => ⟨fun hd => ?_, fun d hd hne => ?_⟩,
    fun s c a b E rest ha hi hE => ⟨fun hd => ?_, fun d hd hne => ?_⟩,
    fun s c a b rest ha => ⟨fun hi hD => ?_, fun hi hE => ?_⟩⟩
  · have race := fun k => unlessAborted_withDec_race ha hD hd hne k
    simp only [List.forall_mem_cons]
    exact ⟨race _, race _, race _, race _, race _, race _, List.forall_mem_nil _⟩
  · have race := fun k => unlessAborted_withEnc_race ha hE hd hne k
    simp only [List.forall_mem_cons]
    exact ⟨race _, race _, race _, List.forall_mem_nil _⟩
  · exact ⟨_, step_of_handOver_done ha hi (handOver_decoder (s := { s with inbox := rest }) hD hd b),
      getElem?_set_same hD, .inr rfl⟩
  · exact step_of_handOver_fault ha hi (handOver_decoder_race (s := { s with inbox := rest }) hD hd hne b)
  · exact ⟨_, step_of_handOver_done ha hi (handOver_encoder (s := { s with inbox := rest }) hE hd b),
      getElem?_set_same hE, .inr rfl⟩
  · exact step_of_handOver_fault ha hi (handOver_encoder_race (s := { s with inbox := rest }) hE hd hne b)
  · exact step_of_handOver_fault ha hi (handOver_decoder_none (s := { s with inbox := rest }) hD a b)
  · exact step_of_handOver_fault ha hi (handOver_encoder_none (s := { s with inbox := rest }) hE a b)

end Sys2Proof.Machine
end

section
/-! A clean block (spec/70_reset_and_hazards.md R292; spec/10_state.md R39; log 26). -/

namespace Sys2Proof.Machine

/-- R39: with no live slice no slot of the eight is taken. -/
theorem PoolOk.slotTaken_of_live_nil {s : State} (hs : PoolOk s) (hl : s.live = []) {k : Nat} (h1 : 1 ≤ k)
    (h8 : k ≤ 8) : slotTaken s.mask k = false := by
  by_cases hk : k ≤ s.cfg.nSlots
  · have htaken := hs.taken k h1 hk
    simpa [hl] using htaken
  · exact hs.unused k (by omega) h8

/-- R39: with no live slice no heap buffer is left. -/
theorem PoolOk.heap_of_live_nil {s : State} (hs : PoolOk s) (hl : s.live = []) : s.heap = [] :=
  List.eq_nil_iff_forall_not_mem.2 fun b hb => by
    obtain ⟨e, he, -⟩ := hs.heapHeld b hb
    exact List.not_mem_nil (hl ▸ he)

/-- R281, R292: every live slice of a clean block is the buffer of a decoder or encoder. -/
theorem live_nil_of_clean {s : State} (hs : HoldersOk s) (hc : Clean s) (hd : ∀ D ∈ s.decs, D.buf = none)
    (he : ∀ E ∈ s.encs, E.buf = none) : s.live = [] := by
  obtain ⟨-, -, hheld⟩ := hc
  refine List.eq_nil_iff_forall_not_mem.2 fun e hmem => ?_
  obtain ⟨c, hw | hw⟩ := hheld e hmem
  · obtain ⟨D, hD, hb⟩ := hs.decHeld e hmem c hw
    simp [hd D (List.mem_of_getElem? hD)] at hb
  · obtain ⟨E, hE, hb⟩ := hs.encHeld e hmem c hw
    simp [he E (List.mem_of_getElem? hE)] at hb

/-- Settles O58: nothing is live in such a block, and `MASK` and `HEAP` follow `LIVE`. -/
theorem cleanBlockHoldsNoSlot : Obligations.CleanBlockHoldsNoSlot := by
  intro s hs hc hd he
  have hl := live_nil_of_clean hs.holders hc hd he
  exact ⟨fun k h1 h8 => hs.pool.slotTaken_of_live_nil hl h1 h8, hs.pool.heap_of_live_nil hl, hl⟩

end Sys2Proof.Machine
end
